-- ==== Sys2Proof/Word.lean ====
section
/-!
DEFINITION. The words of the control link and of the lanes: bytes, 16-bit samples, 32-bit counts, and the seat numbers.
-/
namespace Sys2Proof

/-- A character of the control link, or a byte of a frame (R189). -/
abbrev Byte := BitVec 8

/-- A signed audio sample of a lane or of an output (R104, R113). -/
abbrev Sample := BitVec 16

/-- A count that wraps from 4,294,967,295 to 0 (R4, R43, R140), or a unit serial (R164). -/
abbrev Word32 := BitVec 32

/-- Characters of a name, a title or a nameplate line, each 0x20-0x7E (R16, R20). -/
abbrev Text := List Byte

/-- A seat number, 0-63 (00_scope 4.1). -/
abbrev Seat := Fin 64

end Sys2Proof
end

