-- ==== Sys2Proof/Syntax.lean ====
section
/-!
DEFINITION. The commands of the AVK6408, one constructor per row of spec/opcode_table.json, and the types of their operands.
A request carries the tag and the payload bytes of its frame (R189, catalogue 11.8); an event carries what the outside reports.
-/
namespace Sys2Proof

/-- The two seat chains (00_scope 4.1); A holds seats 0-31, B seats 32-63. -/
inductive Chain where
  | A
  | B
  deriving DecidableEq, Repr

/-- The pairs of a chain port (R162). -/
inductive Pair where
  | control
  | lane1
  | lane2
  deriving DecidableEq, Repr

/-- The two buttons of a seat unit (R4). -/
inductive Button where
  | speak
  | aux
  deriving DecidableEq, Repr

/-- The kinds of seat unit, in the order of 1.1. -/
inductive UnitType where
  | basic
  | nameplate
  | presenter
  deriving DecidableEq, Repr

/-- The two share slots, and the two share buses (R140, R153). -/
inductive Slot where
  | one
  | two
  deriving DecidableEq, Repr

/-- A frame of the control link without its sync byte, its length and its check (R189). -/
structure Frame where
  kind : Byte
  tag : Byte
  payload : List Byte
  deriving DecidableEq, Repr

/-- The 16 samples that one lane of one chain received in an audio block (R104, R170). -/
structure LaneAudio where
  chain : Chain
  lane : Nat
  samples : List Sample
  deriving DecidableEq, Repr

/-- What a unit's response says: an enumeration exchange reads the first three fields (R164), a poll the others (R187), and
an item's exchange none of them. -/
structure UnitAnswer where
  unitType : UnitType
  serial : Word32
  endOfChain : Bool
  speakPressed : Bool
  speakPresses : Fin 4
  auxPressed : Bool
  auxPresses : Fin 4
  voice : Bool
  signal : Bool
  fault : Bool
  deriving DecidableEq, Repr

/-- The commands: 47 requests in the order of the catalogue 11.8, then the answer to an unknown kind, then the events. -/
inductive Instr where
  /-- PING, kind 0x01. -/
  | ping (tag : Byte) (payload : List Byte)
  /-- GET_INFO, kind 0x02. -/
  | getInfo (tag : Byte) (payload : List Byte)
  /-- GET_STATS, kind 0x03. -/
  | getStats (tag : Byte) (payload : List Byte)
  /-- DEVICE_RESET, kind 0x04. -/
  | deviceReset (tag : Byte) (payload : List Byte)
  /-- SET_NOTICES, kind 0x05. -/
  | setNotices (tag : Byte) (payload : List Byte)
  /-- SET_CLOCK, kind 0x08. -/
  | setClock (tag : Byte) (payload : List Byte)
  /-- GET_CLOCK, kind 0x09. -/
  | getClock (tag : Byte) (payload : List Byte)
  /-- ADD_BOOKING, kind 0x0A. -/
  | addBooking (tag : Byte) (payload : List Byte)
  /-- REMOVE_BOOKING, kind 0x0B. -/
  | removeBooking (tag : Byte) (payload : List Byte)
  /-- EXTEND_BOOKING, kind 0x0C. -/
  | extendBooking (tag : Byte) (payload : List Byte)
  /-- LIST_BOOKINGS, kind 0x0D. -/
  | listBookings (tag : Byte) (payload : List Byte)
  /-- GET_SESSION, kind 0x0E. -/
  | getSession (tag : Byte) (payload : List Byte)
  /-- CHECK_IN, kind 0x0F. -/
  | checkIn (tag : Byte) (payload : List Byte)
  /-- END_SESSION, kind 0x10. -/
  | endSession (tag : Byte) (payload : List Byte)
  /-- SET_ROOM_DEFAULTS, kind 0x11. -/
  | setRoomDefaults (tag : Byte) (payload : List Byte)
  /-- SET_STANDBY, kind 0x12. -/
  | setStandby (tag : Byte) (payload : List Byte)
  /-- WAKE, kind 0x13. -/
  | wake (tag : Byte) (payload : List Byte)
  /-- SET_SEAT, kind 0x16. -/
  | setSeat (tag : Byte) (payload : List Byte)
  /-- GET_SEAT, kind 0x17. -/
  | getSeat (tag : Byte) (payload : List Byte)
  /-- SET_ZONE, kind 0x18. -/
  | setZone (tag : Byte) (payload : List Byte)
  /-- SET_STANDING, kind 0x19. -/
  | setStanding (tag : Byte) (payload : List Byte)
  /-- SET_NAME, kind 0x1A. -/
  | setName (tag : Byte) (payload : List Byte)
  /-- GRANT, kind 0x20. -/
  | grant (tag : Byte) (payload : List Byte)
  /-- CLOSE, kind 0x21. -/
  | close (tag : Byte) (payload : List Byte)
  /-- ENQUEUE, kind 0x22. -/
  | enqueue (tag : Byte) (payload : List Byte)
  /-- DEQUEUE, kind 0x23. -/
  | dequeue (tag : Byte) (payload : List Byte)
  /-- MOVE_REQUEST, kind 0x24. -/
  | moveRequest (tag : Byte) (payload : List Byte)
  /-- GET_FLOOR, kind 0x25. -/
  | getFloor (tag : Byte) (payload : List Byte)
  /-- SET_FLOOR, kind 0x26. -/
  | setFloor (tag : Byte) (payload : List Byte)
  /-- PRIORITY_TAKE, kind 0x27. -/
  | priorityTake (tag : Byte) (payload : List Byte)
  /-- PRIORITY_RELEASE, kind 0x28. -/
  | priorityRelease (tag : Byte) (payload : List Byte)
  /-- FLOOR_RESET, kind 0x29. -/
  | floorReset (tag : Byte) (payload : List Byte)
  /-- EXTEND_SPEECH, kind 0x2A. -/
  | extendSpeech (tag : Byte) (payload : List Byte)
  /-- SEAT_PRESS, kind 0x2B. -/
  | seatPress (tag : Byte) (payload : List Byte)
  /-- SET_MIX, kind 0x30. -/
  | setMix (tag : Byte) (payload : List Byte)
  /-- GET_MIX_STATUS, kind 0x31. -/
  | getMixStatus (tag : Byte) (payload : List Byte)
  /-- MUTE_ROOM, kind 0x32. -/
  | muteRoom (tag : Byte) (payload : List Byte)
  /-- SET_CAMERA, kind 0x34. -/
  | setCamera (tag : Byte) (payload : List Byte)
  /-- SET_SCREEN_PLAN, kind 0x35. -/
  | setScreenPlan (tag : Byte) (payload : List Byte)
  /-- SET_SCREEN, kind 0x36. -/
  | setScreen (tag : Byte) (payload : List Byte)
  /-- SHARE_START, kind 0x37. -/
  | shareStart (tag : Byte) (payload : List Byte)
  /-- SHARE_STOP, kind 0x38. -/
  | shareStop (tag : Byte) (payload : List Byte)
  /-- GET_SCREENS, kind 0x39. -/
  | getScreens (tag : Byte) (payload : List Byte)
  /-- SCREEN_REFRESH, kind 0x3A. -/
  | screenRefresh (tag : Byte) (payload : List Byte)
  /-- SET_CHAIN, kind 0x3C. -/
  | setChain (tag : Byte) (payload : List Byte)
  /-- GET_CHAIN, kind 0x3D. -/
  | getChain (tag : Byte) (payload : List Byte)
  /-- CHAIN_RESTART, kind 0x3E. -/
  | chainRestart (tag : Byte) (payload : List Byte)
  /-- UNKNOWN_KIND_REQUEST: a frame whose kind is no request kind (R193). -/
  | unknownKindRequest (kind tag : Byte) (payload : List Byte)
  /-- RX_CHARACTER: one character arrives on RXD; `stopGood` says whether its stop bit is good (R191). -/
  | rxCharacter (char : Byte) (stopGood : Bool)
  /-- RX_TIMEOUT: 5 ms have passed without a character (R191). -/
  | rxTimeout
  /-- TRANSMIT_FRAME_START: the idle transmitter begins a frame (R194). -/
  | transmitFrameStart
  /-- TRANSMIT_FRAME_DONE: the last character of the frame has been sent (R194). -/
  | transmitFrameDone
  /-- POWER_ON: the supply rises (R199). -/
  | powerOn
  /-- RESET_N_LOW: RESET_N goes low (R199). -/
  | resetNLow
  /-- RESET_END: the reset ends with BAUD1, BAUD0 at these levels (R199, R200). -/
  | resetEnd (straps : BitVec 2)
  /-- BLOCK_COMPLETION: an audio block completes; `audio` is what the lanes received, and entry i of `changedAt` is the sample position (0-16) before which the block's i-th opening or close fell (R104, R105, R113). -/
  | blockCompletion (audio : List LaneAudio) (changedAt : List Nat)
  /-- DENIAL_TIMER_EXPIRY: a denial timer has reached 0 (R6). -/
  | denialTimerExpiry (seat : Seat)
  /-- SETTLE_END: the pending recall's settle has reached 0 (R133). -/
  | settleEnd
  /-- ACTIVE_SPEAKER_SWITCH: the hold count has reached the switch hold (R132). -/
  | activeSpeakerSwitch
  /-- ACTIVE_SPEAKER_IDLE: the idle count has reached the idle time (R129). -/
  | activeSpeakerIdle
  /-- SECOND_TICK: the 1000th block completion has come (R18). -/
  | secondTick
  /-- MINUTE_BOUNDARY: the room scheduler takes a tick that wraps the second (R32). -/
  | minuteBoundary
  /-- CLOCK_WRAP: the room scheduler takes the tick after day 65535, 23:59:59 (R18). -/
  | clockWrap
  /-- SPEECH_EXPIRY: the expiry test of an entry that stands at 0 (R91). -/
  | speechExpiry (seat : Seat)
  /-- VOICE_SILENCE_CLOSE: a silence count has reached the voice hold (R57). -/
  | voiceSilenceClose (seat : Seat)
  /-- SIGNAL_GRACE_EXPIRY: a grace timer has reached 0 (R152). -/
  | signalGraceExpiry (slot : Slot)
  /-- STANDBY_TIMER_EXPIRY: the standby delay timer has reached 0 (R40). -/
  | standbyTimerExpiry
  /-- PRESS_EVENT: the seat table takes the oldest press this seat has waiting (R4, R5). -/
  | pressEvent (seat : Seat) (button : Button)
  /-- EXCHANGE_CHOICE: an idle chain chooses its next exchange (R180). -/
  | exchangeChoice (chain : Chain)
  /-- ATTEMPT_RESPONSE: a response has begun within the hold limit; `checkGood` says whether its check is good (R182). -/
  | attemptResponse (chain : Chain) (checkGood : Bool) (answer : UnitAnswer)
  /-- HOLD_LIMIT_TIMEOUT: no response has begun by the end of the hold limit (R182). -/
  | holdLimitTimeout (chain : Chain)
  /-- BROADCAST_DONE: the last beat of the broadcast has been sent (R181). -/
  | broadcastDone (chain : Chain)
  /-- TURNAROUND_END: the 64 µs turnaround has passed (R181). -/
  | turnaroundEnd (chain : Chain)
  /-- SLOW_POLL_DUE: 100 ms have passed since this seat's last poll began (R171). -/
  | slowPollDue (seat : Seat)
  /-- PAIR_LOCK: the transceiver reports lock (R162). -/
  | pairLock (chain : Chain) (pair : Pair)
  /-- TRAINING_ATTEMPT_END: 50 ms have passed since the attempt began (R162, R163). -/
  | trainingAttemptEnd (chain : Chain)
  /-- LOSS_OF_LOCK: the transceiver reports loss of lock (R163, R164, R167). -/
  | lossOfLock (chain : Chain) (pair : Pair)
  /-- SCREEN_LINK_TRANSMIT_START: the idle screen link takes the oldest record (R153). -/
  | screenLinkTransmitStart
  /-- SCREEN_LINK_TRANSMIT_DONE: the record has been transmitted (R153). -/
  | screenLinkTransmitDone
  deriving DecidableEq, Repr

end Sys2Proof
end

