-- ==== Sys2Proof/Decode.lean ====
section
/-!
DEFINITION. The words of the commands. The opcode table gives no row any bits (spec/98_reader.md: n_rows_with_fixed 0), so no
word spells a command. The control link does spell requests: a frame's kind names the request (catalogue 11.8), and this file
holds that map in both directions.
-/
namespace Sys2Proof

/-- The command that a word spells by the table's bits: none, since no row of spec/opcode_table.json has bits. -/
def decodeTableWord (_nbits _w : Nat) : Option Instr := none

/-- The request a frame carries, by its kind (catalogue 11.8). A kind that is not in the catalogue is the command that answers
UNKNOWN_KIND (R193, stage 1). -/
def commandOfFrame (f : Frame) : Instr :=
  match f.kind.toNat with
  | 0x01 => .ping f.tag f.payload
  | 0x02 => .getInfo f.tag f.payload
  | 0x03 => .getStats f.tag f.payload
  | 0x04 => .deviceReset f.tag f.payload
  | 0x05 => .setNotices f.tag f.payload
  | 0x08 => .setClock f.tag f.payload
  | 0x09 => .getClock f.tag f.payload
  | 0x0A => .addBooking f.tag f.payload
  | 0x0B => .removeBooking f.tag f.payload
  | 0x0C => .extendBooking f.tag f.payload
  | 0x0D => .listBookings f.tag f.payload
  | 0x0E => .getSession f.tag f.payload
  | 0x0F => .checkIn f.tag f.payload
  | 0x10 => .endSession f.tag f.payload
  | 0x11 => .setRoomDefaults f.tag f.payload
  | 0x12 => .setStandby f.tag f.payload
  | 0x13 => .wake f.tag f.payload
  | 0x16 => .setSeat f.tag f.payload
  | 0x17 => .getSeat f.tag f.payload
  | 0x18 => .setZone f.tag f.payload
  | 0x19 => .setStanding f.tag f.payload
  | 0x1A => .setName f.tag f.payload
  | 0x20 => .grant f.tag f.payload
  | 0x21 => .close f.tag f.payload
  | 0x22 => .enqueue f.tag f.payload
  | 0x23 => .dequeue f.tag f.payload
  | 0x24 => .moveRequest f.tag f.payload
  | 0x25 => .getFloor f.tag f.payload
  | 0x26 => .setFloor f.tag f.payload
  | 0x27 => .priorityTake f.tag f.payload
  | 0x28 => .priorityRelease f.tag f.payload
  | 0x29 => .floorReset f.tag f.payload
  | 0x2A => .extendSpeech f.tag f.payload
  | 0x2B => .seatPress f.tag f.payload
  | 0x30 => .setMix f.tag f.payload
  | 0x31 => .getMixStatus f.tag f.payload
  | 0x32 => .muteRoom f.tag f.payload
  | 0x34 => .setCamera f.tag f.payload
  | 0x35 => .setScreenPlan f.tag f.payload
  | 0x36 => .setScreen f.tag f.payload
  | 0x37 => .shareStart f.tag f.payload
  | 0x38 => .shareStop f.tag f.payload
  | 0x39 => .getScreens f.tag f.payload
  | 0x3A => .screenRefresh f.tag f.payload
  | 0x3C => .setChain f.tag f.payload
  | 0x3D => .getChain f.tag f.payload
  | 0x3E => .chainRestart f.tag f.payload
  | _ => .unknownKindRequest f.kind f.tag f.payload

/-- The frame a request command stands for; none for an event. -/
def Instr.frame? : Instr → Option Frame
  | .ping tag payload => some ⟨0x01, tag, payload⟩
  | .getInfo tag payload => some ⟨0x02, tag, payload⟩
  | .getStats tag payload => some ⟨0x03, tag, payload⟩
  | .deviceReset tag payload => some ⟨0x04, tag, payload⟩
  | .setNotices tag payload => some ⟨0x05, tag, payload⟩
  | .setClock tag payload => some ⟨0x08, tag, payload⟩
  | .getClock tag payload => some ⟨0x09, tag, payload⟩
  | .addBooking tag payload => some ⟨0x0A, tag, payload⟩
  | .removeBooking tag payload => some ⟨0x0B, tag, payload⟩
  | .extendBooking tag payload => some ⟨0x0C, tag, payload⟩
  | .listBookings tag payload => some ⟨0x0D, tag, payload⟩
  | .getSession tag payload => some ⟨0x0E, tag, payload⟩
  | .checkIn tag payload => some ⟨0x0F, tag, payload⟩
  | .endSession tag payload => some ⟨0x10, tag, payload⟩
  | .setRoomDefaults tag payload => some ⟨0x11, tag, payload⟩
  | .setStandby tag payload => some ⟨0x12, tag, payload⟩
  | .wake tag payload => some ⟨0x13, tag, payload⟩
  | .setSeat tag payload => some ⟨0x16, tag, payload⟩
  | .getSeat tag payload => some ⟨0x17, tag, payload⟩
  | .setZone tag payload => some ⟨0x18, tag, payload⟩
  | .setStanding tag payload => some ⟨0x19, tag, payload⟩
  | .setName tag payload => some ⟨0x1A, tag, payload⟩
  | .grant tag payload => some ⟨0x20, tag, payload⟩
  | .close tag payload => some ⟨0x21, tag, payload⟩
  | .enqueue tag payload => some ⟨0x22, tag, payload⟩
  | .dequeue tag payload => some ⟨0x23, tag, payload⟩
  | .moveRequest tag payload => some ⟨0x24, tag, payload⟩
  | .getFloor tag payload => some ⟨0x25, tag, payload⟩
  | .setFloor tag payload => some ⟨0x26, tag, payload⟩
  | .priorityTake tag payload => some ⟨0x27, tag, payload⟩
  | .priorityRelease tag payload => some ⟨0x28, tag, payload⟩
  | .floorReset tag payload => some ⟨0x29, tag, payload⟩
  | .extendSpeech tag payload => some ⟨0x2A, tag, payload⟩
  | .seatPress tag payload => some ⟨0x2B, tag, payload⟩
  | .setMix tag payload => some ⟨0x30, tag, payload⟩
  | .getMixStatus tag payload => some ⟨0x31, tag, payload⟩
  | .muteRoom tag payload => some ⟨0x32, tag, payload⟩
  | .setCamera tag payload => some ⟨0x34, tag, payload⟩
  | .setScreenPlan tag payload => some ⟨0x35, tag, payload⟩
  | .setScreen tag payload => some ⟨0x36, tag, payload⟩
  | .shareStart tag payload => some ⟨0x37, tag, payload⟩
  | .shareStop tag payload => some ⟨0x38, tag, payload⟩
  | .getScreens tag payload => some ⟨0x39, tag, payload⟩
  | .screenRefresh tag payload => some ⟨0x3A, tag, payload⟩
  | .setChain tag payload => some ⟨0x3C, tag, payload⟩
  | .getChain tag payload => some ⟨0x3D, tag, payload⟩
  | .chainRestart tag payload => some ⟨0x3E, tag, payload⟩
  | .unknownKindRequest kind tag payload => some ⟨kind, tag, payload⟩
  | .rxCharacter _ _ => none
  | .rxTimeout => none
  | .transmitFrameStart => none
  | .transmitFrameDone => none
  | .powerOn => none
  | .resetNLow => none
  | .resetEnd _ => none
  | .blockCompletion _ _ => none
  | .denialTimerExpiry _ => none
  | .settleEnd => none
  | .activeSpeakerSwitch => none
  | .activeSpeakerIdle => none
  | .secondTick => none
  | .minuteBoundary => none
  | .clockWrap => none
  | .speechExpiry _ => none
  | .voiceSilenceClose _ => none
  | .signalGraceExpiry _ => none
  | .standbyTimerExpiry => none
  | .pressEvent _ _ => none
  | .exchangeChoice _ => none
  | .attemptResponse _ _ _ => none
  | .holdLimitTimeout _ => none
  | .broadcastDone _ => none
  | .turnaroundEnd _ => none
  | .slowPollDue _ => none
  | .pairLock _ _ => none
  | .trainingAttemptEnd _ => none
  | .lossOfLock _ _ => none
  | .screenLinkTransmitStart => none
  | .screenLinkTransmitDone => none

/-- The request kinds of the catalogue 11.8. -/
def isRequestKind (kind : Byte) : Bool :=
  [0x01, 0x02, 0x03, 0x04, 0x05, 0x08, 0x09, 0x0A, 0x0B, 0x0C, 0x0D, 0x0E, 0x0F, 0x10, 0x11, 0x12, 0x13, 0x16, 0x17, 0x18,
    0x19, 0x1A, 0x20, 0x21, 0x22, 0x23, 0x24, 0x25, 0x26, 0x27, 0x28, 0x29, 0x2A, 0x2B].contains kind.toNat ||
  [0x30, 0x31, 0x32, 0x34, 0x35, 0x36, 0x37, 0x38, 0x39, 0x3A, 0x3C, 0x3D, 0x3E].contains kind.toNat

end Sys2Proof
end

