-- ==== Sys2Proof/Config.lean ====
section
/-!
DEFINITION. What the part fixes: identification values and sizes. The one free value stands here too.
-/
namespace Sys2Proof

/-- The part code (R198). -/
def Config.partCode : Nat := 0x6408

/-- The silicon revision of the parts the manual describes (R198). -/
def Config.siliconRevision : Nat := 1

/-- The request buffer size (R192, R198). -/
def Config.bufferSize : Nat := 4

/-- The notice queue size (R195, R198). -/
def Config.noticeQueueSize : Nat := 32

/-- The notice mask with the flag of every kind 0x40-0x51 set (R196). -/
def Config.allNotices : BitVec 32 := 0x3FFFF

/-- The last minute of day 65535, the last room minute of the clock (R18, R21). -/
def Config.lastRoomMinute : Nat := 65535 * 1440 + 1439

/-- FREE VALUE (log 11): whether RESET_N going low while a REQUEST reset is in progress makes the recorded cause PIN, at the n-th
time this happens. The spec states no cause for it. Nothing in Lean can evaluate this constant. -/
opaque Config.pinDuringRequestReset : Nat → Bool

end Sys2Proof
end

