-- ==== Sys2Proof/Machine/State.lean ====
section
/-!
DEFINITION. The state of the AVK6408, block by block (00_scope 2.2), as plain data, and the state right after device reset.
Enumerations list their values in the order of the rule or table that owns them, since R190 numbers them so.
-/
namespace Sys2Proof.Machine

/-! ## Values shared by several blocks -/

/-- A seat's link state (1.1, R169). -/
inductive LinkState where
  | absent
  | present
  | held
  | silent
  deriving DecidableEq, Repr

/-- Base role (1.1). -/
inductive Role where
  | member
  | observer
  deriving DecidableEq, Repr

/-- A seat's standing in the current session (1.4). -/
inductive Standing where
  | out
  | listener
  | delegate
  | chair
  deriving DecidableEq, Repr

/-- Ring indicator states, in the order of 1.1 (R12). -/
inductive Ring where
  | off
  | denied
  | priority
  | frozen
  | warn
  | speak
  | request
  | ready
  deriving DecidableEq, Repr

/-- Who caused an action (00_scope 4.4). -/
inductive Source where
  | button
  | voice
  | controller
  | chair
  | auto
  deriving DecidableEq, Repr

/-- Kind of a speaker list entry (R44). -/
inductive Kind where
  | delegate
  | chair
  deriving DecidableEq, Repr

/-- Close causes of a microphone, in the order of table 3.12. -/
inductive CloseCause where
  | self
  | controller
  | timer
  | replaced
  | lanePreempted
  | voiceSilence
  | seatLost
  | standingChanged
  | limitLowered
  | sessionEnd
  | floorReset
  | chainRetrain
  deriving DecidableEq, Repr

/-- State of a seat loudspeaker (R122). -/
inductive Loud where
  | normal
  | ducked
  | muted
  deriving DecidableEq, Repr

/-- A priority holder: a chair seat or the room controller (R71). -/
inductive Holder where
  | seat (s : Seat)
  | controller
  deriving DecidableEq, Repr

/-- Condition of a holder (R71). -/
inductive Condition where
  | framed
  | unframed
  deriving DecidableEq, Repr

/-! ## Presets, bookings and the room scheduler -/

/-- Floor mode (Table 2-1). -/
inductive Mode where
  | direct
  | queued
  | voice
  deriving DecidableEq, Repr

/-- Overflow policy (Table 2-1, R53). -/
inductive Overflow where
  | queue
  | replaceOldest
  | deny
  deriving DecidableEq, Repr

/-- Expiry action (Table 2-1, R91). -/
inductive Expiry where
  | warnOnly
  | close
  deriving DecidableEq, Repr

/-- Stack overflow policy (Table 2-1, R76, R77). -/
inductive StackPolicy where
  | discardOldest
  | clearFloor
  deriving DecidableEq, Repr

/-- The floor fields of Table 2-1 (R47). -/
structure FloorPreset where
  mode : Mode
  limit : Nat
  overflow : Overflow
  autoAdvance : Bool
  selfClose : Bool
  withdraw : Bool
  speechLimit : Nat
  warnLead : Nat
  expiry : Expiry
  voiceHold : Nat
  stackPolicy : StackPolicy
  chairBias : Nat
  deriving DecidableEq, Repr

/-- The mixing fields of Table 2-1 (R100). -/
structure MixPreset where
  gate : Nat
  attack : Nat
  release : Nat
  master : Nat
  record : Nat
  duck : Nat
  deriving DecidableEq, Repr

/-- Privacy of a booking (R20). -/
inductive Privacy where
  | normal
  | confidential
  deriving DecidableEq, Repr

/-- How a booking came into the table (R20). -/
inductive Origin where
  | roomController
  | adhoc
  deriving DecidableEq, Repr

/-- State of a booking (R20). -/
inductive BookingState where
  | pending
  | active
  deriving DecidableEq, Repr

/-- A booking record (R20); `start` is a room minute (2.1). -/
structure Booking where
  id : Nat
  start : Nat
  duration : Nat
  title : Text
  roster : List (Fin 8)
  chairs : List Seat
  floor : FloorPreset
  mix : MixPreset
  plan : Fin 4
  privacy : Privacy
  grace : Nat
  warning : Nat
  origin : Origin
  state : BookingState
  deriving DecidableEq, Repr

/-- A time of the room clock (R18). -/
structure Time where
  day : Nat
  minute : Nat
  second : Nat
  deriving DecidableEq, Repr

/-- One seat's attendance (R95). -/
structure Attendance where
  seconds : Nat
  present : Bool
  deriving DecidableEq, Repr

/-- The session record while a session is OPEN (R25, R95). -/
structure Session where
  bookingId : Nat
  openedAt : Time
  checkedIn : Bool
  warned : Bool
  deadline : Option Nat
  attendance : List Attendance
  deriving DecidableEq, Repr

/-- Session close causes (R31). -/
inductive SessionCause where
  | ended
  | noShow
  | controller
  deriving DecidableEq, Repr

/-- The room defaults (R38). -/
structure RoomDefaults where
  floor : FloorPreset
  mix : MixPreset
  adhoc : Bool
  adhocDuration : Nat
  adhocMinimum : Nat
  adhocPlan : Fin 4
  adhocWarning : Nat
  deriving DecidableEq, Repr

/-- Standby state (R39). -/
inductive Standby where
  | awake
  | standby
  deriving DecidableEq, Repr

/-- The room scheduler (chapter 2). `session` none is the state IDLE; `timer` none is a stopped standby delay timer. -/
structure Scheduler where
  clock : Time
  valid : Bool
  completions : Nat
  bookings : List Booking
  session : Option Session
  defaults : RoomDefaults
  standby : Standby
  delay : Nat
  timer : Option Nat
  deriving DecidableEq, Repr

/-! ## Seat table -/

/-- A camera and a preset (R15, R131). -/
structure Shot where
  camera : Fin 4
  preset : Nat
  deriving DecidableEq, Repr

/-- One seat record (1.1, R1). The fault flag belongs to the chain controller (R172). -/
structure SeatRec where
  link : LinkState
  unitType : Option UnitType
  serial : Option Word32
  role : Role
  standing : Standing
  trim : Nat
  shot : Option Shot
  input : Option Nat
  name : Text
  speakPressed : Bool
  auxPressed : Bool
  voice : Bool
  signal : Bool
  denial : Bool
  denialMs : Nat
  ring : Ring
  nameLine : Text
  statusLine : Text
  failures : Nat
  deriving DecidableEq, Repr

/-- A defined zone (R7). -/
structure Zone where
  first : Seat
  last : Seat
  stride : Nat
  deriving DecidableEq, Repr

/-- A counted press that the seat table has not yet taken (R4, R40). -/
structure Press where
  seat : Seat
  button : Button
  deriving DecidableEq, Repr

/-! ## Floor controller -/

/-- A speaker list entry (R44); `silence` is the silence count, which counts only while the entry is VOICE-held (R57). -/
structure Speaker where
  seat : Seat
  kind : Kind
  grantNo : Word32
  channel : Nat
  lane : Nat
  remaining : Option Nat
  warned : Bool
  duringFreeze : Bool
  source : Source
  silence : Nat
  deriving DecidableEq, Repr

/-- A request queue entry (R45). -/
structure QueueEntry where
  seat : Seat
  enqueueNo : Word32
  source : Source
  deriving DecidableEq, Repr

/-- A held press (R46). -/
structure HeldPress where
  seat : Seat
  pressNo : Word32
  deriving DecidableEq, Repr

/-- A saved speaker of a resume frame (R72). -/
structure Saved where
  seat : Seat
  source : Source
  remaining : Option Nat
  warned : Bool
  duringFreeze : Bool
  deriving DecidableEq, Repr

/-- A resume frame (R72). -/
structure ResumeFrame where
  holder : Holder
  released : Bool
  saved : List Saved
  deriving DecidableEq, Repr

/-- The floor controller with the priority mechanism (R43, R71, R72). `stack` has the newest frame first. -/
structure Floor where
  speakers : List Speaker
  queue : List QueueEntry
  held : List HeldPress
  preset : FloorPreset
  grantSeq : Word32
  enqueueSeq : Word32
  onsets : List Nat
  stack : List ResumeFrame
  holders : List (Holder × Condition)
  headPlaced : Bool
  deriving DecidableEq, Repr

/-! ## Mixer -/

/-- An OPEN channel record (R101). `openedAt` is none once the record has been open for a whole block, and otherwise the number
of the block's openings and closes before its own (R104). -/
structure Channel where
  seat : Seat
  envelope : Nat
  share : Nat
  trim : Nat
  bias : Nat
  gain : Nat
  openedAt : Option Nat
  deriving DecidableEq, Repr

/-- A channel closed within the current block: the gain it had, its lane, whether the lane delivered its audio, and the number
of the block's openings and closes before the close (R103, R113). -/
structure ClosedChannel where
  chain : Chain
  lane : Nat
  live : Bool
  gain : Nat
  closedAt : Nat
  deriving DecidableEq, Repr

/-- The settings used for the samples of one block (R100, R112). -/
structure BlockSettings where
  master : Nat
  record : Nat
  mute : Bool
  recordForced : Bool
  outputForced : Bool
  deriving DecidableEq, Repr

/-- The mixer (R100). A FREE channel record is none. -/
structure Mixer where
  channels : List (Option Channel)
  holder : Option Nat
  params : MixPreset
  mute : Bool
  recordForced : Bool
  outputForced : Bool
  block : BlockSettings
  clip : Nat
  ducks : List Nat
  loud : List Loud
  changes : Nat
  closed : List ClosedChannel
  roomOut : List Sample
  recordOut : List Sample
  deriving DecidableEq, Repr

/-! ## Camera director -/

/-- The camera source offered to screens that follow the speaker (R125). -/
inductive Follow where
  | wide
  | cam (c : Fin 4)
  deriving DecidableEq, Repr

/-- A pending recall (R125); `settle` is 0 only between the completion that ends it and the SETTLE_END that re-checks it. -/
structure Recall where
  shot : Shot
  seat : Seat
  settle : Nat
  deriving DecidableEq, Repr

/-- Stripe mode (R131). -/
inductive Stripe where
  | block
  | pairs
  | interleave
  deriving DecidableEq, Repr

/-- Causes of ACTIVE_SPEAKER (R135). -/
inductive ActiveCause where
  | switch
  | idle
  | micClosed
  | sessionEnd
  deriving DecidableEq, Repr

/-- The camera director (R125). `current` holds the current presets, none being unknown. -/
structure Director where
  active : Option Seat
  candidate : Option Seat
  hold : Nat
  idle : Nat
  follow : Follow
  aimed : Option Recall
  current : List (Option Nat)
  stripe : Stripe
  settleTime : Nat
  switchHold : Nat
  idleTime : Nat
  deriving DecidableEq, Repr

/-! ## Screen router -/

/-- The ten sources, in the order of 8.1. -/
inductive ScreenSource where
  | blank
  | signage
  | roomPc
  | wide
  | cam (c : Fin 4)
  | share (slot : Slot)
  deriving DecidableEq, Repr

/-- A screen mode with its parameters (R141). -/
inductive ScreenMode where
  | fixed (source : ScreenSource)
  | followSpeaker (zone : Option (Fin 8))
  | followShare (preferred : Slot) (fallback : ScreenSource)
  | auto
  deriving DecidableEq, Repr

/-- Screen class (R141). -/
inductive ScreenClass where
  | internal
  | external
  deriving DecidableEq, Repr

/-- A screen record (R141). -/
structure Screen where
  cls : ScreenClass
  override : Option ScreenMode
  source : ScreenSource
  deriving DecidableEq, Repr

/-- What a held share slot records (R148). -/
structure Share where
  seat : Seat
  input : Nat
  startNo : Word32
  source : Source
  deriving DecidableEq, Repr

/-- Share policy (R140). -/
inductive SharePolicy where
  | takeover
  | deny
  deriving DecidableEq, Repr

/-- Causes of the end of a share, in the order of R150. -/
inductive ShareCause where
  | self
  | controller
  | takenOver
  | seatLost
  | standingLost
  | inputChanged
  | floorLeft
  | signalLost
  | sessionEnd
  deriving DecidableEq, Repr

/-- A record of the screen link (R153). -/
inductive LinkRecord where
  | route (screen : Fin 8) (source : ScreenSource)
  | shareBus (bus : Slot) (input : Option Nat)
  | cameraRecall (camera : Fin 4) (preset : Nat)
  deriving DecidableEq, Repr

/-- The screen router (R140). -/
structure Screens where
  screens : List Screen
  plans : List (List ScreenMode)
  plan : Fin 4
  confidential : Bool
  slot1 : Option Share
  slot2 : Option Share
  older : Option Slot
  starts : Word32
  grace1 : Option Nat
  grace2 : Option Nat
  policy : SharePolicy
  requiresFloor : Bool
  graceTime : Nat
  follow : Follow
  active : Option Seat
  queue : List LinkRecord
  sending : Option LinkRecord
  deriving DecidableEq, Repr

/-! ## Chain controllers -/

/-- Chain states (R160). -/
inductive ChainState where
  | off
  | training
  | enumerating
  | active
  | failed
  deriving DecidableEq, Repr

/-- Why a training began (R160). -/
inductive ChainCause where
  | reset
  | lockLost
  | failureRun
  | controller
  deriving DecidableEq, Repr

/-- Poll rate (R160, R171). -/
inductive PollRate where
  | normal
  | slow
  deriving DecidableEq, Repr

/-- The chain settings (R161). -/
structure ChainSettings where
  enabled : Bool
  pairs : Nat
  attempts : Nat
  hold : Nat
  retries : Nat
  silent : Nat
  deriving DecidableEq, Repr

/-- The training attempt in progress (R162): the pair count recorded, the pairs that stand locked, and its age in ms. -/
structure Training where
  pairs : Nat
  control : Bool
  lane1 : Bool
  lane2 : Bool
  ms : Nat
  deriving DecidableEq, Repr

/-- The payload of an item, which also gives its kind and class (R177). -/
inductive Payload where
  | micOpen (lane : Nat)
  | micClosed
  | speakerState (loud : Loud)
  | ring (ring : Ring)
  | nameplate (nameLine statusLine : Text)
  | refresh
  deriving DecidableEq, Repr

/-- Item kinds (R177). -/
inductive ItemKind where
  | micState
  | speakerState
  | ring
  | nameplate
  | refresh
  deriving DecidableEq, Repr

/-- An item of the exchange list (R177). -/
structure Item where
  seat : Seat
  payload : Payload
  attempts : Nat
  renewed : Bool
  deriving DecidableEq, Repr

/-- What an addressed exchange sends (R164, R177, R186, R187); a REFRESH carries the content read when it began, with the
microphone's lane when it is open. -/
inductive Sent where
  | item (seat : Seat) (payload : Payload)
  | refresh (seat : Seat) (ring : Ring) (mic : Option Nat) (loud : Loud)
  | poll (seat : Seat) (toggle : Bool)
  | enumerate (position : Nat)
  deriving DecidableEq, Repr

/-- The exchange in progress (R176, R182). An addressed exchange keeps its text beats (R185), the retries it has left and the
hold limit with which it began, in microseconds; a broadcast keeps the beats of its title (R181). -/
inductive Exchange where
  | addressed (sent : Sent) (beats : List Text) (retries : Nat) (holdMicros : Nat)
  | broadcast (title : Text) (beats : List Text)
  | turnaround
  deriving DecidableEq, Repr

/-- What a chain controller keeps for one seat: the fault flag (R172), the poll toggle (R176), and the ms since the seat's last
poll began, stopping at 100 (R171). -/
structure ChainSeat where
  fault : Bool
  toggle : Bool
  sincePoll : Nat
  deriving DecidableEq, Repr

/-- A lane record (R170). The transmitting set is kept in seat order. -/
structure Lane where
  assigned : Option Seat
  transmitting : List Seat
  deriving DecidableEq, Repr

/-- A unit found by the enumeration in progress (R164). -/
structure FoundUnit where
  unitType : UnitType
  serial : Word32
  deriving DecidableEq, Repr

/-- A chain controller (R160, R161, R170, R176). `enumerated` holds the units found so far, by position. -/
structure ChainCtl where
  state : ChainState
  cause : ChainCause
  attempt : Nat
  pairs : Option Nat
  degraded : Bool
  overlength : Bool
  found : Nat
  failureRun : Nat
  rate : PollRate
  settings : ChainSettings
  training : Training
  enumerated : List FoundUnit
  items : List Item
  stale : List Seat
  broadcast : Option Text
  exchange : Option Exchange
  retryCounter : Nat
  rollover : Bool
  pointer : Nat
  seats : List ChainSeat
  lanes : List Lane
  deriving DecidableEq, Repr

/-! ## Link interface -/

/-- Actions of PRIORITY_CHANGED (R86). -/
inductive PriorityAction where
  | taken
  | retaken
  | releasePending
  | released
  | ended
  | discarded
  | cleared
  deriving DecidableEq, Repr

/-- Reasons of RESUME_LOST (R86). -/
inductive LostReason where
  | discarded
  | queueFull
  deriving DecidableEq, Repr

/-- Actions of SHARE_CHANGED (R149, R150). -/
inductive ShareAction where
  | started
  | ended
  deriving DecidableEq, Repr

/-- Events of SEAT_STATE (R172). -/
inductive SeatEvent where
  | changed
  | silent
  | returned
  | fault
  deriving DecidableEq, Repr

/-- Causes of a device reset (R199). -/
inductive ResetCause where
  | powerOn
  | pin
  | request
  deriving DecidableEq, Repr

/-- The notices of the catalogue 11.9, with their fields in payload order. -/
inductive Notice where
  | started (cause : ResetCause) (revision part baud : Nat)
  | sessionOpened (id : Nat) (origin : Origin) (title : Text) (start finish : Nat) (privacy : Privacy) (plan : Fin 4)
  | sessionClosed (id : Nat) (cause : SessionCause) (openedAt closedAt : Time) (attendance : List (Seat × Nat))
  | endWarning (id finish minutesLeft : Nat)
  | bookingMissed (id start duration : Nat)
  | adhocCreated (seat : Seat) (start duration finish : Nat)
  | micOpened (seat : Seat) (kind : Kind) (grantNo : Word32) (channel lane : Nat) (remaining : Option Nat) (source : Source)
  | micClosed (seat : Seat) (kind : Kind) (cause : CloseCause) (grantNo : Word32) (channel lane : Nat) (remaining : Option Nat)
  | queueChanged (seats : List Seat)
  | queueFull (seat : Seat)
  | priorityChanged (action : PriorityAction) (holder : Option Holder) (seats : List Seat) (depth holders : Nat)
  | resumeLost (holder : Holder) (reason : LostReason) (seats : List Seat)
  | speechWarning (seat : Seat) (grantNo : Word32) (remaining warnLead : Nat)
  | activeSpeaker (new previous : Option Seat) (cause : ActiveCause) (shot : Option Shot) (recallSent : Bool) (follow : Follow)
  | shareChanged (slot : Slot) (action : ShareAction) (seat : Seat) (input : Nat) (startNo : Word32) (source : Source)
      (cause : Option ShareCause)
  | seatState (seat : Seat) (event : SeatEvent) (link : LinkState) (unitType : Option UnitType) (serial : Option Word32)
      (fault : Bool)
  | chainState (chain : Chain) (state : ChainState) (cause : ChainCause) (attempt : Nat) (pairs : Option Nat)
      (degraded overlength : Bool) (found : Nat) (madeAbsent : List Seat)
  | standbyChanged (state : Standby)
  deriving DecidableEq, Repr

/-- A notice in the queue, and whether it is held until a reply has been sent (R194). -/
structure QueuedNotice where
  notice : Notice
  held : Bool
  deriving DecidableEq, Repr

/-- A reply waiting to be sent: its frame, whether its request is an accepted wake event (R40, R41), and whether the reset of
DEVICE_RESET begins when it has been sent (R199). -/
structure Reply where
  frame : Frame
  wake : Bool
  resets : Bool
  deriving DecidableEq, Repr

/-- The frame being transmitted (R194). -/
inductive Sending where
  | reply (reply : Reply) (bytes : List Byte)
  | notice (notice : Notice) (bytes : List Byte)
  deriving DecidableEq, Repr

/-- The receiver (R191). In BODY, `n` is the recorded length and `got` the bytes stored so far, in order of arrival. -/
inductive Receiver where
  | hunt
  | length
  | body (n : Byte) (got : List Byte)
  deriving DecidableEq, Repr

/-- The ten link statistics (R197). -/
structure Stats where
  goodFrames : Nat
  checkErrors : Nat
  syncDiscards : Nat
  lengthErrors : Nat
  timeouts : Nat
  lineErrors : Nat
  overruns : Nat
  repliesSent : Nat
  noticesSent : Nat
  noticesDropped : Nat
  deriving DecidableEq, Repr

/-- The link interface (chapter 11). -/
structure Link where
  rx : Receiver
  rxIdle : Nat
  buffer : List Frame
  inRequest : Bool
  reply : Option Reply
  tx : Option Sending
  notices : List QueuedNotice
  lost : Nat
  mask : BitVec 32
  stats : Stats
  highWater : Nat
  baud : BitVec 2
  resetCause : ResetCause
  deriving DecidableEq, Repr

/-- Running, or held in reset with the cause of that reset (R199). -/
inductive Power where
  | running
  | held (cause : ResetCause)
  deriving DecidableEq, Repr

/-! ## Steps that have fallen due -/

/-- A step of the opcode table that has fallen due at a block completion and is not yet taken. `tick moved` is the second tick
at its receivers; `moved` says that the clock has already advanced for it (R18, R98). -/
inductive Owed where
  | denial (s : Seat)
  | settle
  | switch
  | idle
  | training (c : Chain)
  | receiveTimeout
  | tick (moved : Bool)
  | boundary
  | wrap
  deriving DecidableEq, Repr

/-- What is left of a second tick being taken, in the order of R89, R57, R55, R152 and R39. An `expiry`, `silence`, `graceEnd`
or `standbyEnd` is a step with a row of its own. `floorEnd` carries the request queue as it stood when the tick began (R45). -/
inductive TickJob where
  | entry (s : Seat)
  | expiry (s : Seat)
  | present
  | voice (s : Seat)
  | silence (s : Seat)
  | floorEnd (before : List QueueEntry)
  | grace (slot : Slot)
  | graceEnd (slot : Slot)
  | standby
  | standbyEnd
  deriving DecidableEq, Repr

/-! ## The part and the machine -/

/-- The AVK6408. -/
structure Part where
  power : Power
  link : Link
  seats : List SeatRec
  pressSeq : Word32
  presses : List Press
  zones : List (Option Zone)
  sched : Scheduler
  floor : Floor
  mixer : Mixer
  director : Director
  screens : Screens
  chainA : ChainCtl
  chainB : ChainCtl
  owed : List Owed
  tickJobs : List TickJob
  deriving DecidableEq, Repr

/-- The machine: the part, the commands waiting for it, first in first out, and how often the free value of log 11 has been
read. -/
structure State where
  part : Part
  pending : List Instr
  draws : Nat
  deriving DecidableEq, Repr

/-- The spec names no condition that stops the part, so there is no fault. -/
inductive Fault where
  deriving DecidableEq, Repr

/-- A command without a meaning. -/
inductive Refusal where
  /-- Raised by `exec` for a command that is not modelled; no command is. Safe: a refused command gives no next state. -/
  | notModelled (mnemonic : String)
  deriving DecidableEq, Repr

/-! ## Values after device reset -/

/-- The floor preset of the room defaults (R38). -/
def FloorPreset.reset : FloorPreset where
  mode := .queued
  limit := 4
  overflow := .queue
  autoAdvance := true
  selfClose := true
  withdraw := true
  speechLimit := 0
  warnLead := 30
  expiry := .warnOnly
  voiceHold := 5
  stackPolicy := .discardOldest
  chairBias := 2

/-- The mixing preset of the room defaults (R38). -/
def MixPreset.reset : MixPreset where
  gate := 200
  attack := 1
  release := 6
  master := 128
  record := 128
  duck := 1

/-- The room defaults (R38). -/
def RoomDefaults.reset : RoomDefaults where
  floor := .reset
  mix := .reset
  adhoc := true
  adhocDuration := 30
  adhocMinimum := 10
  adhocPlan := 1
  adhocWarning := 5

/-- R18, R20, R25, R38, R39. -/
def Scheduler.reset : Scheduler where
  clock := ⟨0, 0, 0⟩
  valid := false
  completions := 0
  bookings := []
  session := none
  defaults := .reset
  standby := .awake
  delay := 30
  timer := some 1800

/-- R1. -/
def SeatRec.reset : SeatRec where
  link := .absent
  unitType := none
  serial := none
  role := .member
  standing := .out
  trim := 16
  shot := none
  input := none
  name := []
  speakPressed := false
  auxPressed := false
  voice := false
  signal := false
  denial := false
  denialMs := 0
  ring := .off
  nameLine := []
  statusLine := []
  failures := 0

/-- R43, R71, R72. -/
def Floor.reset : Floor where
  speakers := []
  queue := []
  held := []
  preset := .reset
  grantSeq := 0
  enqueueSeq := 0
  onsets := List.replicate 64 0
  stack := []
  holders := []
  headPlaced := false

/-- R100, R118. -/
def Mixer.reset : Mixer where
  channels := List.replicate 12 none
  holder := none
  params := .reset
  mute := false
  recordForced := false
  outputForced := false
  block := ⟨128, 128, false, false, false⟩
  clip := 0
  ducks := List.replicate 64 0
  loud := List.replicate 64 .normal
  changes := 0
  closed := []
  roomOut := List.replicate 16 0
  recordOut := List.replicate 16 0

/-- R125. -/
def Director.reset : Director where
  active := none
  candidate := none
  hold := 0
  idle := 0
  follow := .wide
  aimed := none
  current := List.replicate 4 none
  stripe := .block
  settleTime := 1500
  switchHold := 1000
  idleTime := 5

/-- R140, R154. -/
def Screens.reset : Screens where
  screens := List.replicate 8 ⟨.internal, none, .signage⟩
  plans := List.replicate 8 (.fixed .signage) :: List.replicate 3 (List.replicate 8 .auto)
  plan := 0
  confidential := false
  slot1 := none
  slot2 := none
  older := none
  starts := 0
  grace1 := none
  grace2 := none
  policy := .takeover
  requiresFloor := true
  graceTime := 2
  follow := .wide
  active := none
  queue := [.route 0 .signage, .route 1 .signage, .route 2 .signage, .route 3 .signage, .route 4 .signage, .route 5 .signage,
    .route 6 .signage, .route 7 .signage, .shareBus .one none, .shareBus .two none]
  sending := none

/-- R160, R161, R170, R172, R176; the training attempt that device reset begins (R162). -/
def ChainCtl.reset : ChainCtl where
  state := .training
  cause := .reset
  attempt := 1
  pairs := none
  degraded := false
  overlength := false
  found := 0
  failureRun := 0
  rate := .normal
  settings := ⟨true, 2, 3, 7, 2, 3⟩
  training := ⟨2, false, false, false, 0⟩
  enumerated := []
  items := []
  stale := []
  broadcast := none
  exchange := none
  retryCounter := 0
  rollover := false
  pointer := 0
  seats := List.replicate 32 ⟨false, false, 100⟩
  lanes := List.replicate 8 ⟨none, []⟩

/-- All ten statistics 0 (R197, R200). -/
def Stats.reset : Stats where
  goodFrames := 0
  checkErrors := 0
  syncDiscards := 0
  lengthErrors := 0
  timeouts := 0
  lineErrors := 0
  overruns := 0
  repliesSent := 0
  noticesSent := 0
  noticesDropped := 0

/-- R191, R192, R195 to R200: STARTED stands alone in the notice queue, not held. -/
def Link.reset (cause : ResetCause) (straps : BitVec 2) : Link where
  rx := .hunt
  rxIdle := 0
  buffer := []
  inRequest := false
  reply := none
  tx := none
  notices := [⟨.started cause Config.siliconRevision Config.partCode straps.toNat, false⟩]
  lost := 0
  mask := Config.allNotices
  stats := .reset
  highWater := 1
  baud := straps
  resetCause := cause

/-- Every block at the values its chapter gives after device reset (R199, R200). -/
def Part.reset (cause : ResetCause) (straps : BitVec 2) : Part where
  power := .running
  link := .reset cause straps
  seats := List.replicate 64 .reset
  pressSeq := 0
  presses := []
  zones := List.replicate 8 none
  sched := .reset
  floor := .reset
  mixer := .reset
  director := .reset
  screens := .reset
  chainA := .reset
  chainB := .reset
  owed := []
  tickJobs := []

/-- The machine right after device reset. DESIGN CHOICE: the reset was a POWER_ON reset with both straps low (log 10),
and the free value has not been read (log 11). -/
def State.reset : State where
  part := .reset .powerOn 0
  pending := []
  draws := 0

end Sys2Proof.Machine
end

