-- ==== Sys2Proof/Machine/Ops.lean ====
section
/-!
DEFINITION. The named operations that every block shares: reading and writing a seat record and a chain, queueing a notice
(R195), queueing an item on an exchange list with the stale refresh (R178, R179), and placing a record on the screen link queue
(R153).
-/
namespace Sys2Proof.Machine

/-! ## Lists of a fixed length -/

/-- `xs` with `f` applied to entry `i`; `xs` itself when there is no such entry. -/
def updateAt {α : Type} (f : α → α) : List α → Nat → List α
  | [], _ => []
  | x :: xs, 0 => f x :: xs
  | x :: xs, i + 1 => x :: updateAt f xs i

/-! ## Seats and chains -/

/-- The chain base (00_scope 4.1). -/
def chainBase : Chain → Nat
  | .A => 0
  | .B => 32

/-- The seat at a position of a chain, position 0 being nearest the controller (00_scope 4.1). -/
def seatAt (c : Chain) (position : Nat) : Seat := Fin.ofNat 64 (chainBase c + position % 32)

/-- The chain of a seat (00_scope 4.1). -/
def chainOf (s : Seat) : Chain := if s.val < 32 then .A else .B

/-- A seat's position on its chain (R121). -/
def position (s : Seat) : Nat := s.val % 32

/-- The 64 seats in seat order. -/
def allSeats : List Seat := List.finRange 64

/-- The 32 seats of a chain in seat order. -/
def chainSeats (c : Chain) : List Seat := (List.range 32).map (seatAt c)

/-- The record of a seat. -/
def Part.seat (p : Part) (s : Seat) : SeatRec := p.seats.getD s.val .reset

/-- Writes a seat's record. -/
def Part.modSeat (s : Seat) (f : SeatRec → SeatRec) (p : Part) : Part := { p with seats := updateAt f p.seats s.val }

/-- A chain's controller. -/
def Part.chain (p : Part) : Chain → ChainCtl
  | .A => p.chainA
  | .B => p.chainB

/-- Writes a chain's controller. -/
def Part.modChain (c : Chain) (f : ChainCtl → ChainCtl) (p : Part) : Part :=
  match c with
  | .A => { p with chainA := f p.chainA }
  | .B => { p with chainB := f p.chainB }

/-- Writes the floor. -/
def Part.modFloor (f : Floor → Floor) (p : Part) : Part := { p with floor := f p.floor }

/-- Writes the mixer. -/
def Part.modMixer (f : Mixer → Mixer) (p : Part) : Part := { p with mixer := f p.mixer }

/-- Writes the camera director. -/
def Part.modDirector (f : Director → Director) (p : Part) : Part := { p with director := f p.director }

/-- Writes the screen router. -/
def Part.modScreens (f : Screens → Screens) (p : Part) : Part := { p with screens := f p.screens }

/-- Writes the room scheduler. -/
def Part.modSched (f : Scheduler → Scheduler) (p : Part) : Part := { p with sched := f p.sched }

/-- Writes the session record while a session is OPEN. -/
def Part.modSession (f : Session → Session) (p : Part) : Part := p.modSched fun d => { d with session := d.session.map f }

/-- Writes the link interface. -/
def Part.modLink (f : Link → Link) (p : Part) : Part := { p with link := f p.link }

/-- Writes the link statistics. -/
def Link.modStats (f : Stats → Stats) (l : Link) : Link := { l with stats := f l.stats }

/-- A count that stops at a bound (R95, R116, R195, R197). -/
def countUpTo (bound n : Nat) : Nat := if n < bound then n + 1 else n

/-! ## Notices (R195, R196) -/

/-- The notice kinds of the catalogue 11.9. -/
def Notice.kind : Notice → Nat
  | .started .. => 0x40
  | .sessionOpened .. => 0x41
  | .sessionClosed .. => 0x42
  | .endWarning .. => 0x43
  | .bookingMissed .. => 0x44
  | .adhocCreated .. => 0x45
  | .micOpened .. => 0x46
  | .micClosed .. => 0x47
  | .queueChanged .. => 0x48
  | .queueFull .. => 0x49
  | .priorityChanged .. => 0x4A
  | .resumeLost .. => 0x4B
  | .speechWarning .. => 0x4C
  | .activeSpeaker .. => 0x4D
  | .shareChanged .. => 0x4E
  | .seatState .. => 0x4F
  | .chainState .. => 0x50
  | .standbyChanged .. => 0x51

/-- Whether a notice's kind is enabled in the mask (R196). -/
def Link.enabled (l : Link) (n : Notice) : Bool := l.mask.getLsbD (n.kind - 0x40)

/-- A block queues a notice: appended with the held mark of R194 when there is room, dropped and counted when the queue is full,
ignored when its kind is masked off (R195). -/
def Link.notify (n : Notice) (l : Link) : Link :=
  if l.enabled n then
    if l.notices.length < Config.noticeQueueSize then
      { l with
        notices := l.notices ++ [⟨n, l.inRequest⟩]
        highWater := max l.highWater (l.notices.length + 1) }
    else
      { l with
        lost := countUpTo 255 l.lost
        stats := { l.stats with noticesDropped := countUpTo 65535 l.stats.noticesDropped } }
  else l

/-- Queues a notice (R195). -/
def Part.notify (n : Notice) (p : Part) : Part := p.modLink (Link.notify n)

/-! ## Exchange lists (R177 to R179) -/

/-- The kind of an item, given by its payload (R177). -/
def Payload.kind : Payload → ItemKind
  | .micOpen _ => .micState
  | .micClosed => .micState
  | .speakerState _ => .speakerState
  | .ring _ => .ring
  | .nameplate _ _ => .nameplate
  | .refresh => .refresh

/-- Whether a kind is of class URGENT; the others are of class INDICATOR (R177). -/
def ItemKind.urgent : ItemKind → Bool
  | .micState => true
  | .speakerState => true
  | .ring => false
  | .nameplate => false
  | .refresh => false

/-- Whether an item is the item of this seat and kind. -/
def Item.is (i : Item) (s : Seat) (k : ItemKind) : Bool := i.seat = s && i.payload.kind = k

/-- Whether the exchange of the item of this seat and kind is in progress (R176). -/
def ChainCtl.inProgress (c : ChainCtl) (s : Seat) (k : ItemKind) : Bool :=
  match c.exchange with
  | some (.addressed (.item t payload) _ _ _) => t = s && payload.kind = k
  | some (.addressed (.refresh t _ _ _) _ _ _) => t = s && k = .refresh
  | _ => false

/-- A seat put into a set kept in seat order. -/
def insertSeat (s : Seat) : List Seat → List Seat
  | [] => [s]
  | t :: ts => if s < t then s :: t :: ts else if s = t then t :: ts else t :: insertSeat s ts

/-- Lines 1 to 3 of R178: the item's payload is replaced where it stands, or the item is appended. -/
def ChainCtl.keep (s : Seat) (payload : Payload) (c : ChainCtl) : ChainCtl :=
  if c.items.any (·.is s payload.kind) then
    { c with
      items := c.items.map fun i =>
        if i.is s payload.kind then
          { i with payload := payload, renewed := i.renewed || c.inProgress s payload.kind }
        else i }
  else { c with items := c.items ++ [⟨s, payload, 0, false⟩] }

/-- The stale refresh: while the list holds 24 items or fewer, a REFRESH is queued for the lowest stale seat (R179). `fuel`
bounds the repetition; the set holds at most 32 seats. -/
def ChainCtl.staleRefreshWith : Nat → ChainCtl → ChainCtl
  | 0, c => c
  | fuel + 1, c =>
    match c.stale with
    | [] => c
    | s :: rest =>
      if c.items.length ≤ 24 then (ChainCtl.keep s .refresh { c with stale := rest }).staleRefreshWith fuel else c

/-- The test of the stale refresh (R179). -/
def ChainCtl.staleRefresh (c : ChainCtl) : ChainCtl := c.staleRefreshWith 32

/-- Marks a seat stale, unless a REFRESH of it waits on the list (R179), and tests the stale refresh. -/
def ChainCtl.markStale (s : Seat) (c : ChainCtl) : ChainCtl :=
  if c.items.any (·.is s .refresh) && !c.inProgress s .refresh then c
  else ChainCtl.staleRefresh { c with stale := insertSeat s c.stale }

/-- Whether an item is an INDICATOR item whose exchange is not in progress (R178, line 4). -/
def ChainCtl.removable (c : ChainCtl) (i : Item) : Bool :=
  !i.payload.kind.urgent && !c.inProgress i.seat i.payload.kind

/-- Queues an item for a seat of the chain by the first line of R178 that applies. A REFRESH that is kept takes its seat out of
the stale-indicator set. -/
def ChainCtl.queueItem (s : Seat) (payload : Payload) (c : ChainCtl) : ChainCtl :=
  if c.items.any (·.is s payload.kind) || c.items.length < 48 then
    let kept := c.keep s payload
    if payload.kind = .refresh then { kept with stale := kept.stale.erase s } else kept
  else
    match payload.kind.urgent, c.items.find? c.removable with
    | true, some victim =>
      (ChainCtl.markStale victim.seat { c with items := c.items.erase victim }).keep s payload
    | _, _ => c.markStale s

/-- Removes every item that answers `gone`, and tests the stale refresh when one has left the list (R179). -/
def ChainCtl.removeItems (gone : Item → Bool) (c : ChainCtl) : ChainCtl :=
  if c.items.any gone then ChainCtl.staleRefresh { c with items := c.items.filter fun i => !gone i } else c

/-- Queues an item on the list of the seat's chain (R178). -/
def Part.queueItem (s : Seat) (payload : Payload) (p : Part) : Part := p.modChain (chainOf s) (ChainCtl.queueItem s payload)

/-- Queues an item when the seat is PRESENT (R14, R122, R170). -/
def Part.queueIfPresent (s : Seat) (payload : Payload) (p : Part) : Part :=
  if (p.seat s).link = .present then p.queueItem s payload else p

/-- Takes a seat out of every transmitting set of its chain (R170). -/
def ChainCtl.stopTransmitting (s : Seat) (c : ChainCtl) : ChainCtl :=
  { c with lanes := c.lanes.map fun l => { l with transmitting := l.transmitting.erase s } }

/-- Empties every transmitting set (R170). -/
def ChainCtl.emptyTransmitting (c : ChainCtl) : ChainCtl :=
  { c with lanes := c.lanes.map fun l => { l with transmitting := [] } }

/-- A unit has taken its microphone state: OPEN on a lane, or CLOSED (R170). -/
def ChainCtl.micTaken (s : Seat) (mic : Option Nat) (c : ChainCtl) : ChainCtl :=
  let stopped := c.stopTransmitting s
  match mic with
  | none => stopped
  | some lane =>
    { stopped with
      lanes := updateAt (fun l : Lane => { l with transmitting := insertSeat s l.transmitting }) stopped.lanes lane }

/-! ## Screen link queue (R153) -/

/-- Whether two records have the same target (R153). -/
def LinkRecord.sameTarget : LinkRecord → LinkRecord → Bool
  | .route i _, .route j _ => i = j
  | .shareBus i _, .shareBus j _ => i = j
  | .cameraRecall i _, .cameraRecall j _ => i = j
  | _, _ => false

/-- A record placed on the queue: it replaces the waiting record of its target in place, or is appended (R153). -/
def placeRecord (r : LinkRecord) (queue : List LinkRecord) : List LinkRecord :=
  if queue.any r.sameTarget then queue.map fun q => if r.sameTarget q then r else q else queue ++ [r]

/-- Places a record on the screen link queue (R153). -/
def Part.placeRecord (r : LinkRecord) (p : Part) : Part :=
  p.modScreens fun v => { v with queue := Machine.placeRecord r v.queue }

end Sys2Proof.Machine
end

