-- ==== Sys2Proof/Machine/Flags.lean ====
section
/-!
DEFINITION. Conditions and statuses that the rules derive from the state: session and standby, floor and priority conditions,
resources (R48), the ring and the nameplate (R12, R13), CTS (R192), seats due for a poll (R171).
-/
namespace Sys2Proof.Machine

/-! ## Clock and session -/

/-- A time as a room minute (2.1). -/
def Time.roomMinute (t : Time) : Nat := t.day * 1440 + t.minute

/-- "Now" of chapter 2: the room minute the clock shows. -/
def Part.now (p : Part) : Nat := p.sched.clock.roomMinute

/-- A booking's end (2.1). -/
def Booking.finish (b : Booking) : Nat := b.start + b.duration

/-- Whether a session is OPEN (R25). -/
def Part.isOpen (p : Part) : Bool := p.sched.session.isSome

/-- The ACTIVE booking (R20). -/
def Part.activeBooking (p : Part) : Option Booking := p.sched.bookings.find? fun b => b.state = .active

/-- Whether the room is in standby (R39). -/
def Part.inStandby (p : Part) : Bool := p.sched.standby = .standby

/-- The end of the session less now, in minutes (R13, R29, R34). -/
def Part.minutesLeft (p : Part) : Nat := ((p.activeBooking.map Booking.finish).getD 0) - p.now

/-- The session title (R181). -/
def Part.sessionTitle (p : Part) : Text :=
  if p.isOpen then (p.activeBooking.map Booking.title).getD [] else []

/-! ## Zones and standings -/

/-- Whether a seat belongs to a defined zone (R7). -/
def Zone.has (z : Zone) (s : Seat) : Bool :=
  z.first ≤ s && s ≤ z.last && (s.val - z.first.val) % z.stride = 0

/-- Whether a seat belongs to a zone as it stands; an undefined zone contains no seat (R7, R8). -/
def Part.inZone (p : Part) (z : Fin 8) (s : Seat) : Bool :=
  match p.zones.getD z.val none with
  | some zone => zone.has s
  | none => false

/-- Whether a seat lies in a roster; an empty roster stands for all 64 seats (R9). -/
def Part.inRoster (p : Part) (roster : List (Fin 8)) (s : Seat) : Bool :=
  roster.isEmpty || roster.any fun z => p.inZone z s

/-- The standing a seat receives when a session opens from this booking: the first line of R9 that applies. -/
def Part.standingFor (p : Part) (b : Booking) (s : Seat) : Standing :=
  if b.chairs.contains s then .chair
  else if p.inRoster b.roster s then
    match (p.seat s).role with
    | .member => .delegate
    | .observer => .listener
  else .out

/-- DELEGATE or CHAIR, the standings that may ask for the floor, check in and share (1.4). -/
def Standing.speaks : Standing → Bool
  | .out => false
  | .listener => false
  | .delegate => true
  | .chair => true

/-- The number of CHAIR seats (R10). -/
def Part.chairCount (p : Part) : Nat := (p.seats.filter fun r => r.standing = .chair).length

/-! ## Floor and priority -/

/-- The speaker list entry of a seat. -/
def Part.speaker? (p : Part) (s : Seat) : Option Speaker := p.floor.speakers.find? fun e => e.seat = s

/-- Whether a seat stands in the speaker list. -/
def Part.speaking (p : Part) (s : Seat) : Bool := p.floor.speakers.any fun e => e.seat = s

/-- Whether a seat stands in the request queue. -/
def Part.isQueued (p : Part) (s : Seat) : Bool := p.floor.queue.any fun e => e.seat = s

/-- Whether a seat stands in the held-press set. -/
def Part.isHeldPress (p : Part) (s : Seat) : Bool := p.floor.held.any fun e => e.seat = s

/-- Whether a frame saves a seat. -/
def ResumeFrame.saves (f : ResumeFrame) (s : Seat) : Bool := f.saved.any fun e => e.seat = s

/-- Whether a seat is saved in a resume frame (R72). -/
def Part.isSaved (p : Part) (s : Seat) : Bool := p.floor.stack.any fun f => f.saves s

/-- In the floor, as share requires floor means it: in the speaker list or saved in a resume frame (R149). -/
def Part.inFloor (p : Part) (s : Seat) : Bool := p.speaking s || p.isSaved s

/-- The floor is frozen while the resume stack holds a frame (R43, R72). -/
def Part.frozen (p : Part) : Bool := !p.floor.stack.isEmpty

/-- Whether a party holds priority, in either condition (R71). -/
def Part.holds (p : Part) (h : Holder) : Bool := p.floor.holders.any fun x => x.1 = h

/-- Whether an entry is VOICE-held (R57). -/
def Part.voiceHeld (p : Part) (e : Speaker) : Bool :=
  e.kind = .delegate && (e.source = .voice || (e.source = .auto && p.floor.preset.mode = .voice))

/-- The number of DELEGATE entries (R44). -/
def Floor.delegates (f : Floor) : Nat := (f.speakers.filter fun e => e.kind = .delegate).length

/-- The number of CHAIR entries (R44). -/
def Floor.chairs (f : Floor) : Nat := (f.speakers.filter fun e => e.kind = .chair).length

/-! ## Resources of an open microphone (R48) -/

/-- A chain's lane count: 4 times the pair count in force while ACTIVE, 0 otherwise (R160). -/
def ChainCtl.laneCount (c : ChainCtl) : Nat := if c.state = .active then 4 * c.pairs.getD 0 else 0

/-- Whether a delegate slot is free (R48). -/
def Part.slotFree (p : Part) : Bool := p.floor.delegates < p.floor.preset.limit

/-- Whether a speaker list entry of a seat on this chain holds this lane (R48). -/
def Part.laneHeld (p : Part) (c : Chain) (lane : Nat) : Bool :=
  p.floor.speakers.any fun e => chainOf e.seat = c && e.lane = lane

/-- The lowest free lane of a chain (R48). -/
def Part.freeLane (p : Part) (c : Chain) : Option Nat :=
  (List.range (p.chain c).laneCount).find? fun lane => !p.laneHeld c lane

/-- The lanes of a chain that speaker list entries hold (R64). -/
def Part.lanesInUse (p : Part) (c : Chain) : Nat := (p.floor.speakers.filter fun e => chainOf e.seat = c).length

/-- The lowest free channel, 0-11 (R48). -/
def Part.freeChannel (p : Part) : Option Nat :=
  (List.range 12).find? fun ch => !p.floor.speakers.any fun e => e.channel = ch

/-- The newest DELEGATE entry of a seat on a chain (R52). -/
def Part.newestDelegateOn (p : Part) (c : Chain) : Option Speaker :=
  p.floor.speakers.reverse.find? fun e => e.kind = .delegate && chainOf e.seat = c

/-- The oldest DELEGATE entry of a seat on a chain (R53). -/
def Part.oldestDelegateOn (p : Part) (c : Chain) : Option Speaker :=
  p.floor.speakers.find? fun e => e.kind = .delegate && chainOf e.seat = c

/-- The oldest DELEGATE entry of the list (R53). -/
def Part.oldestDelegate (p : Part) : Option Speaker := p.floor.speakers.find? fun e => e.kind = .delegate

/-! ## Ring and nameplate (R12, R13) -/

/-- A seat's ring state: the first line of R12 whose condition holds. -/
def Part.ringOf (p : Part) (s : Seat) : Ring :=
  if p.inStandby then .off
  else if (p.seat s).denial then .denied
  else if p.holds (.seat s) then .priority
  else if p.isSaved s then .frozen
  else
    match p.speaker? s with
    | some e => if e.warned then .warn else .speak
    | none =>
      if p.isQueued s || p.isHeldPress s then .request
      else if p.isOpen && (p.seat s).standing.speaks then .ready
      else .off

/-- The character of a decimal digit. -/
def digit (n : Nat) : Byte := BitVec.ofNat 8 (0x30 + n % 10)

/-- A number written in decimal. `fuel` bounds the number of digits. -/
def decimalWith : Nat → Nat → Text
  | 0, _ => []
  | fuel + 1, n => if n < 10 then [digit n] else decimalWith fuel (n / 10) ++ [digit n]

/-- A number written in decimal, up to 10 digits. -/
def decimal (n : Nat) : Text := decimalWith 10 n

/-- The characters of " in line" (R13). -/
def inLineText : Text := [0x20, 0x69, 0x6E, 0x20, 0x6C, 0x69, 0x6E, 0x65]

/-- The characters of " min left" (R13). -/
def minLeftText : Text := [0x20, 0x6D, 0x69, 0x6E, 0x20, 0x6C, 0x65, 0x66, 0x74]

/-- A remaining speech time as minutes, a colon and two-digit seconds (R13). -/
def minutesSeconds (t : Nat) : Text := decimal (t / 60) ++ [0x3A, digit (t % 60 / 10), digit (t % 60)]

/-- A seat's position in the request queue, counted from 1 at the head (R45). -/
def Part.queuePosition (p : Part) (s : Seat) : Option Nat :=
  (p.floor.queue.findIdx? fun e => e.seat = s).map (· + 1)

/-- A seat's nameplate status line: the first line of R13 whose condition holds. -/
def Part.statusLineOf (p : Part) (s : Seat) : Text :=
  if p.inStandby then []
  else
    match (p.speaker? s).bind Speaker.remaining, p.queuePosition s with
    | some t, _ => minutesSeconds t
    | none, some n => decimal n ++ inLineText
    | none, none =>
      if (p.sched.session.map Session.warned).getD false then decimal p.minutesLeft ++ minLeftText else []

/-- A seat's nameplate name line (R13). -/
def Part.nameLineOf (p : Part) (s : Seat) : Text := if p.inStandby then [] else (p.seat s).name

/-! ## Chains -/

/-- Whether a lane hands the mixer the samples received on it: its chain is ACTIVE and its transmitting set is exactly its
assigned seat (R170). -/
def ChainCtl.laneLive (c : ChainCtl) (lane : Nat) : Bool :=
  match c.lanes[lane]? with
  | some ⟨some s, t⟩ => c.state = .active && t = [s]
  | _ => false

/-- What the chain controller keeps for the seat at a position. -/
def ChainCtl.seatAt (c : ChainCtl) (position : Nat) : ChainSeat := c.seats.getD position ⟨false, false, 0⟩

/-- Whether a seat is due for a poll (R171). -/
def Part.pollDue (p : Part) (s : Seat) : Bool :=
  let c := p.chain (chainOf s)
  c.state = .active &&
    match (p.seat s).link with
    | .present => c.rate = .normal || 100 ≤ (c.seatAt (position s)).sincePoll
    | .silent => 100 ≤ (c.seatAt (position s)).sincePoll
    | .held => false
    | .absent => false

/-- Whether a chain can choose its next exchange: ACTIVE, no exchange in progress, no turnaround (R180). -/
def ChainCtl.idle (c : ChainCtl) : Bool := c.state = .active && c.exchange.isNone

/-! ## Screens -/

/-- What a share slot holds. -/
def Screens.slot (v : Screens) : Slot → Option Share
  | .one => v.slot1
  | .two => v.slot2

/-- A slot's grace timer. -/
def Screens.grace (v : Screens) : Slot → Option Nat
  | .one => v.grace1
  | .two => v.grace2

/-- The other slot. -/
def otherSlot : Slot → Slot
  | .one => .two
  | .two => .one

/-- The slot a seat holds (R148: at most one). -/
def Screens.slotOf (v : Screens) (s : Seat) : Option Slot :=
  if v.slot1.any fun h => h.seat = s then some .one
  else if v.slot2.any fun h => h.seat = s then some .two
  else none

/-- The lowest free slot (R149). -/
def Screens.freeSlot (v : Screens) : Option Slot :=
  if v.slot1.isNone then some .one else if v.slot2.isNone then some .two else none

/-- A screen's mode in force: the override when present, else its mode in the plan in force (R141, R142). -/
def Screens.modeOf (v : Screens) (i : Fin 8) : ScreenMode :=
  match v.screens[i.val]? with
  | some ⟨_, some mode, _⟩ => mode
  | _ => (v.plans.getD v.plan.val []).getD i.val .auto

/-- A follow source as a screen source (R125, 8.1). -/
def Follow.source : Follow → ScreenSource
  | .wide => .wide
  | .cam c => .cam c

/-! ## Link -/

/-- CTS: asserted while the buffer holds fewer than 4 frames, deasserted while the part is held in reset (R192, R199). -/
def Part.cts (p : Part) : Bool := p.power = .running && p.link.buffer.length < Config.bufferSize

/-- Whether the link interface can take a request: none in processing, no reply waiting or being sent (R193, R194). -/
def Link.free (l : Link) : Bool :=
  !l.inRequest && l.reply.isNone &&
    match l.tx with
    | some (.reply _ _) => false
    | some (.notice _ _) => true
    | none => true

/-- Whether the reply of an accepted request of R41's list has not yet been completely sent (R40). -/
def Link.wakePending (l : Link) : Bool :=
  (l.reply.any fun r => r.wake) ||
    match l.tx with
    | some (.reply r _) => r.wake
    | some (.notice _ _) => false
    | none => false

end Sys2Proof.Machine
end

