-- ==== Sys2Proof/Machine/SeatTable.lean ====
section
/-!
DEFINITION. The seat table: derivation of ring and nameplate with the items that keep the units current (R12 to R14), the
pending-denial flag (R6), and a record's part in a change of link state (R2).
-/
namespace Sys2Proof.Machine

/-- Derives a seat's ring again; a new result is stored, and sent with a RING item when the seat is PRESENT (R12, R14). -/
def Part.deriveRing (s : Seat) (p : Part) : Part :=
  let ring := p.ringOf s
  if ring = (p.seat s).ring then p
  else (p.modSeat s fun r => { r with ring := ring }).queueIfPresent s (.ring ring)

/-- Whether a seat's unit has a nameplate (1.6). -/
def SeatRec.hasNameplate (r : SeatRec) : Bool :=
  match r.unitType with
  | some .nameplate => true
  | some .presenter => true
  | some .basic => false
  | none => false

/-- Derives a seat's nameplate again; a new result is stored, and sent with a NAMEPLATE item when the seat is PRESENT and its
unit has a nameplate (R13, R14). -/
def Part.derivePlate (s : Seat) (p : Part) : Part :=
  let name := p.nameLineOf s
  let status := p.statusLineOf s
  let r := p.seat s
  if name = r.nameLine && status = r.statusLine then p
  else
    let stored := p.modSeat s fun r => { r with nameLine := name, statusLine := status }
    if r.hasNameplate then stored.queueIfPresent s (.nameplate name status) else stored

/-- Derives a seat's ring and nameplate again; a RING item is queued before a NAMEPLATE item (R12 to R14, log 34). -/
def Part.derive (s : Seat) (p : Part) : Part := (p.deriveRing s).derivePlate s

/-- Derives the named seats again, in the order given. Which order an event gives is the model's (log 34 for events that derive every
seat, log 47 for those that derive some). -/
def Part.deriveSeats (seats : List Seat) (p : Part) : Part := seats.foldl (fun q s => q.derive s) p

/-- Derives every seat again, in seat order (log 34). -/
def Part.deriveAll (p : Part) : Part := p.deriveSeats allSeats

/-- Derives the seats that stand in the request queue, whose positions have changed (R13, R45), in queue order, head first; R14 and R45
give no order (log 47). -/
def Part.deriveQueued (p : Part) : Part := p.deriveSeats (p.floor.queue.map QueueEntry.seat)

/-- A block denies a press of this seat: the flag is set and its timer starts, or starts again, at 1000 ms (R6). -/
def Part.deny (s : Seat) (p : Part) : Part :=
  (p.modSeat s fun r => { r with denial := true, denialMs := 1000 }).derive s

/-- A denial timer has reached 0: the flag clears (R6). -/
def Part.endDenial (s : Seat) (p : Part) : Part :=
  if (p.seat s).denial && (p.seat s).denialMs = 0 then
    (p.modSeat s fun r => { r with denial := false }).derive s
  else p

/-- One block completion at a seat's denial timer (R6). -/
def SeatRec.countDenial (r : SeatRec) : SeatRec := if r.denial then { r with denialMs := r.denialMs - 1 } else r

/-- The seat table's part in a change of link state (R2): levels and flags are released on ABSENT and SILENT, and a REFRESH is
queued on PRESENT. -/
def Part.seatTableLink (s : Seat) (link : LinkState) (p : Part) : Part :=
  let linked := p.modSeat s fun r => { r with link := link }
  match link with
  | .present => linked.queueItem s .refresh
  | .held => linked
  | .absent => released linked
  | .silent => released linked
where
  /-- R2: both levels RELEASED, voice, signal and denial cleared, the denial timer stopped. -/
  released (q : Part) : Part :=
    (q.modSeat s fun r =>
      { r with
        speakPressed := false, auxPressed := false, voice := false, signal := false, denial := false, denialMs := 0 }).derive s

/-- Sets one seat's standing (R9, R10). -/
def Part.setStanding (s : Seat) (standing : Standing) (p : Part) : Part :=
  p.modSeat s fun r => { r with standing := standing }

/-- A session opens: every seat's standing is set from the booking's chair list and roster (R9), and every ring and nameplate is
derived again. -/
def Part.openStandings (b : Booking) (p : Part) : Part :=
  Part.deriveAll (allSeats.foldl (fun q s => q.setStanding s (p.standingFor b s)) p)

/-- A session closes: every standing becomes OUT (R11). -/
def Part.closeStandings (p : Part) : Part :=
  Part.deriveAll { p with seats := p.seats.map fun r => { r with standing := .out } }

end Sys2Proof.Machine
end

