-- ==== Sys2Proof/Machine/Mixer.lean ====
section
/-!
DEFINITION. The mixer: channel life (R102 to R104), ducking and loudspeaker states (R121, R122), the gain computation
(R105 to R112), the ROOM and RECORD mixes and the clip counter (R113 to R116), session open and close (R119, R120).
-/
namespace Sys2Proof.Machine

/-! ## Channel life and loudspeakers -/

/-- The OPEN record of a channel. -/
def Mixer.channel? (m : Mixer) (ch : Nat) : Option Channel := (m.channels.getD ch none)

/-- Whether a seat has an OPEN channel (R122). -/
def Mixer.seatOpen (m : Mixer) (s : Seat) : Bool := m.channels.any fun r => r.any fun c => c.seat = s

/-- The distance between two seats' positions (R121). -/
def seatDistance (s t : Seat) : Nat := (position s - position t) + (position t - position s)

/-- The duck count of a seat: OPEN channels of other seats of its chain within the duck distance in force (R121). -/
def Mixer.duckCount (m : Mixer) (s : Seat) : Nat :=
  (m.channels.filter fun r => r.any fun c =>
    chainOf c.seat = chainOf s && c.seat ≠ s && seatDistance c.seat s ≤ m.params.duck).length

/-- The loudspeaker state of a seat (R122). -/
def Mixer.loudOf (m : Mixer) (s : Seat) : Loud :=
  if m.seatOpen s then .muted else if 0 < m.ducks.getD s.val 0 then .ducked else .normal

/-- Recounts one seat's duck count and derives its loudspeaker state; a new state is stored, and sent with SPEAKER_STATE when the
seat is PRESENT (R121, R122). -/
def Part.recountSeat (s : Seat) (p : Part) : Part :=
  let counted := p.modMixer fun m => { m with ducks := updateAt (fun _ => m.duckCount s) m.ducks s.val }
  let loud := counted.mixer.loudOf s
  if loud = counted.mixer.loud.getD s.val .normal then counted
  else
    (counted.modMixer fun m => { m with loud := updateAt (fun _ => loud) m.loud s.val }).queueIfPresent s
      (.speakerState loud)

/-- Recounts the duck counts of a chain in seat order (R121). -/
def Part.recountChain (c : Chain) (p : Part) : Part := (chainSeats c).foldl (fun q s => q.recountSeat s) p

/-- The bias of an entry's kind: the chair bias in force for CHAIR, 1 for DELEGATE (R108). -/
def Part.biasOf (p : Part) : Kind → Nat
  | .chair => p.floor.preset.chairBias
  | .delegate => 1

/-- The floor controller hands over an opening (R102). The seat's own loudspeaker is derived before its neighbours' (log 19). -/
def Part.mixerOpen (s : Seat) (ch : Nat) (kind : Kind) (p : Part) : Part :=
  let opened := p.modMixer fun m =>
    { m with
      channels := updateAt (fun _ => some ⟨s, 0, 0, (p.seat s).trim, p.biasOf kind, 0, some m.changes⟩) m.channels ch
      changes := m.changes + 1 }
  (opened.recountSeat s).recountChain (chainOf s)

/-- Makes one channel record FREE; a FREE one is left as it is (R103). A channel that was heard in the block so far is kept in
`closed` for the samples before the close (R113). -/
def Mixer.free (ch : Nat) (lane : Nat) (live : Bool) (m : Mixer) : Mixer :=
  match m.channel? ch with
  | none => m
  | some r =>
    { m with
      channels := updateAt (fun _ => none) m.channels ch
      holder := if m.holder = some ch then none else m.holder
      closed := if r.openedAt.isNone then m.closed ++ [⟨chainOf r.seat, lane, live, r.gain, m.changes⟩] else m.closed
      changes := m.changes + 1 }

/-- The floor controller hands over a close (R103). -/
def Part.mixerClose (s : Seat) (ch lane : Nat) (live : Bool) (p : Part) : Part :=
  if (p.mixer.channel? ch).isNone then p
  else ((p.modMixer (Mixer.free ch lane live)).recountSeat s).recountChain (chainOf s)

/-- The mixer's part in a session opening (R119). -/
def Part.mixerSessionOpen (b : Booking) (p : Part) : Part :=
  ((p.modMixer fun m =>
    { m with params := b.mix, recordForced := b.privacy = .confidential, mute := false }).recountChain .A).recountChain .B

/-- The mixer's part in a session closing (R120). -/
def Part.mixerSessionClose (p : Part) : Part :=
  let freed := (List.range 12).foldl (fun q ch => q.modMixer (Mixer.free ch 0 false)) p
  ((freed.modMixer fun m => { m with holder := none, recordForced := false }).recountChain .A).recountChain .B

/-! ## Samples of the completed block -/

/-- The samples a lane received in the block, 16 of them; samples not given are 0. -/
def laneSamples (audio : List LaneAudio) (c : Chain) (lane : Nat) : List Int :=
  let given := ((audio.find? fun a => a.chain = c && a.lane = lane).map LaneAudio.samples).getD []
  (List.range 16).map fun k => (given.getD k 0).toInt

/-- The samples with those before position `k` counted as 0 (R104). -/
def silenceBefore (k : Nat) (xs : List Int) : List Int := List.replicate (min k xs.length) 0 ++ xs.drop k

/-- The samples with those from position `k` on counted as 0 (R103). -/
def silenceFrom (k : Nat) (xs : List Int) : List Int := xs.take k ++ List.replicate (xs.length - k) 0

/-- The position of the block's i-th opening or close; the end of the block when none is given (log 5). -/
def changePosition (changedAt : List Nat) (i : Nat) : Nat := changedAt.getD i 16

/-- The input of an OPEN channel in the completed block (R104): its lane's samples when the lane delivers them (R170), from the
opening onward. -/
def Part.channelInput (p : Part) (audio : List LaneAudio) (changedAt : List Nat) (ch : Nat) (r : Channel) : List Int :=
  match p.floor.speakers.find? fun e => e.channel = ch with
  | none => List.replicate 16 0
  | some e =>
    let c := chainOf r.seat
    let xs := if (p.chain c).laneLive e.lane then laneSamples audio c e.lane else List.replicate 16 0
    match r.openedAt with
    | none => xs
    | some i => silenceBefore (changePosition changedAt i) xs

/-- A channel's term: floor(x × G / 32768) for each sample (R113). -/
def gained (gain : Nat) (xs : List Int) : List Int := xs.map fun x => Int.fdiv (x * gain) 32768

/-- Sample by sample sum of two blocks. -/
def addSamples (xs ys : List Int) : List Int := List.zipWith (· + ·) xs ys

/-- The channel sum of the completed block, 16 values (R113): the OPEN channels, and the channels closed within the block up to
their closes (R103). -/
def Part.channelSum (p : Part) (audio : List LaneAudio) (changedAt : List Nat) : List Int :=
  let ofOpen := p.mixer.channels.zipIdx.foldl (init := List.replicate 16 (0 : Int)) fun sum (r, ch) =>
    match r with
    | none => sum
    | some c => addSamples sum (gained c.gain (p.channelInput audio changedAt ch c))
  p.mixer.closed.foldl (init := ofOpen) fun sum c =>
    if c.live then
      addSamples sum
        (gained c.gain (silenceFrom (changePosition changedAt c.closedAt) (laneSamples audio c.chain c.lane)))
    else sum

/-- floor(sum × level / 128), before saturation (R114, R115). -/
def scaled (level : Nat) (sum : List Int) : List Int := sum.map fun x => Int.fdiv (x * level) 128

/-- Whether a value lies outside the 16-bit range (R114). -/
def saturates (x : Int) : Bool := x < -32768 || 32767 < x

/-- A value saturated to the 16-bit range (R114). -/
def saturate (x : Int) : Sample := BitVec.ofInt 16 (max (-32768) (min 32767 x))

/-- The outputs of the completed block and the clip counter (R114 to R116, R118). -/
def Mixer.output (sum : List Int) (m : Mixer) : Mixer :=
  let silent := List.replicate 16 (0 : Sample)
  let room := scaled m.block.master sum
  let roomSilent := m.block.mute || m.block.outputForced
  { m with
    roomOut := if roomSilent then silent else room.map saturate
    recordOut :=
      if m.block.recordForced || m.block.outputForced then silent else (scaled m.block.record sum).map saturate
    clip := if !roomSilent && room.any saturates then countUpTo 65535 m.clip else m.clip }

/-! ## The gain computation (R105 to R112) -/

/-- The block mean M (R106). -/
def blockMean (xs : List Int) : Nat := min 32767 ((xs.map Int.natAbs).sum / 16)

/-- The envelope update (R107). -/
def envelopeStep (attack release envelope mean : Nat) : Nat :=
  if envelope < mean then envelope + (mean - envelope) / 2 ^ attack
  else envelope - (envelope - mean) / 2 ^ release

/-- The weight: the envelope times the bias, an envelope of 0 counted as 1 (R108). -/
def Channel.weight (c : Channel) : Nat := max 1 c.envelope * c.bias

/-- The OPEN channels with their numbers, in channel order. -/
def Mixer.openChannels (m : Mixer) : List (Nat × Channel) :=
  m.channels.zipIdx.filterMap fun (r, ch) => r.map fun c => (ch, c)

/-- The OPEN channel with the greatest envelope at or above the gate, the lowest-numbered of equals (R109, R127). -/
def loudestAbove (gate : Nat) (channels : List (Nat × Channel)) : Option (Nat × Channel) :=
  channels.foldl (init := none) fun best x =>
    if x.2.envelope < gate then best
    else
      match best with
      | none => some x
      | some b => if b.2.envelope < x.2.envelope then some x else best

/-- Stages 1 to 3 for one channel: block mean, envelope, weight's bias, with trim and bias as read now (R105 to R108). -/
def Part.measure (p : Part) (audio : List LaneAudio) (changedAt : List Nat) (ch : Nat) (c : Channel) : Channel :=
  let mean := blockMean (p.channelInput audio changedAt ch c)
  let kind := ((p.floor.speakers.find? fun e => e.channel = ch).map Speaker.kind).getD .delegate
  { c with
    envelope := envelopeStep p.mixer.params.attack p.mixer.params.release c.envelope mean
    trim := (p.seat c.seat).trim
    bias := p.biasOf kind
    openedAt := none }

/-- The share gain of a channel: R109 when some envelope is at or above the gate, R110 otherwise. -/
def shareGain (gate : Nat) (holder : Option Nat) (channels : List (Nat × Channel)) (ch : Nat) (c : Channel) : Nat :=
  if channels.any fun x => gate ≤ x.2.envelope then
    32768 * c.weight / (channels.map fun x => x.2.weight).sum
  else
    match holder with
    | some h => if h = ch then 32768 else 0
    | none => 32768 / channels.length

/-- Stages 4 to 6: share gains, the last-mic holder, effective gains, and the block settings installed for the next block
(R109 to R112). -/
def Mixer.install (m : Mixer) : Mixer :=
  let channels := m.openChannels
  let gate := m.params.gate
  let gainOf (ch : Nat) (c : Channel) : Channel :=
    let g := shareGain gate m.holder channels ch c
    { c with share := g, gain := g * c.trim / 16 }
  { m with
    channels := m.channels.zipIdx.map fun (r, ch) => r.map (gainOf ch)
    holder :=
      match loudestAbove gate channels with
      | some (ch, _) => some ch
      | none => if channels.isEmpty then none else m.holder
    block := ⟨m.params.master, m.params.record, m.mute, m.recordForced, m.outputForced⟩
    changes := 0
    closed := [] }

/-- The mixer's work at a block completion: the outputs and clip counter of the block just completed, then the gains of the
next one (R105, R116). -/
def Part.mixBlock (audio : List LaneAudio) (changedAt : List Nat) (p : Part) : Part :=
  let sum := p.channelSum audio changedAt
  let measured := p.mixer.channels.zipIdx.map fun (r, ch) => r.map (p.measure audio changedAt ch)
  p.modMixer fun m => Mixer.install { m.output sum with channels := measured }

end Sys2Proof.Machine
end

