-- ==== Sys2Proof/Machine/Screens.lean ====
section
/-!
DEFINITION. The screen router: deciding each screen's source (R143, R144), share slots (R149, R150), keeping a share valid
(R151, R152), the screen link (R153), sessions and standby (R145 to R147).
-/
namespace Sys2Proof.Machine

/-! ## Sources -/

/-- A screen's class. -/
def Screens.classOf (v : Screens) (i : Fin 8) : ScreenClass := ((v.screens[i.val]?).map Screen.cls).getD .internal

/-- A screen's current source. -/
def Screens.sourceOf (v : Screens) (i : Fin 8) : ScreenSource := ((v.screens[i.val]?).map Screen.source).getD .signage

/-- What FOLLOW_SHARE shows (R141). -/
def Screens.followShare (v : Screens) (preferred : Slot) (fallback : ScreenSource) : ScreenSource :=
  if (v.slot preferred).isSome then .share preferred
  else if (v.slot (otherSlot preferred)).isSome then .share (otherSlot preferred)
  else fallback

/-- What AUTO shows (R141). -/
def Screens.autoSource (v : Screens) : ScreenSource := v.followShare .one v.follow.source

/-- The source of a screen: the first line of R143 whose condition holds. -/
def Part.decideSource (p : Part) (i : Fin 8) : ScreenSource :=
  let v := p.screens
  if p.inStandby then .blank
  else if v.confidential && v.classOf i = .external then .blank
  else
    match v.modeOf i with
    | .fixed source => source
    | .followSpeaker none => v.follow.source
    | .followSpeaker (some z) => if v.active.any (p.inZone z) then v.follow.source else .wide
    | .followShare preferred fallback => v.followShare preferred fallback
    | .auto => v.autoSource

/-- Computes one screen's source again; a new source is stored and placed in a ROUTE record (R144). -/
def Part.recomputeScreen (i : Fin 8) (p : Part) : Part :=
  let source := p.decideSource i
  if source = p.screens.sourceOf i then p
  else
    (p.modScreens fun v =>
      { v with screens := updateAt (fun s : Screen => { s with source := source }) v.screens i.val }).placeRecord
      (.route i source)

/-- Computes the source of every screen again, screens 0 to 7 in order (R144). -/
def Part.recomputeScreens (p : Part) : Part := (List.finRange 8).foldl (fun q i => q.recomputeScreen i) p

/-- Clears every override at once (R142). -/
def Screens.clearOverrides (v : Screens) : Screens :=
  { v with screens := v.screens.map fun s => { s with override := none } }

/-! ## Share slots -/

/-- Writes what a slot holds. -/
def Screens.setSlot (n : Slot) (h : Option Share) (v : Screens) : Screens :=
  match n with
  | .one => { v with slot1 := h }
  | .two => { v with slot2 := h }

/-- Writes a slot's grace timer. -/
def Screens.setGrace (n : Slot) (t : Option Nat) (v : Screens) : Screens :=
  match n with
  | .one => { v with grace1 := t }
  | .two => { v with grace2 := t }

/-- Steps 1 and 2 of R150: the slot becomes free, its grace timer stops, and SHARE_CHANGED is queued. With fewer than two slots
held there is no older share (log 14). -/
def Part.freeShare (n : Slot) (h : Share) (cause : ShareCause) (p : Part) : Part :=
  (p.modScreens fun v => { (v.setSlot n none).setGrace n none with older := none }).notify
    (.shareChanged n .ended h.seat h.input h.startNo h.source (some cause))

/-- Ends the share of a slot with a cause: R150 with its step 3. A free slot is left as it is. -/
def Part.endShare (n : Slot) (cause : ShareCause) (p : Part) : Part :=
  match p.screens.slot n with
  | none => p
  | some h => ((p.freeShare n h cause).recomputeScreens).placeRecord (.shareBus n none)

/-- An accepted share takes a slot (R149). -/
def Part.takeSlot (n : Slot) (s : Seat) (source : Source) (p : Part) : Part :=
  let number := p.screens.starts + 1
  let input := (p.seat s).input.getD 0
  let taken := p.modScreens fun v =>
    { v.setSlot n (some ⟨s, input, number, source⟩) with
      starts := number
      older := if (v.slot (otherSlot n)).isSome then some (otherSlot n) else none }
  (((taken.placeRecord (.shareBus n (some input))).notify
    (.shareChanged n .started s input number source none))).recomputeScreens

/-- Conditions 2 to 5 of R149. -/
def Part.mayShare (p : Part) (s : Seat) : Bool :=
  let r := p.seat s
  r.link = .present && r.unitType = some .presenter && r.input.isSome && r.signal && r.standing.speaks &&
    (!(p.screens.requiresFloor && r.standing = .delegate) || p.inFloor s)

/-- A request whose conditions hold takes the lowest free slot; with both slots held, policy TAKEOVER ends the older share and
gives its slot, and policy DENY gives none (R149). -/
def Part.grantShare (s : Seat) (source : Source) (p : Part) : Option (Slot × Part) :=
  match p.screens.freeSlot with
  | some n => some (n, p.takeSlot n s source)
  | none =>
    match p.screens.policy with
    | .deny => none
    | .takeover =>
      let n := p.screens.older.getD .one
      match p.screens.slot n with
      | some h => some (n, (p.freeShare n h .takenOver).takeSlot n s source)
      | none => none

/-- An AUX press of a PRESENTER seat with standing DELEGATE: it ends the seat's own share, or asks for one (R149). -/
def Part.shareToggle (s : Seat) (p : Part) : Part :=
  match p.screens.slotOf s with
  | some n => p.endShare n .self
  | none =>
    if p.isOpen && p.mayShare s then
      match p.grantShare s .button with
      | some (_, q) => q
      | none => p.deny s
    else p.deny s

/-! ## Keeping a share valid -/

/-- The cause that ends the share of a seat, by the first line of R151 that holds. A HELD seat passes line 4, so its share outlives
the close that its chain's retrain brings (R151, R167, log 41). -/
def Part.shareFault (p : Part) (s : Seat) (h : Share) : Option ShareCause :=
  let r := p.seat s
  if r.link = .silent || r.link = .absent then some .seatLost
  else if !r.standing.speaks then some .standingLost
  else if r.input ≠ some h.input || (r.link = .present && r.unitType ≠ some .presenter) then some .inputChanged
  else if r.link ≠ .held && p.screens.requiresFloor && r.standing = .delegate && !p.inFloor s then some .floorLeft
  else none

/-- Re-examines the share of a seat when it holds a slot (R151). -/
def Part.reexamine (s : Seat) (p : Part) : Part :=
  match p.screens.slotOf s with
  | none => p
  | some n =>
    match (p.screens.slot n).bind (p.shareFault s) with
    | some cause => p.endShare n cause
    | none => p

/-- Re-examines the shares of the named seats. -/
def Part.reexamineSeats (seats : List Seat) (p : Part) : Part := seats.foldl (fun q s => q.reexamine s) p

/-- Re-examines every sharing seat, slot 1 first (R151, log 40). -/
def Part.reexamineAll (p : Part) : Part :=
  p.reexamineSeats ([p.screens.slot1, p.screens.slot2].filterMap fun h => h.map Share.seat)

/-- The seat table hands over a change of the signal-present flag (R152). -/
def Part.signalChanged (s : Seat) (present : Bool) (p : Part) : Part :=
  match p.screens.slotOf s with
  | none => p
  | some n =>
    if present then p.modScreens (Screens.setGrace n none)
    else if (p.screens.grace n).isSome then p
    else if p.screens.graceTime = 0 then p.endShare n .signalLost
    else p.modScreens (Screens.setGrace n (some p.screens.graceTime))

/-- One second tick at a running grace timer (R152). -/
def Part.countGrace (n : Slot) (p : Part) : Part :=
  match p.screens.grace n with
  | some t => p.modScreens (Screens.setGrace n (some (t - 1)))
  | none => p

/-- A grace timer has reached 0: its share ends with SIGNAL_LOST (R152). -/
def Part.graceExpiry (n : Slot) (p : Part) : Part :=
  if p.screens.grace n = some 0 then p.endShare n .signalLost else p

/-! ## Sessions and standby -/

/-- A session opens (R145). -/
def Part.screensSessionOpen (b : Booking) (p : Part) : Part :=
  (p.modScreens fun v =>
    { v.clearOverrides with plan := b.plan, confidential := b.privacy = .confidential }).recomputeScreens

/-- A held share ends with SESSION_END, without step 3 of R150 (R146). -/
def Part.closeShare (n : Slot) (p : Part) : Part :=
  match p.screens.slot n with
  | none => p
  | some h => p.freeShare n h .sessionEnd

/-- A session closes (R146): the shares end, the plan in force becomes plan 0, the screens are computed again, and then the
buses of the ended shares are cleared. -/
def Part.screensSessionClose (p : Part) : Part :=
  let ended := [Slot.one, Slot.two].filter fun n => (p.screens.slot n).isSome
  let closed := ((p.closeShare .one).closeShare .two).modScreens fun v =>
    { v.clearOverrides with grace1 := none, grace2 := none, plan := 0, confidential := false }
  ended.foldl (fun q n => q.placeRecord (.shareBus n none)) closed.recomputeScreens

/-- The room enters standby (R147). -/
def Part.screensStandby (p : Part) : Part := (p.modScreens Screens.clearOverrides).recomputeScreens

/-- The idle screen link takes the oldest waiting record and begins to transmit it (R153). -/
def Screens.beginRecord (v : Screens) : Screens :=
  match v.sending, v.queue with
  | none, r :: rest => { v with queue := rest, sending := some r }
  | _, _ => v

end Sys2Proof.Machine
end

