-- ==== Sys2Proof/Machine/Director.lean ====
section
/-!
DEFINITION. The camera director: choosing the active speaker (R126 to R130), cameras and presets (R131 to R134), what it hands
to the screen router and the room controller (R135), sessions and standby (R136, R137).
-/
namespace Sys2Proof.Machine

/-! ## Hand-overs (R135) -/

/-- Sets the follow source and hands a new value to the screen router (R135, R144). -/
def Part.setFollow (f : Follow) (p : Part) : Part :=
  if p.director.follow = f then p
  else
    ((p.modDirector fun d => { d with follow := f }).modScreens fun v => { v with follow := f }).recomputeScreens

/-- Sets the active speaker and hands a new one to the screen router (R135, R144). -/
def Part.setActive (a : Option Seat) (p : Part) : Part :=
  if p.director.active = a then p
  else
    ((p.modDirector fun d => { d with active := a }).modScreens fun v => { v with active := a }).recomputeScreens

/-- Sends a camera to a preset: the record, and the camera's current preset (R132). -/
def Part.sendRecall (shot : Shot) (p : Part) : Part :=
  (p.placeRecord (.cameraRecall shot.camera shot.preset)).modDirector fun d =>
    { d with current := updateAt (fun _ => some shot.preset) d.current shot.camera.val }

/-- Drops the pending recall, without effect (R132 to R134). -/
def Part.dropRecall (p : Part) : Part := p.modDirector fun d => { d with aimed := none }

/-! ## Cameras and presets -/

/-- The stripe default's camera for a seat (R131). -/
def Stripe.camera (m : Stripe) (s : Seat) : Fin 4 :=
  match m with
  | .block => Fin.ofNat 4 (s.val / 16)
  | .pairs => Fin.ofNat 4 (s.val % 2 + 2 * (s.val / 32))
  | .interleave => Fin.ofNat 4 (s.val % 4)

/-- The camera and preset for a seat (R131). -/
def Part.shotFor (p : Part) (s : Seat) : Shot := (p.seat s).shot.getD ⟨p.director.stripe.camera s, s.val + 1⟩

/-- Whether a camera stands at a preset, as line 2 of R132 asks: its current preset is that one and no pending recall names it. -/
def Director.standsAt (d : Director) (shot : Shot) : Bool :=
  d.current.getD shot.camera.val none = some shot.preset && !d.aimed.any fun r => r.shot.camera = shot.camera

/-- The lines of R132 for seat `s` and its camera and preset. -/
def Part.aim (s : Seat) (shot : Shot) (p : Part) : Part :=
  if p.director.aimed.any fun r => r.shot = shot then
    p.modDirector fun d => { d with aimed := d.aimed.map fun r => { r with seat := s } }
  else if p.director.standsAt shot then p.dropRecall.setFollow (.cam shot.camera)
  else if p.director.settleTime = 0 then (p.dropRecall.sendRecall shot).setFollow (.cam shot.camera)
  else
    let dropped := p.dropRecall
    let cut := if dropped.director.follow = .cam shot.camera then dropped.setFollow .wide else dropped
    (cut.sendRecall shot).modDirector fun d => { d with aimed := some ⟨shot, s, d.settleTime⟩ }

/-- Whether the lines of R132 send a recall record for this camera and preset: lines 3 and 4. -/
def Part.recallSent (p : Part) (shot : Shot) : Bool :=
  !(p.director.aimed.any fun r => r.shot = shot) && !p.director.standsAt shot

/-- A seat becomes active speaker with cause SWITCH (R132, R135). -/
def Part.becomeActive (s : Seat) (p : Part) : Part :=
  let previous := p.director.active
  let active := (p.setActive (some s)).modDirector fun d => { d with idle := 0 }
  let shot := active.shotFor s
  let sent := active.recallSent shot
  let aimed := active.aim s shot
  aimed.notify (.activeSpeaker (some s) previous .switch (some shot) sent aimed.director.follow)

/-- The active speaker becomes NONE with a cause (R134, R135). -/
def Part.becomeNone (cause : ActiveCause) (p : Part) : Part :=
  let previous := p.director.active
  ((p.setActive none).dropRecall.setFollow .wide).notify (.activeSpeaker none previous cause none false .wide)

/-- The settle of the pending recall has ended: the re-check of R133. -/
def Part.settleEnded (p : Part) : Part :=
  match p.director.aimed with
  | none => p
  | some r =>
    if r.settle ≠ 0 then p
    else
      let cleared := p.dropRecall
      if p.director.active = some r.seat then
        let shot := p.shotFor r.seat
        if shot = r.shot then cleared.setFollow (.cam shot.camera) else cleared.aim r.seat shot
      else cleared

/-! ## Choosing the active speaker -/

/-- Clears the candidate and the hold count. -/
def Director.clearCandidate (d : Director) : Director := { d with candidate := none, hold := 0 }

/-- The hold count at a completion at which `chosen` was chosen (R128). -/
def Director.countHold (chosen : Option Seat) (d : Director) : Director :=
  match chosen with
  | none => d.clearCandidate
  | some s =>
    if d.active = some s then d.clearCandidate
    else if d.candidate = some s then { d with hold := d.hold + 1 }
    else { d with candidate := some s, hold := 1 }

/-- The idle count at a completion at which `chosen` was chosen (R129). -/
def Director.countIdle (chosen : Option Seat) (d : Director) : Director :=
  if d.active.isSome && chosen.isNone then { d with idle := d.idle + 1 } else { d with idle := 0 }

/-- One block completion at the settle of the pending recall (R126, step 1). -/
def Director.countSettle (d : Director) : Director :=
  { d with aimed := d.aimed.map fun r => { r with settle := r.settle - 1 } }

/-- The director's counting at a block completion (R126): settle, candidate, hold and idle counts. What falls due from it is
taken by SETTLE_END, ACTIVE_SPEAKER_SWITCH and ACTIVE_SPEAKER_IDLE (log 2). -/
def Director.count (chosen : Option Seat) (d : Director) : Director := (d.countSettle.countHold chosen).countIdle chosen

/-- The steps that the director's counting makes due, in the order of R126. -/
def Director.due (chosen : Option Seat) (d : Director) : List Owed :=
  (if d.aimed.any fun r => r.settle = 0 then [.settle] else []) ++
  (if chosen.isSome && d.candidate.isSome && d.switchHold ≤ d.hold then [.switch] else []) ++
  (if chosen.isNone && d.active.isSome && d.idleTime * 1000 ≤ d.idle then [.idle] else [])

/-- The hold count has reached the switch hold: the candidate becomes active speaker (R128, R132). -/
def Part.switchDue (p : Part) : Part :=
  match p.director.candidate with
  | some s => if p.director.switchHold ≤ p.director.hold then (p.becomeActive s).modDirector Director.clearCandidate else p
  | none => p

/-- The idle count has reached the idle time: the active speaker becomes NONE (R129). -/
def Part.idleDue (p : Part) : Part :=
  if p.director.active.isSome && p.director.idleTime * 1000 ≤ p.director.idle then
    (p.becomeNone .idle).modDirector fun d => { d with idle := 0 }
  else p

/-- The floor controller hands over the close of a microphone (R130). -/
def Part.directorClose (s : Seat) (p : Part) : Part :=
  if p.director.active = some s then
    (p.becomeNone .micClosed).modDirector fun d => { d.clearCandidate with idle := 0 }
  else if p.director.candidate = some s then p.modDirector Director.clearCandidate
  else p

/-! ## Sessions and standby -/

/-- A session closes (R136). -/
def Part.directorSessionClose (p : Part) : Part :=
  let quiet := if p.director.active.isSome then p.becomeNone .sessionEnd else p.dropRecall.setFollow .wide
  quiet.modDirector fun d => { d.clearCandidate with idle := 0 }

/-- The room enters standby (R137). -/
def Part.directorStandby (p : Part) : Part := p.dropRecall.setFollow .wide

end Sys2Proof.Machine
end

