-- ==== Sys2Proof/Machine/Floor.lean ====
section
/-!
DEFINITION. The floor controller: opening and closing a microphone (R49, R50), grant resolution (R51 to R54), auto-advance (R55),
VOICE mode (R56, R57), and the floor's part in changes of seats, chains, standings and sessions (R66 to R70).
-/
namespace Sys2Proof.Machine

/-! ## Lists of the floor -/

/-- The request queue without a seat (R45). -/
def Floor.dequeue (s : Seat) (f : Floor) : Floor := { f with queue := f.queue.filter fun e => e.seat ≠ s }

/-- The held-press set without a seat (R46). -/
def Floor.dropHeld (s : Seat) (f : Floor) : Floor := { f with held := f.held.filter fun e => e.seat ≠ s }

/-- The frames without a seat; each frame keeps its other entries in order (R73). -/
def Floor.leaveFrames (s : Seat) (f : Floor) : Floor :=
  { f with stack := f.stack.map fun r => { r with saved := r.saved.filter fun e => e.seat ≠ s } }

/-- A seat's voice onset count (R56). -/
def Floor.onset (f : Floor) (s : Seat) : Nat := f.onsets.getD s.val 0

/-- Sets a seat's voice onset count (R56). -/
def Floor.setOnset (s : Seat) (n : Nat) (f : Floor) : Floor := { f with onsets := updateAt (fun _ => n) f.onsets s.val }

/-- Writes the speaker list entry of a seat. -/
def Floor.modSpeaker (s : Seat) (g : Speaker → Speaker) (f : Floor) : Floor :=
  { f with speakers := f.speakers.map fun e => if e.seat = s then g e else e }

/-- Appends a seat to the request queue with the next enqueue sequence number; it leaves the held-press set (R45, R54). -/
def Floor.append (s : Seat) (source : Source) (f : Floor) : Floor :=
  { f.dropHeld s with
    queue := f.queue ++ [⟨s, f.enqueueSeq + 1, source⟩]
    enqueueSeq := f.enqueueSeq + 1 }

/-- Whether the request queue holds 32 entries (R45). -/
def Floor.queueFull (f : Floor) : Bool := 32 ≤ f.queue.length

/-- The SOURCE recorded for a seat that the device places in the queue (R45). -/
def queuedSource : Source → Source
  | .chair => .button
  | .auto => .button
  | .button => .button
  | .voice => .voice
  | .controller => .controller

/-! ## Opening and closing (R49, R50) -/

/-- The remaining speech time of an entry opened by a grant (R49, R87). -/
def FloorPreset.grantTime (preset : FloorPreset) : Kind → Option Nat
  | .delegate => if 0 < preset.speechLimit then some preset.speechLimit else none
  | .chair => none

/-- Steps 1 to 3 of R49, and the opening seat's leave of its frame (R73): the floor with the new entry at the tail. -/
def Floor.opened (e : Speaker) (f : Floor) : Floor :=
  let left := ((f.dequeue e.seat).dropHeld e.seat).leaveFrames e.seat
  { left.setOnset e.seat 0 with speakers := f.speakers ++ [e], grantSeq := e.grantNo }

/-- Hands an opening to the chain controller: the lane is assigned, and MIC_STATE queued when the seat is PRESENT (R170). -/
def Part.chainOpen (s : Seat) (lane : Nat) (p : Part) : Part :=
  (p.modChain (chainOf s) fun c =>
    { c with lanes := updateAt (fun l : Lane => { l with assigned := some s }) c.lanes lane }).queueIfPresent s (.micOpen lane)

/-- Hands a close to the chain controller (R170). -/
def Part.chainClose (s : Seat) (lane : Nat) (p : Part) : Part :=
  (p.modChain (chainOf s) fun c =>
    { c with lanes := updateAt (fun l : Lane => { l with assigned := none }) c.lanes lane }).queueIfPresent s .micClosed

/-- Opens a microphone with the entry given, and hands the opening over (R49). -/
def Part.openWith (e : Speaker) (p : Part) : Part :=
  let wasQueued := p.isQueued e.seat
  let noticed := (p.modFloor (Floor.opened e)).notify
    (.micOpened e.seat e.kind e.grantNo e.channel e.lane e.remaining e.source)
  let handed := (((noticed.chainOpen e.seat e.lane).mixerOpen e.seat e.channel e.kind).reexamine e.seat).derive e.seat
  if wasQueued then handed.deriveQueued else handed

/-- Opens a microphone by R49 with the lowest free channel and lane; `restored` carries the remaining time and the warned flag of
a restore (R80). Without a free lane or channel nothing opens; every caller has tested for them (R48). -/
def Part.openMic (s : Seat) (kind : Kind) (source : Source) (duringFreeze : Bool) (restored : Option (Option Nat × Bool))
    (p : Part) : Part :=
  match p.freeLane (chainOf s), p.freeChannel with
  | some lane, some channel =>
    let (remaining, warned) := restored.getD (p.floor.preset.grantTime kind, false)
    p.openWith ⟨s, kind, p.floor.grantSeq + 1, channel, lane, remaining, warned, duringFreeze, source, 0⟩
  | _, _ => p

/-- Closes the microphone of an entry and hands the close over (R50). Without a cause it is a close of a take, which sends no
MIC_CLOSED (R75). The screen router does not re-examine a SESSION_END close (R151). -/
def Part.closeWith (e : Speaker) (cause : Option CloseCause) (p : Part) : Part :=
  let live := (p.chain (chainOf e.seat)).laneLive e.lane
  let removed := p.modFloor fun f => { f with speakers := f.speakers.filter fun x => x.seat ≠ e.seat }
  let noticed :=
    match cause with
    | some c => removed.notify (.micClosed e.seat e.kind c e.grantNo e.channel e.lane e.remaining)
    | none => removed
  let handed := ((noticed.chainClose e.seat e.lane).mixerClose e.seat e.channel e.lane live).directorClose e.seat
  let examined := if cause = some .sessionEnd then handed else handed.reexamine e.seat
  examined.derive e.seat

/-- Closes a seat's microphone (R50); nothing when it is not open. -/
def Part.closeMic (s : Seat) (cause : Option CloseCause) (p : Part) : Part :=
  match p.speaker? s with
  | some e => p.closeWith e cause
  | none => p

/-- Closes the microphones of the named seats, one after another. -/
def Part.closeSeats (seats : List Seat) (cause : Option CloseCause) (p : Part) : Part :=
  seats.foldl (fun q s => q.closeMic s cause) p

/-- The seats of the speaker list, oldest first. -/
def Floor.speakerSeats (f : Floor) : List Seat := f.speakers.map Speaker.seat

/-- The seats of the DELEGATE entries, oldest first. -/
def Floor.delegateSeats (f : Floor) : List Seat := (f.speakers.filter fun e => e.kind = .delegate).map Speaker.seat

/-! ## Auto-advance and the end of a floor event (R45, R55) -/

/-- The first queued seat whose chain has a free lane (R55). -/
def Part.nextQueued (p : Part) : Option Seat :=
  (p.floor.queue.find? fun e => (p.freeLane (chainOf e.seat)).isSome).map QueueEntry.seat

/-- The grants of an auto-advance pass (R55); `fuel` bounds them, and a queue holds at most 32 entries. -/
def Part.advanceWith : Nat → Part → Part
  | 0, p => p
  | fuel + 1, p =>
    if p.slotFree then
      match p.nextQueued with
      | some s => (p.openMic s .delegate .auto false none).advanceWith fuel
      | none => p
    else p

/-- The auto-advance pass (R55). -/
def Part.autoAdvance (p : Part) : Part :=
  if p.isOpen && p.floor.preset.autoAdvance && !p.frozen then p.advanceWith 32 else p

/-- The end of the floor's work for one event: one QUEUE_CHANGED when the queue is not as it was, or when a restore has placed a
seat in the head region (R45, R80). -/
def Part.endFloorEvent (before : List QueueEntry) (p : Part) : Part :=
  if p.floor.queue ≠ before || p.floor.headPlaced then
    (p.modFloor fun f => { f with headPlaced := false }).notify (.queueChanged (p.floor.queue.map QueueEntry.seat))
  else p

/-- The floor controller takes one event: its work, the auto-advance pass, QUEUE_CHANGED (R45, R55). -/
def Part.floorEvent (work : Part → Part) (p : Part) : Part := ((work p).autoAdvance).endFloorEvent p.floor.queue

/-! ## Grant resolution (R51 to R54) -/

/-- What became of a request for the floor. -/
inductive Verdict where
  | opened
  | queued
  | ignored
  | denied
  deriving DecidableEq, Repr

/-- Appends a seat to the queue, and derives it (R54). -/
def Part.appendSeat (s : Seat) (source : Source) (p : Part) : Part := (p.modFloor (Floor.append s source)).derive s

/-- Appends, or denies with QUEUE_FULL when the queue holds 32 entries (R54). -/
def Part.appendOrFull (s : Seat) (source : Source) (p : Part) : Verdict × Part :=
  if p.floor.queueFull then (.denied, p.notify (.queueFull s)) else (.queued, p.appendSeat s source)

/-- The DELEGATE entry that REPLACE_OLDEST closes for a seat: the oldest overall when only the slot is lacking, the oldest on the
seat's chain when the lane is lacking (R53). -/
def Part.replaced (p : Part) (s : Seat) : Option Speaker :=
  if (p.freeLane (chainOf s)).isSome then p.oldestDelegate else p.oldestDelegateOn (chainOf s)

/-- Whether a delegate slot and a lane of the seat's chain are free (R53). -/
def Part.resourcesFree (p : Part) (s : Seat) : Bool := p.slotFree && (p.freeLane (chainOf s)).isSome

/-- Closes the entry that is replaced and opens the seat (R53). -/
def Part.replaceWith (e : Speaker) (s : Seat) (source : Source) (duringFreeze : Bool) (p : Part) : Part :=
  (p.closeWith e (some .replaced)).openMic s .delegate source duringFreeze none

/-- A delegate's request in mode DIRECT or VOICE (R53). -/
def Part.requestDelegate (s : Seat) (source : Source) (p : Part) : Verdict × Part :=
  if p.resourcesFree s then (.opened, p.openMic s .delegate source false none)
  else
    match p.floor.preset.overflow with
    | .queue => p.appendOrFull s source
    | .deny => (.denied, p)
    | .replaceOldest =>
      match p.replaced s with
      | some e => (.opened, p.replaceWith e s source false)
      | none => (.denied, p)

/-- A preempted delegate is placed at the head of the request queue with a new enqueue sequence number, or named in QUEUE_FULL
when the queue is full (R52). -/
def Part.requeuePreempted (e : Speaker) (p : Part) : Part :=
  if p.floor.queueFull then p.notify (.queueFull e.seat)
  else
    Part.deriveQueued (p.modFloor fun f =>
      { f with
        queue := ⟨e.seat, f.enqueueSeq + 1, queuedSource e.source⟩ :: f.queue
        enqueueSeq := f.enqueueSeq + 1 })

/-- A chair's request for a seat that is not in the speaker list (R52). -/
def Part.openChair (s : Seat) (source : Source) (p : Part) : Verdict × Part :=
  if (p.freeLane (chainOf s)).isSome then (.opened, p.openMic s .chair source false none)
  else
    match p.newestDelegateOn (chainOf s) with
    | some e =>
      (.opened, ((p.closeWith e (some .lanePreempted)).requeuePreempted e).openMic s .chair source false none)
    | none => (.denied, p)

/-- A chair's request (R52). -/
def Part.requestChair (s : Seat) (source : Source) (p : Part) : Verdict × Part :=
  if p.speaking s then
    if p.floor.preset.selfClose then (.ignored, p.closeMic s (some .self)) else (.ignored, p)
  else p.openChair s source

/-- Takes a seat out of the queue, and derives it and then the seats that stay, head first (R45, log 47). -/
def Part.withdraw (s : Seat) (p : Part) : Part := ((p.modFloor (Floor.dequeue s)).derive s).deriveQueued

/-- Takes a seat out of the held-press set, and derives it (R46). -/
def Part.unhold (s : Seat) (p : Part) : Part := (p.modFloor (Floor.dropHeld s)).derive s

/-- Denies the press when the resolution denied it (R54). -/
def Part.denyIfDenied (s : Seat) (r : Verdict × Part) : Part := if r.1 = .denied then r.2.deny s else r.2

/-- A SPEAK press resolved by the first line of R51 that matches. `pressNo` is the press sequence number. -/
def Part.resolvePress (s : Seat) (pressNo : Word32) (source : Source) (p : Part) : Part :=
  if !p.isOpen then p.deny s
  else
    match (p.seat s).standing with
    | .out => p.deny s
    | .listener => p.deny s
    | .chair => Part.denyIfDenied s (p.requestChair s source)
    | .delegate =>
      if p.speaking s then if p.floor.preset.selfClose then p.closeMic s (some .self) else p
      else if p.isQueued s then if p.floor.preset.withdraw then p.withdraw s else p
      else if p.isHeldPress s then if p.floor.preset.withdraw then p.unhold s else p
      else if p.frozen then (p.modFloor fun f => { f with held := f.held ++ [⟨s, pressNo⟩] }).derive s
      else
        match p.floor.preset.mode with
        | .queued => Part.denyIfDenied s (p.appendOrFull s source)
        | .direct => Part.denyIfDenied s (p.requestDelegate s source)
        | .voice => Part.denyIfDenied s (p.requestDelegate s source)

/-- A voice onset resolved by R51; a denied onset sets no flag (R54). -/
def Part.resolveVoice (s : Seat) (p : Part) : Part :=
  if p.isOpen && (p.seat s).standing = .delegate && !p.speaking s && !p.isQueued s && !p.isHeldPress s && !p.frozen then
    (p.requestDelegate s .voice).2
  else p

/-- A voice report of a PRESENT seat (R56): the onset count of a closed microphone, or the silence count of a VOICE-held one
(R57). -/
def Part.voiceReport (s : Seat) (voice : Bool) (p : Part) : Part :=
  match p.speaker? s with
  | some e =>
    if voice && p.voiceHeld e then p.modFloor (Floor.modSpeaker s fun x => { x with silence := 0 }) else p
  | none =>
    if !voice then p.modFloor (Floor.setOnset s 0)
    else
      match p.floor.onset s with
      | 0 => p.modFloor (Floor.setOnset s 1)
      | 1 =>
        let counted := p.modFloor (Floor.setOnset s 2)
        if p.floor.preset.mode = .voice then counted.resolveVoice s else counted
      | _ => p

/-! ## Seats, chains, standings and sessions -/

/-- The floor's work when a seat becomes SILENT or ABSENT (R66). -/
def Part.floorLost (s : Seat) (p : Part) : Part :=
  let closed := p.closeMic s (some .seatLost)
  let removed := (closed.modFloor fun f => ((f.dequeue s).dropHeld s).setOnset s 0).derive s
  if p.isQueued s then removed.deriveQueued else removed

/-- The floor's work when a chain's lane count becomes 0 at the start of a retrain (R67). -/
def Part.floorRetrain (c : Chain) (p : Part) : Part :=
  let closed := p.closeSeats (p.floor.speakerSeats.filter fun s => chainOf s = c) (some .chainRetrain)
  closed.modFloor fun f => (chainSeats c).foldl (fun g s => g.setOnset s 0) f

/-- A delegate's entry becomes a CHAIR entry (R68). -/
def Speaker.becomeChair (e : Speaker) : Speaker :=
  { e with kind := .chair, remaining := none, warned := false, duringFreeze := false }

/-- The floor's work for a change of standing during a session: the table of R68, by which a chair made DELEGATE loses its microphone
(log 27). -/
def Part.floorStanding (s : Seat) (old new : Standing) (p : Part) : Part :=
  match old with
  | .delegate =>
    let acted :=
      if new = .chair then p.modFloor (Floor.modSpeaker s Speaker.becomeChair)
      else p.closeMic s (some .standingChanged)
    let removed := (acted.modFloor fun f => (f.dequeue s).dropHeld s).derive s
    if p.isQueued s then removed.deriveQueued else removed
  | .chair => p.closeMic s (some .standingChanged)
  | .listener => p
  | .out => p

/-- The floor's work when a session closes (R70). The seats that waited are derived again in queue order and then in the order of their
held presses (log 47). -/
def Part.floorSessionClose (p : Part) : Part :=
  let closed := p.closeSeats p.floor.speakerSeats (some .sessionEnd)
  let waiting := p.floor.queue.map QueueEntry.seat ++ p.floor.held.map HeldPress.seat
  (closed.modFloor fun f =>
    { f with queue := [], held := [], onsets := f.onsets.map fun _ => 0 }).deriveSeats waiting

end Sys2Proof.Machine
end

