-- ==== Sys2Proof/Machine/Priority.lean ====
section
/-!
DEFINITION. Chair priority and the resume stack: leaving a frame (R73), taking (R74 to R77), releasing and popping (R78 to R81),
floor reset (R82), losing a holder (R83), session close (R84).
-/
namespace Sys2Proof.Machine

/-! ## Holders and frames -/

/-- The condition of a holder (R71). -/
def Floor.condition? (f : Floor) (h : Holder) : Option Condition := (f.holders.find? fun x => x.1 = h).map Prod.snd

/-- Whether a frame on the stack names this party with its release mark set (R74). -/
def Floor.markedFrame (f : Floor) (h : Holder) : Bool := f.stack.any fun r => r.holder = h && r.released

/-- The seats saved in all frames. -/
def Floor.savedSeats (f : Floor) : List Seat := f.stack.flatMap fun r => r.saved.map Saved.seat

/-- The seats that hold priority. -/
def Floor.holderSeats (f : Floor) : List Seat :=
  f.holders.filterMap fun x =>
    match x.1 with
    | .seat s => some s
    | .controller => none

/-- PRIORITY_CHANGED with the stack depth and the holder count as they now stand (R86). -/
def Part.notifyPriority (action : PriorityAction) (holder : Option Holder) (seats : List Seat) (p : Part) : Part :=
  p.notify (.priorityChanged action holder seats p.floor.stack.length p.floor.holders.length)

/-- Derives the ring of a holder that is a seat (R71). -/
def Part.deriveHolder (h : Holder) (p : Part) : Part :=
  match h with
  | .seat s => p.derive s
  | .controller => p

/-- A party joins the holder set as FRAMED, at the tail of its order (R74, R75, log 39). -/
def Part.join (h : Holder) (p : Part) : Part :=
  (p.modFloor fun f => { f with holders := f.holders ++ [(h, .framed)] }).deriveHolder h

/-- A party leaves the holder set (R71). -/
def Part.leave (h : Holder) (p : Part) : Part :=
  (p.modFloor fun f => { f with holders := f.holders.filter fun x => x.1 ≠ h }).deriveHolder h

/-- A seat leaves its saved speaker entry (R73). -/
def Part.leaveSaved (s : Seat) (p : Part) : Part :=
  if p.isSaved s then ((p.modFloor (Floor.leaveFrames s)).reexamine s).derive s else p

/-! ## Floor reset (R82) -/

/-- The work of a floor reset (R82). The seats concerned are derived again in this order: those queued, those with a held press, those
saved (top frame first, in saved order), the holders (log 47). -/
def Part.floorReset (p : Part) : Part :=
  let closed := p.closeSeats p.floor.delegateSeats (some .floorReset)
  let concerned :=
    p.floor.queue.map QueueEntry.seat ++ p.floor.held.map HeldPress.seat ++ p.floor.savedSeats ++ p.floor.holderSeats
  let cleared := closed.modFloor fun f => { f with queue := [], held := [], stack := [], holders := [] }
  let noticed :=
    if p.floor.stack.isEmpty && p.floor.holders.isEmpty then cleared else cleared.notifyPriority .cleared none []
  (noticed.deriveSeats concerned).reexamineAll

/-! ## Taking priority (R74 to R77) -/

/-- What a frame saves of a speaker list entry (R72). -/
def Speaker.saved (e : Speaker) : Saved := ⟨e.seat, e.source, e.remaining, e.warned, e.duringFreeze⟩

/-- The bottom frame is discarded, and its holder, when the frame is not marked released, becomes UNFRAMED (R76). -/
def Floor.dropBottom (frame : ResumeFrame) (f : Floor) : Floor :=
  { f with
    stack := f.stack.dropLast
    holders :=
      if frame.released then f.holders
      else f.holders.map fun x => if x.1 = frame.holder then (x.1, .unframed) else x }

/-- Stack overflow policy DISCARD_OLDEST (R76). The seats the frame saved are derived again in saved order (log 47). -/
def Part.discardBottom (p : Part) : Part :=
  match p.floor.stack.getLast? with
  | none => p
  | some frame =>
    let seats := frame.saved.map Saved.seat
    let removed := p.modFloor (Floor.dropBottom frame)
    let lost := if seats.isEmpty then removed else removed.notify (.resumeLost frame.holder .discarded seats)
    ((lost.notifyPriority .discarded (some frame.holder) []).reexamineSeats seats).deriveSeats seats

/-- Step 1 of R75: room on a full stack, by the stack overflow policy (R76, R77). -/
def Part.makeRoom (p : Part) : Part :=
  if p.floor.stack.length < 4 then p
  else
    match p.floor.preset.stackPolicy with
    | .discardOldest => p.discardBottom
    | .clearFloor => p.floorReset

/-- Step 5 of R75: a chair that takes priority opens its microphone when it is not open and R52 can open it. -/
def Part.chairMic (h : Holder) (p : Part) : Part :=
  match h with
  | .seat s => if p.speaking s then p else (p.openChair s .chair).2
  | .controller => p

/-- A take by a holder (R75). -/
def Part.take (h : Holder) (p : Part) : Part :=
  let room := p.makeRoom
  let saved := (room.floor.speakers.filter fun e => e.kind = .delegate).map Speaker.saved
  let seats := saved.map Saved.seat
  let pushed := room.modFloor fun f => { f with stack := ⟨h, false, saved⟩ :: f.stack }
  (((pushed.closeSeats seats none).join h).notifyPriority .taken (some h) seats).chairMic h

/-- A retake: the release mark is cleared and the party rejoins as FRAMED (R74, R85). -/
def Part.retake (h : Holder) (p : Part) : Part :=
  let cleared := p.modFloor fun f =>
    { f with stack := f.stack.map fun r => if r.holder = h then { r with released := false } else r }
  ((cleared.join h).notifyPriority .retaken (some h) []).chairMic h

/-! ## Releasing priority (R78 to R81) -/

/-- The processing of the held-press set once the stack is empty (R81). -/
def Part.processHeld (p : Part) : Part :=
  p.floor.held.foldl (init := p) fun q e =>
    if q.isHeldPress e.seat then
      ((q.modFloor (Floor.dropHeld e.seat)).resolvePress e.seat e.pressNo .button).derive e.seat
    else q

/-- A saved seat is placed in the head region, behind the `k` seats this frame's restore has placed there (R80). -/
def Floor.placeHead (k : Nat) (e : Saved) (f : Floor) : Floor :=
  let waiting := f.queue.find? fun x => x.seat = e.seat
  let entry := waiting.getD ⟨e.seat, f.enqueueSeq + 1, queuedSource e.source⟩
  let rest := f.queue.filter fun x => x.seat ≠ e.seat
  { f.dropHeld e.seat with
    queue := rest.take k ++ entry :: rest.drop k
    enqueueSeq := if waiting.isSome then f.enqueueSeq else f.enqueueSeq + 1
    headPlaced := true }

/-- A restore in progress: the part, the number of seats placed in the head region, and the seats dropped (R80). -/
structure Restore where
  part : Part
  placed : Nat
  dropped : List Seat

/-- One saved seat restored: reopened, queued or dropped (R80); then the screen router re-examines its share (R151). A seat placed in
the queue is derived before the seats that now stand there (log 47). -/
def Restore.seat (r : Restore) (e : Saved) : Restore :=
  let p := r.part
  if (p.seat e.seat).link = .present && p.resourcesFree e.seat then
    { r with part := (p.openMic e.seat .delegate e.source p.frozen (some (e.remaining, e.warned))).reexamine e.seat }
  else if !p.isQueued e.seat && p.floor.queueFull then
    { r with part := (p.derive e.seat).reexamine e.seat, dropped := r.dropped ++ [e.seat] }
  else
    { r with
      part := (((p.modFloor (Floor.placeHead r.placed e)).derive e.seat).deriveQueued).reexamine e.seat
      placed := r.placed + 1 }

/-- The saved speakers of a popped frame are restored in saved order; those dropped are named in one RESUME_LOST (R80). -/
def Part.restoreFrame (frame : ResumeFrame) (p : Part) : Part :=
  let done := frame.saved.foldl Restore.seat ⟨p, 0, []⟩
  if done.dropped.isEmpty then done.part
  else done.part.notify (.resumeLost frame.holder .queueFull done.dropped)

/-- Pops the top frame, and then every marked frame that comes to the top; an empty stack releases the held presses (R79).
`fuel` bounds the pops. -/
def Part.popWith : Nat → Part → Part
  | 0, p => p
  | fuel + 1, p =>
    match p.floor.stack with
    | [] => p
    | top :: rest =>
      let popped := (p.modFloor fun f => { f with stack := rest }).notifyPriority .released (some top.holder)
        (top.saved.map Saved.seat)
      let restored := popped.restoreFrame top
      match rest with
      | [] => restored.processHeld
      | next :: _ => if next.released then restored.popWith fuel else restored

/-- Pops a released top frame (R79). -/
def Part.pop (p : Part) : Part := p.popWith p.floor.stack.length

/-- A release by a party, by its condition and the place of its frame (R78); a party that holds nothing changes nothing. -/
def Part.release (h : Holder) (p : Part) : Part :=
  match p.floor.condition? h with
  | none => p
  | some .unframed => (p.leave h).notifyPriority .ended (some h) []
  | some .framed =>
    if p.floor.stack.head?.any fun r => r.holder = h then (p.leave h).pop
    else
      let marked := p.modFloor fun f =>
        { f with stack := f.stack.map fun r => if r.holder = h then { r with released := true } else r }
      (marked.leave h).notifyPriority .releasePending (some h) []

/-- Takes priority, or takes it again when a marked frame names the party (R74, R85). -/
def Part.takeOrRetake (h : Holder) (p : Part) : Part := if p.floor.markedFrame h then p.retake h else p.take h

/-- A chair's AUX press (R74). -/
def Part.chairAux (s : Seat) (p : Part) : Part :=
  if p.holds (.seat s) then p.release (.seat s) else p.takeOrRetake (.seat s)

/-! ## Seats, standings and session close -/

/-- The floor's and then the priority mechanism's work when a seat becomes SILENT or ABSENT (R66, R73, R83). -/
def Part.lostSeat (s : Seat) (p : Part) : Part := ((p.floorLost s).leaveSaved s).release (.seat s)

/-- The floor's and then the priority mechanism's work for a change of standing (R68, R73, R83). -/
def Part.changedStanding (s : Seat) (old new : Standing) (p : Part) : Part :=
  let floor := p.floorStanding s old new
  match old with
  | .delegate => floor.leaveSaved s
  | .chair => floor.release (.seat s)
  | .listener => floor
  | .out => floor

/-- The priority mechanism's work when a session closes (R84). The seats concerned are derived again in this order: those saved (top
frame first, in saved order), then the holders (log 47). -/
def Part.clearPriority (p : Part) : Part :=
  let concerned := p.floor.savedSeats ++ p.floor.holderSeats
  let cleared := p.modFloor fun f => { f with stack := [], holders := [] }
  let noticed :=
    if p.floor.stack.isEmpty && p.floor.holders.isEmpty then cleared else cleared.notifyPriority .cleared none []
  noticed.deriveSeats concerned

end Sys2Proof.Machine
end

