-- ==== Sys2Proof/Machine/Speech.lean ====
section
/-!
DEFINITION. Speech timing and attendance: the floor controller's part of a second tick (R89 to R91, R97), the silence counts
(R57), EXTEND_SPEECH's rule (R94) and the attendance list (R99).
-/
namespace Sys2Proof.Machine

/-! ## Attendance (R95 to R99) -/

/-- The attendance record of a session that opens (R95). -/
def clearAttendance : List Attendance := List.replicate 64 ⟨0, false⟩

/-- Credits a seat one speaking second, up to 65535 (R96, R97). -/
def Session.credit (s : Seat) (d : Session) : Session :=
  { d with
    attendance := updateAt (fun a : Attendance => { a with seconds := countUpTo 65535 a.seconds }) d.attendance s.val }

/-- Sets the present flag of every seat that is PRESENT with standing DELEGATE or CHAIR (R97). -/
def Part.markPresent (p : Part) : Part :=
  p.modSession fun d =>
    { d with
      attendance := List.zipWith
        (fun a r => { a with present := a.present || (r.link = .present && r.standing.speaks) }) d.attendance p.seats }

/-- The attendance list: the seats that spoke or were present, in seat order (R99). -/
def attendanceList (record : List Attendance) : List (Seat × Nat) :=
  (allSeats.zip record).filterMap fun x => if 0 < x.2.seconds || x.2.present then some (x.1, x.2.seconds) else none

/-! ## Speech timers (R87 to R91) -/

/-- One second less, but not below 0; an absent time stays absent (R89). -/
def Speaker.countSecond (e : Speaker) : Speaker := { e with remaining := e.remaining.map fun t => t - 1 }

/-- The warning test of R90 for an entry with a remaining time, after the decrement. -/
def Speaker.warnDue (lead : Nat) (e : Speaker) : Bool := !e.warned && e.remaining.any fun t => 0 < lead && t ≤ lead

/-- Steps 1 to 3 of R89 for one entry of the speaker list. -/
def Part.tickEntry (s : Seat) (p : Part) : Part :=
  match p.speaker? s with
  | none => p
  | some e =>
    let counted := e.countSecond
    let lead := p.floor.preset.warnLead
    let stored := (p.modSession (Session.credit s)).modFloor (Floor.modSpeaker s fun _ => counted)
    if counted.warnDue lead then
      ((stored.modFloor (Floor.modSpeaker s fun x => { x with warned := true })).notify
        (.speechWarning s e.grantNo (counted.remaining.getD 0) lead)).derive s
    else stored.derive s

/-- Whether an entry stands at 0, so that its expiry test acts (R91). -/
def Part.atZero (p : Part) (s : Seat) : Bool := (p.speaker? s).any fun e => e.remaining = some 0

/-- The expiry test of an entry that stands at 0 (R91). -/
def Part.expire (s : Seat) (p : Part) : Part :=
  if p.atZero s then
    match p.floor.preset.expiry with
    | .close => p.closeMic s (some .timer)
    | .warnOnly => p
  else p

/-- Whether the silence count of a seat's entry counts and has reached the voice hold (R57). A count that stands at the hold while the
seat's voice flag is set does not count, and closes nothing (log 44). -/
def Part.silenceDue (p : Part) (s : Seat) : Bool :=
  (p.speaker? s).any fun e => p.voiceHeld e && !(p.seat s).voice && p.floor.preset.voiceHold ≤ e.silence

/-- One second tick at the silence count of a VOICE-held entry whose seat's voice flag is clear (R57). -/
def Part.tickSilence (s : Seat) (p : Part) : Part :=
  match p.speaker? s with
  | none => p
  | some e =>
    if p.voiceHeld e && !(p.seat s).voice then
      p.modFloor (Floor.modSpeaker s fun x => { x with silence := countUpTo 30 x.silence })
    else p

/-- The silence count has reached the voice hold: the microphone closes (R57). -/
def Part.silenceClose (s : Seat) (p : Part) : Part := if p.silenceDue s then p.closeMic s (some .voiceSilence) else p

/-! ## EXTEND_SPEECH (R94) -/

/-- Line 5 of R94 for an entry with a remaining time `r` and `asked` seconds: the new time is stored, and the warned flag is
cleared when it lies above the warn lead in force. -/
def Part.extendEntry (s : Seat) (time : Nat) (p : Part) : Part :=
  let lead := p.floor.preset.warnLead
  (p.modFloor (Floor.modSpeaker s fun e =>
    { e with remaining := some time, warned := e.warned && time ≤ lead })).derive s

end Sys2Proof.Machine
end

