-- ==== Sys2Proof/Machine/Scheduler.lean ====
section
/-!
DEFINITION. The room scheduler: the clock (R18), standby and wake (R39 to R42), opening and closing a session (R26, R29, R31), the
booking work (R32, R35), and a press at the scheduler (R36, R37).
-/
namespace Sys2Proof.Machine

/-! ## The clock (R18) -/

/-- The last second of the clock: day 65535, 23:59:59 (R18). -/
def Time.last : Time := ⟨65535, 1439, 59⟩

/-- The time one second later; the last second is followed by day 0, 00:00:00 (R18). -/
def Time.next (t : Time) : Time :=
  if t.second < 59 then { t with second := t.second + 1 }
  else if t.minute < 1439 then ⟨t.day, t.minute + 1, 0⟩
  else if t.day < 65535 then ⟨t.day + 1, 0, 0⟩
  else ⟨0, 0, 0⟩

/-- The clock advances by one second; after its last second it is no longer valid (R18). -/
def Part.moveClock (p : Part) : Part :=
  p.modSched fun d => { d with clock := d.clock.next, valid := d.valid && d.clock ≠ Time.last }

/-! ## Broadcasts (R181) -/

/-- A broadcast of the session title becomes pending on an ACTIVE chain (R181). -/
def Part.pendBroadcast (c : Chain) (p : Part) : Part :=
  p.modChain c fun k => if k.state = .active then { k with broadcast := some p.sessionTitle } else k

/-! ## Standby and wake (R39 to R41) -/

/-- The standby delay timer restarts; while a session is OPEN it stays stopped (R39). -/
def Scheduler.restart (d : Scheduler) : Scheduler :=
  if d.session.isSome then d else { d with timer := some (d.delay * 60) }

/-- Both chains take a poll rate (R171). -/
def Part.setRate (rate : PollRate) (p : Part) : Part :=
  (p.modChain .A fun k => { k with rate := rate }).modChain .B fun k => { k with rate := rate }

/-- The room enters standby: the last case of R40, handed to the other blocks (R118, R137, R147, R171). -/
def Part.enterStandby (p : Part) : Part :=
  let entered := (p.modSched fun d => { d with standby := .standby, timer := none }).notify (.standbyChanged .standby)
  (((entered.deriveAll.modMixer fun m => { m with outputForced := true }).directorStandby).screensStandby).setRate .slow

/-- A wake event (R41): awake, the timer restarts; in standby, the room wakes and hands the wake to the other blocks. -/
def Part.wakeEvent (p : Part) : Part :=
  if p.inStandby then
    let awake := ((p.modSched fun d => { d with standby := .awake }).notify (.standbyChanged .awake)).modSched Scheduler.restart
    ((awake.deriveAll.modMixer fun m => { m with outputForced := false }).recomputeScreens).setRate .normal
  else p.modSched Scheduler.restart

/-- Whether the first PENDING booking starts 15 minutes or fewer from now, under a valid clock (R40). -/
def Part.bookingNear (p : Part) : Bool :=
  p.sched.valid && (p.sched.bookings.find? fun b => b.state = .pending).any fun b => b.start ≤ p.now + 15

/-- Whether a wake event is pending (R40): a press not yet taken, or a request of R41's list not yet answered. -/
def Part.wakePending (p : Part) : Bool := !p.presses.isEmpty || p.link.wakePending

/-- Whether second ticks count the standby delay timer down: AWAKE, IDLE, and a delay above 0 (R39). -/
def Part.standbyCounts (p : Part) : Bool := !p.inStandby && !p.isOpen && 0 < p.sched.delay

/-- Whether the standby delay timer has expired (R39). -/
def Part.standbyDue (p : Part) : Bool := p.standbyCounts && p.sched.timer = some 0

/-- The standby delay timer has expired: entry is decided by R40. -/
def Part.standbyExpiry (p : Part) : Part :=
  if p.standbyDue then
    if p.bookingNear || p.wakePending then p.modSched Scheduler.restart else p.enterStandby
  else p

/-- One second tick at the standby delay timer (R39). -/
def Part.tickStandby (p : Part) : Part :=
  if p.standbyCounts then p.modSched fun d => { d with timer := d.timer.map fun t => t - 1 } else p

/-! ## End warning and check-in (R27, R29) -/

/-- Writes the warning-given flag. -/
def Part.setWarned (w : Bool) (p : Part) : Part := p.modSession fun d => { d with warned := w }

/-- The end-warning test (R29); while the flag is set or has changed, every nameplate is derived again (R13). -/
def Part.endWarningTest (p : Part) : Part :=
  match p.sched.session, p.activeBooking with
  | some d, some b =>
    if d.warned then
      if b.warning < b.finish - p.now then (p.setWarned false).deriveAll else p.deriveAll
    else if 0 < b.warning && b.finish ≤ p.now + b.warning then
      ((p.setWarned true).notify (.endWarning b.id b.finish (b.finish - p.now))).deriveAll
    else p
  | _, _ => p

/-- Check-in (R27). -/
def Part.checkIn (p : Part) : Part := p.modSession fun d => { d with checkedIn := true }

/-! ## Sessions (R25, R26, R31) -/

/-- The no-show deadline at a session's opening (R25). -/
def Booking.deadline (b : Booking) (now : Nat) : Option Nat :=
  if b.grace = 0 then none else some (max (b.start + b.grace) (now + b.grace))

/-- The session record of a booking that opens (R25). -/
def Part.newSession (b : Booking) (p : Part) : Session :=
  ⟨b.id, p.sched.clock, false, false, b.deadline p.now, clearAttendance⟩

/-- Steps 2 to 4 of R26. -/
def Part.fillSession (b : Booking) (p : Part) : Part :=
  p.modSched fun d =>
    { d with
      bookings := d.bookings.map fun x => if x.id = b.id then { x with state := .active } else x
      session := some (p.newSession b)
      timer := none }

/-- A session opens from a booking (R26), and the opening is handed to the other blocks (R9, R69, R119, R145, R181). -/
def Part.openSession (b : Booking) (p : Part) : Part :=
  let awake := if p.inStandby then p.wakeEvent else p
  let filled := awake.fillSession b
  let noticed := filled.notify (.sessionOpened b.id b.origin b.title b.start b.finish b.privacy b.plan)
  let preset := ((noticed.endWarningTest).openStandings b).modFloor fun f => { f with preset := b.floor }
  ((((preset.mixerSessionOpen b).screensSessionOpen b).pendBroadcast .A).pendBroadcast .B)

/-- Steps 1 to 4 of R31. -/
def Part.emptySession (d : Session) (cause : SessionCause) (p : Part) : Part :=
  let removed := p.modSched fun k => { k with bookings := k.bookings.filter fun b => b.state ≠ .active }
  let noticed := removed.notify
    (.sessionClosed d.bookingId cause d.openedAt p.sched.clock (attendanceList d.attendance))
  noticed.modSched fun k => Scheduler.restart { k with session := none }

/-- A session closes (R31), and the closing is handed to the other blocks (R11, R70, R84, R120, R136, R146, R181). -/
def Part.closeSession (cause : SessionCause) (p : Part) : Part :=
  match p.sched.session with
  | none => p
  | some d =>
    let floor := ((p.emptySession d cause).closeStandings).floorEvent Part.floorSessionClose
    ((((floor.clearPriority.mixerSessionClose).directorSessionClose).screensSessionClose).pendBroadcast .A).pendBroadcast .B

/-! ## Booking work (R32, R35) -/

/-- Step 1: an OPEN session whose end has come closes with cause ENDED (R30). -/
def Part.endTest (p : Part) : Part :=
  match p.activeBooking with
  | some b => if b.finish ≤ p.now then p.closeSession .ended else p
  | none => p

/-- Whether a booking is missed (R32, R35). -/
def Part.missed (p : Part) (b : Booking) : Bool := b.state = .pending && b.finish ≤ p.now

/-- Step 2: the missed bookings leave the table, each with a notice, in table order. -/
def Part.dropMissed (p : Part) : Part :=
  let gone := p.sched.bookings.filter p.missed
  let kept := p.modSched fun d => { d with bookings := d.bookings.filter fun b => !p.missed b }
  gone.foldl (fun q b => q.notify (.bookingMissed b.id b.start b.duration)) kept

/-- Step 3: with the session IDLE, the first booking opens when it is PENDING and now lies within it. -/
def Part.startTest (p : Part) : Part :=
  match p.sched.session, p.sched.bookings.head? with
  | none, some b => if b.state = .pending && b.start ≤ p.now && p.now < b.finish then p.openSession b else p
  | _, _ => p

/-- The no-show test (R28). -/
def Part.noShowTest (p : Part) : Part :=
  match p.sched.session with
  | some d => if !d.checkedIn && d.deadline.any fun t => t ≤ p.now then p.closeSession .noShow else p
  | none => p

/-- The booking and session work of a minute boundary and of an accepted SET_CLOCK, in its four steps (R32, R35). -/
def Part.bookingWork (p : Part) : Part := (((p.endTest.dropMissed).startTest).noShowTest).endWarningTest

/-- The minute-boundary work, which an invalid clock does not cause (R32). -/
def Part.minuteWork (p : Part) : Part := if p.sched.valid then p.bookingWork else p

/-! ## Presses (R36, R37) -/

/-- The duration of an ad-hoc meeting attempted now (R37). -/
def Part.adhocDuration (p : Part) : Nat :=
  match p.sched.bookings.head? with
  | some b => min p.sched.defaults.adhocDuration (b.start - p.now)
  | none => p.sched.defaults.adhocDuration

/-- The ad-hoc booking (R37). -/
def Part.adhocBooking (p : Part) : Booking :=
  let k := p.sched.defaults
  { id := 0, start := p.now, duration := p.adhocDuration, title := [], roster := [], chairs := [], floor := k.floor, mix := k.mix
    plan := k.adhocPlan, privacy := .normal, grace := 0, warning := k.adhocWarning, origin := .adhoc, state := .active }

/-- Whether an ad-hoc meeting is attempted for a SPEAK press of this seat (R37). -/
def Part.adhocAttempted (p : Part) (s : Seat) : Bool :=
  !p.isOpen && p.sched.defaults.adhoc && p.sched.valid && (p.seat s).link = .present && (p.seat s).role = .member

/-- An attempt at an ad-hoc meeting: denied, or booking 0 is created and its session opens (R37). -/
def Part.attemptAdhoc (s : Seat) (p : Part) : Part :=
  if p.adhocAttempted s then
    if 16 ≤ p.sched.bookings.length || p.adhocDuration < p.sched.defaults.adhocMinimum then p.deny s
    else
      let b := p.adhocBooking
      ((p.modSched fun d => { d with bookings := b :: d.bookings }).notify
        (.adhocCreated s b.start b.duration b.finish)).openSession b
  else p

/-- A press event at the room scheduler (R36). -/
def Part.schedulerPress (s : Seat) (button : Button) (p : Part) : Part :=
  let awake := p.wakeEvent
  match button with
  | .aux => awake
  | .speak =>
    let tried := awake.attemptAdhoc s
    if tried.isOpen && (tried.seat s).standing.speaks then tried.checkIn else tried

/-! ## Press events (R4, R5) -/

/-- A numbered press event is routed by its button and by the seat's standing and unit type as they now stand (R5). -/
def Part.routePress (s : Seat) (button : Button) (number : Word32) (p : Part) : Part :=
  let r := p.seat s
  match button, r.standing with
  | .speak, .chair => p.floorEvent (Part.resolvePress s number .chair)
  | .speak, _ => p.floorEvent (Part.resolvePress s number .button)
  | .aux, .chair => p.floorEvent (Part.chairAux s)
  | .aux, .delegate => if r.unitType = some .presenter then p.shareToggle s else p
  | .aux, _ => p

/-- The seat table takes a press event: discarded when the seat is not PRESENT, and otherwise numbered, handed to the room
scheduler and routed (R4, R5). -/
def Part.takePress (s : Seat) (button : Button) (p : Part) : Part :=
  if (p.seat s).link = .present then
    let number := p.pressSeq + 1
    (({ p with pressSeq := number }).schedulerPress s button).routePress s button number
  else p

end Sys2Proof.Machine
end

