-- ==== Sys2Proof/Machine/Chains.lean ====
section
/-!
DEFINITION. The seat chains: a change of a seat's link state handed to every block (R169), training (R162, R163), enumeration
(R164, R165), retraining (R167) and the OFF sequence (R173).
-/
namespace Sys2Proof.Machine

/-! ## Link states (R168, R169) -/

/-- A seat leaves the exchange list, the stale-indicator set and the transmitting sets of its chain (R168, R170, R179). -/
def ChainCtl.dropSeat (s : Seat) (c : ChainCtl) : ChainCtl :=
  ChainCtl.removeItems (fun i => i.seat = s) { c.stopTransmitting s with stale := c.stale.erase s }

/-- Writes what the chain controller keeps for the seat at a position. -/
def ChainCtl.modSeat (position : Nat) (f : ChainSeat → ChainSeat) (c : ChainCtl) : ChainCtl :=
  { c with seats := updateAt f c.seats position }

/-- Writes what the chain controller keeps for a seat. -/
def Part.modChainSeat (s : Seat) (f : ChainSeat → ChainSeat) (p : Part) : Part :=
  p.modChain (chainOf s) (ChainCtl.modSeat (position s) f)

/-- A seat that has just become PRESENT or SILENT is due for a poll at once (R171). -/
def ChainSeat.pollNow (k : ChainSeat) : ChainSeat := { k with sincePoll := 100 }

/-- A seat's microphone state as the speaker list stands (R169, R186). -/
def Part.micPayload (p : Part) (s : Seat) : Payload :=
  match p.speaker? s with
  | some e => .micOpen e.lane
  | none => .micClosed

/-- A seat becomes PRESENT: the seat table queues REFRESH, the floor controller makes its pass, the mixer queues SPEAKER_STATE,
the screen router re-examines, and the chain controller queues MIC_STATE (R169). -/
def Part.becomePresent (s : Seat) (p : Part) : Part :=
  let due := (p.modChainSeat s ChainSeat.pollNow).seatTableLink s .present
  let floor := due.floorEvent fun q => q
  let mixer := floor.queueItem s (.speakerState (floor.mixer.loud.getD s.val .normal))
  let screens := mixer.reexamine s
  screens.queueItem s (screens.micPayload s)

/-- A seat becomes HELD (R2, R167, R169). -/
def Part.becomeHeld (s : Seat) (p : Part) : Part := (p.seatTableLink s .held).reexamine s

/-- A seat becomes SILENT (R168, R169). -/
def Part.becomeSilent (s : Seat) (p : Part) : Part :=
  let dropped := (p.modChain (chainOf s) (ChainCtl.dropSeat s)).modChainSeat s ChainSeat.pollNow
  ((dropped.seatTableLink s .silent).floorEvent (Part.lostSeat s)).reexamine s

/-- A seat becomes ABSENT (R169, R172). -/
def Part.becomeAbsent (s : Seat) (p : Part) : Part :=
  let dropped := (p.modChain (chainOf s) (ChainCtl.dropSeat s)).modChainSeat s fun k => { k with fault := false }
  ((dropped.seatTableLink s .absent).floorEvent (Part.lostSeat s)).reexamine s

/-- Every seat of a list that is not ABSENT becomes ABSENT, in the order given. -/
def Part.becomeAbsentAll (seats : List Seat) (p : Part) : Part := seats.foldl (fun q s => q.becomeAbsent s) p

/-- The seats of a chain whose link state is not ABSENT, in seat order. -/
def Part.reachable (p : Part) (c : Chain) : List Seat := (chainSeats c).filter fun s => (p.seat s).link ≠ .absent

/-! ## Notices (R172) -/

/-- SEAT_STATE with the seat's link state, type, serial and fault flag after the event (R172). -/
def Part.notifySeat (s : Seat) (event : SeatEvent) (link : LinkState) (p : Part) : Part :=
  let r := p.seat s
  p.notify (.seatState s event link r.unitType r.serial ((p.chain (chainOf s)).seatAt (position s)).fault)

/-- CHAIN_STATE with the chain record as it stands and the seats that became ABSENT (R172). -/
def Part.notifyChain (c : Chain) (madeAbsent : List Seat) (p : Part) : Part :=
  let k := p.chain c
  p.notify (.chainState c k.state k.cause k.attempt k.pairs k.degraded k.overlength k.found madeAbsent)

/-! ## Training (R162, R163) -/

/-- A training attempt begins, with the pair count configured as it stands and with no pair locked: a lock of an earlier attempt does
not count (R162, log 42). -/
def ChainCtl.beginAttempt (attempt : Nat) (c : ChainCtl) : ChainCtl :=
  { c with
    state := .training
    attempt := attempt
    pairs := none
    training := ⟨c.settings.pairs, false, false, false, 0⟩
    enumerated := []
    exchange := none }

/-- Steps 5 and 7 of R167 in the chain record, with the poll toggles and the poll pointer of R176. -/
def ChainCtl.beginTraining (cause : ChainCause) (c : ChainCtl) : ChainCtl :=
  let begun := c.beginAttempt 1
  { begun with cause := cause, pointer := 0, seats := begun.seats.map fun k => { k with toggle := false } }

/-- Steps 5 to 7 of R167: the lane count 0 closes the chain's microphones (R67), and CHAIN_STATE is queued. -/
def Part.train (c : Chain) (cause : ChainCause) (p : Part) : Part :=
  ((p.modChain c (ChainCtl.beginTraining cause)).floorEvent (Part.floorRetrain c)).notifyChain c []

/-- Steps 1 to 3 of R167, which are also steps 1 and 2 of the OFF sequence (R173). -/
def ChainCtl.abandon (c : ChainCtl) : ChainCtl := { c.emptyTransmitting with exchange := none, items := [], stale := [] }

/-- A retrain of an ACTIVE chain (R167). -/
def Part.retrain (c : Chain) (cause : ChainCause) (p : Part) : Part :=
  let present := (chainSeats c).filter fun s => (p.seat s).link = .present
  (present.foldl (fun q s => q.becomeHeld s) (p.modChain c ChainCtl.abandon)).train c cause

/-- The OFF sequence (R173). -/
def Part.switchOff (c : Chain) (p : Part) : Part :=
  let seats := p.reachable c
  let absent := (p.modChain c ChainCtl.abandon).becomeAbsentAll seats
  let off := absent.modChain c fun k =>
    { k with state := .off, pairs := none, degraded := false, overlength := false, enumerated := [] }
  (off.floorEvent fun q => q).notifyChain c seats

/-- A failed attempt: the next one begins, or the chain becomes FAILED (R163). DEGRADED stays as the last successful attempt wrote
it (log 16). -/
def Part.failedAttempt (c : Chain) (p : Part) : Part :=
  let k := p.chain c
  if k.attempt < k.settings.attempts then p.modChain c (ChainCtl.beginAttempt (k.attempt + 1))
  else
    let seats := p.reachable c
    let failed := p.modChain c fun k =>
      { k.emptyTransmitting with state := .failed, pairs := none, enumerated := [], exchange := none }
    (failed.becomeAbsentAll seats).notifyChain c seats

/-- Whether all the pairs that the attempt tries have reported lock (R162). -/
def Training.allLocked (t : Training) : Bool := t.control && t.lane1 && (t.lane2 || t.pairs < 2)

/-- The exchange with which the enumeration of a position begins (R164). -/
def ChainCtl.beginEnumeration (position : Nat) (c : ChainCtl) : ChainCtl :=
  { c with exchange := some (.addressed (.enumerate position) [] c.settings.retries ((c.settings.hold + 1) * 16)) }

/-- A successful attempt: the pair count in force and DEGRADED by R162, and enumeration begins at position 0 (R163). -/
def ChainCtl.trained (c : ChainCtl) : ChainCtl :=
  let whole := c.training.allLocked
  ChainCtl.beginEnumeration 0
    { c with
      state := .enumerating
      pairs := some (if whole then c.training.pairs else 1)
      degraded := !whole
      enumerated := [] }

/-- A training attempt ends, as its pairs stand (R162, R163). -/
def Part.endAttempt (c : Chain) (p : Part) : Part :=
  let t := (p.chain c).training
  if t.control && t.lane1 then p.modChain c ChainCtl.trained else p.failedAttempt c

/-- 50 ms have passed since the attempt began (R162). -/
def Part.attemptTimeout (c : Chain) (p : Part) : Part :=
  let k := p.chain c
  if k.state = .training && 50 ≤ k.training.ms then p.endAttempt c else p

/-- Records whether a pair stands locked (R162, R163). -/
def Training.setLock (pair : Pair) (locked : Bool) (t : Training) : Training :=
  match pair with
  | .control => { t with control := locked }
  | .lane1 => { t with lane1 := locked }
  | .lane2 => { t with lane2 := locked }

/-- The transceiver reports lock of a pair: the attempt ends when all the pairs it tries have locked (R162). -/
def Part.pairLocked (c : Chain) (pair : Pair) (p : Part) : Part :=
  if (p.chain c).state = .training then
    let locked := p.modChain c fun k => { k with training := k.training.setLock pair true }
    if (locked.chain c).training.allLocked then locked.endAttempt c else locked
  else p

/-- Whether a pair of an ACTIVE chain is the control pair or a lane pair in force (R167). -/
def ChainCtl.inForce (pair : Pair) (c : ChainCtl) : Bool :=
  match pair with
  | .control => true
  | .lane1 => c.pairs.any fun n => 1 ≤ n
  | .lane2 => c.pairs.any fun n => 2 ≤ n

/-- The transceiver reports loss of lock of a pair (R163, R164, R167). -/
def Part.lockLost (c : Chain) (pair : Pair) (p : Part) : Part :=
  let k := p.chain c
  match k.state with
  | .training => p.modChain c fun k => { k with training := k.training.setLock pair false }
  | .enumerating => p.failedAttempt c
  | .active => if k.inForce pair then p.retrain c .lockLost else p
  | .off => p
  | .failed => p

/-! ## Enumeration (R164, R165) -/

/-- Step 1 of R165 for one found seat. -/
def Part.settleFound (s : Seat) (u : FoundUnit) (p : Part) : Part :=
  let changed := (p.seat s).serial.any fun old => old ≠ u.serial
  let recorded := p.modSeat s fun r =>
    { r with unitType := some u.unitType, serial := some u.serial, failures := 0 }
  let noticed := if changed then recorded.notifySeat s .changed .present else recorded
  if (p.seat s).link = .present then noticed else noticed.becomePresent s

/-- Step 3 of R165. -/
def ChainCtl.settled (overlength : Bool) (c : ChainCtl) : ChainCtl :=
  { c with
    found := c.enumerated.length
    overlength := overlength
    failureRun := 0
    state := .active
    enumerated := []
    exchange := none }

/-- Enumeration has ended: the seats settle and the chain comes into service (R165, R181). -/
def Part.settle (c : Chain) (overlength : Bool) (p : Part) : Part :=
  let units := (p.chain c).enumerated
  let found := units.zipIdx.foldl (fun q x => q.settleFound (seatAt c x.2) x.1) p
  let missing := (found.reachable c).filter fun s => units.length ≤ position s
  let active := (found.becomeAbsentAll missing).modChain c (ChainCtl.settled overlength)
  ((active.floorEvent fun q => q).notifyChain c missing).pendBroadcast c

/-- The unit at a position has answered its enumeration exchange (R164). -/
def Part.enumerated (c : Chain) (position : Nat) (answer : UnitAnswer) (p : Part) : Part :=
  let recorded := p.modChain c fun k => { k with enumerated := k.enumerated ++ [⟨answer.unitType, answer.serial⟩] }
  if answer.endOfChain then recorded.settle c false
  else if 31 ≤ position then recorded.settle c true
  else recorded.modChain c (ChainCtl.beginEnumeration (position + 1))

/-! ## Requests (R173, R174) -/

/-- Replaces the chain settings; a change of enabled acts at once (R173). -/
def Part.setChain (c : Chain) (settings : ChainSettings) (p : Part) : Part :=
  let before := (p.chain c).settings.enabled
  let set := p.modChain c fun k => { k with settings := settings }
  if before && !settings.enabled then set.switchOff c
  else if !before && settings.enabled && (p.chain c).state = .off then set.train c .controller
  else set

/-- CHAIN_RESTART of a chain that is not OFF (R174). -/
def Part.restartChain (c : Chain) (p : Part) : Part :=
  if (p.chain c).state = .active then p.retrain c .controller else p.train c .controller

end Sys2Proof.Machine
end

