-- ==== Sys2Proof/Machine/Exchanges.lean ====
section
/-!
DEFINITION. The seat exchanges: choosing and beginning the next exchange (R180, R181, R185 to R187), attempts, retries and
failure (R182 to R184), poll reports (R3, R4, R188).
-/
namespace Sys2Proof.Machine

/-! ## Beats (R181, R185, R186) -/

/-- A text padded with spaces to a number of characters. -/
def padTo (n : Nat) (t : Text) : Text := t ++ List.replicate (n - t.length) 0x20

/-- A text cut into beats of `size` characters, `count` of them. -/
def beatsOf (size : Nat) : Nat → Text → List Text
  | 0, _ => []
  | count + 1, t => t.take size :: beatsOf size count (t.drop size)

/-- The beats of a nameplate text: 9 of 4 characters, or 5 of 8 for a PRESENTER unit (R185). -/
def plateBeats (unit : Option UnitType) (nameLine statusLine : Text) : List Text :=
  let text := padTo 24 nameLine ++ padTo 12 statusLine
  match unit with
  | some .presenter => beatsOf 8 5 (padTo 40 text)
  | some .nameplate => beatsOf 4 9 text
  | some .basic => []
  | none => []

/-- The beats of a broadcast: 6 of 4 characters (R181). -/
def titleBeats (title : Text) : List Text := beatsOf 4 6 (padTo 24 title)

/-! ## Choosing and beginning (R180) -/

/-- What the chain controller takes next (R180). -/
inductive Choice where
  | item (i : Item)
  | broadcast (title : Text)
  | poll (s : Seat)
  deriving DecidableEq, Repr

/-- The seat that line 4 of R180 polls: the first due seat from the poll pointer on. -/
def Part.pollChoice (p : Part) (c : Chain) : Option Seat :=
  ((List.range 32).map fun i => seatAt c ((p.chain c).pointer + i)).find? p.pollDue

/-- The first line of R180 that finds something. -/
def Part.nextChoice (p : Part) (c : Chain) : Option Choice :=
  let k := p.chain c
  match k.items.find? fun i => i.payload.kind.urgent with
  | some i => some (.item i)
  | none =>
    match k.broadcast with
    | some title => some (.broadcast title)
    | none =>
      match k.items.find? fun i => !i.payload.kind.urgent with
      | some i => some (.item i)
      | none => (p.pollChoice c).map .poll

/-- The hold limit in force, in microseconds (R161, R182). -/
def ChainSettings.holdMicros (k : ChainSettings) : Nat := (k.hold + 1) * 16

/-- The retries of an item's exchange (R183). -/
def ChainSettings.itemRetries (k : ChainSettings) (i : Item) : Nat := if i.attempts = 0 then k.retries else 0

/-- An addressed exchange begins with the hold limit in force (R182). -/
def ChainCtl.beginAddressed (sent : Sent) (beats : List Text) (retries : Nat) (c : ChainCtl) : ChainCtl :=
  { c with exchange := some (.addressed sent beats retries c.settings.holdMicros) }

/-- A REFRESH exchange begins: its content is read, and every other item of the seat leaves the list (R186). -/
def Part.beginRefresh (c : Chain) (i : Item) (p : Part) : Part :=
  let r := p.seat i.seat
  let sent := Sent.refresh i.seat r.ring ((p.speaker? i.seat).map Speaker.lane) (p.mixer.loud.getD i.seat.val .normal)
  p.modChain c fun k =>
    (k.beginAddressed sent (plateBeats r.unitType r.nameLine r.statusLine) (k.settings.itemRetries i)).removeItems
      fun x => x.seat = i.seat && x.payload.kind ≠ .refresh

/-- An item's exchange begins (R177, R185, R186). -/
def Part.beginItem (c : Chain) (i : Item) (p : Part) : Part :=
  match i.payload with
  | .refresh => p.beginRefresh c i
  | .nameplate name status =>
    p.modChain c fun k =>
      k.beginAddressed (.item i.seat i.payload) (plateBeats (p.seat i.seat).unitType name status) (k.settings.itemRetries i)
  | .micOpen _ => p.modChain c fun k => k.beginAddressed (.item i.seat i.payload) [] (k.settings.itemRetries i)
  | .micClosed => p.modChain c fun k => k.beginAddressed (.item i.seat i.payload) [] (k.settings.itemRetries i)
  | .speakerState _ => p.modChain c fun k => k.beginAddressed (.item i.seat i.payload) [] (k.settings.itemRetries i)
  | .ring _ => p.modChain c fun k => k.beginAddressed (.item i.seat i.payload) [] (k.settings.itemRetries i)

/-- A poll begins with the seat's poll toggle; a SILENT seat is given no retries (R183, R187). -/
def Part.beginPoll (c : Chain) (s : Seat) (p : Part) : Part :=
  let present : Bool := (p.seat s).link = .present
  p.modChain c fun k =>
    (k.beginAddressed (.poll s (k.seatAt (position s)).toggle) [] (if present then k.settings.retries else 0)).modSeat
      (position s) fun x => { x with sincePoll := 0 }

/-- A chosen exchange begins; a broadcast is cut into its beats (R181). -/
def Part.begin (c : Chain) (choice : Choice) (p : Part) : Part :=
  match choice with
  | .item i => p.beginItem c i
  | .broadcast title => p.modChain c fun k => { k with exchange := some (.broadcast title (titleBeats title)) }
  | .poll s => p.beginPoll c s

/-- An idle chain chooses its next exchange and begins it (R180). -/
def Part.chooseNext (c : Chain) (p : Part) : Part :=
  if (p.chain c).idle then
    match p.nextChoice c with
    | some choice => p.begin c choice
    | none => p
  else p

/-- The last beat of the broadcast has been sent; a title put in its place meanwhile stays pending (R181, log 15). -/
def ChainCtl.broadcastSent (c : ChainCtl) : ChainCtl :=
  match c.exchange with
  | some (.broadcast title _) =>
    { c with exchange := some .turnaround, broadcast := if c.broadcast = some title then none else c.broadcast }
  | _ => c

/-- The turnaround has passed: R180 chooses again (R181). -/
def Part.turnaroundEnded (c : Chain) (p : Part) : Part :=
  if (p.chain c).exchange = some .turnaround then
    (p.modChain c fun k => { k with exchange := none }).chooseNext c
  else p

/-! ## Failure (R166, R168, R183, R184) -/

/-- A retry: the retry counter rises, and its wrap sets the rollover flag (R183). -/
def ChainCtl.countRetry (c : ChainCtl) : ChainCtl :=
  { c with retryCounter := (c.retryCounter + 1) % 65536, rollover := c.rollover || c.retryCounter = 65535 }

/-- Writes the item of a seat and kind. -/
def ChainCtl.modItem (s : Seat) (k : ItemKind) (f : Item → Item) (c : ChainCtl) : ChainCtl :=
  { c with items := c.items.map fun i => if i.is s k then f i else i }

/-- An item whose exchange has failed (R184). -/
def Item.failed (i : Item) : Item := { i with attempts := countUpTo 15 i.attempts, renewed := false }

/-- The exchange in progress has ended. -/
def Part.endExchange (c : Chain) (p : Part) : Part := p.modChain c fun k => { k with exchange := none }

/-- The failure run rises by one; at 16 the chain retrains (R166). -/
def Part.countRun (c : Chain) (p : Part) : Part :=
  let counted := p.modChain c fun k => { k with failureRun := k.failureRun + 1 }
  if 16 ≤ (counted.chain c).failureRun then counted.retrain c .failureRun else counted

/-- A seat's consecutive failure count rises, and at the silent threshold a PRESENT seat becomes SILENT (R168); then the failure
run rises for a seat that was PRESENT (R166). -/
def Part.seatFailed (c : Chain) (s : Seat) (p : Part) : Part :=
  let counted := p.modSeat s fun r => { r with failures := countUpTo 15 r.failures }
  match (p.seat s).link with
  | .present =>
    if (p.chain c).settings.silent ≤ (counted.seat s).failures then
      ((counted.notifySeat s .silent .silent).becomeSilent s).countRun c
    else counted.countRun c
  | .silent => counted
  | .held => p
  | .absent => p

/-- The poll pointer moves to the seat after the one polled (R180). -/
def ChainCtl.polled (s : Seat) (c : ChainCtl) : ChainCtl := { c with pointer := (position s + 1) % 32 }

/-- An exchange has failed (R164, R166, R168, R184). -/
def Part.exchangeFailed (c : Chain) (sent : Sent) (p : Part) : Part :=
  let ended := p.endExchange c
  match sent with
  | .enumerate _ => ended.settle c false
  | .poll s _ => (ended.modChain c (ChainCtl.polled s)).seatFailed c s
  | .item s payload => (ended.modChain c (ChainCtl.modItem s payload.kind Item.failed)).seatFailed c s
  | .refresh s _ _ _ => (ended.modChain c (ChainCtl.modItem s .refresh Item.failed)).seatFailed c s

/-- An attempt has ended in BAD_CHECK or TIMEOUT: a retry, or the exchange fails (R183). -/
def Part.attemptFailed (c : Chain) (p : Part) : Part :=
  match (p.chain c).exchange with
  | some (.addressed sent beats (n + 1) hold) =>
    p.modChain c fun k => { k.countRetry with exchange := some (.addressed sent beats n hold) }
  | some (.addressed sent _ 0 _) => p.exchangeFailed c sent
  | some (.broadcast _ _) => p
  | some .turnaround => p
  | none => p

/-! ## Success (R166, R168, R170, R184, R188) -/

/-- The item of a seat and kind after its exchange has succeeded: it leaves the list, or, renewed, stays with a new attempt count
(R184). -/
def ChainCtl.itemSent (s : Seat) (kind : ItemKind) (c : ChainCtl) : ChainCtl :=
  if c.items.any fun i => i.is s kind && i.renewed then
    c.modItem s kind fun i => { i with renewed := false, attempts := 0 }
  else c.removeItems fun i => i.is s kind

/-- The lane transmitting sets after a successful MIC_STATE (R170). -/
def ChainCtl.micAcknowledged (s : Seat) (payload : Payload) (c : ChainCtl) : ChainCtl :=
  match payload with
  | .micOpen lane => c.micTaken s (some lane)
  | .micClosed => c.micTaken s none
  | .speakerState _ => c
  | .ring _ => c
  | .nameplate _ _ => c
  | .refresh => c

/-- A successful exchange clears the failure run and the seat's failure count; a SILENT seat returns (R166, R168). -/
def Part.seatSucceeded (c : Chain) (s : Seat) (p : Part) : Part :=
  let cleared := (p.modChain c fun k => { k with failureRun := 0 }).modSeat s fun r => { r with failures := 0 }
  if (p.seat s).link = .silent then (cleared.notifySeat s .returned .present).becomePresent s else cleared

/-- The levels and flags of a poll response, stored in the seat's record (R3). -/
def SeatRec.report (answer : UnitAnswer) (r : SeatRec) : SeatRec :=
  { r with
    speakPressed := answer.speakPressed
    auxPressed := answer.auxPressed
    voice := answer.voice
    signal := answer.signal }

/-- The press events that a poll response counts, SPEAK before AUX (R4, R188). -/
def countedPresses (s : Seat) (answer : UnitAnswer) : List Press :=
  List.replicate answer.speakPresses.val ⟨s, .speak⟩ ++ List.replicate answer.auxPresses.val ⟨s, .aux⟩

/-- The fault flag of a poll response: a change is stored and reported (R172, R188). -/
def Part.reportFault (s : Seat) (fault : Bool) (p : Part) : Part :=
  if ((p.chain (chainOf s)).seatAt (position s)).fault = fault then p
  else (p.modChainSeat s fun k => { k with fault := fault }).notifySeat s .fault (p.seat s).link

/-- A poll response at the seat table (R3, R4): levels and flags, the voice flag to the floor controller, a changed
signal-present flag to the screen router, and the counted presses. -/
def Part.pollReport (s : Seat) (answer : UnitAnswer) (p : Part) : Part :=
  let heard := (p.modSeat s (SeatRec.report answer)).floorEvent (Part.voiceReport s answer.voice)
  let seen := if (p.seat s).signal = answer.signal then heard else heard.signalChanged s answer.signal
  { seen with presses := seen.presses ++ countedPresses s answer }

/-- A successful poll (R187, R188). -/
def Part.pollSucceeded (c : Chain) (s : Seat) (answer : UnitAnswer) (p : Part) : Part :=
  let toggled := (p.modChainSeat s fun k => { k with toggle := !k.toggle }).modChain c (ChainCtl.polled s)
  ((toggled.seatSucceeded c s).pollReport s answer).reportFault s answer.fault

/-- An exchange has succeeded (R164, R170, R184, R186, R188). -/
def Part.exchangeSucceeded (c : Chain) (sent : Sent) (answer : UnitAnswer) (p : Part) : Part :=
  let ended := p.endExchange c
  match sent with
  | .enumerate position => ended.enumerated c position answer
  | .poll s _ => ended.pollSucceeded c s answer
  | .item s payload =>
    (ended.modChain c fun k => (k.micAcknowledged s payload).itemSent s payload.kind).seatSucceeded c s
  | .refresh s _ mic _ => (ended.modChain c fun k => (k.micTaken s mic).itemSent s .refresh).seatSucceeded c s

/-- A response has begun within the hold limit: SUCCESS when its check is good, BAD_CHECK otherwise (R182). -/
def Part.attemptAnswered (c : Chain) (checkGood : Bool) (answer : UnitAnswer) (p : Part) : Part :=
  match (p.chain c).exchange with
  | some (.addressed sent _ _ _) => if checkGood then p.exchangeSucceeded c sent answer else p.attemptFailed c
  | some (.broadcast _ _) => p
  | some .turnaround => p
  | none => p

end Sys2Proof.Machine
end

