-- ==== Sys2Proof/Machine/Operands.lean ====
section
/-!
DEFINITION. The operand forms of the control link: the encoding of payload fields (R190) in both directions, the reading of a
request's payload (R193, stage 2), the payloads of the notices (catalogue 11.9), and the bytes of a frame with its check
(R189, R190).
-/
namespace Sys2Proof.Machine

/-! ## Writing fields (R190) -/

/-- A number of 1 byte. -/
def u8 (n : Nat) : List Byte := [BitVec.ofNat 8 n]

/-- A number of 2 bytes, high byte first. -/
def u16 (n : Nat) : List Byte := u8 (n / 256) ++ u8 n

/-- A number of 4 bytes, high byte first. -/
def u32 (n : Nat) : List Byte := u16 (n / 65536) ++ u16 n

/-- A 32-bit count or serial. -/
def wordBytes (w : Word32) : List Byte := u32 w.toNat

/-- A flag, a choice or a level: its affirmative value stands first in every rule that lists the two, so it is 0 (log 6). -/
def flagBytes (b : Bool) : List Byte := u8 (if b then 0 else 1)

/-- An optional field: a presence byte, then the value when present. -/
def optBytes {α : Type} (write : α → List Byte) : Option α → List Byte
  | none => u8 0
  | some a => u8 1 ++ write a

/-- A list: a count byte, then the entries. -/
def listBytes {α : Type} (write : α → List Byte) (xs : List α) : List Byte := u8 xs.length ++ xs.flatMap write

/-- A text: a length byte, then the characters. -/
def textBytes (t : Text) : List Byte := u8 t.length ++ t

/-- A seat number. -/
def seatBytes (s : Seat) : List Byte := u8 s.val

/-- A time (R190). -/
def timeBytes (t : Time) : List Byte := u16 t.day ++ u16 t.minute ++ u8 t.second

/-- A room minute (R190). A minute beyond day 65535 has its day sent modulo 65536 (log 36). -/
def minuteBytes (n : Nat) : List Byte := u16 (n / 1440) ++ u16 (n % 1440)

/-- A seat or CONTROLLER: CONTROLLER is 64 (R190). -/
def holderBytes : Holder → List Byte
  | .seat s => seatBytes s
  | .controller => u8 64

/-- A slot, or a share bus: 1 or 2. -/
def slotBytes : Slot → List Byte
  | .one => u8 1
  | .two => u8 2

/-- A follow source: CAM_W, then CAM_0 to CAM_3 (R125, log 7). -/
def followBytes : Follow → List Byte
  | .wide => u8 0
  | .cam c => u8 (1 + c.val)

/-- A screen source, in the order of 8.1. -/
def sourceBytes : ScreenSource → List Byte
  | .blank => u8 0
  | .signage => u8 1
  | .roomPc => u8 2
  | .wide => u8 3
  | .cam c => u8 (4 + c.val)
  | .share .one => u8 8
  | .share .two => u8 9

/-- A screen mode, then its parameters (R141, R190). -/
def modeBytes : ScreenMode → List Byte
  | .fixed s => u8 0 ++ sourceBytes s
  | .followSpeaker z => u8 1 ++ optBytes (fun z : Fin 8 => u8 z.val) z
  | .followShare n s => u8 2 ++ slotBytes n ++ sourceBytes s
  | .auto => u8 3

/-- A camera and a preset. -/
def shotBytes (s : Shot) : List Byte := u8 s.camera.val ++ u8 s.preset

/-- The floor preset, in the order of the catalogue 11.8. -/
def floorBytes (f : FloorPreset) : List Byte :=
  u8 f.mode.ctorIdx ++ u8 f.limit ++ u8 f.overflow.ctorIdx ++ flagBytes f.autoAdvance ++ flagBytes f.selfClose ++
    flagBytes f.withdraw ++
    u16 f.speechLimit ++ u8 f.warnLead ++ u8 f.expiry.ctorIdx ++ u8 f.voiceHold ++ u8 f.stackPolicy.ctorIdx ++ u8 f.chairBias

/-- The mixing preset, in the order of the catalogue 11.8. -/
def mixBytes (m : MixPreset) : List Byte :=
  u16 m.gate ++ u8 m.attack ++ u8 m.release ++ u8 m.master ++ u8 m.record ++ u8 m.duck

/-! ## Statuses (R193) -/

/-- The statuses, in the order of their codes 0x00-0x0E. -/
inductive Status where
  | ok
  | badLength
  | unknownKind
  | badArg
  | refused
  | notFound
  | conflict
  | full
  | noSession
  | noResource
  | already
  | notActive
  | noLimit
  | duplicateId
  | past
  deriving DecidableEq, Repr

/-- The code of a status. -/
def Status.code (s : Status) : Byte := BitVec.ofNat 8 s.ctorIdx

/-! ## Reading fields (R190, R193 stage 2) -/

/-- Reads fields from the front of a payload; a payload that ends too soon answers BAD_LENGTH, and a presence byte or a selector
with an undefined value answers BAD_ARG at once. -/
abbrev Reader (α : Type) : Type := StateT (List Byte) (Except Status) α

/-- One byte. -/
def readByte : Reader Nat := fun bytes =>
  match bytes with
  | [] => .error .badLength
  | b :: rest => .ok (b.toNat, rest)

/-- A number of 2 bytes. -/
def readWord : Reader Nat := do
  let high ← readByte
  let low ← readByte
  return high * 256 + low

/-- A number of 4 bytes. -/
def readQuad : Reader Nat := do
  let high ← readWord
  let low ← readWord
  return high * 65536 + low

/-- A presence byte. -/
def readPresence : Reader Bool := do
  match ← readByte with
  | 0 => return false
  | 1 => return true
  | _ => throw .badArg

/-- An optional field. -/
def readOpt {α : Type} (read : Reader α) : Reader (Option α) := do
  if ← readPresence then
    let a ← read
    return some a
  else return none

/-- A number of entries. -/
def readMany {α : Type} (read : Reader α) : Nat → Reader (List α)
  | 0 => return []
  | n + 1 => do
    let a ← read
    let rest ← readMany read n
    return a :: rest

/-- A list of bytes: a count byte, then the entries. -/
def readList : Reader (List Nat) := do
  let n ← readByte
  readMany readByte n

/-- A text. -/
def readText : Reader Text := do
  let n ← readByte
  let bytes ← readMany readByte n
  return bytes.map (BitVec.ofNat 8)

/-- A request's payload, read whole: bytes left over answer BAD_LENGTH (R193). -/
def readAll {α : Type} (read : Reader α) (payload : List Byte) : Except Status α :=
  match read payload with
  | .ok (a, []) => .ok a
  | .ok (_, _ :: _) => .error .badLength
  | .error e => .error e

/-! ## Checking values -/

/-- A number within a range. -/
def within (low high n : Nat) : Option Nat := if low ≤ n && n ≤ high then some n else none

/-- A number below a bound. -/
def below (bound : Nat) (n : Nat) : Option (Fin bound) := if h : n < bound then some ⟨n, h⟩ else none

/-- A seat number; above 63 there is none. -/
def seat? (n : Nat) : Option Seat := below 64 n

/-- A flag or choice (log 6). -/
def flag? (n : Nat) : Option Bool := [true, false][n]?

/-- A chain. -/
def chain? (n : Nat) : Option Chain := [Chain.A, Chain.B][n]?

/-- A slot, 1 or 2. -/
def slot? (n : Nat) : Option Slot :=
  match n with
  | 1 => some .one
  | 2 => some .two
  | _ => none

/-- Every value of a list, when each of them checks. -/
def every {α β : Type} (check : α → Option β) : List α → Option (List β)
  | [] => some []
  | a :: rest => do
    let b ← check a
    let more ← every check rest
    return b :: more

/-- A text of at most 24 characters, each 0x20-0x7E (R16, R20). -/
def text? (t : Text) : Option Text :=
  if t.length ≤ 24 && t.all (fun c => 0x20 ≤ c.toNat && c.toNat ≤ 0x7E) then some t else none

/-- A screen source (8.1). -/
def source? (n : Nat) : Option ScreenSource :=
  [.blank, .signage, .roomPc, .wide, .cam 0, .cam 1, .cam 2, .cam 3, .share .one, .share .two][n]?

/-- A fallback source: any except SHARE_1 and SHARE_2 (R141). -/
def fallback? (n : Nat) : Option ScreenSource := if n < 8 then source? n else none

/-- Reads a floor preset; none when a field lies outside Table 2-1. -/
def readFloor : Reader (Option FloorPreset) := do
  let mode ← readByte
  let limit ← readByte
  let overflow ← readByte
  let autoAdvance ← readByte
  let selfClose ← readByte
  let withdraw ← readByte
  let speechLimit ← readWord
  let warnLead ← readByte
  let expiry ← readByte
  let voiceHold ← readByte
  let stackPolicy ← readByte
  let chairBias ← readByte
  return do
    let mode ← [Mode.direct, .queued, .voice][mode]?
    let limit ← within 1 8 limit
    let overflow ← [Overflow.queue, .replaceOldest, .deny][overflow]?
    let autoAdvance ← flag? autoAdvance
    let selfClose ← flag? selfClose
    let withdraw ← flag? withdraw
    let speechLimit ← within 0 3600 speechLimit
    let warnLead ← within 0 120 warnLead
    let expiry ← [Expiry.warnOnly, .close][expiry]?
    let voiceHold ← within 1 30 voiceHold
    let stackPolicy ← [StackPolicy.discardOldest, .clearFloor][stackPolicy]?
    let chairBias ← if chairBias = 1 || chairBias = 2 || chairBias = 4 then some chairBias else none
    return ⟨mode, limit, overflow, autoAdvance, selfClose, withdraw, speechLimit, warnLead, expiry, voiceHold, stackPolicy,
      chairBias⟩

/-- Reads a mixing preset; none when a field lies outside Table 2-1. -/
def readMix : Reader (Option MixPreset) := do
  let gate ← readWord
  let attack ← readByte
  let release ← readByte
  let master ← readByte
  let record ← readByte
  let duck ← readByte
  return do
    let gate ← within 0 32767 gate
    let attack ← within 0 3 attack
    let release ← within 2 10 release
    let duck ← within 0 3 duck
    return ⟨gate, attack, release, master, record, duck⟩

/-- Reads a screen mode; its mode value is a selector, and the parameters are checked by R155. -/
def readMode : Reader (Option ScreenMode) := do
  match ← readByte with
  | 0 =>
    let s ← readByte
    return (source? s).map .fixed
  | 1 =>
    match ← readOpt readByte with
    | none => return some (.followSpeaker none)
    | some z => return (below 8 z).map fun z => .followSpeaker (some z)
  | 2 =>
    let n ← readByte
    let s ← readByte
    return do
      let n ← slot? n
      let s ← fallback? s
      return .followShare n s
  | 3 => return some .auto
  | _ => throw .badArg

/-! ## Notice payloads (catalogue 11.9) -/

/-- The fields of a notice after its lost count. -/
def Notice.fields : Notice → List Byte
  | .started cause revision part baud => u8 cause.ctorIdx ++ u8 revision ++ u16 part ++ u8 baud
  | .sessionOpened id origin title start finish privacy plan =>
    u16 id ++ u8 origin.ctorIdx ++ textBytes title ++ minuteBytes start ++ minuteBytes finish ++ u8 privacy.ctorIdx ++
      u8 plan.val
  | .sessionClosed id cause openedAt closedAt attendance =>
    u16 id ++ u8 cause.ctorIdx ++ timeBytes openedAt ++ timeBytes closedAt ++
      listBytes (fun x : Seat × Nat => seatBytes x.1 ++ u16 x.2) attendance
  | .endWarning id finish minutesLeft => u16 id ++ minuteBytes finish ++ u8 minutesLeft
  | .bookingMissed id start duration => u16 id ++ minuteBytes start ++ u16 duration
  | .adhocCreated s start duration finish => seatBytes s ++ minuteBytes start ++ u16 duration ++ minuteBytes finish
  | .micOpened s kind grantNo channel lane remaining src =>
    seatBytes s ++ u8 kind.ctorIdx ++ wordBytes grantNo ++ u8 channel ++ u8 lane ++ optBytes u16 remaining ++ u8 src.ctorIdx
  | .micClosed s kind cause grantNo channel lane remaining =>
    seatBytes s ++ u8 kind.ctorIdx ++ u8 cause.ctorIdx ++ wordBytes grantNo ++ u8 channel ++ u8 lane ++ optBytes u16 remaining
  | .queueChanged seats => listBytes seatBytes seats
  | .queueFull s => seatBytes s
  | .priorityChanged action h seats depth holders =>
    u8 action.ctorIdx ++ optBytes holderBytes h ++ listBytes seatBytes seats ++ u8 depth ++ u8 holders
  | .resumeLost h reason seats => holderBytes h ++ u8 reason.ctorIdx ++ listBytes seatBytes seats
  | .speechWarning s grantNo remaining warnLead => seatBytes s ++ wordBytes grantNo ++ u16 remaining ++ u8 warnLead
  | .activeSpeaker new previous cause aimed recallSent f =>
    optBytes seatBytes new ++ optBytes seatBytes previous ++ u8 cause.ctorIdx ++ optBytes shotBytes aimed ++
      flagBytes recallSent ++ followBytes f
  | .shareChanged n action s input startNo src cause =>
    slotBytes n ++ u8 action.ctorIdx ++ seatBytes s ++ u8 input ++ wordBytes startNo ++ u8 src.ctorIdx ++
      optBytes (fun c : ShareCause => u8 c.ctorIdx) cause
  | .seatState s event link unitType serial fault =>
    seatBytes s ++ u8 event.ctorIdx ++ u8 link.ctorIdx ++ optBytes (fun t : UnitType => u8 t.ctorIdx) unitType ++
      optBytes wordBytes serial ++
      flagBytes fault
  | .chainState c state cause attempt pairs degraded overlength found madeAbsent =>
    u8 c.ctorIdx ++ u8 state.ctorIdx ++ u8 cause.ctorIdx ++ u8 attempt ++ optBytes u8 pairs ++ flagBytes degraded ++
      flagBytes overlength ++
      u8 found ++ listBytes seatBytes madeAbsent
  | .standbyChanged state => u8 state.ctorIdx

/-- A notice as a frame: tag 0, and the lost count first in its payload (R189, R195). -/
def Notice.frame (lost : Nat) (n : Notice) : Frame := ⟨BitVec.ofNat 8 n.kind, 0, u8 lost ++ n.fields⟩

/-! ## Frames on the wire (R189, R190) -/

/-- One bit of the check: shifted left, and the polynomial 0x1021 taken away when a 1 leaves at the top. -/
def crcBit (crc : BitVec 16) : BitVec 16 := if crc.msb then crc <<< 1 ^^^ 0x1021 else crc <<< 1

/-- One byte of the check, most significant bit first. -/
def crcByte (crc : BitVec 16) (b : Byte) : BitVec 16 :=
  crcBit (crcBit (crcBit (crcBit (crcBit (crcBit (crcBit (crcBit (crc ^^^ b.setWidth 16 <<< 8))))))))

/-- The check of R190 over the bytes given, with initial value 0xFFFF. -/
def crc16 (bytes : List Byte) : BitVec 16 := bytes.foldl crcByte 0xFFFF

/-- The bytes that the check covers: length, kind, tag and payload. -/
def checkedBytes (f : Frame) : List Byte := BitVec.ofNat 8 f.payload.length :: f.kind :: f.tag :: f.payload

/-- The bytes of a frame as they are sent (R189). -/
def frameBytes (f : Frame) : List Byte := 0xA5 :: checkedBytes f ++ u16 (crc16 (checkedBytes f)).toNat

end Sys2Proof.Machine
end

