-- ==== Sys2Proof/Machine/Link.lean ====
section
/-!
DEFINITION. The link interface: the receiver (R191), the request buffer (R192), the transmitter (R194, R195), and device reset
(R199).
-/
namespace Sys2Proof.Machine

/-! ## Receiving (R191, R192) -/

/-- A link statistic counts, stopping at 65535 (R197). -/
def countStat (n : Nat) : Nat := countUpTo 65535 n

/-- A good frame is offered to the request buffer (R192). -/
def Link.offer (f : Frame) (l : Link) : Link :=
  if l.buffer.length < Config.bufferSize then
    { l.modStats fun k => { k with goodFrames := countStat k.goodFrames } with buffer := l.buffer ++ [f] }
  else l.modStats fun k => { k with overruns := countStat k.overruns }

/-- A complete frame of `n` payload bytes is checked; `got` is the kind, the tag, the payload and the two check bytes (R191). -/
def Link.complete (n : Byte) (got : List Byte) (l : Link) : Link :=
  let body := got.take (n.toNat + 2)
  if u16 (crc16 (n :: body)).toNat = got.drop (n.toNat + 2) then
    l.offer ⟨body.getD 0 0, body.getD 1 0, body.drop 2⟩
  else l.modStats fun k => { k with checkErrors := countStat k.checkErrors }

/-- A character with a good stop bit arrives (R191). -/
def Link.takeCharacter (char : Byte) (l : Link) : Link :=
  match l.rx with
  | .hunt =>
    if char = 0xA5 then { l with rx := .length }
    else l.modStats fun k => { k with syncDiscards := countStat k.syncDiscards }
  | .length =>
    if char.toNat ≤ 250 then { l with rx := .body char [] }
    else { l.modStats fun k => { k with lengthErrors := countStat k.lengthErrors } with rx := .hunt }
  | .body n got =>
    let stored := got ++ [char]
    if stored.length < n.toNat + 4 then { l with rx := .body n stored }
    else Link.complete n stored { l with rx := .hunt }

/-- A character with a bad stop bit arrives: it is dropped, and a frame in progress is abandoned (R191). -/
def Link.dropCharacter (l : Link) : Link :=
  match l.rx with
  | .hunt => l.modStats fun k => { k with syncDiscards := countStat k.syncDiscards }
  | .length => { l.modStats fun k => { k with lineErrors := countStat k.lineErrors } with rx := .hunt }
  | .body _ _ => { l.modStats fun k => { k with lineErrors := countStat k.lineErrors } with rx := .hunt }

/-- A character arrives on RXD, which ends the time without one (R191). -/
def Link.receive (char : Byte) (stopGood : Bool) (l : Link) : Link :=
  let heard := { l with rxIdle := 0 }
  if stopGood then heard.takeCharacter char else heard.dropCharacter

/-- Whether a frame has begun to arrive (R191). -/
def Receiver.inFrame : Receiver → Bool
  | .hunt => false
  | .length => true
  | .body _ _ => true

/-- 5 ms have passed without a character: the frame in progress is abandoned (R191). -/
def Link.timeout (l : Link) : Link :=
  if l.rx.inFrame && 5 ≤ l.rxIdle then
    { l.modStats fun k => { k with timeouts := countStat k.timeouts } with rx := .hunt, rxIdle := 0 }
  else l

/-- One block completion at the receiver's time without a character (R191). -/
def Link.countIdle (l : Link) : Link := if l.rx.inFrame then { l with rxIdle := countUpTo 5 l.rxIdle } else l

/-! ## Transmitting (R194, R195) -/

/-- Whether a notice is STARTED. -/
def Notice.isStarted (n : Notice) : Bool := n.kind = 0x40

/-- The oldest notice leaves the queue and its transmission begins, unless it is held; the lost count goes out with it and becomes
0 (R194, R195), with STARTED too when notices were dropped before it (R200, log 46). -/
def Link.transmitNotice (l : Link) : Link :=
  match l.notices with
  | n :: rest =>
    if n.held then l
    else { l with tx := some (.notice n.notice (frameBytes (n.notice.frame l.lost))), notices := rest, lost := 0 }
  | [] => l

/-- Whether STARTED has not been sent yet: it stands first in the queue from the reset on (R200). -/
def Link.startedWaits (l : Link) : Bool := l.notices.head?.any fun n => n.notice.isStarted

/-- The idle transmitter begins a frame: the reply when one waits, else the oldest notice unless it is held (R194). STARTED goes
first after a reset, before a reply that waits (R200, log 43). -/
def Link.transmit (l : Link) : Link :=
  match l.tx, l.reply with
  | none, some r =>
    if l.startedWaits then l.transmitNotice else { l with tx := some (.reply r (frameBytes r.frame)), reply := none }
  | none, none => l.transmitNotice
  | some _, _ => l

/-- A reply has been completely sent: it is counted, and the notices held for it are held no more (R194). -/
def Link.replySent (l : Link) : Link :=
  { l.modStats fun k => { k with repliesSent := countStat k.repliesSent } with
    tx := none
    notices := l.notices.map fun n => { n with held := false } }

/-- A notice has been completely sent (R194). -/
def Link.noticeSent (l : Link) : Link :=
  { l.modStats fun k => { k with noticesSent := countStat k.noticesSent } with tx := none }

/-! ## Device reset (R199, R200) -/

/-- The part held in reset by a cause. Its work is abandoned, and its blocks already hold their values after device reset but
for STARTED, which is queued when the reset ends (R199, log 24). -/
def Part.heldReset (cause : ResetCause) (baud : BitVec 2) : Part :=
  { Part.reset cause baud with power := .held cause, link := { Link.reset cause baud with notices := [], highWater := 0 } }

/-- A reset begins, or goes on with a new recorded cause (R199). -/
def Part.beginReset (cause : ResetCause) (p : Part) : Part := Part.heldReset cause p.link.baud

/-- RESET_N goes low: a running part is reset with cause PIN; a power-on reset keeps its cause (R199). Whether a request reset that
is still in progress becomes a PIN reset is the free value `becomesPin` (log 11). -/
def Part.pinReset (becomesPin : Bool) (p : Part) : Part :=
  match p.power with
  | .running => p.beginReset .pin
  | .held .powerOn => p
  | .held .pin => p
  | .held .request => if becomesPin then p.beginReset .pin else p

/-- The reset ends with the straps at these levels (R199, R200). -/
def Part.endReset (straps : BitVec 2) (p : Part) : Part :=
  match p.power with
  | .running => p
  | .held cause => Part.reset cause straps

/-- The frame being transmitted has been completely sent; after the reply of DEVICE_RESET the reset begins (R194, R199). -/
def Part.frameSent (p : Part) : Part :=
  match p.link.tx with
  | some (.reply r _) =>
    if r.resets then (p.modLink Link.replySent).beginReset .request else p.modLink Link.replySent
  | some (.notice _ _) => p.modLink Link.noticeSent
  | none => p

end Sys2Proof.Machine
end

