-- ==== Sys2Proof/Machine/Time.lean ====
section
/-!
DEFINITION. Time: what a block completion counts (00_scope 4.2), the steps that fall due from it and are taken by commands of
their own or before the next command (log 2), and the second tick's work at its receivers (R18).
-/
namespace Sys2Proof.Machine

/-! ## The second tick (R18, R39, R57, R89, R152) -/

/-- Whether a job is a step with a command of its own. -/
def TickJob.isStep : TickJob → Bool
  | .expiry _ => true
  | .silence _ => true
  | .graceEnd _ => true
  | .standbyEnd => true
  | .entry _ => false
  | .present => false
  | .voice _ => false
  | .floorEnd _ => false
  | .grace _ => false
  | .standby => false

/-- The work of a second tick: at the floor controller while a session is OPEN, at the screen router, at the standby timer. Silence
counts are taken oldest entry first, and slot 1's grace timer, with the end it may bring, before slot 2's (log 37). -/
def Part.tickPlan (p : Part) : List TickJob :=
  let seats := p.floor.speakerSeats
  (if p.isOpen then seats.map .entry ++ [.present] ++ seats.map .voice ++ [.floorEnd p.floor.queue] else []) ++
    [.grace .one, .grace .two, .standby]

/-- Puts a step in front of the jobs left. -/
def Part.pushJob (j : TickJob) (p : Part) : Part := { p with tickJobs := j :: p.tickJobs }

/-- One job of a second tick. A step that has fallen due is put in front of the jobs left. -/
def Part.runJob (j : TickJob) (p : Part) : Part :=
  match j with
  | .entry s =>
    let counted := p.tickEntry s
    if counted.atZero s then counted.pushJob (.expiry s) else counted
  | .expiry s => p.expire s
  | .present => p.markPresent
  | .voice s =>
    let counted := p.tickSilence s
    if counted.silenceDue s then counted.pushJob (.silence s) else counted
  | .silence s => p.silenceClose s
  | .floorEnd before => p.autoAdvance.endFloorEvent before
  | .grace n =>
    let counted := p.countGrace n
    if counted.screens.grace n = some 0 then counted.pushJob (.graceEnd n) else counted
  | .graceEnd n => p.graceExpiry n
  | .standby =>
    let counted := p.tickStandby
    if counted.standbyDue then counted.pushJob .standbyEnd else counted
  | .standbyEnd => p.standbyExpiry

/-- The jobs left of a second tick, run until none is left, or until one with a command of its own comes first. `fuel` bounds
them: a job puts at most one step in front of the others. -/
def Part.runJobsWith (stopAtStep : Bool) : Nat → Part → Part
  | 0, p => p
  | fuel + 1, p =>
    match p.tickJobs with
    | [] => p
    | j :: rest =>
      if stopAtStep && j.isStep then p else (({ p with tickJobs := rest }).runJob j).runJobsWith stopAtStep fuel

/-- Runs the jobs left of a second tick. -/
def Part.runJobs (stopAtStep : Bool) (p : Part) : Part := p.runJobsWith stopAtStep (2 * p.tickJobs.length)

/-- A second tick begins: the clock advances, unless a minute boundary taken first has moved it, and the work is planned. -/
def Part.startTick (moved : Bool) (p : Part) : Part :=
  let shown := if moved then p else p.moveClock
  { shown with tickJobs := shown.tickPlan }

/-! ## Steps that have fallen due (log 2) -/

/-- Takes one step that has fallen due. -/
def Part.takeOwed (p : Part) (o : Owed) : Part :=
  match o with
  | .denial s => p.endDenial s
  | .settle => p.settleEnded
  | .switch => p.switchDue
  | .idle => p.idleDue
  | .training c => p.attemptTimeout c
  | .receiveTimeout => p.modLink Link.timeout
  | .tick moved => (p.startTick moved).runJobs false
  | .boundary => p.minuteWork
  | .wrap => p.closeSession .ended

/-- Takes everything that has fallen due, in order. -/
def Part.catchUp (p : Part) : Part :=
  let ticked := p.runJobs false
  ticked.owed.foldl Part.takeOwed { ticked with owed := [] }

/-- A command at a running part: what has fallen due is taken first. A part held in reset takes nothing (R199). -/
def Part.whenRunning (f : Part → Part) (p : Part) : Part := if p.power = .running then f p.catchUp else p

/-- The command of a step that has fallen due: the step is taken alone when it is first in line; otherwise everything due is
taken (log 2, log 3). -/
def Part.takeFirst (o : Owed) (p : Part) : Part :=
  if p.power = .running then
    if p.tickJobs.isEmpty && p.owed.head? = some o then ({ p with owed := p.owed.tail }).takeOwed o else p.catchUp
  else p

/-- The command of a step within a second tick: the step is taken when it is first in line, and the tick goes on to its next
step; otherwise everything due is taken (log 2, log 3). -/
def Part.takeJob (j : TickJob) (p : Part) : Part :=
  if p.power = .running then
    if p.tickJobs.head? = some j then (({ p with tickJobs := p.tickJobs.tail }).runJob j).runJobs true else p.catchUp
  else p

/-- The second tick at its receivers, up to the first step with a command of its own (R18). -/
def Part.secondTick (p : Part) : Part :=
  if p.power = .running then
    match p.tickJobs, p.owed with
    | [], .tick moved :: rest => (({ p with owed := rest }).startTick moved).runJobs true
    | _, _ => p.catchUp
  else p

/-- The room scheduler takes a minute boundary or the clock's wrap, after the receivers of the tick or before them (R98). -/
def Part.takeBoundary (o : Owed) (p : Part) : Part :=
  if p.power = .running then
    match p.tickJobs, p.owed with
    | [], .tick moved :: next :: rest =>
      if next = o then (if moved then { p with owed := .tick true :: rest }
        else ({ p with owed := .tick true :: rest }).moveClock).takeOwed o
      else p.catchUp
    | [], next :: rest => if next = o then ({ p with owed := rest }).takeOwed o else p.catchUp
    | _, _ => p.catchUp
  else p

/-! ## Block completions (R105, 00_scope 4.2) -/

/-- Counts one millisecond at a chain: the training attempt (R162) and the time since each seat's last poll began (R171). -/
def ChainCtl.countMs (c : ChainCtl) : ChainCtl :=
  { c with
    training := if c.state = .training then { c.training with ms := c.training.ms + 1 } else c.training
    seats := c.seats.map fun k => { k with sincePoll := countUpTo 100 k.sincePoll } }

/-- Counts one millisecond at the denial timers, the chains and the receiver (R6, R162, R171, R191). -/
def Part.countMs (p : Part) : Part :=
  { p with
    seats := p.seats.map SeatRec.countDenial
    chainA := p.chainA.countMs
    chainB := p.chainB.countMs
    link := p.link.countIdle }

/-- Counts a completion toward the next second tick (R18). -/
def Scheduler.countCompletion (d : Scheduler) : Scheduler := { d with completions := (d.completions + 1) % 1000 }

/-- The chain's training attempt has lasted 50 ms (R162). -/
def ChainCtl.attemptDue (c : ChainCtl) : Bool := c.state = .training && 50 ≤ c.training.ms

/-- The second tick, and the minute boundary or the clock's wrap that comes with it, when this completion was the 1000th (R18). -/
def Scheduler.due (d : Scheduler) : List Owed :=
  if d.completions ≠ 0 then []
  else if d.clock = Time.last then [.tick false, .wrap]
  else if d.clock.second = 59 then [.tick false, .boundary]
  else [.tick false]

/-- The steps that a completion has made due, once everything is counted; `chosen` is the seat chosen by R127. -/
def Part.due (chosen : Option Seat) (p : Part) : List Owed :=
  (allSeats.filter fun s => (p.seat s).denial && (p.seat s).denialMs = 0).map .denial ++
    p.director.due chosen ++
    (if p.chainA.attemptDue then [.training .A] else []) ++ (if p.chainB.attemptDue then [.training .B] else []) ++
    (if p.link.rx.inFrame && 5 ≤ p.link.rxIdle then [.receiveTimeout] else []) ++
    p.sched.due

/-- The seat that the camera director chooses at a completion (R127). -/
def Mixer.chosen (m : Mixer) : Option Seat := (loudestAbove m.params.gate m.openChannels).map fun x => x.2.seat

/-- An audio block completes: the mixer's work (R105), the director's counts (R126), and every millisecond count. -/
def Part.completeBlock (audio : List LaneAudio) (changedAt : List Nat) (p : Part) : Part :=
  let mixed := p.mixBlock audio changedAt
  let chosen := mixed.mixer.chosen
  let counted := ((mixed.modDirector (Director.count chosen)).countMs).modSched Scheduler.countCompletion
  { counted with owed := counted.due chosen }

end Sys2Proof.Machine
end

