-- ==== Sys2Proof/Machine/Request.lean ====
section
/-!
DEFINITION. Processing a request (R193): how a request command reaches the link interface (log 1), what an owning block answers,
and the reply that waits then. Then the meaning's frame: a command changes the part and nothing else of the state.
-/
namespace Sys2Proof.Machine

/-- What an owning block answers: the status, the reply's fields after it, whether the request is a wake event (R41), whether the
device is to be reset (R199), and the part after the request's work. -/
structure Answer where
  status : Status
  fields : List Byte
  wake : Bool
  resets : Bool
  part : Part

/-- An answer other than OK: nothing changes. -/
def refuse (status : Status) (p : Part) : Answer := ⟨status, [], false, false, p⟩

/-- OK, with the fields given. -/
def ok (fields : List Byte) (p : Part) : Answer := ⟨.ok, fields, false, false, p⟩

/-- OK, to a request of R41's list. -/
def okWake (fields : List Byte) (p : Part) : Answer := ⟨.ok, fields, true, false, p⟩

/-- Stage 2 of R193: the payload is read by the catalogue's fields, and the owning block's work follows when it is read whole. -/
def readThen {α : Type} (read : Reader α) (payload : List Byte) (p : Part) (work : α → Answer) : Answer :=
  match readAll read payload with
  | .ok a => work a
  | .error status => refuse status p

/-- The owning block's check of the values: BAD_ARG when it fails. -/
def checkThen {α : Type} (value : Option α) (p : Part) (work : α → Answer) : Answer :=
  match value with
  | some a => work a
  | none => refuse .badArg p

/-- A request without fields. -/
def readNothing : Reader Unit := return ()

/-- The reply kind (R193, stage 1). -/
def replyKind (kind : Byte) : Byte := if kind.toNat < 0x80 then kind + 0x80 else 0xFF

/-- The reply's frame (R189, R193). -/
def replyFrame (f : Frame) (status : Status) (fields : List Byte) : Frame :=
  ⟨replyKind f.kind, f.tag, status.code :: fields⟩

/-- A request is processed: notices that its work queues are held (R194), a wake event is taken after the work (R41, log 22), and
the reply waits. -/
def Part.process (f : Frame) (owner : List Byte → Part → Answer) (p : Part) : Part :=
  let answer := owner f.payload (p.modLink fun l => { l with inRequest := true })
  let done := if answer.wake then answer.part.wakeEvent else answer.part
  done.modLink fun l =>
    { l with
      inRequest := false
      reply := some ⟨replyFrame f answer.status answer.fields, answer.wake, answer.resets⟩ }

/-- A request arrives whole, or its frame stands first in the buffer. A free link takes it at once; a busy one, or one with
another frame first in its buffer, is offered its frame (R192, R193, log 1). -/
def Part.request (f : Frame) (owner : List Byte → Part → Answer) : Part → Part :=
  Part.whenRunning fun p =>
    if p.link.free then
      match p.link.buffer with
      | [] => (p.modLink (Link.modStats fun k => { k with goodFrames := countStat k.goodFrames })).process f owner
      | g :: rest =>
        if g = f then (p.modLink fun l => { l with buffer := rest }).process f owner else p.modLink (Link.offer f)
    else p.modLink (Link.offer f)

/-- A command's effect: on the part, and on nothing else of the state. -/
def onPart (f : Part → Part) (s : State) : Host.Outcome State Fault Refusal := .next { s with part := f s.part }

end Sys2Proof.Machine
end

