-- ==== Sys2Proof/Machine/ChainRequests.lean ====
section
/-!
DEFINITION. The requests of the chain controllers: SET_CHAIN (R173), GET_CHAIN (R175), CHAIN_RESTART (R174).
-/
namespace Sys2Proof.Machine

/-- Reads SET_CHAIN; none when a value is refused (R161, R173). -/
def readChainSettings : Reader (Option (Chain × ChainSettings)) := do
  let c ← readByte
  let enabled ← readByte
  let pairs ← readByte
  let attempts ← readByte
  let hold ← readByte
  let retries ← readByte
  let silent ← readByte
  return do
    let c ← chain? c
    let enabled ← flag? enabled
    let pairs ← within 1 2 pairs
    let attempts ← within 1 8 attempts
    let hold ← within 0 63 hold
    let retries ← within 0 3 retries
    let silent ← within 1 15 silent
    return (c, ⟨enabled, pairs, attempts, hold, retries, silent⟩)

/-- SET_CHAIN (R173). -/
def answerSetChain (payload : List Byte) (p : Part) : Answer :=
  readThen readChainSettings payload p fun x => checkThen x p fun (c, settings) => okWake [] (p.setChain c settings)

/-- SET_CHAIN. -/
def execSetChain (tag : Byte) (payload : List Byte) (s : State) : Host.Outcome State Fault Refusal :=
  onPart (Part.request ⟨0x3C, tag, payload⟩ answerSetChain) s

/-- The chain record and the lane count (R160, R175). -/
def ChainCtl.recordFields (k : ChainCtl) : List Byte :=
  u8 k.state.ctorIdx ++ u8 k.cause.ctorIdx ++ u8 k.attempt ++ optBytes u8 k.pairs ++ flagBytes k.degraded ++
    flagBytes k.overlength ++ u8 k.found ++
    u8 k.failureRun ++ u8 k.rate.ctorIdx ++ u8 k.laneCount

/-- The chain settings (R161). -/
def ChainSettings.fields (k : ChainSettings) : List Byte :=
  flagBytes k.enabled ++ u8 k.pairs ++ u8 k.attempts ++ u8 k.hold ++ u8 k.retries ++ u8 k.silent

/-- The reply of GET_CHAIN (R175). -/
def Part.chainReply (p : Part) (c : Chain) : List Byte :=
  let k := p.chain c
  k.recordFields ++ k.settings.fields ++ u16 k.retryCounter ++ flagBytes k.rollover ++ u8 k.items.length ++ u8 k.stale.length ++
    k.lanes.flatMap (fun l => optBytes seatBytes l.assigned ++ u8 l.transmitting.length) ++
    (chainSeats c).flatMap fun s =>
      u8 (p.seat s).link.ctorIdx ++ u8 (p.seat s).failures ++ flagBytes (k.seatAt (position s)).fault

/-- GET_CHAIN (R175). -/
def answerGetChain (payload : List Byte) (p : Part) : Answer :=
  readThen (do return (← readByte, ← readByte)) payload p fun (c, choice) =>
    checkThen (do return (← chain? c, ← flag? choice)) p fun (c, clear) =>
      ok (p.chainReply c) (if clear then p.modChain c fun k => { k with rollover := false } else p)

/-- GET_CHAIN. -/
def execGetChain (tag : Byte) (payload : List Byte) (s : State) : Host.Outcome State Fault Refusal :=
  onPart (Part.request ⟨0x3D, tag, payload⟩ answerGetChain) s

/-- CHAIN_RESTART (R174). -/
def answerChainRestart (payload : List Byte) (p : Part) : Answer :=
  readThen readByte payload p fun c =>
    checkThen (chain? c) p fun c => if (p.chain c).state = .off then refuse .refused p else okWake [] (p.restartChain c)

/-- CHAIN_RESTART. -/
def execChainRestart (tag : Byte) (payload : List Byte) (s : State) : Host.Outcome State Fault Refusal :=
  onPart (Part.request ⟨0x3E, tag, payload⟩ answerChainRestart) s

end Sys2Proof.Machine
end

