-- ==== Sys2Proof/Machine/Events.lean ====
section
/-!
DEFINITION. The events: characters and transmissions of the control link, resets, time, seats and chains, and the screen link.
An event whose condition does not hold changes nothing but what had fallen due before it (log 3).
-/
namespace Sys2Proof.Machine

/-! ## Control link (R191, R194, R199) -/

/-- RX_CHARACTER. -/
def execRxCharacter (char : Byte) (stopGood : Bool) (s : State) : Host.Outcome State Fault Refusal :=
  onPart (Part.whenRunning fun p => p.modLink (Link.receive char stopGood)) s

/-- RX_TIMEOUT. -/
def execRxTimeout (s : State) : Host.Outcome State Fault Refusal := onPart (Part.takeFirst .receiveTimeout) s

/-- TRANSMIT_FRAME_START. -/
def execTransmitFrameStart (s : State) : Host.Outcome State Fault Refusal :=
  onPart (Part.whenRunning fun p => p.modLink Link.transmit) s

/-- TRANSMIT_FRAME_DONE. -/
def execTransmitFrameDone (s : State) : Host.Outcome State Fault Refusal := onPart (Part.whenRunning Part.frameSent) s

/-- POWER_ON: a reset with cause POWER_ON begins (R199). -/
def execPowerOn (s : State) : Host.Outcome State Fault Refusal := onPart (Part.beginReset .powerOn) s

/-- RESET_N_LOW. -/
def execResetNLow (s : State) : Host.Outcome State Fault Refusal :=
  .next { s with
    part := s.part.pinReset (Config.pinDuringRequestReset s.draws)
    draws := if s.part.power = .held .request then s.draws + 1 else s.draws }

/-- RESET_END. -/
def execResetEnd (straps : BitVec 2) (s : State) : Host.Outcome State Fault Refusal := onPart (Part.endReset straps) s

/-! ## Time -/

/-- BLOCK_COMPLETION. -/
def execBlockCompletion (audio : List LaneAudio) (changedAt : List Nat) (s : State) : Host.Outcome State Fault Refusal :=
  onPart (Part.whenRunning (Part.completeBlock audio changedAt)) s

/-- DENIAL_TIMER_EXPIRY. -/
def execDenialTimerExpiry (seat : Seat) (s : State) : Host.Outcome State Fault Refusal := onPart (Part.takeFirst (.denial seat)) s

/-- SETTLE_END. -/
def execSettleEnd (s : State) : Host.Outcome State Fault Refusal := onPart (Part.takeFirst .settle) s

/-- ACTIVE_SPEAKER_SWITCH. -/
def execActiveSpeakerSwitch (s : State) : Host.Outcome State Fault Refusal := onPart (Part.takeFirst .switch) s

/-- ACTIVE_SPEAKER_IDLE. -/
def execActiveSpeakerIdle (s : State) : Host.Outcome State Fault Refusal := onPart (Part.takeFirst .idle) s

/-- SECOND_TICK. -/
def execSecondTick (s : State) : Host.Outcome State Fault Refusal := onPart Part.secondTick s

/-- MINUTE_BOUNDARY. -/
def execMinuteBoundary (s : State) : Host.Outcome State Fault Refusal := onPart (Part.takeBoundary .boundary) s

/-- CLOCK_WRAP. -/
def execClockWrap (s : State) : Host.Outcome State Fault Refusal := onPart (Part.takeBoundary .wrap) s

/-- SPEECH_EXPIRY. -/
def execSpeechExpiry (seat : Seat) (s : State) : Host.Outcome State Fault Refusal := onPart (Part.takeJob (.expiry seat)) s

/-- VOICE_SILENCE_CLOSE. -/
def execVoiceSilenceClose (seat : Seat) (s : State) : Host.Outcome State Fault Refusal := onPart (Part.takeJob (.silence seat)) s

/-- SIGNAL_GRACE_EXPIRY. -/
def execSignalGraceExpiry (slot : Slot) (s : State) : Host.Outcome State Fault Refusal := onPart (Part.takeJob (.graceEnd slot)) s

/-- STANDBY_TIMER_EXPIRY. -/
def execStandbyTimerExpiry (s : State) : Host.Outcome State Fault Refusal := onPart (Part.takeJob .standbyEnd) s

/-! ## Seats and chains -/

/-- The seat table takes the oldest press that a seat has waiting, when it is of this button (R4, log 21). -/
def Part.takeWaiting (s : Seat) (button : Button) (p : Part) : Part :=
  match p.presses.find? fun x => x.seat = s with
  | some x => if x.button = button then ({ p with presses := p.presses.erase x }).takePress s button else p
  | none => p

/-- PRESS_EVENT. -/
def execPressEvent (seat : Seat) (button : Button) (s : State) : Host.Outcome State Fault Refusal :=
  onPart (Part.whenRunning (Part.takeWaiting seat button)) s

/-- EXCHANGE_CHOICE. -/
def execExchangeChoice (chain : Chain) (s : State) : Host.Outcome State Fault Refusal :=
  onPart (Part.whenRunning (Part.chooseNext chain)) s

/-- ATTEMPT_RESPONSE. -/
def execAttemptResponse (chain : Chain) (checkGood : Bool) (answer : UnitAnswer) (s : State) :
    Host.Outcome State Fault Refusal :=
  onPart (Part.whenRunning (Part.attemptAnswered chain checkGood answer)) s

/-- HOLD_LIMIT_TIMEOUT. -/
def execHoldLimitTimeout (chain : Chain) (s : State) : Host.Outcome State Fault Refusal :=
  onPart (Part.whenRunning (Part.attemptFailed chain)) s

/-- BROADCAST_DONE. -/
def execBroadcastDone (chain : Chain) (s : State) : Host.Outcome State Fault Refusal :=
  onPart (Part.whenRunning fun p => p.modChain chain ChainCtl.broadcastSent) s

/-- TURNAROUND_END. -/
def execTurnaroundEnd (chain : Chain) (s : State) : Host.Outcome State Fault Refusal :=
  onPart (Part.whenRunning (Part.turnaroundEnded chain)) s

/-- A seat has become due for a poll: its chain, when idle, chooses (R171, R180). -/
def Part.pollFallsDue (s : Seat) (p : Part) : Part := if p.pollDue s then p.chooseNext (chainOf s) else p

/-- SLOW_POLL_DUE. -/
def execSlowPollDue (seat : Seat) (s : State) : Host.Outcome State Fault Refusal :=
  onPart (Part.whenRunning (Part.pollFallsDue seat)) s

/-- PAIR_LOCK. -/
def execPairLock (chain : Chain) (pair : Pair) (s : State) : Host.Outcome State Fault Refusal :=
  onPart (Part.whenRunning (Part.pairLocked chain pair)) s

/-- TRAINING_ATTEMPT_END. -/
def execTrainingAttemptEnd (chain : Chain) (s : State) : Host.Outcome State Fault Refusal :=
  onPart (Part.takeFirst (.training chain)) s

/-- LOSS_OF_LOCK. -/
def execLossOfLock (chain : Chain) (pair : Pair) (s : State) : Host.Outcome State Fault Refusal :=
  onPart (Part.whenRunning (Part.lockLost chain pair)) s

/-! ## Screen link (R153) -/

/-- SCREEN_LINK_TRANSMIT_START. -/
def execScreenLinkTransmitStart (s : State) : Host.Outcome State Fault Refusal :=
  onPart (Part.whenRunning fun p => p.modScreens Screens.beginRecord) s

/-- SCREEN_LINK_TRANSMIT_DONE. -/
def execScreenLinkTransmitDone (s : State) : Host.Outcome State Fault Refusal :=
  onPart (Part.whenRunning fun p => p.modScreens fun v => { v with sending := none }) s

end Sys2Proof.Machine
end

