-- ==== Sys2Proof/Machine/FloorRequests.lean ====
section
/-!
DEFINITION. The requests of the floor controller: the floor (R58 to R65), priority (R82, R85, R86) and speech time (R94).
-/
namespace Sys2Proof.Machine

/-- The start of every request that names one seat in a session: BAD_ARG for a seat above 63, then NO_SESSION. -/
def seatInSession (payload : List Byte) (p : Part) (work : Seat → Answer) : Answer :=
  readThen readByte payload p fun s =>
    checkThen (seat? s) p fun s => if p.isOpen then work s else refuse .noSession p

/-- The start of every request without fields that needs a session. -/
def inSession (payload : List Byte) (p : Part) (work : Answer) : Answer :=
  readThen readNothing payload p fun _ => if p.isOpen then work else refuse .noSession p

/-! ## Grants (R58) -/

/-- Outcomes of GRANT (R58). -/
inductive Granted where
  | opened
  | queued
  deriving DecidableEq, Repr

/-- Lines 5 to 9 of R58: the status, the outcome, and the floor after it. A queued seat that lacks resources falls to line 9, as
the sentence under the table says, under each overflow policy (log 33). -/
def Part.grantSeat (s : Seat) (p : Part) : Status × Option Granted × Part :=
  if (p.seat s).standing = .chair then
    let r := p.openChair s .controller
    if r.1 = .denied then (.noResource, none, p) else (.ok, some .opened, r.2)
  else if p.resourcesFree s then (.ok, some .opened, p.openMic s .delegate .controller p.frozen none)
  else if p.floor.preset.mode = .queued || p.isQueued s then (.noResource, none, p)
  else
    match p.floor.preset.overflow with
    | .queue => if p.floor.queueFull then (.full, none, p) else (.ok, some .queued, p.appendSeat s .controller)
    | .replaceOldest =>
      match p.replaced s with
      | some e => (.ok, some .opened, p.replaceWith e s .controller p.frozen)
      | none => (.noResource, none, p)
    | .deny => (.noResource, none, p)

/-- GRANT (R58); outcome OPENED is 0, QUEUED is 1. -/
def answerGrant (payload : List Byte) (p : Part) : Answer :=
  seatInSession payload p fun s =>
    let r := p.seat s
    if r.link ≠ .present || !r.standing.speaks then refuse .refused p
    else if p.speaking s then refuse .already p
    else
      match p.grantSeat s with
      | (_, some outcome, _) => ok (u8 outcome.ctorIdx) (p.floorEvent fun q => (q.grantSeat s).2.2)
      | (status, none, _) => refuse status p

/-- GRANT. -/
def execGrant (tag : Byte) (payload : List Byte) (s : State) : Host.Outcome State Fault Refusal :=
  onPart (Part.request ⟨0x20, tag, payload⟩ answerGrant) s

/-! ## The floor (R59 to R65) -/

/-- CLOSE (R59). -/
def answerClose (payload : List Byte) (p : Part) : Answer :=
  seatInSession payload p fun s =>
    if p.speaking s then ok [] (p.floorEvent fun q => q.closeMic s (some .controller)) else refuse .notFound p

/-- CLOSE. -/
def execClose (tag : Byte) (payload : List Byte) (s : State) : Host.Outcome State Fault Refusal :=
  onPart (Part.request ⟨0x21, tag, payload⟩ answerClose) s

/-- ENQUEUE (R60). -/
def answerEnqueue (payload : List Byte) (p : Part) : Answer :=
  seatInSession payload p fun s =>
    if (p.seat s).link ≠ .present || (p.seat s).standing ≠ .delegate then refuse .refused p
    else if p.speaking s || p.isQueued s then refuse .already p
    else if p.floor.queueFull then refuse .full p
    else ok [] (p.floorEvent fun q => q.appendSeat s .controller)

/-- ENQUEUE. -/
def execEnqueue (tag : Byte) (payload : List Byte) (s : State) : Host.Outcome State Fault Refusal :=
  onPart (Part.request ⟨0x22, tag, payload⟩ answerEnqueue) s

/-- DEQUEUE (R61). -/
def answerDequeue (payload : List Byte) (p : Part) : Answer :=
  seatInSession payload p fun s =>
    if p.isQueued s then ok [] (p.floorEvent fun q => q.withdraw s)
    else if p.isHeldPress s then ok [] (p.floorEvent fun q => q.unhold s)
    else refuse .notFound p

/-- DEQUEUE. -/
def execDequeue (tag : Byte) (payload : List Byte) (s : State) : Host.Outcome State Fault Refusal :=
  onPart (Part.request ⟨0x23, tag, payload⟩ answerDequeue) s

/-- A queued seat's entry is reinserted at a position, counted from 1; a position beyond the tail is the tail (R62). -/
def Floor.move (s : Seat) (position : Nat) (f : Floor) : Floor :=
  let rest := f.queue.filter fun e => e.seat ≠ s
  match f.queue.find? fun e => e.seat = s with
  | some e => { f with queue := rest.take (position - 1) ++ e :: rest.drop (position - 1) }
  | none => f

/-- MOVE_REQUEST (R62). -/
def answerMoveRequest (payload : List Byte) (p : Part) : Answer :=
  readThen (do return (← readByte, ← readByte)) payload p fun (s, position) =>
    checkThen (do return (← seat? s, ← within 1 255 position)) p fun (s, position) =>
      if !p.isOpen then refuse .noSession p
      else if p.isQueued s then
        ok (u8 (min position p.floor.queue.length))
          (p.floorEvent fun q => (q.modFloor (Floor.move s position)).deriveQueued)
      else refuse .notFound p

/-- MOVE_REQUEST. -/
def execMoveRequest (tag : Byte) (payload : List Byte) (s : State) : Host.Outcome State Fault Refusal :=
  onPart (Part.request ⟨0x24, tag, payload⟩ answerMoveRequest) s

/-- The parts of GET_FLOOR (R64). -/
inductive FloorPart where
  | preset
  | speakers
  | queue
  | held
  | priority
  deriving DecidableEq, Repr

/-- Reads the part selector (R64, R193). -/
def readFloorPart : Reader FloorPart := do
  match [FloorPart.preset, .speakers, .queue, .held, .priority][← readByte]? with
  | some part => return part
  | none => throw .badArg

/-- A speaker list entry, with the fields of R44. -/
def Speaker.fields (e : Speaker) : List Byte :=
  seatBytes e.seat ++ u8 e.kind.ctorIdx ++ wordBytes e.grantNo ++ u8 e.channel ++ u8 e.lane ++ optBytes u16 e.remaining ++
    flagBytes e.warned ++
    flagBytes e.duringFreeze ++ u8 e.source.ctorIdx

/-- A saved speaker entry, with the fields of R72. -/
def Saved.fields (e : Saved) : List Byte :=
  seatBytes e.seat ++ u8 e.source.ctorIdx ++ optBytes u16 e.remaining ++ flagBytes e.warned ++ flagBytes e.duringFreeze

/-- A resume frame, with the fields of R72. -/
def ResumeFrame.fields (r : ResumeFrame) : List Byte := holderBytes r.holder ++ flagBytes r.released ++
  listBytes Saved.fields r.saved

/-- What GET_FLOOR reports of a part (R64, R86); session state IDLE is 0, OPEN is 1. -/
def Part.floorReply (p : Part) : FloorPart → List Byte
  | .preset =>
    u8 (if p.isOpen then 1 else 0) ++ flagBytes p.frozen ++ floorBytes p.floor.preset ++ u8 p.floor.delegates ++
      u8 p.floor.chairs ++ u8 p.chainA.laneCount ++ u8 (p.lanesInUse .A) ++ u8 p.chainB.laneCount ++ u8 (p.lanesInUse .B)
  | .speakers => listBytes Speaker.fields p.floor.speakers
  | .queue => listBytes (fun e : QueueEntry => seatBytes e.seat ++ wordBytes e.enqueueNo ++ u8 e.source.ctorIdx) p.floor.queue
  | .held => listBytes (fun e : HeldPress => seatBytes e.seat) p.floor.held
  | .priority =>
    flagBytes p.frozen ++ listBytes (fun x : Holder × Condition => holderBytes x.1 ++ u8 x.2.ctorIdx) p.floor.holders ++
      listBytes ResumeFrame.fields p.floor.stack

/-- GET_FLOOR (R64). -/
def answerGetFloor (payload : List Byte) (p : Part) : Answer :=
  readThen readFloorPart payload p fun part => ok (p.floorReply part) p

/-- GET_FLOOR. -/
def execGetFloor (tag : Byte) (payload : List Byte) (s : State) : Host.Outcome State Fault Refusal :=
  onPart (Part.request ⟨0x25, tag, payload⟩ answerGetFloor) s

/-- The newest DELEGATE entries, one after another, until their number equals the limit (R63). -/
def Part.overLimit (p : Part) : List Seat :=
  (p.floor.delegateSeats.reverse).take (p.floor.delegates - p.floor.preset.limit)

/-- The preset in force is replaced, and a lowered limit closes the newest delegates (R63). -/
def Part.setFloor (f : FloorPreset) (p : Part) : Part :=
  let set := p.modFloor fun k => { k with preset := f }
  set.closeSeats set.overLimit (some .limitLowered)

/-- SET_FLOOR (R63). -/
def answerSetFloor (payload : List Byte) (p : Part) : Answer :=
  readThen readFloor payload p fun f =>
    checkThen f p fun f =>
      if p.isOpen then okWake [] (p.floorEvent fun q => q.setFloor f) else refuse .noSession p

/-- SET_FLOOR. -/
def execSetFloor (tag : Byte) (payload : List Byte) (s : State) : Host.Outcome State Fault Refusal :=
  onPart (Part.request ⟨0x26, tag, payload⟩ answerSetFloor) s

/-! ## Priority (R85) -/

/-- PRIORITY_TAKE (R85). -/
def answerPriorityTake (payload : List Byte) (p : Part) : Answer :=
  inSession payload p
    (if p.holds .controller then refuse .already p else ok [] (p.floorEvent fun q => q.takeOrRetake .controller))

/-- PRIORITY_TAKE. -/
def execPriorityTake (tag : Byte) (payload : List Byte) (s : State) : Host.Outcome State Fault Refusal :=
  onPart (Part.request ⟨0x27, tag, payload⟩ answerPriorityTake) s

/-- PRIORITY_RELEASE (R85). -/
def answerPriorityRelease (payload : List Byte) (p : Part) : Answer :=
  inSession payload p
    (if p.holds .controller then ok [] (p.floorEvent fun q => q.release .controller) else refuse .notFound p)

/-- PRIORITY_RELEASE. -/
def execPriorityRelease (tag : Byte) (payload : List Byte) (s : State) : Host.Outcome State Fault Refusal :=
  onPart (Part.request ⟨0x28, tag, payload⟩ answerPriorityRelease) s

/-- FLOOR_RESET (R82, R85). -/
def answerFloorReset (payload : List Byte) (p : Part) : Answer := inSession payload p (ok [] (p.floorEvent Part.floorReset))

/-- FLOOR_RESET. -/
def execFloorReset (tag : Byte) (payload : List Byte) (s : State) : Host.Outcome State Fault Refusal :=
  onPart (Part.request ⟨0x29, tag, payload⟩ answerFloorReset) s

/-! ## Speech time and presses -/

/-- EXTEND_SPEECH (R94). -/
def answerExtendSpeech (payload : List Byte) (p : Part) : Answer :=
  readThen (do return (← readByte, ← readWord)) payload p fun (s, seconds) =>
    checkThen (do return (← seat? s, ← within 1 600 seconds)) p fun (s, seconds) =>
      if !p.isOpen then refuse .noSession p
      else
        match p.speaker? s with
        | none => refuse .notFound p
        | some e =>
          match e.remaining with
          | none => refuse .noLimit p
          | some r =>
            let time := min (r + seconds) 3600
            ok (u16 (time - r) ++ u16 time) (p.floorEvent fun q => q.extendEntry s time)

/-- EXTEND_SPEECH. -/
def execExtendSpeech (tag : Byte) (payload : List Byte) (s : State) : Host.Outcome State Fault Refusal :=
  onPart (Part.request ⟨0x2A, tag, payload⟩ answerExtendSpeech) s

/-- A number of presses of a button, taken one after another within the request, ahead of polled presses of the seat that still
wait (R4, R65, log 38). -/
def Part.takePresses (s : Seat) (button : Button) : Nat → Part → Part
  | 0, p => p
  | n + 1, p => (p.takePress s button).takePresses s button n

/-- SEAT_PRESS (R65). -/
def answerSeatPress (payload : List Byte) (p : Part) : Answer :=
  readThen (do return (← readByte, ← readByte, ← readByte)) payload p fun (s, button, count) =>
    checkThen (do return (← seat? s, ← [Button.speak, .aux][button]?, ← within 1 3 count)) p fun (s, button, count) =>
      if (p.seat s).link = .present then ok [] (p.takePresses s button count) else refuse .refused p

/-- SEAT_PRESS. -/
def execSeatPress (tag : Byte) (payload : List Byte) (s : State) : Host.Outcome State Fault Refusal :=
  onPart (Part.request ⟨0x2B, tag, payload⟩ answerSeatPress) s

end Sys2Proof.Machine
end

