-- ==== Sys2Proof/Machine/LinkRequests.lean ====
section
/-!
DEFINITION. The requests of the link interface: PING, GET_INFO (R198), GET_STATS (R197), DEVICE_RESET (R199), SET_NOTICES (R196),
and the answer to an unknown kind (R193).
-/
namespace Sys2Proof.Machine

/-- PING: 0-249 bytes come back (R198). -/
def answerPing (payload : List Byte) (p : Part) : Answer :=
  if payload.length ≤ 249 then ok payload p else refuse .badLength p

/-- PING. -/
def execPing (tag : Byte) (payload : List Byte) (s : State) : Host.Outcome State Fault Refusal :=
  onPart (Part.request ⟨0x01, tag, payload⟩ answerPing) s

/-- GET_INFO (R198). -/
def answerGetInfo (payload : List Byte) (p : Part) : Answer :=
  readThen readNothing payload p fun _ =>
    ok (u16 Config.partCode ++ u8 Config.siliconRevision ++ u8 p.link.baud.toNat ++ u8 p.link.resetCause.ctorIdx ++
      u8 Config.bufferSize ++ u8 Config.noticeQueueSize) p

/-- GET_INFO. -/
def execGetInfo (tag : Byte) (payload : List Byte) (s : State) : Host.Outcome State Fault Refusal :=
  onPart (Part.request ⟨0x02, tag, payload⟩ answerGetInfo) s

/-- The ten statistics, in the order of R197. -/
def Stats.fields (k : Stats) : List Byte :=
  u16 k.goodFrames ++ u16 k.checkErrors ++ u16 k.syncDiscards ++ u16 k.lengthErrors ++ u16 k.timeouts ++ u16 k.lineErrors ++
    u16 k.overruns ++ u16 k.repliesSent ++ u16 k.noticesSent ++ u16 k.noticesDropped

/-- The reply of GET_STATS (R197). -/
def Link.statsReply (l : Link) : List Byte :=
  l.stats.fields ++ u8 l.notices.length ++ u8 l.highWater ++ u8 l.lost

/-- GET_STATS (R197). -/
def answerGetStats (payload : List Byte) (p : Part) : Answer :=
  readThen readByte payload p fun choice =>
    checkThen (flag? choice) p fun clear =>
      ok p.link.statsReply (if clear then p.modLink fun l => { l with stats := .reset, highWater := 0 } else p)

/-- GET_STATS. -/
def execGetStats (tag : Byte) (payload : List Byte) (s : State) : Host.Outcome State Fault Refusal :=
  onPart (Part.request ⟨0x03, tag, payload⟩ answerGetStats) s

/-- DEVICE_RESET: the reset begins when the reply has been sent (R199). -/
def answerDeviceReset (payload : List Byte) (p : Part) : Answer :=
  readThen readNothing payload p fun _ => { ok [] p with resets := true }

/-- DEVICE_RESET. -/
def execDeviceReset (tag : Byte) (payload : List Byte) (s : State) : Host.Outcome State Fault Refusal :=
  onPart (Part.request ⟨0x04, tag, payload⟩ answerDeviceReset) s

/-- SET_NOTICES: a bit for a kind above 0x51 is refused, and the flag of STARTED is taken as set (R196). -/
def answerSetNotices (payload : List Byte) (p : Part) : Answer :=
  readThen readQuad payload p fun mask =>
    if mask < 0x40000 then okWake [] (p.modLink fun l => { l with mask := BitVec.ofNat 32 mask ||| 1 }) else refuse .badArg p

/-- SET_NOTICES. -/
def execSetNotices (tag : Byte) (payload : List Byte) (s : State) : Host.Outcome State Fault Refusal :=
  onPart (Part.request ⟨0x05, tag, payload⟩ answerSetNotices) s

/-- A kind that is not in the catalogue is answered UNKNOWN_KIND (R193, stage 1). -/
def answerUnknownKind (_payload : List Byte) (p : Part) : Answer := refuse .unknownKind p

/-- UNKNOWN_KIND_REQUEST. A kind of the catalogue is not one (the command is not well formed): nothing happens. -/
def execUnknownKindRequest (kind tag : Byte) (payload : List Byte) (s : State) : Host.Outcome State Fault Refusal :=
  if isRequestKind kind then onPart (Part.whenRunning fun p => p) s
  else onPart (Part.request ⟨kind, tag, payload⟩ answerUnknownKind) s

end Sys2Proof.Machine
end

