-- ==== Sys2Proof/Machine/OutputRequests.lean ====
section
/-!
DEFINITION. The requests of the mixer (R117, R123, R124), the camera director (R138) and the screen router (R155 to R159).
-/
namespace Sys2Proof.Machine

/-! ## Mixer -/

/-- The mix parameters in force are replaced, and the duck counts recounted (R123). -/
def Part.setMix (m : MixPreset) (p : Part) : Part :=
  ((p.modMixer fun k => { k with params := m }).recountChain .A).recountChain .B

/-- SET_MIX (R123). -/
def answerSetMix (payload : List Byte) (p : Part) : Answer :=
  readThen readMix payload p fun m =>
    checkThen m p fun m => if p.isOpen then okWake [] (p.setMix m) else refuse .noSession p

/-- SET_MIX. -/
def execSetMix (tag : Byte) (payload : List Byte) (s : State) : Host.Outcome State Fault Refusal :=
  onPart (Part.request ⟨0x30, tag, payload⟩ answerSetMix) s

/-- An OPEN channel as GET_MIX_STATUS reports it (R124). -/
def Part.channelFields (p : Part) (x : Nat × Channel) : List Byte :=
  let kind := ((p.floor.speakers.find? fun e => e.channel = x.1).map Speaker.kind).getD .delegate
  u8 x.1 ++ seatBytes x.2.seat ++ u8 kind.ctorIdx ++ u16 x.2.envelope ++ u16 x.2.share ++ u8 x.2.trim ++ u8 x.2.bias ++
    u16 x.2.gain

/-- The loudspeaker part of GET_MIX_STATUS (R190). -/
def Mixer.loudFields (m : Mixer) : List Byte :=
  u8 (m.loud.filter fun l => l ≠ .normal).length ++
    (m.loud.zip m.ducks).flatMap fun x => u8 (x.1.ctorIdx * 8 + x.2)

/-- The reply of GET_MIX_STATUS (R124). -/
def Part.mixReply (p : Part) : List Byte :=
  let m := p.mixer
  mixBytes m.params ++ u8 p.floor.preset.chairBias ++ flagBytes m.mute ++ flagBytes m.recordForced ++
    flagBytes m.outputForced ++ u16 m.clip ++
    optBytes u8 m.holder ++ listBytes p.channelFields m.openChannels ++ m.loudFields

/-- GET_MIX_STATUS (R124). -/
def answerGetMixStatus (payload : List Byte) (p : Part) : Answer :=
  readThen readByte payload p fun choice =>
    checkThen (flag? choice) p fun clear => ok p.mixReply (if clear then p.modMixer fun m => { m with clip := 0 } else p)

/-- GET_MIX_STATUS. -/
def execGetMixStatus (tag : Byte) (payload : List Byte) (s : State) : Host.Outcome State Fault Refusal :=
  onPart (Part.request ⟨0x31, tag, payload⟩ answerGetMixStatus) s

/-- MUTE_ROOM (R117). -/
def answerMuteRoom (payload : List Byte) (p : Part) : Answer :=
  readThen readByte payload p fun choice =>
    checkThen (flag? choice) p fun mute => okWake [] (p.modMixer fun m => { m with mute := mute })

/-- MUTE_ROOM. -/
def execMuteRoom (tag : Byte) (payload : List Byte) (s : State) : Host.Outcome State Fault Refusal :=
  onPart (Part.request ⟨0x32, tag, payload⟩ answerMuteRoom) s

/-! ## Camera director -/

/-- What SET_CAMERA carries (R138). -/
structure CameraSettings where
  stripe : Stripe
  settleTime : Nat
  switchHold : Nat
  idleTime : Nat
  forget : Bool

/-- Reads SET_CAMERA; none when a value is refused (R138). -/
def readCamera : Reader (Option CameraSettings) := do
  let stripe ← readByte
  let settleTime ← readWord
  let switchHold ← readWord
  let idleTime ← readByte
  let forget ← readByte
  return do
    let stripe ← [Stripe.block, .pairs, .interleave][stripe]?
    let settleTime ← within 0 3000 settleTime
    let switchHold ← within 250 5000 switchHold
    let idleTime ← within 1 60 idleTime
    let forget ← flag? forget
    return ⟨stripe, settleTime, switchHold, idleTime, forget⟩

/-- The camera settings are replaced, and the current presets forgotten when asked (R138). -/
def Director.setCamera (k : CameraSettings) (d : Director) : Director :=
  { d with
    stripe := k.stripe
    settleTime := k.settleTime
    switchHold := k.switchHold
    idleTime := k.idleTime
    current := if k.forget then d.current.map fun _ => none else d.current }

/-- SET_CAMERA (R138). -/
def answerSetCamera (payload : List Byte) (p : Part) : Answer :=
  readThen readCamera payload p fun k => checkThen k p fun k => okWake [] (p.modDirector (Director.setCamera k))

/-- SET_CAMERA. -/
def execSetCamera (tag : Byte) (payload : List Byte) (s : State) : Host.Outcome State Fault Refusal :=
  onPart (Part.request ⟨0x34, tag, payload⟩ answerSetCamera) s

/-! ## Screen plans and screens -/

/-- What SET_SCREEN_PLAN carries (R155). -/
inductive PlanPart where
  | plan (n : Fin 4) (modes : List ScreenMode)
  | setup (classes : List ScreenClass) (policy : SharePolicy) (requiresFloor : Bool) (graceTime : Nat)

/-- Reads SET_SCREEN_PLAN; its part is a selector (R155, R193). A share-requires-floor byte that is neither on nor off is refused
like the other values (log 35). -/
def readPlanPart : Reader (Option PlanPart) := do
  match ← readByte with
  | 0 =>
    let n ← readByte
    let modes ← readMany readMode 8
    return do
      let n ← below 4 n
      let modes ← every id modes
      return .plan n modes
  | 1 =>
    let classes ← readMany readByte 8
    let policy ← readByte
    let requiresFloor ← readByte
    let graceTime ← readByte
    return do
      let classes ← every (fun n => [ScreenClass.internal, .external][n]?) classes
      let policy ← [SharePolicy.takeover, .deny][policy]?
      let requiresFloor ← flag? requiresFloor
      let graceTime ← within 0 10 graceTime
      return .setup classes policy requiresFloor graceTime
  | _ => throw .badArg

/-- A plan's stored modes are replaced; the plan in force acts at once (R155). -/
def Part.setPlan (n : Fin 4) (modes : List ScreenMode) (p : Part) : Part :=
  let stored := p.modScreens fun v => { v with plans := updateAt (fun _ => modes) v.plans n.val }
  if p.screens.plan = n then stored.recomputeScreens else stored

/-- The screen classes, one for each screen. -/
def Screens.classes (v : Screens) : List ScreenClass := v.screens.map Screen.cls

/-- The classes and the sharing settings are replaced (R155). When one request asks for both, the screens are computed again before
the shares are examined again (log 45). -/
def Part.setSetup (classes : List ScreenClass) (policy : SharePolicy) (requiresFloor : Bool) (graceTime : Nat) (p : Part) :
    Part :=
  let stored := p.modScreens fun v =>
    { v with
      screens := List.zipWith (fun s c => { s with cls := c }) v.screens classes
      policy := policy
      requiresFloor := requiresFloor
      graceTime := graceTime }
  let shown := if p.screens.classes = classes then stored else stored.recomputeScreens
  if requiresFloor && !p.screens.requiresFloor then shown.reexamineAll else shown

/-- SET_SCREEN_PLAN (R155). -/
def answerSetScreenPlan (payload : List Byte) (p : Part) : Answer :=
  readThen readPlanPart payload p fun x =>
    checkThen x p fun x =>
      match x with
      | .plan n modes => okWake [] (p.setPlan n modes)
      | .setup classes policy requiresFloor graceTime => okWake [] (p.setSetup classes policy requiresFloor graceTime)

/-- SET_SCREEN_PLAN. -/
def execSetScreenPlan (tag : Byte) (payload : List Byte) (s : State) : Host.Outcome State Fault Refusal :=
  onPart (Part.request ⟨0x35, tag, payload⟩ answerSetScreenPlan) s

/-- Reads SET_SCREEN; none when a value is refused (R156). -/
def readOverride : Reader (Option (Fin 8 × Option ScreenMode)) := do
  let i ← readByte
  let mode ← readOpt readMode
  return do
    let i ← below 8 i
    let mode ← optional? mode
    return (i, mode)
where
  /-- An optional mode: none when it is present and refused. -/
  optional? : Option (Option ScreenMode) → Option (Option ScreenMode)
    | none => some none
    | some none => none
    | some (some mode) => some (some mode)

/-- Whether a screen has an override (R141). -/
def Screens.overridden (v : Screens) (i : Fin 8) : Bool := ((v.screens[i.val]?).bind Screen.override).isSome

/-- A screen's override is set or cleared, and the screens are computed again (R144). A CLEAR of a screen without an override
changes nothing (R156). -/
def Part.setOverride (i : Fin 8) (mode : Option ScreenMode) (p : Part) : Part :=
  if mode.isNone && !p.screens.overridden i then p
  else
    (p.modScreens fun v =>
      { v with screens := updateAt (fun s : Screen => { s with override := mode }) v.screens i.val }).recomputeScreens

/-- SET_SCREEN (R156). -/
def answerSetScreen (payload : List Byte) (p : Part) : Answer :=
  readThen readOverride payload p fun x => checkThen x p fun (i, mode) => okWake [] (p.setOverride i mode)

/-- SET_SCREEN. -/
def execSetScreen (tag : Byte) (payload : List Byte) (s : State) : Host.Outcome State Fault Refusal :=
  onPart (Part.request ⟨0x36, tag, payload⟩ answerSetScreen) s

/-! ## Shares -/

/-- SHARE_START (R157). -/
def answerShareStart (payload : List Byte) (p : Part) : Answer :=
  readThen readByte payload p fun s =>
    checkThen (seat? s) p fun s =>
      if !p.isOpen then refuse .noSession p
      else if (p.screens.slotOf s).isSome then refuse .already p
      else if !p.mayShare s then refuse .refused p
      else
        match p.grantShare s .controller with
        | some (n, q) => ok (slotBytes n) q
        | none => refuse .full p

/-- SHARE_START. -/
def execShareStart (tag : Byte) (payload : List Byte) (s : State) : Host.Outcome State Fault Refusal :=
  onPart (Part.request ⟨0x37, tag, payload⟩ answerShareStart) s

/-- SHARE_STOP (R157). -/
def answerShareStop (payload : List Byte) (p : Part) : Answer :=
  readThen readByte payload p fun n =>
    checkThen (slot? n) p fun n =>
      if !p.isOpen then refuse .noSession p
      else if (p.screens.slot n).isSome then ok [] (p.endShare n .controller)
      else refuse .notFound p

/-- SHARE_STOP. -/
def execShareStop (tag : Byte) (payload : List Byte) (s : State) : Host.Outcome State Fault Refusal :=
  onPart (Part.request ⟨0x38, tag, payload⟩ answerShareStop) s

/-! ## Reading and refreshing the screens -/

/-- A screen as GET_SCREENS reports it (R159); an override absent is 0, present is 1 (R190). -/
def Screens.screenFields (v : Screens) (i : Fin 8) : List Byte :=
  u8 (v.classOf i).ctorIdx ++ modeBytes (v.modeOf i) ++
    u8 (if v.overridden i then 1 else 0) ++ sourceBytes (v.sourceOf i)

/-- A share slot as GET_SCREENS reports it (R159). -/
def Share.fields (h : Share) : List Byte := seatBytes h.seat ++ u8 h.input ++ wordBytes h.startNo ++ u8 h.source.ctorIdx

/-- The camera director's part of GET_SCREENS (R139). R190 names no presence byte for a current preset that is unknown: that it is
sent as an absent value, presence byte 0, is the model's choice (log 8). -/
def Director.fields (d : Director) : List Byte :=
  optBytes seatBytes d.active ++ optBytes seatBytes d.candidate ++ u16 d.hold ++ u16 d.idle ++ followBytes d.follow ++
    optBytes (fun r : Recall => shotBytes r.shot ++ seatBytes r.seat ++ u16 r.settle) d.aimed ++
    d.current.flatMap (optBytes u8) ++
    u8 d.stripe.ctorIdx ++ u16 d.settleTime ++ u16 d.switchHold ++ u8 d.idleTime

/-- The reply of GET_SCREENS for a plan (R159). -/
def Part.screensReply (p : Part) (n : Fin 4) : List Byte :=
  let v := p.screens
  u8 v.plan.val ++ flagBytes v.confidential ++ u8 p.sched.standby.ctorIdx ++ (List.finRange 8).flatMap v.screenFields ++
    (v.plans.getD n.val []).flatMap modeBytes ++ optBytes Share.fields v.slot1 ++ optBytes Share.fields v.slot2 ++
    optBytes slotBytes v.older ++
    optBytes u8 v.grace1 ++ optBytes u8 v.grace2 ++ u8 v.policy.ctorIdx ++ flagBytes v.requiresFloor ++ u8 v.graceTime ++
    u8 v.queue.length ++
    p.director.fields

/-- GET_SCREENS (R139, R159). -/
def answerGetScreens (payload : List Byte) (p : Part) : Answer :=
  readThen readByte payload p fun n => checkThen (below 4 n) p fun n => ok (p.screensReply n) p

/-- GET_SCREENS. -/
def execGetScreens (tag : Byte) (payload : List Byte) (s : State) : Host.Outcome State Fault Refusal :=
  onPart (Part.request ⟨0x39, tag, payload⟩ answerGetScreens) s

/-- Every route and share bus is placed on the screen link queue again (R158). -/
def Part.refreshScreens (p : Part) : Part :=
  let routed := (List.finRange 8).foldl (fun q i => q.placeRecord (.route i (p.screens.sourceOf i))) p
  (routed.placeRecord (.shareBus .one (p.screens.slot1.map Share.input))).placeRecord
    (.shareBus .two (p.screens.slot2.map Share.input))

/-- SCREEN_REFRESH (R158). -/
def answerScreenRefresh (payload : List Byte) (p : Part) : Answer :=
  readThen readNothing payload p fun _ => ok [] p.refreshScreens

/-- SCREEN_REFRESH. -/
def execScreenRefresh (tag : Byte) (payload : List Byte) (s : State) : Host.Outcome State Fault Refusal :=
  onPart (Part.request ⟨0x3A, tag, payload⟩ answerScreenRefresh) s

end Sys2Proof.Machine
end

