-- ==== Sys2Proof/Machine/RoomRequests.lean ====
section
/-!
DEFINITION. The requests of the room scheduler: the clock (R19, R35), the booking table (R21 to R24), the session (R27, R30, R33,
R34), the room defaults (R38) and standby (R42).
-/
namespace Sys2Proof.Machine

/-! ## The clock -/

/-- Reads a time (R190). -/
def readTime : Reader Time := do
  let day ← readWord
  let minute ← readWord
  let second ← readByte
  return ⟨day, minute, second⟩

/-- A time of the room clock (R18). -/
def time? (t : Time) : Option Time := if t.day ≤ 65535 && t.minute ≤ 1439 && t.second ≤ 59 then some t else none

/-- The clock is set (R35). -/
def Part.setClock (t : Time) (p : Part) : Part := p.modSched fun d => { d with clock := t, valid := true, completions := 0 }

/-- SET_CLOCK (R35). -/
def answerSetClock (payload : List Byte) (p : Part) : Answer :=
  readThen readTime payload p fun t => checkThen (time? t) p fun t => okWake [] (p.setClock t).bookingWork

/-- SET_CLOCK. -/
def execSetClock (tag : Byte) (payload : List Byte) (s : State) : Host.Outcome State Fault Refusal :=
  onPart (Part.request ⟨0x08, tag, payload⟩ answerSetClock) s

/-- GET_CLOCK (R19). -/
def answerGetClock (payload : List Byte) (p : Part) : Answer :=
  readThen readNothing payload p fun _ => ok (timeBytes p.sched.clock ++ flagBytes p.sched.valid) p

/-- GET_CLOCK. -/
def execGetClock (tag : Byte) (payload : List Byte) (s : State) : Host.Outcome State Fault Refusal :=
  onPart (Part.request ⟨0x09, tag, payload⟩ answerGetClock) s

/-! ## The booking table -/

/-- Reads a room minute; none when its minute of day is above 1439 (R21). -/
def readRoomMinute : Reader (Option Nat) := do
  let day ← readWord
  let minute ← readWord
  return if minute ≤ 1439 then some (day * 1440 + minute) else none

/-- A list of at most 4 entries, each of which checks (R21). -/
def upToFour {α : Type} (check : Nat → Option α) (xs : List Nat) : Option (List α) :=
  if xs.length ≤ 4 then every check xs else none

/-- Reads the fields of ADD_BOOKING; none when one of the conditions of line 1 of R21 holds, but for a zone undefined at this
moment. -/
def readBooking : Reader (Option Booking) := do
  let id ← readWord
  let start ← readRoomMinute
  let duration ← readWord
  let title ← readText
  let roster ← readList
  let chairs ← readList
  let floor ← readFloor
  let mix ← readMix
  let plan ← readByte
  let privacy ← readByte
  let grace ← readByte
  let warning ← readByte
  return do
    let id ← within 1 65535 id
    let start ← start
    let duration ← within 5 720 duration
    let _ ← within 0 Config.lastRoomMinute (start + duration)
    let title ← text? title
    let roster ← upToFour (below 8) roster
    let chairs ← upToFour seat? chairs
    let floor ← floor
    let mix ← mix
    let plan ← below 4 plan
    let privacy ← [Privacy.normal, .confidential][privacy]?
    let grace ← within 0 30 grace
    let warning ← within 0 15 warning
    return ⟨id, start, duration, title, roster, chairs, floor, mix, plan, privacy, grace, warning, .roomController, .pending⟩

/-- Whether every zone that a roster names is defined (R21). -/
def Part.zonesDefined (p : Part) (roster : List (Fin 8)) : Bool := roster.all fun z => (p.zones.getD z.val none).isSome

/-- Two bookings overlap when each one starts before the other ends (R20). -/
def Booking.overlaps (a b : Booking) : Bool := a.start < b.finish && b.start < a.finish

/-- Lines 2 to 5 of R21: the status of the first condition that holds. -/
def Part.bookingRefused (p : Part) (b : Booking) : Option Status :=
  if p.sched.bookings.any fun x => x.id = b.id then some .duplicateId
  else if p.sched.bookings.any b.overlaps || p.activeBooking.any (fun a => b.start < a.start) then some .conflict
  else if p.sched.valid && b.finish ≤ p.now then some .past
  else if 16 ≤ p.sched.bookings.length then some .full
  else none

/-- A booking inserted at its place in start order (R22). -/
def insertBooking (b : Booking) : List Booking → List Booking
  | [] => [b]
  | x :: rest => if b.start < x.start then b :: x :: rest else x :: insertBooking b rest

/-- An accepted ADD_BOOKING is stored, and opens at once when its time has come (R22). -/
def Part.storeBooking (b : Booking) (p : Part) : Part :=
  let stored := p.modSched fun d => { d with bookings := insertBooking b d.bookings }
  if p.sched.valid && !p.isOpen && b.start ≤ p.now && p.now < b.finish then stored.openSession b else stored

/-- ADD_BOOKING (R21, R22). -/
def answerAddBooking (payload : List Byte) (p : Part) : Answer :=
  readThen readBooking payload p fun b =>
    checkThen b p fun b =>
      if p.zonesDefined b.roster then
        match p.bookingRefused b with
        | some status => refuse status p
        | none => okWake [] (p.storeBooking b)
      else refuse .badArg p

/-- ADD_BOOKING. -/
def execAddBooking (tag : Byte) (payload : List Byte) (s : State) : Host.Outcome State Fault Refusal :=
  onPart (Part.request ⟨0x0A, tag, payload⟩ answerAddBooking) s

/-- REMOVE_BOOKING (R23). -/
def answerRemoveBooking (payload : List Byte) (p : Part) : Answer :=
  readThen readWord payload p fun id =>
    match p.sched.bookings.find? fun b => b.id = id with
    | none => refuse .notFound p
    | some b =>
      match b.state with
      | .pending => okWake [] (p.modSched fun d => { d with bookings := d.bookings.filter fun x => x.id ≠ id })
      | .active => okWake [] (p.closeSession .controller)

/-- REMOVE_BOOKING. -/
def execRemoveBooking (tag : Byte) (payload : List Byte) (s : State) : Host.Outcome State Fault Refusal :=
  onPart (Part.request ⟨0x0B, tag, payload⟩ answerRemoveBooking) s

/-- The minutes granted to an extension of the ACTIVE booking (R33). -/
def Part.extension (p : Part) (b : Booking) (asked : Nat) : Nat :=
  let toNext :=
    match p.sched.bookings.find? fun x => b.start < x.start with
    | some x => x.start - b.finish
    | none => asked
  min (min asked toNext) (min (720 - b.duration) (Config.lastRoomMinute - b.finish))

/-- The granted minutes are added to the booking's duration, and the end-warning test follows a grant above 0 (R33). -/
def Part.extendBooking (b : Booking) (granted : Nat) (p : Part) : Part :=
  if granted = 0 then p
  else
    (p.modSched fun d =>
      { d with
        bookings := d.bookings.map fun x => if x.id = b.id then { x with duration := x.duration + granted } else x
      }).endWarningTest

/-- EXTEND_BOOKING (R33). -/
def answerExtendBooking (payload : List Byte) (p : Part) : Answer :=
  readThen (do return (← readWord, ← readByte)) payload p fun (id, minutes) =>
    checkThen (within 1 240 minutes) p fun minutes =>
      match p.activeBooking with
      | some b =>
        if b.id = id && p.isOpen then
          let granted := p.extension b minutes
          okWake (u8 granted ++ minuteBytes (b.finish + granted)) (p.extendBooking b granted)
        else refuse .notActive p
      | none => refuse .notActive p

/-- EXTEND_BOOKING. -/
def execExtendBooking (tag : Byte) (payload : List Byte) (s : State) : Host.Outcome State Fault Refusal :=
  onPart (Part.request ⟨0x0C, tag, payload⟩ answerExtendBooking) s

/-- A booking entry of LIST_BOOKINGS (R24). -/
def Booking.entry (b : Booking) : List Byte :=
  u16 b.id ++ u8 b.state.ctorIdx ++ u8 b.origin.ctorIdx ++ minuteBytes b.start ++ u16 b.duration ++ textBytes b.title ++
    u8 b.privacy.ctorIdx ++ u8 b.plan.val ++ listBytes (fun z : Fin 8 => u8 z.val) b.roster ++ listBytes seatBytes b.chairs

/-- LIST_BOOKINGS (R24). -/
def answerListBookings (payload : List Byte) (p : Part) : Answer :=
  readThen readByte payload p fun first =>
    checkThen (within 0 15 first) p fun first =>
      ok (u8 p.sched.bookings.length ++ listBytes Booking.entry ((p.sched.bookings.drop first).take 4)) p

/-- LIST_BOOKINGS. -/
def execListBookings (tag : Byte) (payload : List Byte) (s : State) : Host.Outcome State Fault Refusal :=
  onPart (Part.request ⟨0x0D, tag, payload⟩ answerListBookings) s

/-! ## The session -/

/-- What GET_SESSION reports of an OPEN session (R34). -/
def Part.sessionReply (p : Part) (d : Session) (b : Booking) : List Byte :=
  u16 d.bookingId ++ u8 b.origin.ctorIdx ++ textBytes b.title ++ minuteBytes b.start ++ minuteBytes b.finish ++
    u16 b.duration ++
    u8 b.privacy.ctorIdx ++ u8 b.plan.val ++ timeBytes d.openedAt ++ flagBytes d.checkedIn ++ flagBytes d.warned ++
    optBytes minuteBytes d.deadline ++ u32 p.minutesLeft

/-- GET_SESSION (R34); session state IDLE is 0, OPEN is 1. -/
def answerGetSession (payload : List Byte) (p : Part) : Answer :=
  readThen readNothing payload p fun _ =>
    let state := u8 (if p.isOpen then 1 else 0) ++ u8 p.sched.standby.ctorIdx ++ flagBytes p.sched.valid
    match p.sched.session, p.activeBooking with
    | some d, some b => ok (state ++ p.sessionReply d b) p
    | _, _ => ok state p

/-- GET_SESSION. -/
def execGetSession (tag : Byte) (payload : List Byte) (s : State) : Host.Outcome State Fault Refusal :=
  onPart (Part.request ⟨0x0E, tag, payload⟩ answerGetSession) s

/-- CHECK_IN (R27). -/
def answerCheckIn (payload : List Byte) (p : Part) : Answer :=
  readThen readNothing payload p fun _ =>
    match p.sched.session with
    | none => refuse .noSession p
    | some d => if d.checkedIn then refuse .already p else ok [] p.checkIn

/-- CHECK_IN. -/
def execCheckIn (tag : Byte) (payload : List Byte) (s : State) : Host.Outcome State Fault Refusal :=
  onPart (Part.request ⟨0x0F, tag, payload⟩ answerCheckIn) s

/-- END_SESSION (R30). -/
def answerEndSession (payload : List Byte) (p : Part) : Answer :=
  readThen readNothing payload p fun _ =>
    if p.isOpen then ok [] (p.closeSession .controller) else refuse .noSession p

/-- END_SESSION. -/
def execEndSession (tag : Byte) (payload : List Byte) (s : State) : Host.Outcome State Fault Refusal :=
  onPart (Part.request ⟨0x10, tag, payload⟩ answerEndSession) s

/-! ## Room defaults and standby -/

/-- Reads the room defaults; none when a value is refused (R38). -/
def readDefaults : Reader (Option RoomDefaults) := do
  let floor ← readFloor
  let mix ← readMix
  let adhoc ← readByte
  let duration ← readByte
  let minimum ← readByte
  let plan ← readByte
  let warning ← readByte
  return do
    let floor ← floor
    let mix ← mix
    let adhoc ← flag? adhoc
    let duration ← within 15 240 duration
    let minimum ← within 5 (min 30 duration) minimum
    let plan ← below 4 plan
    let warning ← within 0 15 warning
    return ⟨floor, mix, adhoc, duration, minimum, plan, warning⟩

/-- SET_ROOM_DEFAULTS (R38). -/
def answerSetRoomDefaults (payload : List Byte) (p : Part) : Answer :=
  readThen readDefaults payload p fun k =>
    checkThen k p fun k => okWake [] (p.modSched fun d => { d with defaults := k })

/-- SET_ROOM_DEFAULTS. -/
def execSetRoomDefaults (tag : Byte) (payload : List Byte) (s : State) : Host.Outcome State Fault Refusal :=
  onPart (Part.request ⟨0x11, tag, payload⟩ answerSetRoomDefaults) s

/-- The standby delay is replaced, and its timer restarts (R42). -/
def Part.setDelay (delay : Nat) (p : Part) : Part := p.modSched fun d => Scheduler.restart { d with delay := delay }

/-- SET_STANDBY (R42). An enter-now byte that is neither yes nor no is answered BAD_ARG (log 35). -/
def answerSetStandby (payload : List Byte) (p : Part) : Answer :=
  readThen (do return (← readByte, ← readByte)) payload p fun (delay, enter) =>
    checkThen (within 0 240 delay) p fun delay =>
      checkThen (flag? enter) p fun enter =>
        if enter then
          if p.isOpen then refuse .refused p
          else if p.inStandby then ok [] (p.setDelay delay)
          else ok [] (p.setDelay delay).enterStandby
        else okWake [] (p.setDelay delay)

/-- SET_STANDBY. -/
def execSetStandby (tag : Byte) (payload : List Byte) (s : State) : Host.Outcome State Fault Refusal :=
  onPart (Part.request ⟨0x12, tag, payload⟩ answerSetStandby) s

/-- WAKE (R42). -/
def answerWake (payload : List Byte) (p : Part) : Answer := readThen readNothing payload p fun _ => okWake [] p

/-- WAKE. -/
def execWake (tag : Byte) (payload : List Byte) (s : State) : Host.Outcome State Fault Refusal :=
  onPart (Part.request ⟨0x13, tag, payload⟩ answerWake) s

end Sys2Proof.Machine
end

