-- ==== Sys2Proof/Machine/SeatRequests.lean ====
section
/-!
DEFINITION. The requests of the seat table: SET_SEAT (R15), GET_SEAT (R17), SET_ZONE (R7), SET_STANDING (R10), SET_NAME (R16).
-/
namespace Sys2Proof.Machine

/-- The settings of SET_SEAT (R15). -/
structure SeatSettings where
  role : Role
  trim : Nat
  shot : Option Shot
  input : Option Nat

/-- A camera entry (R15): none when a value is out of range. -/
def shot? (x : Nat × Nat) : Option Shot := do
  let camera ← below 4 x.1
  let preset ← within 1 64 x.2
  return ⟨camera, preset⟩

/-- An optional value: none when it is present and out of range. -/
def optional? {α β : Type} (check : α → Option β) : Option α → Option (Option β)
  | none => some none
  | some a => (check a).map some

/-- Reads SET_SEAT; none when a value is refused (R15). -/
def readSeatSettings : Reader (Option (Seat × SeatSettings)) := do
  let s ← readByte
  let role ← readByte
  let trim ← readByte
  let camera ← readOpt (do return (← readByte, ← readByte))
  let input ← readOpt readByte
  return do
    let s ← seat? s
    let role ← [Role.member, .observer][role]?
    let trim ← within 0 16 trim
    let camera ← optional? shot? camera
    let input ← optional? (within 1 16) input
    return (s, ⟨role, trim, camera, input⟩)

/-- The settings of one seat are replaced, and its share is examined again (R15, R151). -/
def Part.setSeat (s : Seat) (k : SeatSettings) (p : Part) : Part :=
  (p.modSeat s fun r => { r with role := k.role, trim := k.trim, shot := k.shot, input := k.input }).reexamine s

/-- SET_SEAT (R15). -/
def answerSetSeat (payload : List Byte) (p : Part) : Answer :=
  readThen readSeatSettings payload p fun x => checkThen x p fun (s, k) => okWake [] (p.setSeat s k)

/-- SET_SEAT. -/
def execSetSeat (tag : Byte) (payload : List Byte) (s : State) : Host.Outcome State Fault Refusal :=
  onPart (Part.request ⟨0x16, tag, payload⟩ answerSetSeat) s

/-- The fields of a seat record in the order of R17; PRESSED is 0, RELEASED 1 (log 6). -/
def SeatRec.fields (s : Seat) (r : SeatRec) : List Byte :=
  seatBytes s ++ u8 r.link.ctorIdx ++ optBytes (fun t : UnitType => u8 t.ctorIdx) r.unitType ++
    optBytes wordBytes r.serial ++ u8 r.role.ctorIdx ++
    u8 r.standing.ctorIdx ++ u8 r.trim ++ optBytes shotBytes r.shot ++ optBytes u8 r.input ++ textBytes r.name ++
    flagBytes r.speakPressed ++
    flagBytes r.auxPressed ++ flagBytes r.voice ++ flagBytes r.signal ++ flagBytes r.denial ++ u8 r.ring.ctorIdx ++
    textBytes r.statusLine ++
    u8 r.failures

/-- GET_SEAT (R17). -/
def answerGetSeat (payload : List Byte) (p : Part) : Answer :=
  readThen readByte payload p fun s => checkThen (seat? s) p fun s => ok ((p.seat s).fields s) p

/-- GET_SEAT. -/
def execGetSeat (tag : Byte) (payload : List Byte) (s : State) : Host.Outcome State Fault Refusal :=
  onPart (Part.request ⟨0x17, tag, payload⟩ answerGetSeat) s

/-- A zone definition (R7): none when a value is refused. -/
def zone? (x : Nat × Nat × Nat) : Option Zone := do
  let first ← seat? x.1
  let last ← seat? x.2.1
  let stride := x.2.2
  if first ≤ last && (stride = 1 || stride = 2 || stride = 4) then some ⟨first, last, stride⟩ else none

/-- Reads SET_ZONE; none when a value is refused (R7). -/
def readZone : Reader (Option (Fin 8 × Option Zone)) := do
  let z ← readByte
  let definition ← readOpt (do return (← readByte, ← readByte, ← readByte))
  return do
    let z ← below 8 z
    let definition ← optional? zone? definition
    return (z, definition)

/-- SET_ZONE (R7). -/
def answerSetZone (payload : List Byte) (p : Part) : Answer :=
  readThen readZone payload p fun x =>
    checkThen x p fun (z, definition) => okWake [] { p with zones := updateAt (fun _ => definition) p.zones z.val }

/-- SET_ZONE. -/
def execSetZone (tag : Byte) (payload : List Byte) (s : State) : Host.Outcome State Fault Refusal :=
  onPart (Part.request ⟨0x18, tag, payload⟩ answerSetZone) s

/-- Reads SET_STANDING; none when a value is refused (R10). -/
def readStanding : Reader (Option (Seat × Standing)) := do
  let s ← readByte
  let standing ← readByte
  return do
    let s ← seat? s
    let standing ← [Standing.out, .listener, .delegate, .chair][standing]?
    return (s, standing)

/-- A seat's standing is replaced, and the change is handed to the floor controller with the priority mechanism, to the screen
router and to the seat table's derivation (R10, R11). -/
def Part.changeStanding (s : Seat) (standing : Standing) (p : Part) : Part :=
  let old := (p.seat s).standing
  ((((p.setStanding s standing).floorEvent fun q => q.changedStanding s old standing).reexamine s).derive s)

/-- SET_STANDING (R10). -/
def answerSetStanding (payload : List Byte) (p : Part) : Answer :=
  readThen readStanding payload p fun x =>
    checkThen x p fun (s, standing) =>
      let old := (p.seat s).standing
      if !p.isOpen then refuse .noSession p
      else if standing = .chair && old ≠ .chair && 4 ≤ p.chairCount then refuse .refused p
      else if standing = old then okWake [] p
      else okWake [] (p.changeStanding s standing)

/-- SET_STANDING. -/
def execSetStanding (tag : Byte) (payload : List Byte) (s : State) : Host.Outcome State Fault Refusal :=
  onPart (Part.request ⟨0x19, tag, payload⟩ answerSetStanding) s

/-- Reads SET_NAME; none when a value is refused (R16). -/
def readName : Reader (Option (Seat × Text)) := do
  let s ← readByte
  let name ← readText
  return do
    let s ← seat? s
    let name ← text? name
    return (s, name)

/-- A seat's name is replaced, and its nameplate derived again (R16). -/
def Part.setName (s : Seat) (name : Text) (p : Part) : Part := (p.modSeat s fun r => { r with name := name }).derivePlate s

/-- SET_NAME (R16). -/
def answerSetName (payload : List Byte) (p : Part) : Answer :=
  readThen readName payload p fun x => checkThen x p fun (s, name) => okWake [] (p.setName s name)

/-- SET_NAME. -/
def execSetName (tag : Byte) (payload : List Byte) (s : State) : Host.Outcome State Fault Refusal :=
  onPart (Part.request ⟨0x1A, tag, payload⟩ answerSetName) s

end Sys2Proof.Machine
end

