-- ==== Sys2Proof/Machine/Dispatch.lean ====
section
/-!
DEFINITION. What a command does: one arm per command, each a call of its meaning.
-/
namespace Sys2Proof.Machine

/-- The effect of a command on everything but the queue of waiting commands. -/
def exec (i : Instr) (s : State) : Host.Outcome State Fault Refusal :=
  match i with
  | .ping tag payload => Sys2Proof.Machine.execPing tag payload s
  | .getInfo tag payload => Sys2Proof.Machine.execGetInfo tag payload s
  | .getStats tag payload => Sys2Proof.Machine.execGetStats tag payload s
  | .deviceReset tag payload => Sys2Proof.Machine.execDeviceReset tag payload s
  | .setNotices tag payload => Sys2Proof.Machine.execSetNotices tag payload s
  | .setClock tag payload => Sys2Proof.Machine.execSetClock tag payload s
  | .getClock tag payload => Sys2Proof.Machine.execGetClock tag payload s
  | .addBooking tag payload => Sys2Proof.Machine.execAddBooking tag payload s
  | .removeBooking tag payload => Sys2Proof.Machine.execRemoveBooking tag payload s
  | .extendBooking tag payload => Sys2Proof.Machine.execExtendBooking tag payload s
  | .listBookings tag payload => Sys2Proof.Machine.execListBookings tag payload s
  | .getSession tag payload => Sys2Proof.Machine.execGetSession tag payload s
  | .checkIn tag payload => Sys2Proof.Machine.execCheckIn tag payload s
  | .endSession tag payload => Sys2Proof.Machine.execEndSession tag payload s
  | .setRoomDefaults tag payload => Sys2Proof.Machine.execSetRoomDefaults tag payload s
  | .setStandby tag payload => Sys2Proof.Machine.execSetStandby tag payload s
  | .wake tag payload => Sys2Proof.Machine.execWake tag payload s
  | .setSeat tag payload => Sys2Proof.Machine.execSetSeat tag payload s
  | .getSeat tag payload => Sys2Proof.Machine.execGetSeat tag payload s
  | .setZone tag payload => Sys2Proof.Machine.execSetZone tag payload s
  | .setStanding tag payload => Sys2Proof.Machine.execSetStanding tag payload s
  | .setName tag payload => Sys2Proof.Machine.execSetName tag payload s
  | .grant tag payload => Sys2Proof.Machine.execGrant tag payload s
  | .close tag payload => Sys2Proof.Machine.execClose tag payload s
  | .enqueue tag payload => Sys2Proof.Machine.execEnqueue tag payload s
  | .dequeue tag payload => Sys2Proof.Machine.execDequeue tag payload s
  | .moveRequest tag payload => Sys2Proof.Machine.execMoveRequest tag payload s
  | .getFloor tag payload => Sys2Proof.Machine.execGetFloor tag payload s
  | .setFloor tag payload => Sys2Proof.Machine.execSetFloor tag payload s
  | .priorityTake tag payload => Sys2Proof.Machine.execPriorityTake tag payload s
  | .priorityRelease tag payload => Sys2Proof.Machine.execPriorityRelease tag payload s
  | .floorReset tag payload => Sys2Proof.Machine.execFloorReset tag payload s
  | .extendSpeech tag payload => Sys2Proof.Machine.execExtendSpeech tag payload s
  | .seatPress tag payload => Sys2Proof.Machine.execSeatPress tag payload s
  | .setMix tag payload => Sys2Proof.Machine.execSetMix tag payload s
  | .getMixStatus tag payload => Sys2Proof.Machine.execGetMixStatus tag payload s
  | .muteRoom tag payload => Sys2Proof.Machine.execMuteRoom tag payload s
  | .setCamera tag payload => Sys2Proof.Machine.execSetCamera tag payload s
  | .setScreenPlan tag payload => Sys2Proof.Machine.execSetScreenPlan tag payload s
  | .setScreen tag payload => Sys2Proof.Machine.execSetScreen tag payload s
  | .shareStart tag payload => Sys2Proof.Machine.execShareStart tag payload s
  | .shareStop tag payload => Sys2Proof.Machine.execShareStop tag payload s
  | .getScreens tag payload => Sys2Proof.Machine.execGetScreens tag payload s
  | .screenRefresh tag payload => Sys2Proof.Machine.execScreenRefresh tag payload s
  | .setChain tag payload => Sys2Proof.Machine.execSetChain tag payload s
  | .getChain tag payload => Sys2Proof.Machine.execGetChain tag payload s
  | .chainRestart tag payload => Sys2Proof.Machine.execChainRestart tag payload s
  | .unknownKindRequest kind tag payload => Sys2Proof.Machine.execUnknownKindRequest kind tag payload s
  | .rxCharacter char stopGood => Sys2Proof.Machine.execRxCharacter char stopGood s
  | .rxTimeout => Sys2Proof.Machine.execRxTimeout s
  | .transmitFrameStart => Sys2Proof.Machine.execTransmitFrameStart s
  | .transmitFrameDone => Sys2Proof.Machine.execTransmitFrameDone s
  | .powerOn => Sys2Proof.Machine.execPowerOn s
  | .resetNLow => Sys2Proof.Machine.execResetNLow s
  | .resetEnd straps => Sys2Proof.Machine.execResetEnd straps s
  | .blockCompletion audio changedAt => Sys2Proof.Machine.execBlockCompletion audio changedAt s
  | .denialTimerExpiry seat => Sys2Proof.Machine.execDenialTimerExpiry seat s
  | .settleEnd => Sys2Proof.Machine.execSettleEnd s
  | .activeSpeakerSwitch => Sys2Proof.Machine.execActiveSpeakerSwitch s
  | .activeSpeakerIdle => Sys2Proof.Machine.execActiveSpeakerIdle s
  | .secondTick => Sys2Proof.Machine.execSecondTick s
  | .minuteBoundary => Sys2Proof.Machine.execMinuteBoundary s
  | .clockWrap => Sys2Proof.Machine.execClockWrap s
  | .speechExpiry seat => Sys2Proof.Machine.execSpeechExpiry seat s
  | .voiceSilenceClose seat => Sys2Proof.Machine.execVoiceSilenceClose seat s
  | .signalGraceExpiry slot => Sys2Proof.Machine.execSignalGraceExpiry slot s
  | .standbyTimerExpiry => Sys2Proof.Machine.execStandbyTimerExpiry s
  | .pressEvent seat button => Sys2Proof.Machine.execPressEvent seat button s
  | .exchangeChoice chain => Sys2Proof.Machine.execExchangeChoice chain s
  | .attemptResponse chain checkGood answer => Sys2Proof.Machine.execAttemptResponse chain checkGood answer s
  | .holdLimitTimeout chain => Sys2Proof.Machine.execHoldLimitTimeout chain s
  | .broadcastDone chain => Sys2Proof.Machine.execBroadcastDone chain s
  | .turnaroundEnd chain => Sys2Proof.Machine.execTurnaroundEnd chain s
  | .slowPollDue seat => Sys2Proof.Machine.execSlowPollDue seat s
  | .pairLock chain pair => Sys2Proof.Machine.execPairLock chain pair s
  | .trainingAttemptEnd chain => Sys2Proof.Machine.execTrainingAttemptEnd chain s
  | .lossOfLock chain pair => Sys2Proof.Machine.execLossOfLock chain pair s
  | .screenLinkTransmitStart => Sys2Proof.Machine.execScreenLinkTransmitStart s
  | .screenLinkTransmitDone => Sys2Proof.Machine.execScreenLinkTransmitDone s

end Sys2Proof.Machine
end

