-- ==== Sys2Proof/Machine/Step.lean ====
section
/-!
DEFINITION. A step: the command at the front of the queue is taken and run.
-/
namespace Sys2Proof.Machine

/-- One step: the command at the front of the queue runs on the state with the queue's rest; on an empty queue the block idles
(log 3). -/
def step (s : State) : Host.Outcome State Fault Refusal :=
  match s.pending with
  | [] => .next s
  | i :: rest => exec i { s with pending := rest }

/-- The state with the command that a word spells put at the front of its queue; no word spells a command, so the state itself. -/
def State.withFetchWord (s : State) (nbits w : Nat) : State :=
  match decodeTableWord nbits w with
  | some i => { s with pending := i :: s.pending }
  | none => s

end Sys2Proof.Machine
end

