-- ==== Sys2Proof/Safety.lean ====
section
/-!
DEFINITION. What the statements about this machine are made of: a part with nothing fallen due, a part ready for a request, what
taking a request and answering it write, and the invariants that the rules give each block's state.
-/
namespace Sys2Proof.Machine

/-! ## A part ready for a command -/

/-- A running part at which nothing that has fallen due waits to be taken (log 2). -/
structure Part.Quiet (p : Part) : Prop where
  running : p.power = .running
  jobs : p.tickJobs = []
  owed : p.owed = []

/-- A quiet part that takes a request at once: none in processing, no reply waiting or being sent, no frame in the buffer (R192,
R193). -/
structure Part.Ready (p : Part) : Prop extends p.Quiet where
  free : p.link.free = true
  buffer : p.link.buffer = []

/-- A ready part that has taken a request: the good frame is counted, and notices queued from now on are held (R192, R194,
R197). -/
def Part.taken (p : Part) : Part :=
  { p with link := { p.link with stats := { p.link.stats with goodFrames := countStat p.link.stats.goodFrames }, inRequest := true } }

/-- The reply of a request waits: its kind, its tag, its status and the fields after the status (R189, R193); `wake` says that
the request is an accepted wake event (R41). -/
def Part.answered (kind tag status : Byte) (fields : List Byte) (wake : Bool) (p : Part) : Part :=
  { p with link := { p.link with inRequest := false, reply := some ⟨⟨kind, tag, status :: fields⟩, wake, false⟩ } }

/-- The outcome of a command whose effect is this part. -/
def State.to (s : State) (p : Part) : Host.Outcome State Fault Refusal := .next { s with part := p }

/-- A request turned away: it is answered with a status other than OK, and nothing else changes (R193). -/
def State.refuses (kind tag status : Byte) (s : State) : Host.Outcome State Fault Refusal :=
  s.to (s.part.taken.answered kind tag status [] false)

/-- A request answered OK that is no wake event: the reply's fields, and the part after the request's work. -/
def State.accepts (kind tag : Byte) (fields : List Byte) (p : Part) (s : State) : Host.Outcome State Fault Refusal :=
  s.to (p.answered kind tag 0x00 fields false)

/-- A request answered OK that is a wake event (R41), which is taken after the request's work (log 22). -/
def State.acceptsWaking (kind tag : Byte) (fields : List Byte) (p : Part) (s : State) : Host.Outcome State Fault Refusal :=
  s.to (p.wakeEvent.answered kind tag 0x00 fields true)

/-- The outcome of a command that changes the link interface alone. -/
def State.withLink (l : Link) (s : State) : Host.Outcome State Fault Refusal := s.to { s.part with link := l }

/-! ## The frame of the floor's work -/

/-- A seat record without its derived indicators. -/
def SeatRec.unlit (r : SeatRec) : SeatRec := { r with ring := .off, nameLine := [], statusLine := [] }

/-- A chain controller without its exchange list and the assignments of its lanes; the transmitting sets stay. -/
def ChainCtl.unlisted (c : ChainCtl) : ChainCtl :=
  { c with items := [], stale := [], lanes := c.lanes.map fun l => { l with assigned := none } }

/-- A part with everything blanked that a floor request may change: the lists and counts of the floor (not the preset in force), the
derived rings and nameplates, the records of the mixer and of the camera director that follow the speaker list, the shares and
the screens' sources, the exchange lists and the lanes' assignments, and the reply, the notices and their counts. -/
def Part.floorFrame (p : Part) : Part :=
  { p with
    link := { p.link with inRequest := false, reply := none, notices := [], lost := 0, stats := .reset, highWater := 0 }
    seats := p.seats.map SeatRec.unlit
    floor := { Floor.reset with preset := p.floor.preset }
    mixer := { p.mixer with channels := [], holder := none, ducks := [], loud := [], changes := 0, closed := [] }
    director := { p.director with active := none, candidate := none, hold := 0, idle := 0, follow := .wide, aimed := none }
    screens := { p.screens with
      screens := p.screens.screens.map fun s => { s with source := .blank }
      slot1 := none, slot2 := none, older := none, grace1 := none, grace2 := none
      queue := [], follow := .wide, active := none }
    chainA := p.chainA.unlisted
    chainB := p.chainB.unlisted }

/-- A part with the pending-denial flags and their timers blanked (R6). -/
def Part.forgiven (p : Part) : Part := { p with seats := p.seats.map fun r => { r with denial := false, denialMs := 0 } }

/-! ## Operands that the catalogue admits -/

/-- The payload length of a request whose fields are numbers, choices and enumerated values alone, by its kind (catalogue
11.8); none for a request with a selector, a presence byte, a list or a text. -/
def requestLength (kind : Byte) : Option Nat :=
  [(0x02, 0), (0x03, 1), (0x04, 0), (0x05, 4), (0x08, 5), (0x09, 0), (0x0B, 2), (0x0C, 3), (0x0D, 1), (0x0E, 0), (0x0F, 0),
    (0x10, 0), (0x11, 25), (0x12, 2), (0x13, 0), (0x17, 1), (0x19, 2), (0x20, 1), (0x21, 1), (0x22, 1), (0x23, 1), (0x24, 2),
    (0x26, 13), (0x27, 0), (0x28, 0), (0x29, 0), (0x2A, 3), (0x2B, 3), (0x30, 7), (0x31, 1), (0x32, 1), (0x34, 7), (0x37, 1),
    (0x38, 1), (0x39, 1), (0x3A, 0), (0x3C, 7), (0x3D, 2), (0x3E, 1)].lookup kind.toNat

/-- The bytes of a whole screen mode, whatever the values of its parameters (R141, R190). -/
inductive ModeRead : List Byte → Prop where
  | fixed (source : Byte) : ModeRead [0, source]
  | followSpeaker : ModeRead [1, 0]
  | followZone (zone : Byte) : ModeRead [1, 1, zone]
  | followShare (slot fallback : Byte) : ModeRead [2, slot, fallback]
  | auto : ModeRead [3]

/-- Bytes of a screen mode that end the reading: its selector, or the presence byte of its zone, has an undefined value (R193). -/
inductive ModeStops : List Byte → Prop where
  | selector (mode : Byte) (rest : List Byte) : 3 < mode.toNat → ModeStops (mode :: rest)
  | zone (presence : Byte) (rest : List Byte) : 1 < presence.toNat → ModeStops (1 :: presence :: rest)

/-- A payload that holds every field of a request whose length varies, and nothing else, whatever the values of the fields
(catalogue 11.8): ADD_BOOKING, SET_SEAT, SET_ZONE, SET_NAME, GET_FLOOR, SET_SCREEN_PLAN and SET_SCREEN, by the request's kind. -/
inductive PayloadRead : Byte → List Byte → Prop where
  | addBooking (front title roster chairs back : List Byte) : front.length = 8 → title.length < 256 → roster.length < 256 →
      chairs.length < 256 → back.length = 24 →
      PayloadRead 0x0A (front ++ textBytes title ++ textBytes roster ++ textBytes chairs ++ back)
  | setSeat (seat role trim : Byte) (camera : Option (Byte × Byte)) (input : Option Byte) :
      PayloadRead 0x16
        ([seat, role, trim] ++ optBytes (fun c : Byte × Byte => [c.1, c.2]) camera ++ optBytes (fun i : Byte => [i]) input)
  | setZone (zone : Byte) (definition : Option (Byte × Byte × Byte)) :
      PayloadRead 0x18 (zone :: optBytes (fun d : Byte × Byte × Byte => [d.1, d.2.1, d.2.2]) definition)
  | setName (seat : Byte) (name : List Byte) : name.length < 256 → PayloadRead 0x1A (seat :: textBytes name)
  | getFloor (part : Byte) : part.toNat ≤ 4 → PayloadRead 0x25 [part]
  | setPlan (plan : Byte) (modes : List (List Byte)) : modes.length = 8 → (∀ m ∈ modes, ModeRead m) →
      PayloadRead 0x35 (0 :: plan :: modes.flatten)
  | setSetup (settings : List Byte) : settings.length = 11 → PayloadRead 0x35 (1 :: settings)
  | clearScreen (screen : Byte) : PayloadRead 0x36 [screen, 0]
  | setScreen (screen : Byte) (mode : List Byte) : ModeRead mode → PayloadRead 0x36 (screen :: 1 :: mode)

/-- A payload of such a request whose reading ends at a presence byte or a selector with an undefined value (R193). -/
inductive PayloadStops : Byte → List Byte → Prop where
  | camera (seat role trim presence : Byte) (rest : List Byte) : 1 < presence.toNat →
      PayloadStops 0x16 (seat :: role :: trim :: presence :: rest)
  | input (seat role trim : Byte) (camera : Option (Byte × Byte)) (presence : Byte) (rest : List Byte) : 1 < presence.toNat →
      PayloadStops 0x16 ([seat, role, trim] ++ optBytes (fun c : Byte × Byte => [c.1, c.2]) camera ++ presence :: rest)
  | zone (zone presence : Byte) (rest : List Byte) : 1 < presence.toNat → PayloadStops 0x18 (zone :: presence :: rest)
  | floorPart (part : Byte) (rest : List Byte) : 4 < part.toNat → PayloadStops 0x25 (part :: rest)
  | planPart (part : Byte) (rest : List Byte) : 1 < part.toNat → PayloadStops 0x35 (part :: rest)
  | planMode (plan : Byte) (modes : List (List Byte)) (rest : List Byte) : modes.length < 8 → (∀ m ∈ modes, ModeRead m) →
      ModeStops rest → PayloadStops 0x35 (0 :: plan :: modes.flatten ++ rest)
  | screen (screen presence : Byte) (rest : List Byte) : 1 < presence.toNat → PayloadStops 0x36 (screen :: presence :: rest)
  | screenMode (screen : Byte) (rest : List Byte) : ModeStops rest → PayloadStops 0x36 (screen :: 1 :: rest)

/-- Characters that a name or a title may hold (R16, R20). -/
def Text.fits (t : Text) : Prop := t.length ≤ 24 ∧ ∀ c ∈ t, 0x20 ≤ c.toNat ∧ c.toNat ≤ 0x7E

/-- A floor preset within Table 2-1. -/
structure FloorPreset.Fits (f : FloorPreset) : Prop where
  limit : 1 ≤ f.limit ∧ f.limit ≤ 8
  speechLimit : f.speechLimit ≤ 3600
  warnLead : f.warnLead ≤ 120
  voiceHold : 1 ≤ f.voiceHold ∧ f.voiceHold ≤ 30
  chairBias : f.chairBias = 1 ∨ f.chairBias = 2 ∨ f.chairBias = 4

/-- A mixing preset within Table 2-1. -/
structure MixPreset.Fits (m : MixPreset) : Prop where
  gate : m.gate ≤ 32767
  attack : m.attack ≤ 3
  release : 2 ≤ m.release ∧ m.release ≤ 10
  master : m.master ≤ 255
  record : m.record ≤ 255
  duck : m.duck ≤ 3

/-- A booking that passes line 1 of R21, but for the zones of its roster. -/
structure Booking.Fits (b : Booking) : Prop where
  id : 1 ≤ b.id ∧ b.id ≤ 65535
  duration : 5 ≤ b.duration ∧ b.duration ≤ 720
  finish : b.finish ≤ Config.lastRoomMinute
  title : Text.fits b.title
  roster : b.roster.length ≤ 4
  chairs : b.chairs.length ≤ 4
  floor : b.floor.Fits
  mix : b.mix.Fits
  grace : b.grace ≤ 30
  warning : b.warning ≤ 15
  origin : b.origin = .roomController
  state : b.state = .pending

/-- The payload of ADD_BOOKING (catalogue 11.8). -/
def Booking.payload (b : Booking) : List Byte :=
  u16 b.id ++ minuteBytes b.start ++ u16 b.duration ++ textBytes b.title ++ listBytes (fun z : Fin 8 => u8 z.val) b.roster ++
    listBytes seatBytes b.chairs ++ floorBytes b.floor ++ mixBytes b.mix ++ u8 b.plan.val ++ u8 b.privacy.ctorIdx ++ u8 b.grace ++
    u8 b.warning

/-- Room defaults within the ranges of R38. -/
structure RoomDefaults.Fits (k : RoomDefaults) : Prop where
  floor : k.floor.Fits
  mix : k.mix.Fits
  duration : 15 ≤ k.adhocDuration ∧ k.adhocDuration ≤ 240
  minimum : 5 ≤ k.adhocMinimum ∧ k.adhocMinimum ≤ 30 ∧ k.adhocMinimum ≤ k.adhocDuration
  warning : k.adhocWarning ≤ 15

/-- The payload of SET_ROOM_DEFAULTS (catalogue 11.8). -/
def RoomDefaults.payload (k : RoomDefaults) : List Byte :=
  floorBytes k.floor ++ mixBytes k.mix ++ flagBytes k.adhoc ++ u8 k.adhocDuration ++ u8 k.adhocMinimum ++ u8 k.adhocPlan.val ++
    u8 k.adhocWarning

/-- Chain settings within the ranges of R161. -/
structure ChainSettings.Fits (k : ChainSettings) : Prop where
  pairs : 1 ≤ k.pairs ∧ k.pairs ≤ 2
  attempts : 1 ≤ k.attempts ∧ k.attempts ≤ 8
  hold : k.hold ≤ 63
  retries : k.retries ≤ 3
  silent : 1 ≤ k.silent ∧ k.silent ≤ 15

/-- A screen mode that R155 accepts. -/
def ScreenMode.Fits : ScreenMode → Prop
  | .followShare _ (.share _) => False
  | _ => True

/-! ## Invariants of the link interface (chapter 11) -/

/-- The ten statistics (R197). -/
def Stats.counters (k : Stats) : List Nat :=
  [k.goodFrames, k.checkErrors, k.syncDiscards, k.lengthErrors, k.timeouts, k.lineErrors, k.overruns, k.repliesSent,
    k.noticesSent, k.noticesDropped]

/-- What a receiver in BODY holds fits a frame of the recorded length (R191). -/
def Receiver.fits : Receiver → Prop
  | .hunt => True
  | .length => True
  | .body n got => n.toNat ≤ 250 ∧ got.length < n.toNat + 4

/-- The bounds of the link interface (R191, R192, R195, R196, R197). -/
structure Link.Safe (l : Link) : Prop where
  rx : l.rx.fits
  buffer : l.buffer.length ≤ Config.bufferSize
  notices : l.notices.length ≤ Config.noticeQueueSize
  lost : l.lost ≤ 255
  started : l.mask.getLsbD 0 = true
  kinds : l.mask.toNat < 0x40000
  stats : ∀ n ∈ l.stats.counters, n ≤ 65535
  highWater : l.highWater ≤ Config.noticeQueueSize

/-! ## Invariants of the blocks -/

/-- The bounds of a seat record (R1, R15, R16, R168). -/
structure SeatRec.Safe (r : SeatRec) : Prop where
  trim : r.trim ≤ 16
  failures : r.failures ≤ 15
  denialMs : r.denialMs ≤ 1000
  name : r.name.length ≤ 24

/-- The seats saved in all frames, with repetitions (R72). -/
def Floor.saved (f : Floor) : List Seat := f.stack.flatMap fun r => r.saved.map Saved.seat

/-- The bounds of the floor and of the resume stack, and the uniqueness rules of R44 to R46, R48, R72 and R73. -/
structure Floor.Safe (f : Floor) : Prop where
  queue : f.queue.length ≤ 32
  stack : f.stack.length ≤ 4
  onsets : f.onsets.length = 64
  speakersOnce : (f.speakers.map Speaker.seat).Nodup
  queuedOnce : (f.queue.map QueueEntry.seat).Nodup
  heldOnce : (f.held.map HeldPress.seat).Nodup
  savedOnce : f.saved.Nodup
  queuedSilent : ∀ e ∈ f.speakers, ∀ x ∈ f.queue, e.seat ≠ x.seat
  heldSilent : ∀ e ∈ f.speakers, ∀ x ∈ f.held, e.seat ≠ x.seat
  heldWaits : ∀ e ∈ f.queue, ∀ x ∈ f.held, e.seat ≠ x.seat
  savedSilent : ∀ e ∈ f.speakers, e.seat ∉ f.saved
  channels : ∀ e ∈ f.speakers, e.channel < 12
  channelOnce : (f.speakers.map Speaker.channel).Nodup
  laneOnce : f.speakers.Pairwise fun a b => chainOf a.seat = chainOf b.seat → a.lane ≠ b.lane

/-- The share gains of all channels added up (R110). -/
def Mixer.totalShare (m : Mixer) : Nat := (m.channels.map fun r => (r.map Channel.share).getD 0).sum

/-- The bounds of the mixer: no gain computed makes the total of the gains exceed unity (R100, R107, R110 to R112). -/
structure Mixer.Safe (m : Mixer) : Prop where
  channels : m.channels.length = 12
  ducks : m.ducks.length = 64
  loud : m.loud.length = 64
  clip : m.clip ≤ 65535
  envelope : ∀ c, some c ∈ m.channels → c.envelope ≤ 32767
  gain : ∀ c, some c ∈ m.channels → c.gain ≤ c.share
  unity : m.totalShare ≤ 32768

/-- The camera director has four cameras (R125). -/
structure Director.Safe (d : Director) : Prop where
  current : d.current.length = 4

/-- The screen router: eight screens, four plans, and never two waiting records for one target (R140, R153). -/
structure Screens.Safe (v : Screens) : Prop where
  screens : v.screens.length = 8
  plans : v.plans.length = 4
  targets : v.queue.Pairwise fun a b => a.sameTarget b = false

/-- The room scheduler: the clock's ranges and the size of the booking table (R18, R20). -/
structure Scheduler.Safe (d : Scheduler) : Prop where
  day : d.clock.day ≤ 65535
  minute : d.clock.minute ≤ 1439
  second : d.clock.second ≤ 59
  completions : d.completions < 1000
  bookings : d.bookings.length ≤ 16

/-- A chain controller: the exchange list holds at most 48 items, one per seat and kind; the bounds of R160, R170, R171 and
R176. -/
structure ChainCtl.Safe (c : ChainCtl) : Prop where
  items : c.items.length ≤ 48
  once : c.items.Pairwise fun a b => ¬(a.seat = b.seat ∧ a.payload.kind = b.payload.kind)
  retries : c.retryCounter < 65536
  pointer : c.pointer < 32
  seats : c.seats.length = 32
  since : ∀ k ∈ c.seats, k.sincePoll ≤ 100
  lanes : c.lanes.length = 8

/-- The invariant of every block but the link interface and the floor. -/
structure Part.BlocksSafe (p : Part) : Prop where
  seatCount : p.seats.length = 64
  seats : ∀ r ∈ p.seats, r.Safe
  zones : p.zones.length = 8
  sched : p.sched.Safe
  mixer : p.mixer.Safe
  director : p.director.Safe
  screens : p.screens.Safe
  chainA : p.chainA.Safe
  chainB : p.chainB.Safe

/-- The invariant of the machine. -/
structure State.Safe (s : State) : Prop where
  link : s.part.link.Safe
  floor : s.part.floor.Safe
  blocks : s.part.BlocksSafe

end Sys2Proof.Machine
end

