-- ==== Sys2Proof/WellFormed.lean ====
section
/-!
DEFINITION. What makes a command well formed: a request's frame fits the frame layout of R189, an unknown kind is not in the
catalogue 11.8, and the audio of a block has the shape of R104.
-/
namespace Sys2Proof

/-- A frame holds 0-250 payload bytes (R189). -/
def Frame.wf (f : Frame) : Bool := f.payload.length ≤ 250

/-- One lane's audio: a lane number 0-7 and 16 samples (R104, R170). -/
def LaneAudio.wf (a : LaneAudio) : Bool := a.lane < 8 && a.samples.length == 16

/-- No lane is given twice. -/
def lanesDistinct : List LaneAudio → Bool
  | [] => true
  | a :: rest => (rest.all fun b => b.chain ≠ a.chain || b.lane ≠ a.lane) && lanesDistinct rest

/-- Sample positions lie within the block's 16 samples and do not go back. -/
def positionsRise : List Nat → Bool
  | [] => true
  | [k] => k ≤ 16
  | j :: k :: rest => j ≤ k && positionsRise (k :: rest)

/-- A command that the outside of the part can send. -/
def Instr.wf (i : Instr) : Bool :=
  match i with
  | .unknownKindRequest kind _ payload => !isRequestKind kind && payload.length ≤ 250
  | .blockCompletion audio changedAt => audio.all LaneAudio.wf && lanesDistinct audio && positionsRise changedAt
  | other => (other.frame?.map Frame.wf).getD true

end Sys2Proof
end

