-- ==== Sys2Proof/Certificates/Slice0/Obligations.lean ====
section
/-!
DEFINITION. The statements for the provers, chapter by chapter. A statement about a request is made at a ready part (`Part.Ready`):
a running part at which nothing waits that has fallen due, and whose link is free. There `State.accepts`, `State.acceptsWaking`
and `State.refuses` say the whole next state: the reply that waits, and the part after the request's work.
-/
section
open Sys2Proof Sys2Proof.Machine

/-! ## The machine -/

/-- A step runs the command at the front of the queue on the state with the queue's rest; on an empty queue the block idles
(log 3). -/
def Obligations.StepRunsFrontCommand : Prop :=
  (∀ (c : Instr) (rest : List Instr) (s : State), step { s with pending := c :: rest } = exec c { s with pending := rest }) ∧
  ∀ s : State, s.pending = [] → step s = .next s

/-- Every command answers a next state and leaves the queue of waiting commands alone. While a part is held in reset CTS is
deasserted (R199); that it then takes no command but the events of reset, and is left unchanged, is the model's (log 24, log 3). -/
def Obligations.EveryCommandAnswersNext : Prop :=
  ∀ (c : Instr) (s : State),
    (∃ t, exec c s = .next t ∧ t.pending = s.pending) ∧
    ∀ cause, s.part.power = .held cause →
      s.part.cts = false ∧ (c ≠ .powerOn → c ≠ .resetNLow → (∀ straps, c ≠ .resetEnd straps) → exec c s = .next s)

/-- Taking what has fallen due leaves nothing due, keeps the part running, and changes nothing when nothing was due (log 2). -/
def Obligations.CatchUpLeavesNothingDue : Prop :=
  ∀ p : Part, p.catchUp.owed = [] ∧ p.catchUp.tickJobs = [] ∧ p.catchUp.power = p.power ∧
    (p.owed = [] → p.tickJobs = [] → p.catchUp = p)


/-- The first two stages of R193. A frame whose kind is no request kind is answered UNKNOWN_KIND with kind + 0x80, or 0xFF from
0x80 on. A request of fixed length whose payload has another length is answered BAD_LENGTH; so is a PING of more than 249 bytes,
and so is a request of varying length (`PayloadRead`) whose payload ends before its fields are complete or goes on after them. A
presence byte or a selector with an undefined value is answered BAD_ARG, whatever follows it (`PayloadStops`). Nothing else
changes. -/
def Obligations.MalformedRequestsAnswered : Prop :=
  ∀ (s : State), s.part.Ready →
    (∀ (kind tag : Byte) (payload : List Byte), isRequestKind kind = false →
      exec (.unknownKindRequest kind tag payload) s = s.refuses (if kind.toNat < 0x80 then kind + 0x80 else 0xFF) tag 0x02) ∧
    (∀ (c : Instr) (f : Frame) (n : Nat), c.wf = true → c.frame? = some f → requestLength f.kind = some n →
      f.payload.length ≠ n →
      exec c s = s.refuses (f.kind + 0x80) f.tag 0x01) ∧
    (∀ (tag : Byte) (payload : List Byte), 249 < payload.length → exec (.ping tag payload) s = s.refuses 0x81 tag 0x01) ∧
    (∀ (c : Instr) (f : Frame) (whole : List Byte), c.wf = true → c.frame? = some f → PayloadRead f.kind whole →
      f.payload ≠ whole → f.payload <+: whole ∨ whole <+: f.payload → exec c s = s.refuses (f.kind + 0x80) f.tag 0x01) ∧
    ∀ (c : Instr) (f : Frame), c.wf = true → c.frame? = some f → PayloadStops f.kind f.payload →
      exec c s = s.refuses (f.kind + 0x80) f.tag 0x03

/-- A request answered with a status other than OK changes nothing but the reply that waits and the count of good frames (R193,
R197). -/
def Obligations.RefusalChangesNothing : Prop :=
  ∀ (c : Instr) (f : Frame) (s t : State), s.part.Ready → c.frame? = some f → exec c s = .next t →
    ∀ (kind tag status : Byte) (fields : List Byte) (wake resets : Bool),
      t.part.link.reply = some ⟨⟨kind, tag, status :: fields⟩, wake, resets⟩ → status ≠ 0 →
      .next t = s.refuses kind tag status

/-- A request's frame spells exactly that request (catalogue 11.8): decoding the frame of a well-formed request gives the request,
and every frame is the frame of the command it decodes to. -/
def Obligations.FrameSpellsItsRequest : Prop :=
  (∀ (c : Instr) (f : Frame), c.wf = true → c.frame? = some f → commandOfFrame f = c) ∧
  ∀ f : Frame, (commandOfFrame f).frame? = some f

/-- The bytes of a frame (R189), taken one after another by a receiver in HUNT, put that frame into a buffer that has room, and
leave the receiver in HUNT; only the good frames are counted (R191, R192). -/
def Obligations.SentFrameIsReceived : Prop :=
  ∀ (f : Frame) (l : Link), f.payload.length ≤ 250 → l.rx = .hunt → l.buffer.length < 4 →
    (frameBytes f).foldl (fun k c => k.receive c true) l =
      { l with
        rxIdle := 0
        buffer := l.buffer ++ [f]
        stats := { l.stats with goodFrames := countUpTo 65535 l.stats.goodFrames } }

/-! ## The control link (chapter 11) -/

/-- The receiver (R191): its table, the check of a complete frame, a bad stop bit, and the timeout of 5 ms counted in block
completions. -/
def Obligations.ReceiverTakesCharacters : Prop :=
  (∀ (s : State) (char : Byte), s.part.Quiet →
    let l := { s.part.link with rxIdle := 0 }
    let hunting := { l with rx := .hunt }
    (l.rx = .hunt → exec (.rxCharacter 0xA5 true) s = s.withLink { l with rx := .length }) ∧
    (l.rx = .hunt → char ≠ 0xA5 → exec (.rxCharacter char true) s =
      s.withLink { l with stats := { l.stats with syncDiscards := countUpTo 65535 l.stats.syncDiscards } }) ∧
    (l.rx = .length → char.toNat ≤ 250 → exec (.rxCharacter char true) s = s.withLink { l with rx := .body char [] }) ∧
    (l.rx = .length → 250 < char.toNat → exec (.rxCharacter char true) s =
      s.withLink { hunting with stats := { l.stats with lengthErrors := countUpTo 65535 l.stats.lengthErrors } }) ∧
    (∀ n got, l.rx = .body n got → got.length + 1 < n.toNat + 4 →
      exec (.rxCharacter char true) s = s.withLink { l with rx := .body n (got ++ [char]) }) ∧
    (∀ n kind tag payload high, l.rx = .body n (kind :: tag :: payload ++ [high]) → payload.length = n.toNat →
      exec (.rxCharacter char true) s =
        if u16 (crc16 (n :: kind :: tag :: payload)).toNat = [high, char] then s.withLink (hunting.offer ⟨kind, tag, payload⟩)
        else s.withLink { hunting with stats := { l.stats with checkErrors := countUpTo 65535 l.stats.checkErrors } }) ∧
    (l.rx = .hunt → exec (.rxCharacter char false) s =
      s.withLink { l with stats := { l.stats with syncDiscards := countUpTo 65535 l.stats.syncDiscards } }) ∧
    (l.rx ≠ .hunt → exec (.rxCharacter char false) s =
      s.withLink { hunting with stats := { l.stats with lineErrors := countUpTo 65535 l.stats.lineErrors } })) ∧
  (∀ (s : State) (rest : List Owed), s.part.power = .running → s.part.tickJobs = [] →
    s.part.owed = .receiveTimeout :: rest → s.part.link.rx ≠ .hunt → 5 ≤ s.part.link.rxIdle →
    exec .rxTimeout s = s.to { s.part with
      owed := rest
      link := { s.part.link with
        rx := .hunt
        rxIdle := 0
        stats := { s.part.link.stats with timeouts := countUpTo 65535 s.part.link.stats.timeouts } } }) ∧
  (∀ l : Link, l.countIdle = if l.rx = .hunt then l else { l with rxIdle := countUpTo 5 l.rxIdle }) ∧
  (∀ (p : Part) (chosen : Option Seat), .receiveTimeout ∈ p.due chosen ↔ p.link.rx ≠ .hunt ∧ 5 ≤ p.link.rxIdle) ∧
  ∀ (cause : ResetCause) (straps : BitVec 2), (Link.reset cause straps).rx = .hunt

/-- The request buffer (R192): a good frame is appended while fewer than 4 are held and is an overrun otherwise; CTS; a frame
leaves the buffer when its processing begins. A busy link buffers the request that arrives (log 1). -/
def Obligations.RequestBuffer : Prop :=
  (∀ (f : Frame) (l : Link),
    l.offer f =
      if l.buffer.length < 4 then
        { l with buffer := l.buffer ++ [f], stats := { l.stats with goodFrames := countUpTo 65535 l.stats.goodFrames } }
      else { l with stats := { l.stats with overruns := countUpTo 65535 l.stats.overruns } }) ∧
  (∀ p : Part, p.cts = true ↔ p.power = .running ∧ p.link.buffer.length < 4) ∧
  (∀ (c : Instr) (f : Frame) (s : State), c.wf = true → c.frame? = some f → s.part.Quiet →
    (s.part.link.free = false → exec c s = s.withLink (s.part.link.offer f)) ∧
    ∀ rest, s.part.link.free = true → s.part.link.buffer = f :: rest →
      ∃ t, exec c s = .next t ∧ t.part.link.buffer = rest ∧ t.part.link.reply.isSome = true) ∧
  ∀ (cause : ResetCause) (straps : BitVec 2), (Link.reset cause straps).buffer = []

/-- The transmitter (R194): a waiting reply is sent first, then the oldest notice unless it is held; a frame that has been sent is
counted, and a sent reply releases the held notices. STARTED, which stands first in the queue from a reset on, goes before a reply
that waits: it is the first frame after every reset (R200); that this stands above R194's order is the model's reading (log 43),
and so is that STARTED too carries the lost count as it stands (log 46). -/
def Obligations.TransmitterSendsFrames : Prop :=
  ∀ s : State, s.part.Quiet →
    let l := s.part.link
    (∀ r, l.tx = none → l.reply = some r → (∀ n rest, l.notices = n :: rest → n.notice.kind ≠ 0x40) →
      exec .transmitFrameStart s = s.withLink { l with tx := some (.reply r (frameBytes r.frame)), reply := none }) ∧
    (∀ n rest, l.tx = none → l.reply = none ∨ n.kind = 0x40 → l.notices = ⟨n, false⟩ :: rest →
      exec .transmitFrameStart s =
        s.withLink { l with tx := some (.notice n (frameBytes (n.frame l.lost))), notices := rest, lost := 0 }) ∧
    (∀ n rest, l.tx = none → l.reply = none → l.notices = ⟨n, true⟩ :: rest → exec .transmitFrameStart s = .next s) ∧
    (l.tx.isSome = true → exec .transmitFrameStart s = .next s) ∧
    (∀ r bytes, l.tx = some (.reply r bytes) → r.resets = false →
      exec .transmitFrameDone s = s.withLink { l with
        tx := none
        notices := l.notices.map fun n => { n with held := false }
        stats := { l.stats with repliesSent := countUpTo 65535 l.stats.repliesSent } }) ∧
    ∀ n bytes, l.tx = some (.notice n bytes) →
      exec .transmitFrameDone s =
        s.withLink { l with tx := none, stats := { l.stats with noticesSent := countUpTo 65535 l.stats.noticesSent } }

/-- The notice queue and the lost count (R195), and the one notice that waits after a reset, STARTED, with its fields (R200). That
STARTED, too, carries the lost count as it stands when its transmission begins is the model's reading where R200 gives it 0 (log 46,
DEDUCED). -/
def Obligations.NoticeQueue : Prop :=
  (∀ (n : Notice) (l : Link),
    (l.enabled n = true → l.notices.length < 32 →
      l.notify n =
        { l with notices := l.notices ++ [⟨n, l.inRequest⟩], highWater := max l.highWater (l.notices.length + 1) }) ∧
    (l.enabled n = true → 32 ≤ l.notices.length →
      l.notify n =
        { l with
          lost := countUpTo 255 l.lost
          stats := { l.stats with noticesDropped := countUpTo 65535 l.stats.noticesDropped } }) ∧
    (l.enabled n = false → l.notify n = l)) ∧
  (∀ (s : State) (n : Notice) (rest : List QueuedNotice), s.part.Quiet → s.part.link.tx = none → s.part.link.reply = none →
    s.part.link.notices = ⟨n, false⟩ :: rest →
    ∃ t bytes, exec .transmitFrameStart s = .next t ∧ t.part.link.notices = rest ∧ t.part.link.lost = 0 ∧
      t.part.link.tx = some (.notice n bytes) ∧ bytes = frameBytes (n.frame s.part.link.lost) ∧
      (n.frame s.part.link.lost).payload.head? = some (BitVec.ofNat 8 s.part.link.lost)) ∧
  ∀ (cause : ResetCause) (straps : BitVec 2),
    (Link.reset cause straps).lost = 0 ∧
    (Link.reset cause straps).notices.map QueuedNotice.notice = [.started cause 1 0x6408 straps.toNat]

/-- PING and GET_INFO (R198). -/
def Obligations.PingAndInfo : Prop :=
  ∀ (s : State) (tag : Byte), s.part.Ready →
    (∀ payload : List Byte, payload.length ≤ 249 → exec (.ping tag payload) s = s.accepts 0x81 tag payload s.part.taken) ∧
    let cause : Byte := match s.part.link.resetCause with
      | .powerOn => 0
      | .pin => 1
      | .request => 2
    exec (.getInfo tag []) s = s.accepts 0x82 tag [0x64, 0x08, 1, s.part.link.baud.setWidth 8, cause, 4, 32] s.part.taken

/-- GET_STATS (R197) and SET_NOTICES (R196). The number of a choice, yes 0 and no 1, is the model's (log 6). -/
def Obligations.StatsAndMask : Prop :=
  ∀ (s : State) (tag : Byte), s.part.Ready →
    (let l := s.part.taken.link
     let reply := l.stats.counters.flatMap u16 ++ u8 l.notices.length ++ u8 l.highWater ++ u8 l.lost
     exec (.getStats tag [1]) s = s.accepts 0x83 tag reply s.part.taken ∧
     exec (.getStats tag [0]) s =
       s.accepts 0x83 tag reply
         { s.part.taken with link := { l with stats := ⟨0, 0, 0, 0, 0, 0, 0, 0, 0, 0⟩, highWater := 0 } } ∧
     ∀ n, 1 < n → n < 256 → exec (.getStats tag (u8 n)) s = s.refuses 0x83 tag 0x03) ∧
    ∀ mask : Nat, mask < 2 ^ 32 →
      exec (.setNotices tag (u32 mask)) s =
        if mask < 2 ^ 18 then
          s.acceptsWaking 0x85 tag []
            { s.part.taken with link := { s.part.taken.link with mask := BitVec.ofNat 32 mask ||| 1 } }
        else s.refuses 0x85 tag 0x03

/-- Device reset (R199): DEVICE_RESET is answered OK and the reset begins when that reply has been sent; POWER_ON and PIN resets
begin at once; a power-on reset keeps its cause; the reset ends with the straps' rate. The cause recorded when RESET_N goes low
during a REQUEST reset is a free value (log 11). -/
def Obligations.ResetEvents : Prop :=
  (∀ (s : State) (tag : Byte), s.part.Ready →
    exec (.deviceReset tag []) s =
      s.to { s.part.taken with
        link := { s.part.taken.link with inRequest := false, reply := some ⟨⟨0x84, tag, [0x00]⟩, false, true⟩ } }) ∧
  (∀ (s : State) (r : Reply) (bytes : List Byte), s.part.Quiet → s.part.link.tx = some (.reply r bytes) → r.resets = true →
    exec .transmitFrameDone s = s.to (Part.heldReset .request s.part.link.baud)) ∧
  (∀ s : State, exec .powerOn s = s.to (Part.heldReset .powerOn s.part.link.baud)) ∧
  (∀ s : State, s.part.power = .running → exec .resetNLow s = s.to (Part.heldReset .pin s.part.link.baud)) ∧
  (∀ s : State, s.part.power = .held .powerOn ∨ s.part.power = .held .pin → exec .resetNLow s = .next s) ∧
  (∀ s : State, s.part.power = .held .request →
    ∃ t, exec .resetNLow s = .next t ∧ t.pending = s.pending ∧
      (t.part = s.part ∨ t.part = Part.heldReset .pin s.part.link.baud)) ∧
  (∀ (s : State) (cause : ResetCause) (straps : BitVec 2), s.part.power = .held cause →
    exec (.resetEnd straps) s = s.to (Part.reset cause straps)) ∧
  ∀ (cause : ResetCause) (baud : BitVec 2),
    (Part.heldReset cause baud).power = .held cause ∧ (Part.heldReset cause baud).link.notices = [] ∧
    (Part.heldReset cause baud).link.tx = none ∧ (Part.heldReset cause baud).link.reply = none ∧
    (Part.heldReset cause baud).link.buffer = []

/-- The values after device reset that the chapters give (R199, R200, R1, R18, R20, R25, R38, R39, R43, R47, R71, R72, R100, R101,
R118, R125, R140, R154, R160, R161, R170, R176): the link, the clock and the session, the room defaults with the presets they put
in force, the lists and sequence counts of the floor, the mixer, the camera settings, the plans and sharing settings, and the
chains. One clause is no chapter's: that no press is waiting (`p.presses = []`) is the model's deduced reset value (log 26). -/
def Obligations.ValuesAfterReset : Prop :=
  ∀ (cause : ResetCause) (straps : BitVec 2),
    let p := Part.reset cause straps
    let floor : FloorPreset := ⟨.queued, 4, .queue, true, true, true, 0, 30, .warnOnly, 5, .discardOldest, 2⟩
    let mix : MixPreset := ⟨200, 1, 6, 128, 128, 1⟩
    p.link.rx = .hunt ∧ p.link.buffer = [] ∧ p.cts = true ∧ p.link.inRequest = false ∧ p.link.reply = none ∧
    p.link.lost = 0 ∧ (∀ n ∈ p.link.stats.counters, n = 0) ∧ p.link.baud = straps ∧ p.link.resetCause = cause ∧
    (∀ n : Notice, p.link.enabled n = true) ∧
    p.link.notices.map QueuedNotice.notice = [.started cause 1 0x6408 straps.toNat] ∧
    p.sched.clock = ⟨0, 0, 0⟩ ∧ p.sched.valid = false ∧ p.sched.bookings = [] ∧ p.sched.session = none ∧
    p.sched.standby = .awake ∧ p.sched.delay = 30 ∧ p.sched.timer = some 1800 ∧
    p.sched.defaults = ⟨floor, mix, true, 30, 10, 1, 5⟩ ∧ p.floor.preset = floor ∧ p.mixer.params = mix ∧
    p.floor.speakers = [] ∧ p.floor.queue = [] ∧ p.floor.held = [] ∧ p.floor.stack = [] ∧ p.floor.holders = [] ∧
    (∀ n ∈ p.floor.onsets, n = 0) ∧ p.pressSeq = 0 ∧ p.presses = [] ∧ p.floor.grantSeq = 0 ∧ p.floor.enqueueSeq = 0 ∧
    (∀ x : Seat, (p.seat x).link = .absent ∧ (p.seat x).standing = .out ∧ (p.seat x).trim = 16 ∧ (p.seat x).ring = .off) ∧
    (∀ z ∈ p.zones, z = none) ∧ (∀ ch ∈ p.mixer.channels, ch = none) ∧ p.mixer.clip = 0 ∧ p.mixer.holder = none ∧
    p.mixer.mute = false ∧ p.mixer.recordForced = false ∧ p.mixer.outputForced = false ∧
    (∀ n ∈ p.mixer.ducks, n = 0) ∧ (∀ l ∈ p.mixer.loud, l = .normal) ∧
    (∀ k ∈ p.director.current, k = none) ∧ p.director.active = none ∧ p.director.candidate = none ∧ p.director.hold = 0 ∧
    p.director.idle = 0 ∧ p.director.follow = .wide ∧ p.director.aimed = none ∧
    p.director.stripe = .block ∧ p.director.settleTime = 1500 ∧ p.director.switchHold = 1000 ∧ p.director.idleTime = 5 ∧
    p.screens.screens = List.replicate 8 ⟨.internal, none, .signage⟩ ∧
    p.screens.plans = List.replicate 8 (.fixed .signage) :: List.replicate 3 (List.replicate 8 .auto) ∧ p.screens.plan = 0 ∧
    p.screens.slot1 = none ∧ p.screens.slot2 = none ∧ p.screens.starts = 0 ∧ p.screens.grace1 = none ∧
    p.screens.grace2 = none ∧ p.screens.policy = .takeover ∧ p.screens.requiresFloor = true ∧ p.screens.graceTime = 2 ∧
    p.screens.queue = (List.finRange 8).map (fun i => LinkRecord.route i .signage) ++ [.shareBus .one none, .shareBus .two none] ∧
    ∀ c : Chain, (p.chain c).state = .training ∧ (p.chain c).cause = .reset ∧ (p.chain c).attempt = 1 ∧
      (p.chain c).settings = ⟨true, 2, 3, 7, 2, 3⟩ ∧ (p.chain c).pairs = none ∧ (p.chain c).degraded = false ∧
      (p.chain c).overlength = false ∧ (p.chain c).found = 0 ∧ (p.chain c).failureRun = 0 ∧ (p.chain c).rate = .normal ∧
      (p.chain c).items = [] ∧ (p.chain c).stale = [] ∧ (p.chain c).broadcast = none ∧ (p.chain c).exchange = none ∧
      (p.chain c).retryCounter = 0 ∧ (p.chain c).rollover = false ∧ (p.chain c).pointer = 0 ∧
      (∀ k ∈ (p.chain c).seats, k.fault = false ∧ k.toggle = false) ∧
      ∀ l ∈ (p.chain c).lanes, l.assigned = none ∧ l.transmitting = []

/-! ## The seat table (chapter 1) -/

/-- Zone membership and SET_ZONE (R7). -/
def Obligations.ZoneDefinition : Prop :=
  (∀ (p : Part) (z : Fin 8) (x : Seat),
    (∀ zone : Zone, p.zones.getD z.val none = some zone →
      (p.inZone z x = true ↔ zone.first ≤ x ∧ x ≤ zone.last ∧ zone.stride ∣ x.val - zone.first.val)) ∧
    (p.zones.getD z.val none = none → p.inZone z x = false)) ∧
  ∀ (s : State) (tag : Byte) (z : Nat), s.part.Ready → z < 256 →
    exec (.setZone tag (u8 z ++ u8 0)) s =
      (if z ≤ 7 then s.acceptsWaking 0x98 tag [] { s.part.taken with zones := s.part.zones.set z none }
        else s.refuses 0x98 tag 0x03) ∧
    ∀ first last stride : Nat, first < 256 → last < 256 → stride < 256 →
      exec (.setZone tag (u8 z ++ u8 1 ++ u8 first ++ u8 last ++ u8 stride)) s =
        if z ≤ 7 ∧ first ≤ 63 ∧ last ≤ 63 ∧ first ≤ last ∧ (stride = 1 ∨ stride = 2 ∨ stride = 4) then
          s.acceptsWaking 0x98 tag []
            { s.part.taken with
              zones := s.part.zones.set z (some ⟨Fin.ofNat 64 first, Fin.ofNat 64 last, stride⟩) }
        else s.refuses 0x98 tag 0x03

/-- SET_SEAT (R15): every field is replaced and the share of the seat is examined again, or a value out of range is answered
BAD_ARG. -/
def Obligations.SeatSettingsReplaced : Prop :=
  ∀ (s : State) (tag : Byte) (x role trim : Nat) (camera : Option (Nat × Nat)) (input : Option Nat), s.part.Ready →
    x < 256 → role < 256 → trim < 256 → (∀ c ∈ camera, c.1 < 256 ∧ c.2 < 256) → (∀ i ∈ input, i < 256) →
    let payload := u8 x ++ u8 role ++ u8 trim ++ optBytes (fun c : Nat × Nat => u8 c.1 ++ u8 c.2) camera ++ optBytes u8 input
    exec (.setSeat tag payload) s =
      if x ≤ 63 ∧ role ≤ 1 ∧ trim ≤ 16 ∧ (∀ c ∈ camera, c.1 ≤ 3 ∧ 1 ≤ c.2 ∧ c.2 ≤ 64) ∧
          ∀ i ∈ input, 1 ≤ i ∧ i ≤ 16 then
        s.acceptsWaking 0x96 tag []
          ((s.part.taken.modSeat (Fin.ofNat 64 x) fun r =>
            { r with
              role := if role = 0 then .member else .observer
              trim := trim
              shot := camera.map fun c => ⟨Fin.ofNat 4 c.1, c.2⟩
              input := input }).reexamine (Fin.ofNat 64 x))
      else s.refuses 0x96 tag 0x03

/-- SET_NAME (R16): the name is replaced and the nameplate derived again, or a value out of range is answered BAD_ARG. -/
def Obligations.NameReplaced : Prop :=
  ∀ (s : State) (tag : Byte) (x : Nat) (name : Text), s.part.Ready → x < 256 → name.length < 256 →
    (x ≤ 63 → Text.fits name →
      exec (.setName tag (u8 x ++ textBytes name)) s =
        s.acceptsWaking 0x9A tag []
          ((s.part.taken.modSeat (Fin.ofNat 64 x) fun r => { r with name := name }).derivePlate (Fin.ofNat 64 x))) ∧
    (¬(x ≤ 63 ∧ Text.fits name) → exec (.setName tag (u8 x ++ textBytes name)) s = s.refuses 0x9A tag 0x03)

/-- SET_STANDING (R10), line by line. The change goes to the floor, then to the screen router, then to the derivation, an order
that R11 leaves open (log 9). At the floor it acts by the table of R68, with the seat's leave of its frame (R73) and the release
of a holder (R83); a chair made DELEGATE loses its microphone by R68's last line but one (log 27). -/
def Obligations.StandingChanged : Prop :=
  (∀ (s : State) (tag : Byte), s.part.Ready →
    (∀ x n : Nat, x < 256 → n < 256 → 63 < x ∨ 3 < n →
      exec (.setStanding tag (u8 x ++ u8 n)) s = s.refuses 0x99 tag 0x03) ∧
    ∀ (x : Seat) (standing : Standing),
      let old := (s.part.seat x).standing
      let limited := standing = .chair ∧ old ≠ .chair ∧ 4 ≤ (s.part.seats.filter fun r => r.standing = .chair).length
      let code : Nat := match standing with
        | .out => 0
        | .listener => 1
        | .delegate => 2
        | .chair => 3
      let command := Instr.setStanding tag (seatBytes x ++ u8 code)
      (s.part.isOpen = false → exec command s = s.refuses 0x99 tag 0x08) ∧
      (s.part.isOpen = true → limited → exec command s = s.refuses 0x99 tag 0x04) ∧
      (s.part.isOpen = true → standing = old → exec command s = s.acceptsWaking 0x99 tag [] s.part.taken) ∧
      (s.part.isOpen = true → ¬limited → standing ≠ old →
        exec command s =
          s.acceptsWaking 0x99 tag []
            ((((s.part.taken.modSeat x fun r => { r with standing := standing }).floorEvent fun q =>
              q.changedStanding x old standing).reexamine x).derive x))) ∧
  ∀ (p : Part) (x : Seat) (new : Standing),
    let f := p.floor
    let left : Floor := { f with
      queue := f.queue.filter fun e => e.seat ≠ x
      held := f.held.filter fun e => e.seat ≠ x
      stack := f.stack.map fun r => { r with saved := r.saved.filter fun e => e.seat ≠ x } }
    let q := p.changedStanding x .delegate new
    (new = .chair →
      q.floor = { left with
        speakers := f.speakers.map fun e =>
          if e.seat = x then { e with kind := .chair, remaining := none, warned := false, duringFreeze := false } else e } ∧
      ((f.stack.any fun r => r.saved.any fun e => e.seat = x) = false → q.link = p.link)) ∧
    (new ≠ .chair →
      q.floor = { left with speakers := f.speakers.filter fun e => e.seat ≠ x } ∧
      ∀ e, (f.speakers.find? fun e => e.seat = x) = some e → p.link.mask.getLsbD 7 = true → p.link.notices.length < 32 →
        ∃ more, q.link.notices =
          p.link.notices ++
            ⟨.micClosed x e.kind .standingChanged e.grantNo e.channel e.lane e.remaining, p.link.inRequest⟩ :: more) ∧
    p.changedStanding x .chair new = (p.closeMic x (some .standingChanged)).release (.seat x) ∧
    p.changedStanding x .listener new = p ∧ p.changedStanding x .out new = p

/-- The ring state and the nameplate's status line of a seat: the first line of the tables of R12 and R13 that holds. A derivation
that gives a new result stores it, and when the seat is PRESENT queues a RING item, for any unit, or a NAMEPLATE item, for a
NAMEPLATE or PRESENTER unit (R14). -/
def Obligations.IndicatorsDerived : Prop :=
  (∀ (p : Part) (x : Seat),
    let entry := p.floor.speakers.find? fun e => e.seat = x
    let waits := (p.floor.queue.any fun e => e.seat = x) || p.floor.held.any fun e => e.seat = x
    p.ringOf x =
      if p.sched.standby = .standby then .off
      else if (p.seat x).denial then .denied
      else if p.floor.holders.any fun h => h.1 = .seat x then .priority
      else if p.floor.stack.any fun r => r.saved.any fun e => e.seat = x then .frozen
      else if entry.any Speaker.warned then .warn
      else if entry.isSome then .speak
      else if waits then .request
      else if p.sched.session.isSome ∧ ((p.seat x).standing = .delegate ∨ (p.seat x).standing = .chair) then .ready
      else .off) ∧
  (∀ (p : Part) (x : Seat),
    let time := (p.floor.speakers.find? fun e => e.seat = x).bind Speaker.remaining
    let place := p.floor.queue.findIdx? fun e => e.seat = x
    (p.sched.standby = .standby → p.statusLineOf x = []) ∧
    (p.sched.standby = .awake →
      (∀ t, time = some t → p.statusLineOf x = decimal (t / 60) ++ [0x3A, digit (t % 60 / 10), digit (t % 60 % 10)]) ∧
      (∀ n, time = none → place = some n → p.statusLineOf x = decimal (n + 1) ++ inLineText) ∧
      (∀ d, time = none → place = none → p.sched.session = some d → d.warned = true →
        p.statusLineOf x = decimal p.minutesLeft ++ minLeftText) ∧
      (time = none → place = none → (∀ d, p.sched.session = some d → d.warned = false) → p.statusLineOf x = []))) ∧
  ∀ (p : Part) (x : Seat), p.seats.length = 64 →
    (p.deriveRing x).seat x = { p.seat x with ring := p.ringOf x } ∧
    (p.derivePlate x).seat x = { p.seat x with nameLine := p.nameLineOf x, statusLine := p.statusLineOf x } ∧
    (p.ringOf x = (p.seat x).ring → p.deriveRing x = p) ∧
    (p.nameLineOf x = (p.seat x).nameLine → p.statusLineOf x = (p.seat x).statusLine → p.derivePlate x = p) ∧
    ((p.seat x).link ≠ .present → (p.deriveRing x).chainA = p.chainA ∧ (p.deriveRing x).chainB = p.chainB ∧
      (p.derivePlate x).chainA = p.chainA ∧ (p.derivePlate x).chainB = p.chainB) ∧
    ((p.seat x).link = .present → p.ringOf x ≠ (p.seat x).ring →
      (p.deriveRing x).chain (chainOf x) = (p.chain (chainOf x)).queueItem x (.ring (p.ringOf x))) ∧
    ((p.seat x).link = .present → ¬(p.nameLineOf x = (p.seat x).nameLine ∧ p.statusLineOf x = (p.seat x).statusLine) →
      ((p.seat x).unitType = some .nameplate ∨ (p.seat x).unitType = some .presenter →
        (p.derivePlate x).chain (chainOf x) =
          (p.chain (chainOf x)).queueItem x (.nameplate (p.nameLineOf x) (p.statusLineOf x))) ∧
      ((p.seat x).unitType ≠ some .nameplate → (p.seat x).unitType ≠ some .presenter →
        (p.derivePlate x).chain (chainOf x) = p.chain (chainOf x)))

/-- PRESS_EVENT and SEAT_PRESS: a press is discarded when its seat is not PRESENT; otherwise it gets the next sequence number,
goes to the room scheduler, and is routed by R5 as the standing then is (R4, R5, R65). The presses of SEAT_PRESS are taken at once
within the request, ahead of polled presses that wait (log 38). At the scheduler a press wakes the room, may open an ad-hoc
meeting and may check the session in (R36, R37). At the floor a SPEAK press is resolved by the nine lines of R51 with R53 and R54,
and a voice report counts towards an onset by R56, which is resolved in mode VOICE. A chair's AUX press releases the priority it
holds, and otherwise takes it, or takes it again under its marked frame (R74). An AUX press of a PRESENTER delegate ends its own
share with SELF, and otherwise starts one by the conditions and the slots of R149, or is denied. The order in which the seats
whose queue positions a withdrawal changes are derived again is the model's choice (log 47). -/
def Obligations.PressesRouted : Prop :=
  (∀ (p : Part) (x : Seat) (button : Button),
    ((p.seat x).link ≠ .present → p.takePress x button = p) ∧
    ((p.seat x).link = .present →
      let number := p.pressSeq + 1
      let q := ({ p with pressSeq := number }).schedulerPress x button
      p.takePress x button =
        match button, (q.seat x).standing, (q.seat x).unitType with
        | .speak, .chair, _ => q.floorEvent (Part.resolvePress x number .chair)
        | .speak, _, _ => q.floorEvent (Part.resolvePress x number .button)
        | .aux, .chair, _ => q.floorEvent (Part.chairAux x)
        | .aux, .delegate, some .presenter => q.shareToggle x
        | .aux, _, _ => q)) ∧
  (∀ (s : State) (x : Seat) (button : Button), s.part.Quiet →
    (s.part.presses.find? fun n => n.seat = x) = some ⟨x, button⟩ →
    exec (.pressEvent x button) s =
      s.to (({ s.part with presses := s.part.presses.erase ⟨x, button⟩ }).takePress x button)) ∧
  (∀ (s : State) (tag : Byte) (x : Seat) (button : Button), s.part.Ready →
    let code : Nat := match button with
      | .speak => 0
      | .aux => 1
    (∀ count, 1 ≤ count → count ≤ 3 → (s.part.seat x).link = .present →
      exec (.seatPress tag (seatBytes x ++ u8 code ++ u8 count)) s =
        s.accepts 0xAB tag [] (Nat.repeat (fun p => p.takePress x button) count s.part.taken)) ∧
    (∀ count, 1 ≤ count → count ≤ 3 → (s.part.seat x).link ≠ .present →
      exec (.seatPress tag (seatBytes x ++ u8 code ++ u8 count)) s = s.refuses 0xAB tag 0x04) ∧
    ∀ n b count, n < 256 → b < 256 → count < 256 → 63 < n ∨ 1 < b ∨ count = 0 ∨ 3 < count →
      exec (.seatPress tag (u8 n ++ u8 b ++ u8 count)) s = s.refuses 0xAB tag 0x03) ∧
  (∀ (p : Part) (x : Seat),
    let w := p.wakeEvent
    let d := w.sched
    let k := d.defaults
    let duration := match d.bookings with
      | b :: _ => min k.adhocDuration (b.start - w.now)
      | [] => k.adhocDuration
    let b : Booking :=
      { id := 0, start := w.now, duration := duration, title := [], roster := [], chairs := [], floor := k.floor, mix := k.mix
        plan := k.adhocPlan, privacy := .normal, grace := 0, warning := k.adhocWarning, origin := .adhoc, state := .active }
    let attempted := d.session = none ∧ k.adhoc = true ∧ d.valid = true ∧ (w.seat x).link = .present ∧ (w.seat x).role = .member
    let fails := 16 ≤ d.bookings.length ∨ duration < k.adhocMinimum
    let tried : Part :=
      if ¬attempted then w
      else if fails then w.deny x
      else
        ({ w with
          sched := { d with bookings := b :: d.bookings }
          link := w.link.notify (.adhocCreated x w.now duration (w.now + duration)) }).openSession b
    p.schedulerPress x .aux = w ∧
    p.schedulerPress x .speak =
      if tried.isOpen = true ∧ ((tried.seat x).standing = .delegate ∨ (tried.seat x).standing = .chair) then
        { tried with sched := { tried.sched with session := tried.sched.session.map fun m => { m with checkedIn := true } } }
      else tried) ∧
  ∀ (p : Part) (x : Seat) (number : Word32) (source : Source),
    let f := p.floor
    let preset := f.preset
    let append (q : Part) (source : Source) : Part := Part.derive x { q with
      floor := { q.floor with
        held := q.floor.held.filter fun e => e.seat ≠ x
        queue := q.floor.queue ++ [⟨x, q.floor.enqueueSeq + 1, source⟩]
        enqueueSeq := q.floor.enqueueSeq + 1 } }
    let appended (q : Part) (source : Source) (denied : Part → Part) : Part :=
      if 32 ≤ q.floor.queue.length then denied (q.notify (.queueFull x)) else append q source
    let asked (q : Part) (source : Source) (denied : Part → Part) : Part :=
      if q.floor.delegates < preset.limit ∧ (q.freeLane (chainOf x)).isSome = true then q.openMic x .delegate source false none
      else
        match preset.overflow with
        | .queue => appended q source denied
        | .deny => denied q
        | .replaceOldest =>
          match q.replaced x with
          | some e => q.replaceWith e x source false
          | none => denied q
    let r := p.resolvePress x number source
    let standing := (p.seat x).standing
    (p.isOpen = false → r = p.deny x) ∧
    (p.isOpen = true → standing = .listener ∨ standing = .out → r = p.deny x) ∧
    (p.isOpen = true → standing = .chair →
      (p.speaking x = true → r = if preset.selfClose = true then p.closeMic x (some .self) else p) ∧
      (p.speaking x = false →
        r = if (p.openChair x source).1 = .denied then (p.openChair x source).2.deny x else (p.openChair x source).2)) ∧
    (p.isOpen = true → standing = .delegate →
      (p.speaking x = true → r = if preset.selfClose = true then p.closeMic x (some .self) else p) ∧
      (p.speaking x = false → p.isQueued x = true →
        r = if preset.withdraw = true then
            (Part.derive x { p with floor := { f with queue := f.queue.filter fun e => e.seat ≠ x } }).deriveQueued
          else p) ∧
      (p.speaking x = false → p.isQueued x = false → p.isHeldPress x = true →
        r = if preset.withdraw = true then
            Part.derive x { p with floor := { f with held := f.held.filter fun e => e.seat ≠ x } }
          else p) ∧
      (p.speaking x = false → p.isQueued x = false → p.isHeldPress x = false →
        (f.stack ≠ [] → r = Part.derive x { p with floor := { f with held := f.held ++ [⟨x, number⟩] } }) ∧
        (f.stack = [] → preset.mode = .queued → r = appended p source (Part.deny x)) ∧
        (f.stack = [] → preset.mode ≠ .queued → r = asked p source (Part.deny x)))) ∧
    (∀ e voice, (f.speakers.find? fun e => e.seat = x) = some e →
      p.voiceReport x voice =
        if voice = true ∧ e.kind = .delegate ∧ (e.source = .voice ∨ (e.source = .auto ∧ preset.mode = .voice)) then
          { p with floor := { f with speakers := f.speakers.map fun e => if e.seat = x then { e with silence := 0 } else e } }
        else p) ∧
    ((f.speakers.find? fun e => e.seat = x) = none →
      let counted (n : Nat) : Part := { p with floor := { f with onsets := f.onsets.set x.val n } }
      p.voiceReport x false = counted 0 ∧
      (f.onsets.getD x.val 0 = 0 → p.voiceReport x true = counted 1) ∧
      (f.onsets.getD x.val 0 = 1 →
        p.voiceReport x true =
          if preset.mode = .voice ∧ p.isOpen = true ∧ standing = .delegate ∧ p.isQueued x = false ∧ p.isHeldPress x = false ∧
              f.stack = [] then
            asked (counted 2) .voice id
          else counted 2) ∧
      (2 ≤ f.onsets.getD x.val 0 → p.voiceReport x true = p)) ∧
    (p.chairAux x =
      if p.floor.holders.any fun h => h.1 = .seat x then p.release (.seat x)
      else if p.floor.stack.any fun r => r.holder = .seat x && r.released then p.retake (.seat x)
      else p.take (.seat x)) ∧
    let v := p.screens
    let unit := p.seat x
    let may := p.isOpen = true ∧ unit.link = .present ∧ unit.unitType = some .presenter ∧ unit.input.isSome = true ∧
      unit.signal = true ∧ (standing = .delegate ∨ standing = .chair) ∧
      (v.requiresFloor = true → standing = .delegate → p.speaking x = true ∨ ∃ r ∈ f.stack, ∃ e ∈ r.saved, e.seat = x)
    (∀ h, v.slot1 = some h → h.seat = x → p.shareToggle x = p.endShare .one .self) ∧
    (∀ h, v.slot2 = some h → h.seat = x → (∀ g, v.slot1 = some g → g.seat ≠ x) → p.shareToggle x = p.endShare .two .self) ∧
    ((∀ h, v.slot1 = some h → h.seat ≠ x) → (∀ h, v.slot2 = some h → h.seat ≠ x) →
      (¬may → p.shareToggle x = p.deny x) ∧
      (may → v.slot1 = none → p.shareToggle x = p.takeSlot .one x .button) ∧
      (may → v.slot1 ≠ none → v.slot2 = none → p.shareToggle x = p.takeSlot .two x .button) ∧
      ∀ h1 h2, may → v.slot1 = some h1 → v.slot2 = some h2 →
        (v.policy = .deny → p.shareToggle x = p.deny x) ∧
        (v.policy = .takeover → v.older = some .one →
          p.shareToggle x = (p.freeShare .one h1 .takenOver).takeSlot .one x .button) ∧
        (v.policy = .takeover → v.older = some .two →
          p.shareToggle x = (p.freeShare .two h2 .takenOver).takeSlot .two x .button))

/-! ## The room scheduler (chapter 2) -/

/-- SET_CLOCK (R35): the clock is set and valid, the count of completions starts again, and the booking work follows in the four
steps of R32: the end test, the missed bookings with their notices, the start test, the no-show test and the end-warning test in
its three cases (R29). That a test which leaves a set flag set derives every nameplate again, after SET_CLOCK as at a minute
boundary, is the model's reading, not a rule's words (log 31, DEDUCED); that a test derives the seats in seat order is the model's
choice (log 34). -/
def Obligations.ClockSet : Prop :=
  (∀ (s : State) (tag : Byte) (t : Time), s.part.Ready → t.day < 65536 → t.minute < 65536 → t.second < 256 →
    exec (.setClock tag (timeBytes t)) s =
      if t.minute ≤ 1439 ∧ t.second ≤ 59 then
        s.acceptsWaking 0x88 tag []
          (s.part.taken.modSched fun d => { d with clock := t, valid := true, completions := 0 }).bookingWork
      else s.refuses 0x88 tag 0x03) ∧
  ∀ p : Part, p.bookingWork = (((p.endTest.dropMissed).startTest).noShowTest).endWarningTest ∧
    (∀ b, p.activeBooking = some b → b.start + b.duration ≤ p.now → p.endTest = p.closeSession .ended) ∧
    (∀ b, p.activeBooking = some b → p.now < b.start + b.duration → p.endTest = p) ∧
    (p.activeBooking = none → p.endTest = p) ∧
    (let missed (b : Booking) : Bool := b.state = .pending && b.start + b.duration ≤ p.now
     p.dropMissed = { p with
       sched := { p.sched with bookings := p.sched.bookings.filter fun b => !missed b }
       link := (p.sched.bookings.filter missed).foldl (fun l b => l.notify (.bookingMissed b.id b.start b.duration)) p.link }) ∧
    (∀ b rest, p.sched.session = none → p.sched.bookings = b :: rest → b.state = .pending → b.start ≤ p.now →
      p.now < b.start + b.duration → p.startTest = p.openSession b) ∧
    (∀ b rest, p.sched.bookings = b :: rest → b.state = .active ∨ p.now < b.start ∨ b.start + b.duration ≤ p.now →
      p.startTest = p) ∧
    (p.sched.bookings = [] → p.startTest = p) ∧
    (∀ d, p.sched.session = some d → p.startTest = p) ∧
    (∀ d, p.sched.session = some d →
      p.noShowTest =
        if d.checkedIn = false ∧ ∃ t, d.deadline = some t ∧ t ≤ p.now then p.closeSession .noShow else p) ∧
    (p.sched.session = none → p.noShowTest = p ∧ p.endWarningTest = p) ∧
    ∀ d b, p.sched.session = some d → p.activeBooking = some b →
      let finish := b.start + b.duration
      let flagged (w : Bool) : Part := { p with sched := { p.sched with session := some { d with warned := w } } }
      (d.warned = true → b.warning < finish - p.now → p.endWarningTest = (flagged false).deriveAll) ∧
      (d.warned = true → finish - p.now ≤ b.warning → p.endWarningTest = p.deriveAll) ∧
      (d.warned = false → 0 < b.warning → finish ≤ p.now + b.warning →
        p.endWarningTest = ((flagged true).notify (.endWarning b.id finish (finish - p.now))).deriveAll) ∧
      (d.warned = false → b.warning = 0 ∨ p.now + b.warning < finish → p.endWarningTest = p)

/-- ADD_BOOKING: the first line of R21 that holds, else the booking is stored in start order and opens at once when its time has
come (R22). Line 1 is said of every field it names; the end of day 65535 is the model's last room minute (log 13), and the number
of a flag of the floor preset, on 0 and off 1, is the model's (log 6). -/
def Obligations.BookingAdded : Prop :=
  (∀ (s : State) (tag : Byte) (b : Booking), s.part.Ready → b.Fits →
    let p := s.part
    let command := Instr.addBooking tag b.payload
    let duplicate := ∃ x ∈ p.sched.bookings, x.id = b.id
    let conflict := (∃ x ∈ p.sched.bookings, b.start < x.start + x.duration ∧ x.start < b.start + b.duration) ∨
      ∃ a, p.activeBooking = some a ∧ b.start < a.start
    let past := p.sched.valid = true ∧ b.start + b.duration ≤ p.now
    let stored := s.part.taken.modSched fun d =>
      { d with
        bookings := d.bookings.takeWhile (fun x => x.start ≤ b.start) ++ b :: d.bookings.dropWhile fun x => x.start ≤ b.start }
    if ∃ z ∈ b.roster, p.zones.getD z.val none = none then exec command s = s.refuses 0x8A tag 0x03
    else if duplicate then exec command s = s.refuses 0x8A tag 0x0D
    else if conflict then exec command s = s.refuses 0x8A tag 0x06
    else if past then exec command s = s.refuses 0x8A tag 0x0E
    else if 16 ≤ p.sched.bookings.length then exec command s = s.refuses 0x8A tag 0x07
    else
      exec command s =
        s.acceptsWaking 0x8A tag []
          (if p.sched.valid ∧ p.sched.session = none ∧ b.start ≤ p.now ∧ p.now < b.start + b.duration then stored.openSession b
          else stored)) ∧
  ∀ (s : State) (tag : Byte) (id day minute duration plan privacy grace warning : Nat) (title : Text) (roster chairs : List Nat)
    (floor mix : List Byte), s.part.Ready →
    id < 65536 → day < 65536 → minute < 65536 → duration < 65536 → plan < 256 → privacy < 256 → grace < 256 → warning < 256 →
    title.length < 256 → roster.length < 256 → chairs.length < 256 → (∀ n ∈ roster ++ chairs, n < 256) →
    floor.length = 13 → mix.length = 7 →
    (id = 0 ∨ 1439 < minute ∨ duration < 5 ∨ 720 < duration ∨ Config.lastRoomMinute < day * 1440 + minute + duration ∨
      ¬Text.fits title ∨ 4 < roster.length ∨ (∃ n ∈ roster, 7 < n) ∨ 4 < chairs.length ∨ (∃ n ∈ chairs, 63 < n) ∨
      (∀ f : FloorPreset, f.Fits → floorBytes f ≠ floor) ∨ (∀ m : MixPreset, m.Fits → mixBytes m ≠ mix) ∨
      3 < plan ∨ 1 < privacy ∨ 30 < grace ∨ 15 < warning) →
    exec (.addBooking tag
        (u16 id ++ u16 day ++ u16 minute ++ u16 duration ++ textBytes title ++ listBytes u8 roster ++ listBytes u8 chairs ++
          floor ++ mix ++ u8 plan ++ u8 privacy ++ u8 grace ++ u8 warning)) s =
      s.refuses 0x8A tag 0x03

/-- REMOVE_BOOKING (R23). -/
def Obligations.BookingRemoved : Prop :=
  ∀ (s : State) (tag : Byte) (id : Nat), s.part.Ready → id < 65536 →
    ((∀ b ∈ s.part.sched.bookings, b.id ≠ id) → exec (.removeBooking tag (u16 id)) s = s.refuses 0x8B tag 0x05) ∧
    ∀ b, (s.part.sched.bookings.find? fun x => x.id = id) = some b →
      (b.state = .pending →
        exec (.removeBooking tag (u16 id)) s =
          s.acceptsWaking 0x8B tag []
            (s.part.taken.modSched fun d => { d with bookings := d.bookings.filter fun x => x.id ≠ id })) ∧
      (b.state = .active →
        exec (.removeBooking tag (u16 id)) s = s.acceptsWaking 0x8B tag [] (s.part.taken.closeSession .controller) ∧
        (s.part.isOpen = true → b ∉ (s.part.taken.closeSession .controller).sched.bookings))

/-- EXTEND_BOOKING (R33): the least of the four numbers is granted, added to the duration and reported with the new end; a grant
above 0 is followed by the end-warning test. That the end of day 65535, which bounds the grant, is the last room minute is the
model's (log 13). -/
def Obligations.BookingExtended : Prop :=
  ∀ (s : State) (tag : Byte) (id minutes : Nat), s.part.Ready → id < 65536 → minutes < 256 →
    let command := Instr.extendBooking tag (u16 id ++ u8 minutes)
    (minutes = 0 ∨ 240 < minutes → exec command s = s.refuses 0x8C tag 0x03) ∧
    (1 ≤ minutes → minutes ≤ 240 → (∀ b, s.part.activeBooking = some b → b.id ≠ id ∨ s.part.isOpen = false) →
      exec command s = s.refuses 0x8C tag 0x0B) ∧
    ∀ b, 1 ≤ minutes → minutes ≤ 240 → s.part.activeBooking = some b → b.id = id → s.part.isOpen = true →
      let toNext := ((s.part.sched.bookings.find? fun x => b.start < x.start).map fun x => x.start - b.finish).getD minutes
      let granted := min (min minutes toNext) (min (720 - b.duration) (Config.lastRoomMinute - b.finish))
      exec command s =
        s.acceptsWaking 0x8C tag (u8 granted ++ minuteBytes (b.finish + granted))
          (if granted = 0 then s.part.taken
          else
            (s.part.taken.modSched fun d =>
              { d with
                bookings := d.bookings.map fun x =>
                  if x.id = id then { x with duration := x.duration + granted } else x }).endWarningTest)

/-- CHECK_IN (R27) and END_SESSION (R30). -/
def Obligations.SessionRequests : Prop :=
  ∀ (s : State) (tag : Byte), s.part.Ready →
    (s.part.sched.session = none →
      exec (.checkIn tag []) s = s.refuses 0x8F tag 0x08 ∧ exec (.endSession tag []) s = s.refuses 0x90 tag 0x08) ∧
    ∀ d, s.part.sched.session = some d →
      (d.checkedIn = true → exec (.checkIn tag []) s = s.refuses 0x8F tag 0x0A) ∧
      (d.checkedIn = false →
        exec (.checkIn tag []) s =
          s.accepts 0x8F tag [] (s.part.taken.modSched fun k => { k with session := some { d with checkedIn := true } })) ∧
      exec (.endSession tag []) s = s.accepts 0x90 tag [] (s.part.taken.closeSession .controller)


/-- SET_ROOM_DEFAULTS (R38), which changes nothing in force and answers BAD_ARG to bytes that spell no defaults in range;
SET_STANDBY and WAKE (R42). SET_STANDBY restarts the delay timer, but keeps it as it is while a session is OPEN, when the timer is
stopped (R39); that is the model's reading of the two rules (log 20). The number of a choice, yes 0 and no 1, is the model's (log
6), and so is BAD_ARG for an enter-now byte that is neither (log 35). -/
def Obligations.RoomSettingsReplaced : Prop :=
  ∀ (s : State) (tag : Byte), s.part.Ready →
    (∀ k : RoomDefaults,
      (k.Fits →
        exec (.setRoomDefaults tag k.payload) s =
          s.acceptsWaking 0x91 tag [] (s.part.taken.modSched fun d => { d with defaults := k })) ∧
      (k.floor.Fits → k.mix.Fits → k.adhocDuration < 256 → k.adhocMinimum < 256 → k.adhocWarning < 256 → ¬k.Fits →
        exec (.setRoomDefaults tag k.payload) s = s.refuses 0x91 tag 0x03)) ∧
    (∀ bytes : List Byte, bytes.length = 25 → (∀ k : RoomDefaults, k.Fits → k.payload ≠ bytes) →
      exec (.setRoomDefaults tag bytes) s = s.refuses 0x91 tag 0x03) ∧
    exec (.wake tag []) s = s.acceptsWaking 0x93 tag [] s.part.taken ∧
    ∀ delay : Nat, delay < 256 →
      let set := s.part.taken.modSched fun d =>
        { d with delay := delay, timer := if d.session.isSome then d.timer else some (delay * 60) }
      (240 < delay → ∀ n, n < 256 → exec (.setStandby tag (u8 delay ++ u8 n)) s = s.refuses 0x92 tag 0x03) ∧
      (delay ≤ 240 → ∀ n, 1 < n → n < 256 → exec (.setStandby tag (u8 delay ++ u8 n)) s = s.refuses 0x92 tag 0x03) ∧
      (delay ≤ 240 → exec (.setStandby tag (u8 delay ++ u8 1)) s = s.acceptsWaking 0x92 tag [] set) ∧
      (delay ≤ 240 → s.part.isOpen = true → exec (.setStandby tag (u8 delay ++ u8 0)) s = s.refuses 0x92 tag 0x04) ∧
      (delay ≤ 240 → s.part.isOpen = false →
        exec (.setStandby tag (u8 delay ++ u8 0)) s =
          s.accepts 0x92 tag [] (if s.part.inStandby then set else set.enterStandby))

/-- Entering standby and waking (R39, R40, R41): a wake event while AWAKE restarts the timer alone; one in STANDBY wakes the room;
the timer's expiry enters standby unless a booking starts within 15 minutes or a wake event is pending. Entry and wake are noticed
with STANDBY_CHANGED; an entry turns every ring and nameplate dark (R14) and every screen BLANK with no override, and a wake
derives them and decides every screen again (R147). The model's own choices here: the timer stands still while a session is OPEN
and is stopped by an entry (log 20); the expiry falls due within a second tick and is taken by its command (log 2); and a press
waits to be taken, which is a pending wake event (log 21). -/
def Obligations.StandbyEntryAndWake : Prop :=
  (∀ p : Part, p.sched.standby = .awake →
    p.wakeEvent =
      if p.isOpen then p else { p with sched := { p.sched with timer := some (p.sched.delay * 60) } }) ∧
  (∀ p : Part, p.sched.standby = .standby →
    let q := p.wakeEvent
    q.sched.standby = .awake ∧ q.mixer.outputForced = false ∧
    q.chainA.rate = .normal ∧ q.chainB.rate = .normal ∧ q.floor = p.floor ∧
    q.sched.bookings = p.sched.bookings ∧ q.sched.session = p.sched.session ∧
    (p.sched.session = none → q.sched.timer = some (p.sched.delay * 60)) ∧
    q.link = p.link.notify (.standbyChanged .awake) ∧
    (∀ (i : Fin 8) (screen : Screen), q.screens.screens[i.val]? = some screen → screen.source = q.decideSource i) ∧
    (p.seats.length = 64 → ∀ x : Seat,
      (q.seat x).ring = q.ringOf x ∧ (q.seat x).nameLine = (p.seat x).name ∧ (q.seat x).statusLine = q.statusLineOf x)) ∧
  (∀ p : Part,
    let q := p.enterStandby
    q.sched.standby = .standby ∧ q.sched.timer = none ∧ q.mixer.outputForced = true ∧
    q.chainA.rate = .slow ∧ q.chainB.rate = .slow ∧ q.floor = p.floor ∧
    q.director.aimed = none ∧ q.director.follow = .wide ∧
    q.director.active = p.director.active ∧
    q.link = p.link.notify (.standbyChanged .standby) ∧
    (∀ (i : Fin 8) (screen : Screen), q.screens.screens[i.val]? = some screen →
      screen.source = .blank ∧ screen.override = none) ∧
    (p.seats.length = 64 → ∀ x : Seat,
      (q.seat x).ring = .off ∧ (q.seat x).nameLine = [] ∧ (q.seat x).statusLine = [])) ∧
  ∀ s : State, s.part.power = .running → s.part.tickJobs = [.standbyEnd] →
    s.part.sched.standby = .awake → s.part.sched.session = none → 0 < s.part.sched.delay → s.part.sched.timer = some 0 →
    let p := { s.part with tickJobs := [] }
    let near := p.sched.valid = true ∧
      ∃ b, (p.sched.bookings.find? fun b => b.state = .pending) = some b ∧ b.start ≤ p.now + 15
    let stays := near ∨ p.presses ≠ [] ∨ p.link.wakePending = true
    (stays →
      exec .standbyTimerExpiry s = s.to { p with sched := { p.sched with timer := some (p.sched.delay * 60) } }) ∧
    (¬stays → exec .standbyTimerExpiry s = s.to p.enterStandby)

/-- Opening a session (R26): a room in standby is woken, the booking is ACTIVE, the session record is filled, SESSION_OPENED is
queued, the standings follow the four lines of R9, the booking's presets, plan and privacy are in force with every override
cleared (R69, R119, R145), and the booking's title becomes the pending broadcast of each ACTIVE chain, in place of one that was
pending (R181). -/
def Obligations.SessionOpens : Prop :=
  ∀ (p : Part) (b : Booking), p.seats.length = 64 → p.sched.session = none →
    let q := p.openSession b
    q.sched.bookings = (p.sched.bookings.map fun x => if x.id = b.id then { x with state := .active } else x) ∧
    (∃ d, q.sched.session = some d ∧ d.bookingId = b.id ∧ d.openedAt = p.sched.clock ∧ d.checkedIn = false ∧
      d.attendance = List.replicate 64 ⟨0, false⟩ ∧
      d.deadline = if b.grace = 0 then none else some (max (b.start + b.grace) (p.now + b.grace))) ∧
    q.sched.timer = none ∧ q.sched.standby = .awake ∧
    (∀ x : Seat,
      let inRoster := b.roster = [] ∨
        ∃ z ∈ b.roster, ∃ zone : Zone, p.zones.getD z.val none = some zone ∧ zone.first ≤ x ∧ x ≤ zone.last ∧
          zone.stride ∣ x.val - zone.first.val
      (x ∈ b.chairs → (q.seat x).standing = .chair) ∧
      (x ∉ b.chairs → inRoster → (p.seat x).role = .member → (q.seat x).standing = .delegate) ∧
      (x ∉ b.chairs → inRoster → (p.seat x).role = .observer → (q.seat x).standing = .listener) ∧
      (x ∉ b.chairs → ¬inRoster → (q.seat x).standing = .out)) ∧
    q.floor = { p.floor with preset := b.floor } ∧
    q.mixer.params = b.mix ∧ q.mixer.mute = false ∧
    q.mixer.recordForced = decide (b.privacy = .confidential) ∧
    q.screens.plan = b.plan ∧ q.screens.confidential = decide (b.privacy = .confidential) ∧
    (∀ screen ∈ q.screens.screens, screen.override = none) ∧
    (∀ (i : Fin 8) (screen : Screen), q.screens.screens[i.val]? = some screen → screen.source = q.decideSource i) ∧
    (let title := ((q.sched.bookings.find? fun x => x.state = .active).map Booking.title).getD []
     (∀ c : Chain, (q.chain c).broadcast = if (p.chain c).state = .active then some title else (p.chain c).broadcast) ∧
     ((∀ x ∈ p.sched.bookings, (x.id = b.id → x = b) ∧ (x.id ≠ b.id → x.state = .pending)) → b ∈ p.sched.bookings →
       title = b.title)) ∧
    ∃ later : List Notice,
      let woken := if p.sched.standby = .standby then p.link.notify (.standbyChanged .awake) else p.link
      q.link = later.foldl (fun l n => l.notify n)
        (woken.notify (.sessionOpened b.id b.origin b.title b.start (b.start + b.duration) b.privacy b.plan))

/-- Closing a session (R31): the ACTIVE booking leaves the table, SESSION_CLOSED is queued before every other notice of the closing,
the session is IDLE, the standby timer restarts, and every block clears its state of the session: the standings (R11), the floor and
its voice onset counts (R70), priority (R84), the channels, the duck counts and the loudspeakers (R120 to R122), the active speaker
with its candidate and counts (R136), and the shares, overrides, grace timers, plan and privacy (R146). The empty title becomes the
pending broadcast of each ACTIVE chain, in place of one that was pending (R181). -/
def Obligations.SessionCloses : Prop :=
  ∀ (p : Part) (cause : SessionCause) (d : Session), p.sched.session = some d → p.mixer.channels.length = 12 →
    p.mixer.ducks.length = 64 → p.mixer.loud.length = 64 →
    let q := p.closeSession cause
    q.sched.bookings = p.sched.bookings.filter (fun b => b.state ≠ .active) ∧ q.sched.session = none ∧
    q.sched.timer = some (p.sched.delay * 60) ∧ q.sched.clock = p.sched.clock ∧
    (∀ x : Seat, (q.seat x).standing = .out) ∧
    q.floor.speakers = [] ∧ q.floor.queue = [] ∧ q.floor.held = [] ∧ q.floor.stack = [] ∧ q.floor.holders = [] ∧
    (∀ n ∈ q.floor.onsets, n = 0) ∧
    q.floor.preset = p.floor.preset ∧ q.floor.grantSeq = p.floor.grantSeq ∧ q.floor.enqueueSeq = p.floor.enqueueSeq ∧
    (∀ ch ∈ q.mixer.channels, ch = none) ∧ q.mixer.holder = none ∧ q.mixer.recordForced = false ∧
    (∀ n ∈ q.mixer.ducks, n = 0) ∧ (∀ l ∈ q.mixer.loud, l = .normal) ∧
    q.mixer.params = p.mixer.params ∧ q.mixer.mute = p.mixer.mute ∧ q.mixer.clip = p.mixer.clip ∧
    q.director.active = none ∧ q.director.follow = .wide ∧ q.director.aimed = none ∧ q.director.candidate = none ∧
    q.director.hold = 0 ∧ q.director.idle = 0 ∧
    q.screens.slot1 = none ∧ q.screens.slot2 = none ∧ q.screens.grace1 = none ∧
    q.screens.grace2 = none ∧ q.screens.plan = 0 ∧ q.screens.confidential = false ∧
    (∀ screen ∈ q.screens.screens, screen.override = none) ∧
    (∀ c : Chain, (q.chain c).broadcast = if (p.chain c).state = .active then some [] else (p.chain c).broadcast) ∧
    ∃ later : List Notice,
      q.link = later.foldl (fun l n => l.notify n)
        (p.link.notify (.sessionClosed d.bookingId cause d.openedAt p.sched.clock (attendanceList d.attendance)))

/-- The steps of time at the room scheduler: a second tick advances the clock, a minute boundary does the booking work while the
clock is valid, and the clock's wrap closes an open session (R18, R32). -/
def Obligations.ClockTicks : Prop :=
  (∀ t : Time, t.minute ≤ 1439 → t.second ≤ 59 → t.day ≤ 65535 →
    t.next =
      if t.second < 59 then ⟨t.day, t.minute, t.second + 1⟩
      else if t.minute < 1439 then ⟨t.day, t.minute + 1, 0⟩
      else if t.day < 65535 then ⟨t.day + 1, 0, 0⟩
      else ⟨0, 0, 0⟩) ∧
  (∀ (s : State) (moved : Bool) (rest : List Owed), s.part.power = .running → s.part.tickJobs = [] →
    s.part.owed = .tick moved :: rest →
    ∃ t, exec .secondTick s = .next t ∧ t.part.owed = rest ∧
      t.part.sched.clock = (if moved then s.part.sched.clock else s.part.sched.clock.next) ∧
      t.part.sched.valid = (s.part.sched.valid && (moved || s.part.sched.clock ≠ ⟨65535, 1439, 59⟩)) ∧
      t.part.sched.bookings = s.part.sched.bookings ∧
      (s.part.isOpen = false → t.part.floor = s.part.floor ∧ t.part.mixer = s.part.mixer)) ∧
  (∀ (s : State) (rest : List Owed), s.part.power = .running → s.part.tickJobs = [] → s.part.owed = .boundary :: rest →
    exec .minuteBoundary s =
      s.to (if s.part.sched.valid then ({ s.part with owed := rest }).bookingWork else { s.part with owed := rest })) ∧
  (∀ (s : State) (rest : List Owed), s.part.power = .running → s.part.tickJobs = [] → s.part.owed = .wrap :: rest →
    exec .clockWrap s = s.to (({ s.part with owed := rest }).closeSession .ended)) ∧
  ∀ d : Scheduler, d.countCompletion = { d with completions := (d.completions + 1) % 1000 } ∧
    (d.completions ≠ 0 → d.due = []) ∧ (d.completions = 0 → .tick false ∈ d.due) ∧
    (d.completions = 0 → d.clock = ⟨65535, 1439, 59⟩ → d.due = [.tick false, .wrap]) ∧
    (d.completions = 0 → d.clock.second = 59 → d.clock ≠ ⟨65535, 1439, 59⟩ → d.due = [.tick false, .boundary])

/-- The reading requests answer OK with what they report, and change nothing but the link (R17, R19, R24, R34, R64, R124, R159,
R175); the clear choices of GET_MIX_STATUS and GET_CHAIN clear what they name; an operand out of range is BAD_ARG. The layouts and
the number of a choice are the model's (log 6, log 8). -/
def Obligations.ReadingRequests : Prop :=
  ∀ (s : State) (tag : Byte), s.part.Ready →
    let p := s.part.taken
    exec (.getClock tag []) s = s.accepts 0x89 tag (timeBytes p.sched.clock ++ flagBytes p.sched.valid) p ∧
    (∀ first, first < 256 → exec (.listBookings tag (u8 first)) s =
      if first ≤ 15 then
        s.accepts 0x8D tag (u8 p.sched.bookings.length ++ listBytes Booking.entry ((p.sched.bookings.drop first).take 4)) p
      else s.refuses 0x8D tag 0x03) ∧
    (p.sched.session = none → exec (.getSession tag []) s =
      s.accepts 0x8E tag (u8 0 ++ u8 p.sched.standby.ctorIdx ++ flagBytes p.sched.valid) p) ∧
    (∀ d b, p.sched.session = some d → p.activeBooking = some b → exec (.getSession tag []) s =
      s.accepts 0x8E tag (u8 1 ++ u8 p.sched.standby.ctorIdx ++ flagBytes p.sched.valid ++ p.sessionReply d b) p) ∧
    (∀ x : Seat, exec (.getSeat tag (seatBytes x)) s = s.accepts 0x97 tag ((p.seat x).fields x) p) ∧
    (∀ part : FloorPart, exec (.getFloor tag (u8 part.ctorIdx)) s = s.accepts 0xA5 tag (p.floorReply part) p) ∧
    (∀ n, 4 < n → n < 256 → exec (.getFloor tag (u8 n)) s = s.refuses 0xA5 tag 0x03) ∧
    exec (.getMixStatus tag [1]) s = s.accepts 0xB1 tag p.mixReply p ∧
    exec (.getMixStatus tag [0]) s = s.accepts 0xB1 tag p.mixReply { p with mixer := { p.mixer with clip := 0 } } ∧
    (∀ n : Fin 4, exec (.getScreens tag (u8 n.val)) s = s.accepts 0xB9 tag (p.screensReply n) p) ∧
    (∀ n, 63 < n → n < 256 → exec (.getSeat tag (u8 n)) s = s.refuses 0x97 tag 0x03) ∧
    (∀ n, 1 < n → n < 256 → exec (.getMixStatus tag (u8 n)) s = s.refuses 0xB1 tag 0x03) ∧
    (∀ n, 3 < n → n < 256 → exec (.getScreens tag (u8 n)) s = s.refuses 0xB9 tag 0x03) ∧
    (∀ n choice, n < 256 → choice < 256 → 1 < n ∨ 1 < choice →
      exec (.getChain tag (u8 n ++ u8 choice)) s = s.refuses 0xBD tag 0x03) ∧
    ∀ c : Chain,
      exec (.getChain tag (u8 c.ctorIdx ++ [1])) s = s.accepts 0xBD tag (p.chainReply c) p ∧
      exec (.getChain tag (u8 c.ctorIdx ++ [0])) s =
        s.accepts 0xBD tag (p.chainReply c) (p.modChain c fun k => { k with rollover := false })

/-! ## The floor (chapters 3 to 5) -/

/-- GRANT (R58), line by line: a queued seat that lacks resources is answered NO_RESOURCE under every overflow policy, as the
sentence under R58's table reads (log 33). A chair's opening preempts the newest delegate of its chain, which goes to the head of
the queue or is named in QUEUE_FULL (R52); REPLACE_OLDEST closes the oldest delegate, on the seat's chain where the lane is
lacking (R53). What an event's work at the floor is followed by: the auto-advance pass, which opens the first queued seat whose
chain has a free lane, again and again while a session is OPEN, auto-advance is on, the floor is not frozen and a delegate slot is
free (R55); and QUEUE_CHANGED, when the queue is not what it was before the event, or when a restore has placed a seat in its head
region (R45, R80, log 12). A refused request makes no pass (log 32). The order in which the seats whose queue positions change are
derived again is the model's choice (log 47). -/
def Obligations.GrantAnswered : Prop :=
  (∀ (s : State) (tag : Byte), s.part.Ready →
    (∀ n, 63 < n → n < 256 → exec (.grant tag (u8 n)) s = s.refuses 0xA0 tag 0x03) ∧
    ∀ x : Seat,
      let p := s.part.taken
      let command := Instr.grant tag (seatBytes x)
      let present := (p.seat x).link = .present ∧ ((p.seat x).standing = .delegate ∨ (p.seat x).standing = .chair)
      let free := p.floor.delegates < p.floor.preset.limit ∧ (p.freeLane (chainOf x)).isSome = true
      (p.isOpen = false → exec command s = s.refuses 0xA0 tag 0x08) ∧
      (p.isOpen = true → ¬present → exec command s = s.refuses 0xA0 tag 0x04) ∧
      (p.isOpen = true → present → p.speaking x = true → exec command s = s.refuses 0xA0 tag 0x0A) ∧
      (p.isOpen = true → present → p.speaking x = false →
        ((p.seat x).standing = .chair →
          exec command s =
            if (p.openChair x .controller).1 = .denied then s.refuses 0xA0 tag 0x09
            else s.accepts 0xA0 tag [0] (p.floorEvent fun q => (q.openChair x .controller).2)) ∧
        ((p.seat x).standing = .delegate → free →
          exec command s =
            s.accepts 0xA0 tag [0] (p.floorEvent fun q => q.openMic x .delegate .controller (!p.floor.stack.isEmpty) none)) ∧
        ((p.seat x).standing = .delegate → ¬free → p.floor.preset.mode = .queued →
          exec command s = s.refuses 0xA0 tag 0x09) ∧
        ((p.seat x).standing = .delegate → ¬free → p.isQueued x = true → exec command s = s.refuses 0xA0 tag 0x09) ∧
        ((p.seat x).standing = .delegate → ¬free → p.floor.preset.mode ≠ .queued → p.floor.preset.overflow = .queue →
          p.isQueued x = false →
          exec command s =
            if 32 ≤ p.floor.queue.length then s.refuses 0xA0 tag 0x07
            else s.accepts 0xA0 tag [1] (p.floorEvent fun q => q.appendSeat x .controller)) ∧
        ((p.seat x).standing = .delegate → ¬free → p.floor.preset.mode ≠ .queued →
          p.floor.preset.overflow = .replaceOldest → p.isQueued x = false →
          (∀ e, p.replaced x = some e →
            exec command s =
              s.accepts 0xA0 tag [0]
                (p.floorEvent fun q => q.replaceWith e x .controller (!p.floor.stack.isEmpty))) ∧
          (p.replaced x = none → exec command s = s.refuses 0xA0 tag 0x09)) ∧
        ((p.seat x).standing = .delegate → ¬free → p.floor.preset.mode ≠ .queued → p.floor.preset.overflow = .deny →
          exec command s = s.refuses 0xA0 tag 0x09))) ∧
  (∀ (p : Part) (work : Part → Part),
    let q := (work p).autoAdvance
    p.floorEvent work =
      if q.floor.queue = p.floor.queue ∧ q.floor.headPlaced = false then q
      else
        { q with
          floor := { q.floor with headPlaced := false }
          link := q.link.notify (.queueChanged (q.floor.queue.map QueueEntry.seat)) }) ∧
  (∀ p : Part, p.floor.queue.length ≤ 32 →
    let may := p.isOpen = true ∧ p.floor.preset.autoAdvance = true ∧ p.floor.stack = [] ∧
      p.floor.delegates < p.floor.preset.limit
    (¬may → p.autoAdvance = p) ∧
    ((∀ e ∈ p.floor.queue, p.freeLane (chainOf e.seat) = none) → p.autoAdvance = p) ∧
    ∀ front e back, may → p.floor.queue = front ++ e :: back → (∀ d ∈ front, p.freeLane (chainOf d.seat) = none) →
      p.freeLane (chainOf e.seat) ≠ none →
      p.autoAdvance = (p.openMic e.seat .delegate .auto false none).autoAdvance) ∧
  ∀ (p : Part) (x : Seat) (source : Source), (p.floor.speakers.map Speaker.seat).Nodup →
    let lane := (p.freeLane (chainOf x)).isSome
    let near (e : Speaker) := e.kind = .delegate ∧ chainOf e.seat = chainOf x
    (lane = true → p.openChair x source = (.opened, p.openMic x .chair source false none)) ∧
    (lane = false → (∀ e ∈ p.floor.speakers, ¬near e) → p.openChair x source = (.denied, p)) ∧
    (∀ front e back, lane = false → p.floor.speakers = front ++ e :: back → near e → (∀ d ∈ back, ¬near d) →
      let closed := p.closeMic e.seat (some .lanePreempted)
      let again := if e.source = .chair ∨ e.source = .auto then .button else e.source
      let preempted :=
        if 32 ≤ closed.floor.queue.length then closed.notify (.queueFull e.seat)
        else
          Part.deriveQueued { closed with
            floor := { closed.floor with
              queue := ⟨e.seat, closed.floor.enqueueSeq + 1, again⟩ :: closed.floor.queue
              enqueueSeq := closed.floor.enqueueSeq + 1 } }
      p.openChair x source = (.opened, preempted.openMic x .chair source false none)) ∧
    (∀ front e back, p.floor.speakers = front ++ e :: back → e.kind = .delegate →
      (lane = true → (∀ d ∈ front, d.kind ≠ .delegate) → p.replaced x = some e) ∧
      (lane = false → near e → (∀ d ∈ front, ¬near d) → p.replaced x = some e) ∧
      ∀ duringFreeze,
        p.replaceWith e x source duringFreeze =
          (p.closeMic e.seat (some .replaced)).openMic x .delegate source duringFreeze none) ∧
    (lane = true → (∀ e ∈ p.floor.speakers, e.kind ≠ .delegate) → p.replaced x = none) ∧
    (lane = false → (∀ e ∈ p.floor.speakers, ¬near e) → p.replaced x = none) ∧
    p.appendSeat x source =
      Part.derive x { p with
        floor := { p.floor with
          held := p.floor.held.filter fun e => e.seat ≠ x
          queue := p.floor.queue ++ [⟨x, p.floor.enqueueSeq + 1, source⟩]
          enqueueSeq := p.floor.enqueueSeq + 1 } }

/-- CLOSE (R59): the microphone closes with cause CONTROLLER; the seat is not queued, and the holders of priority stay. -/
def Obligations.CloseAnswered : Prop :=
  ∀ (s : State) (tag : Byte), s.part.Ready →
    (∀ n, 63 < n → n < 256 → exec (.close tag (u8 n)) s = s.refuses 0xA1 tag 0x03) ∧
    ∀ x : Seat,
      let p := s.part.taken
      (p.isOpen = false → exec (.close tag (seatBytes x)) s = s.refuses 0xA1 tag 0x08) ∧
      (p.isOpen = true → p.speaking x = false → exec (.close tag (seatBytes x)) s = s.refuses 0xA1 tag 0x05) ∧
      (p.isOpen = true → p.speaking x = true →
        exec (.close tag (seatBytes x)) s =
          s.accepts 0xA1 tag [] (p.floorEvent fun q => q.closeMic x (some .controller))) ∧
      (p.closeMic x (some .controller)).floor.queue = p.floor.queue ∧
      (p.closeMic x (some .controller)).floor.holders = p.floor.holders

/-- ENQUEUE (R60): the seat is appended with SOURCE CONTROLLER and leaves the held-press set. -/
def Obligations.EnqueueAnswered : Prop :=
  ∀ (s : State) (tag : Byte), s.part.Ready →
    (∀ n, 63 < n → n < 256 → exec (.enqueue tag (u8 n)) s = s.refuses 0xA2 tag 0x03) ∧
    ∀ x : Seat,
      let p := s.part.taken
      let command := Instr.enqueue tag (seatBytes x)
      let mayWait := (p.seat x).link = .present ∧ (p.seat x).standing = .delegate
      let waits := p.speaking x = true ∨ p.isQueued x = true
      (p.isOpen = false → exec command s = s.refuses 0xA2 tag 0x08) ∧
      (p.isOpen = true → ¬mayWait → exec command s = s.refuses 0xA2 tag 0x04) ∧
      (p.isOpen = true → mayWait → waits → exec command s = s.refuses 0xA2 tag 0x0A) ∧
      (p.isOpen = true → mayWait → ¬waits → 32 ≤ p.floor.queue.length → exec command s = s.refuses 0xA2 tag 0x07) ∧
      (p.isOpen = true → mayWait → ¬waits → p.floor.queue.length < 32 →
        exec command s =
          s.accepts 0xA2 tag []
            (p.floorEvent fun q =>
              Part.derive x { q with
                floor := { q.floor with
                  held := q.floor.held.filter fun e => e.seat ≠ x
                  queue := q.floor.queue ++ [⟨x, q.floor.enqueueSeq + 1, .controller⟩]
                  enqueueSeq := q.floor.enqueueSeq + 1 } }))

/-- DEQUEUE (R61): the seat leaves the queue or the held-press set, and its pending-denial flag is not set. MOVE_REQUEST (R62):
the entry is reinserted at the position given, or at the tail. The order in which the seats whose positions change are derived
again (R13) is the model's choice (log 47). -/
def Obligations.QueueEditsAnswered : Prop :=
  ∀ (s : State) (tag : Byte), s.part.Ready →
    (∀ n, 63 < n → n < 256 → exec (.dequeue tag (u8 n)) s = s.refuses 0xA3 tag 0x03) ∧
    (∀ x : Seat,
      let p := s.part.taken
      let command := Instr.dequeue tag (seatBytes x)
      (p.isOpen = false → exec command s = s.refuses 0xA3 tag 0x08) ∧
      (p.isOpen = true → p.isQueued x = false → p.isHeldPress x = false → exec command s = s.refuses 0xA3 tag 0x05) ∧
      (p.isOpen = true → p.isQueued x = true →
        exec command s =
          s.accepts 0xA3 tag []
            (p.floorEvent fun q =>
              (Part.derive x { q with
                floor := { q.floor with queue := q.floor.queue.filter fun e => e.seat ≠ x } }).deriveQueued)) ∧
      (p.isOpen = true → p.isQueued x = false → p.isHeldPress x = true →
        exec command s =
          s.accepts 0xA3 tag []
            (p.floorEvent fun q =>
              Part.derive x { q with floor := { q.floor with held := q.floor.held.filter fun e => e.seat ≠ x } })) ∧
      ∀ (t : State) (y : Seat), exec command s = .next t → (t.part.seat y).denial = (s.part.seat y).denial) ∧
    (∀ n position, n < 256 → position < 256 → 63 < n ∨ position = 0 →
      exec (.moveRequest tag (u8 n ++ u8 position)) s = s.refuses 0xA4 tag 0x03) ∧
    ∀ (x : Seat) (position : Nat), 1 ≤ position → position ≤ 255 →
      let p := s.part.taken
      let command := Instr.moveRequest tag (seatBytes x ++ u8 position)
      (p.isOpen = false → exec command s = s.refuses 0xA4 tag 0x08) ∧
      (p.isOpen = true → p.isQueued x = false → exec command s = s.refuses 0xA4 tag 0x05) ∧
      ∀ e, p.isOpen = true → (p.floor.queue.find? fun e => e.seat = x) = some e →
        let rest := p.floor.queue.filter fun e => e.seat ≠ x
        exec command s =
          s.accepts 0xA4 tag (u8 (min position p.floor.queue.length))
            (p.floorEvent fun q =>
              Part.deriveQueued { q with
                floor := { q.floor with queue := rest.take (position - 1) ++ e :: rest.drop (position - 1) } })

/-- SET_FLOOR (R63): the preset in force is replaced whole, and the newest delegates above a lowered limit close with cause
LIMIT_LOWERED; bytes that spell no preset within Table 2-1 are BAD_ARG. The number of a flag, on 0 and off 1, is the model's (log
6). -/
def Obligations.FloorPresetReplaced : Prop :=
  ∀ (s : State) (tag : Byte) (f : FloorPreset), s.part.Ready →
    (f.Fits → s.part.isOpen = false → exec (.setFloor tag (floorBytes f)) s = s.refuses 0xA6 tag 0x08) ∧
    (f.Fits → s.part.isOpen = true →
      exec (.setFloor tag (floorBytes f)) s =
        s.acceptsWaking 0xA6 tag []
          (s.part.taken.floorEvent fun q =>
            let surplus := ((q.floor.delegateSeats).reverse).take (q.floor.delegates - f.limit)
            ({ q with floor := { q.floor with preset := f } }).closeSeats surplus (some .limitLowered))) ∧
    (f.limit < 256 → f.speechLimit < 65536 → f.warnLead < 256 → f.voiceHold < 256 → f.chairBias < 256 → ¬f.Fits →
      exec (.setFloor tag (floorBytes f)) s = s.refuses 0xA6 tag 0x03) ∧
    ∀ bytes : List Byte, bytes.length = 13 → (∀ g : FloorPreset, g.Fits → floorBytes g ≠ bytes) →
      exec (.setFloor tag bytes) s = s.refuses 0xA6 tag 0x03

/-- PRIORITY_TAKE, PRIORITY_RELEASE and FLOOR_RESET (R85), with what they leave in the stack and the holder set: the take with
room made on a full stack (R75 to R77), the retake (R74), the release by the holder's condition (R78), the pop with its restores
and the held presses (R79 to R81), and the reset (R82), at which the CHAIR entries stay as they are. The closes of a take are
those of `MicrophoneCloses` without a cause, oldest entry first (R75): each is handed to the chain, whose lane is freed, to the
mixer, whose channel becomes FREE (R103), and to the director (R130), and none queues MIC_CLOSED: what they queue tells of the
active speaker and of shares alone. That a taker joins at the tail of the holders is the model's choice (log 39), and so is the
order in which seats whose queue positions change are derived again (log 47). -/
def Obligations.PriorityRequests : Prop :=
  (∀ (s : State) (tag : Byte), s.part.Ready →
    let p := s.part.taken
    let holds := (p.floor.holders.any fun h => h.1 = .controller) = true
    let marked := (p.floor.stack.any fun r => r.holder = .controller && r.released) = true
    (p.isOpen = false →
      exec (.priorityTake tag []) s = s.refuses 0xA7 tag 0x08 ∧ exec (.priorityRelease tag []) s = s.refuses 0xA8 tag 0x08 ∧
      exec (.floorReset tag []) s = s.refuses 0xA9 tag 0x08) ∧
    (p.isOpen = true → holds → exec (.priorityTake tag []) s = s.refuses 0xA7 tag 0x0A) ∧
    (p.isOpen = true → ¬holds → marked →
      exec (.priorityTake tag []) s = s.accepts 0xA7 tag [] (p.floorEvent fun q => q.retake .controller)) ∧
    (p.isOpen = true → ¬holds → ¬marked →
      exec (.priorityTake tag []) s = s.accepts 0xA7 tag [] (p.floorEvent fun q => q.take .controller)) ∧
    (p.isOpen = true → ¬holds → exec (.priorityRelease tag []) s = s.refuses 0xA8 tag 0x05) ∧
    (p.isOpen = true → holds →
      exec (.priorityRelease tag []) s = s.accepts 0xA8 tag [] (p.floorEvent fun q => q.release .controller)) ∧
    (p.isOpen = true → exec (.floorReset tag []) s = s.accepts 0xA9 tag [] (p.floorEvent Part.floorReset))) ∧
  (∀ (p : Part) (h : Holder),
    let room := p.makeRoom
    let saved := (room.floor.speakers.filter fun e => e.kind = .delegate).map fun e =>
      (⟨e.seat, e.source, e.remaining, e.warned, e.duringFreeze⟩ : Saved)
    let chairOpens (q : Part) : Part := match h with
      | .controller => q
      | .seat x => if q.speaking x = true then q else (q.openChair x .chair).2
    (let pushed : Part := { room with floor := { room.floor with stack := ⟨h, false, saved⟩ :: room.floor.stack } }
     let closed := (saved.map Saved.seat).foldl (fun q x => q.closeMic x none) pushed
     let joined : Part := { closed with floor := { closed.floor with holders := closed.floor.holders ++ [(h, .framed)] } }
     let lit := match h with
       | .controller => joined
       | .seat x => joined.derive x
     let q := lit.notify (.priorityChanged .taken (some h) (saved.map Saved.seat) (room.floor.stack.length + 1)
       (room.floor.holders.length + 1))
     p.take h = chairOpens q ∧
      ((room.floor.speakers.map Speaker.seat).Nodup → ∀ e ∈ room.floor.speakers, e.kind = .delegate →
        q.mixer.channels.getD e.channel none = none ∧ q.director.active ≠ some e.seat ∧ q.director.candidate ≠ some e.seat ∧
        ∀ l, (q.chain (chainOf e.seat)).lanes[e.lane]? = some l → l.assigned = none) ∧
      q.floor = { room.floor with
        stack := ⟨h, false, saved⟩ :: room.floor.stack
        holders := room.floor.holders ++ [(h, .framed)]
        speakers := room.floor.speakers.filter fun e =>
          !(room.floor.speakers.any fun d => d.kind = .delegate && d.seat = e.seat) } ∧
      ∃ closes : List Notice,
        (∀ n ∈ closes, (∃ new previous cause shot sent follow, n = .activeSpeaker new previous cause shot sent follow) ∨
          ∃ slot action x input number source cause, n = .shareChanged slot action x input number source cause) ∧
        q.link = (closes.foldl (fun l n => l.notify n) room.link).notify
          (.priorityChanged .taken (some h) (saved.map Saved.seat) (room.floor.stack.length + 1)
            (room.floor.holders.length + 1))) ∧
    (∃ q : Part, p.retake h = chairOpens q ∧
      q.floor = { p.floor with
        stack := p.floor.stack.map fun r => if r.holder = h then { r with released := false } else r
        holders := p.floor.holders ++ [(h, .framed)] } ∧
      q.link = p.link.notify
        (.priorityChanged .retaken (some h) [] p.floor.stack.length (p.floor.holders.length + 1))) ∧
    (p.floor.stack.length < 4 → room = p) ∧
    (4 ≤ p.floor.stack.length → p.floor.preset.stackPolicy = .clearFloor → room = p.floorReset) ∧
    (∀ kept bottom, p.floor.stack = kept ++ [bottom] → kept.length = 3 → p.floor.preset.stackPolicy = .discardOldest →
      room.floor = { p.floor with
        stack := kept
        holders :=
          if bottom.released = true then p.floor.holders
          else p.floor.holders.map fun k => if k.1 = bottom.holder then (k.1, .unframed) else k } ∧
      ∃ shares : List Notice,
        let lost :=
          if bottom.saved = [] then p.link
          else p.link.notify (.resumeLost bottom.holder .discarded (bottom.saved.map Saved.seat))
        room.link = shares.foldl (fun l n => l.notify n)
          (lost.notify (.priorityChanged .discarded (some bottom.holder) [] 3 p.floor.holders.length)))) ∧
  (∀ (p : Part) (h : Holder),
    let q := p.release h
    let holder := p.floor.holders.find? fun k => k.1 = h
    let others := p.floor.holders.filter fun k => k.1 ≠ h
    let onTop := (p.floor.stack.head?.any fun r => r.holder = h) = true
    (holder = none → q = p) ∧
    (holder = some (h, .unframed) →
      q.floor = { p.floor with holders := others } ∧
      q.link = p.link.notify (.priorityChanged .ended (some h) [] p.floor.stack.length others.length)) ∧
    (holder = some (h, .framed) → ¬onTop →
      q.floor = { p.floor with
        stack := p.floor.stack.map fun r => if r.holder = h then { r with released := true } else r
        holders := others } ∧
      q.link = p.link.notify (.priorityChanged .releasePending (some h) [] p.floor.stack.length others.length)) ∧
    (holder = some (h, .framed) → onTop →
      let left : Part := { p with floor := { p.floor with holders := others } }
      q = Part.pop (match h with
        | .controller => left
        | .seat x => left.derive x))) ∧
  (∀ (p : Part) (top : ResumeFrame) (rest : List ResumeFrame), p.floor.stack = top :: rest →
    let popped := { p with
      floor := { p.floor with stack := rest }
      link := p.link.notify
        (.priorityChanged .released (some top.holder) (top.saved.map Saved.seat) rest.length p.floor.holders.length) }
    let done := top.saved.foldl Restore.seat ⟨popped, 0, []⟩
    let restored :=
      if done.dropped = [] then done.part else done.part.notify (.resumeLost top.holder .queueFull done.dropped)
    (rest = [] →
      p.pop = restored.floor.held.foldl (init := restored) fun q e =>
        if q.isHeldPress e.seat = true then
          (Part.resolvePress e.seat e.pressNo .button
            { q with floor := { q.floor with held := q.floor.held.filter fun d => d.seat ≠ e.seat } }).derive e.seat
        else q) ∧
    (∀ next more, rest = next :: more → p.pop = if next.released = true then restored.pop else restored)) ∧
  (∀ (r : Restore) (e : Saved),
    let q := r.part
    let f := q.floor
    let fits := (q.seat e.seat).link = .present ∧ f.delegates < f.preset.limit ∧ (q.freeLane (chainOf e.seat)).isSome = true
    let again := if e.source = .chair ∨ e.source = .auto then .button else e.source
    let entry := (f.queue.find? fun d => d.seat = e.seat).getD ⟨e.seat, f.enqueueSeq + 1, again⟩
    let others := f.queue.filter fun d => d.seat ≠ e.seat
    (fits →
      r.seat e =
        ⟨(q.openMic e.seat .delegate e.source (!f.stack.isEmpty) (some (e.remaining, e.warned))).reexamine e.seat, r.placed,
          r.dropped⟩) ∧
    (¬fits → q.isQueued e.seat = false → 32 ≤ f.queue.length →
      r.seat e = ⟨(q.derive e.seat).reexamine e.seat, r.placed, r.dropped ++ [e.seat]⟩) ∧
    (¬fits → q.isQueued e.seat = true ∨ f.queue.length < 32 →
      let placed := { q with
        floor := { f with
          held := f.held.filter fun d => d.seat ≠ e.seat
          queue := others.take r.placed ++ entry :: others.drop r.placed
          enqueueSeq := if q.isQueued e.seat = true then f.enqueueSeq else f.enqueueSeq + 1
          headPlaced := true } }
      r.seat e = ⟨((placed.derive e.seat).deriveQueued).reexamine e.seat, r.placed + 1, r.dropped⟩)) ∧
  ∀ p : Part,
    p.floorReset.floor.stack = [] ∧ p.floorReset.floor.holders = [] ∧ p.floorReset.floor.queue = [] ∧
    p.floorReset.floor.held = [] ∧ (∀ e ∈ p.floorReset.floor.speakers, e.kind = .chair) ∧
    ((p.floor.speakers.map Speaker.seat).Nodup →
      p.floorReset.floor.speakers = p.floor.speakers.filter fun e => e.kind = .chair) ∧
    p.floorReset.floor.grantSeq = p.floor.grantSeq ∧ p.floorReset.floor.enqueueSeq = p.floor.enqueueSeq ∧
    p.floorReset.floor.onsets = p.floor.onsets

/-- EXTEND_SPEECH (R94): the remaining time rises to at most 3600, and the warned flag clears above the warn lead. -/
def Obligations.SpeechExtended : Prop :=
  ∀ (s : State) (tag : Byte), s.part.Ready →
    (∀ n seconds, n < 256 → seconds < 65536 → 63 < n ∨ seconds = 0 ∨ 600 < seconds →
      exec (.extendSpeech tag (u8 n ++ u16 seconds)) s = s.refuses 0xAA tag 0x03) ∧
    ∀ (x : Seat) (seconds : Nat), 1 ≤ seconds → seconds ≤ 600 →
      let p := s.part.taken
      let command := Instr.extendSpeech tag (seatBytes x ++ u16 seconds)
      let entry := p.floor.speakers.find? fun e => e.seat = x
      (p.isOpen = false → exec command s = s.refuses 0xAA tag 0x08) ∧
      (p.isOpen = true → entry = none → exec command s = s.refuses 0xAA tag 0x05) ∧
      (∀ e, p.isOpen = true → entry = some e → e.remaining = none → exec command s = s.refuses 0xAA tag 0x0C) ∧
      ∀ e r, p.isOpen = true → entry = some e → e.remaining = some r →
        let time := min (r + seconds) 3600
        exec command s =
          s.accepts 0xAA tag (u16 (time - r) ++ u16 time)
            (p.floorEvent fun q =>
              Part.derive x { q with
                floor := { q.floor with
                  speakers := q.floor.speakers.map fun e =>
                    if e.seat = x then
                      { e with
                        remaining := some time
                        warned := if p.floor.preset.warnLead < time then false else e.warned }
                    else e } })

/-- The frame of the floor requests: GRANT, CLOSE, ENQUEUE, DEQUEUE, MOVE_REQUEST, PRIORITY_TAKE, FLOOR_RESET and EXTEND_SPEECH
change nothing outside what `Part.floorFrame` blanks: the lists and counts of the floor, the derived rings and nameplates, the
records of the mixer and the director that follow the speaker list, the shares and screen sources, the exchange lists and the
lanes' assignments, and the reply and notices of the link. The transmitting sets stay. PRIORITY_RELEASE can change the
pending-denial flags of held presses besides (R81). -/
def Obligations.FloorRequestsFrame : Prop :=
  ∀ (s t : State) (tag : Byte) (payload : List Byte) (c : Instr), s.part.Ready → exec c s = .next t →
    (c = .grant tag payload ∨ c = .close tag payload ∨ c = .enqueue tag payload ∨ c = .dequeue tag payload ∨
      c = .moveRequest tag payload ∨ c = .priorityTake tag payload ∨ c = .floorReset tag payload ∨
      c = .extendSpeech tag payload → t.part.floorFrame = s.part.floorFrame) ∧
    (c = .priorityRelease tag payload → t.part.floorFrame.forgiven = s.part.floorFrame.forgiven)

/-- Opening a microphone (R49, R73, R102): the floor's entry with the lowest free lane and channel, the next grant number and the
speech limit, or the time and the warned flag that a restore carries (R80); the mixer's record; MIC_OPENED; and nothing else of the
floor. -/
def Obligations.MicrophoneOpens : Prop :=
  ∀ (p : Part) (x : Seat) (kind : Kind) (source : Source) (duringFreeze : Bool) (restored : Option (Option Nat × Bool))
    (lane channel : Nat),
    p.freeLane (chainOf x) = some lane → p.freeChannel = some channel →
    let limit := if kind = .delegate ∧ 0 < p.floor.preset.speechLimit then some p.floor.preset.speechLimit else none
    let time := match restored with
      | some r => r.1
      | none => limit
    let warned := match restored with
      | some r => r.2
      | none => false
    let entry : Speaker := ⟨x, kind, p.floor.grantSeq + 1, channel, lane, time, warned, duringFreeze, source, 0⟩
    let q := p.openMic x kind source duringFreeze restored
    q.floor =
      { p.floor with
        speakers := p.floor.speakers ++ [entry]
        queue := p.floor.queue.filter fun e => e.seat ≠ x
        held := p.floor.held.filter fun e => e.seat ≠ x
        stack := p.floor.stack.map fun r => { r with saved := r.saved.filter fun e => e.seat ≠ x }
        onsets := p.floor.onsets.set x.val 0
        grantSeq := p.floor.grantSeq + 1 } ∧
    lane < (p.chain (chainOf x)).laneCount ∧ channel < 12 ∧
    (∀ e ∈ p.floor.speakers, e.channel ≠ channel ∧ (chainOf e.seat = chainOf x → e.lane ≠ lane)) ∧
    (∀ n, n < lane → ∃ e ∈ p.floor.speakers, chainOf e.seat = chainOf x ∧ e.lane = n) ∧
    (∀ n, n < channel → ∃ e ∈ p.floor.speakers, e.channel = n) ∧
    (∃ c, q.mixer.channels = p.mixer.channels.set channel (some c) ∧ c.seat = x ∧ c.envelope = 0 ∧ c.gain = 0) ∧
    (p.link.mask.getLsbD 6 = true → p.link.notices.length < 32 →
      ∃ more, q.link.notices =
        p.link.notices ++ ⟨.micOpened x kind (p.floor.grantSeq + 1) channel lane time source, p.link.inRequest⟩ :: more) ∧
    q.sched = p.sched ∧ q.zones = p.zones ∧ q.presses = p.presses

/-- Closing a microphone (R50), with a cause or, in a take of priority, without one (R75): the entry leaves the speaker list, and
nothing else of the floor changes; MIC_CLOSED carries the cause; the close is handed to the chain, whose lane is freed (R170), to
the mixer, whose channel becomes FREE (R103), and to the director (R130); then the share of the seat is examined, unless the
session closes (R151), and the seat is derived again. The close of the active speaker makes it NONE with the counts 0, drops the
pending recall, which leaves every camera's current preset, and follows CAM_W (R134); the close of the stored candidate clears it
and its hold count; any other close changes nothing of the director. That the blocks take the close in the order of R50's list is
the model's choice (log 9). -/
def Obligations.MicrophoneCloses : Prop :=
  ∀ (p : Part) (x : Seat) (cause : Option CloseCause) (e : Speaker), (p.floor.speakers.find? fun e => e.seat = x) = some e →
    let q := p.closeMic x cause
    let removed : Part := { p with
      floor := { p.floor with speakers := p.floor.speakers.filter fun e => e.seat ≠ x }
      link := match cause with
        | some c => p.link.notify (.micClosed x e.kind c e.grantNo e.channel e.lane e.remaining)
        | none => p.link }
    let live := (p.chain (chainOf x)).laneLive e.lane
    let handed := ((removed.chainClose x e.lane).mixerClose x e.channel e.lane live).directorClose x
    let d := p.director
    q = (if cause = some .sessionEnd then handed else handed.reexamine x).derive x ∧
    q.floor = removed.floor ∧
    q.mixer.channels = p.mixer.channels.set e.channel none ∧
    (p.mixer.channels.getD e.channel none ≠ none → q.mixer.holder ≠ some e.channel) ∧
    (p.mixer.channels.getD e.channel none = none → q.mixer = p.mixer) ∧
    (∀ c : Chain,
      (q.chain c).lanes =
        if c = chainOf x then (p.chain c).lanes.modify e.lane fun l => { l with assigned := none } else (p.chain c).lanes) ∧
    (d.active = some x →
      q.director = { d with active := none, aimed := none, follow := .wide, candidate := none, hold := 0, idle := 0 }) ∧
    (d.active ≠ some x → d.candidate = some x → q.director = { d with candidate := none, hold := 0 }) ∧
    (d.active ≠ some x → d.candidate ≠ some x → q.director = d) ∧
    (∀ c, cause = some c → p.link.mask.getLsbD 7 = true → p.link.notices.length < 32 →
      ∃ more, q.link.notices =
        p.link.notices ++ ⟨.micClosed x e.kind c e.grantNo e.channel e.lane e.remaining, p.link.inRequest⟩ :: more) ∧
    (∃ more : List Notice,
      (∀ n ∈ more, (∃ new previous cause shot sent follow, n = .activeSpeaker new previous cause shot sent follow) ∨
        ∃ slot action y input number source cause, n = .shareChanged slot action y input number source cause) ∧
      q.link = more.foldl (fun l n => l.notify n) removed.link) ∧
    q.sched = p.sched ∧ q.zones = p.zones ∧ q.presses = p.presses

/-- The steps that a timer makes due: the end of a denial (R6), the expiry of a speech time (R91), the silence of a VOICE-held
entry (R57) and the end of a signal grace (R152). A step within a second tick is followed by the rest of the tick (log 2). A block
completion counts one millisecond at every denial timer, at a training attempt (R162) and at the time since each seat's last poll
began, up to 100 (R171), and makes the denials and attempts due whose time has come. -/
def Obligations.TimerStepsTaken : Prop :=
  (∀ (p : Part) (x : Seat), p.seats.length = 64 →
    ((p.deny x).seat x).denial = true ∧ ((p.deny x).seat x).denialMs = 1000 ∧
    ∀ y, y ≠ x → (p.deny x).seat y = p.seat y) ∧
  (∀ r : SeatRec, r.countDenial = if r.denial then { r with denialMs := r.denialMs - 1 } else r) ∧
  (∀ (s : State) (x : Seat) (rest : List Owed), s.part.power = .running → s.part.tickJobs = [] →
    s.part.owed = .denial x :: rest → (s.part.seat x).denial = true → (s.part.seat x).denialMs = 0 →
    exec (.denialTimerExpiry x) s =
      s.to ((({ s.part with owed := rest }).modSeat x fun r => { r with denial := false }).derive x)) ∧
  (∀ (s : State) (x : Seat) (e : Speaker) (rest : List TickJob), s.part.power = .running → s.part.tickJobs = .expiry x :: rest →
    (s.part.floor.speakers.find? fun e => e.seat = x) = some e → e.remaining = some 0 →
    let p := { s.part with tickJobs := rest }
    exec (.speechExpiry x) s =
      s.to ((if p.floor.preset.expiry = .close then p.closeMic x (some .timer) else p).runJobs true)) ∧
  (∀ (s : State) (x : Seat) (e : Speaker) (rest : List TickJob), s.part.power = .running → s.part.tickJobs = .silence x :: rest →
    (s.part.floor.speakers.find? fun e => e.seat = x) = some e → e.kind = .delegate →
    e.source = .voice ∨ (e.source = .auto ∧ s.part.floor.preset.mode = .voice) → (s.part.seat x).voice = false →
    s.part.floor.preset.voiceHold ≤ e.silence →
    exec (.voiceSilenceClose x) s =
      s.to ((({ s.part with tickJobs := rest }).closeMic x (some .voiceSilence)).runJobs true)) ∧
  (∀ (s : State) (n : Slot) (rest : List TickJob), s.part.power = .running → s.part.tickJobs = .graceEnd n :: rest →
    s.part.screens.grace n = some 0 →
    exec (.signalGraceExpiry n) s = s.to ((({ s.part with tickJobs := rest }).endShare n .signalLost).runJobs true)) ∧
  (∀ (s : State) (audio : List LaneAudio) (changedAt : List Nat), s.part.Quiet →
    ∃ t, exec (.blockCompletion audio changedAt) s = .next t ∧
      (∀ x : Seat,
        t.part.seat x =
          { s.part.seat x with
            denialMs := if (s.part.seat x).denial = true then (s.part.seat x).denialMs - 1 else (s.part.seat x).denialMs } ∧
        (.denial x ∈ t.part.owed ↔ (t.part.seat x).denial = true ∧ (t.part.seat x).denialMs = 0)) ∧
      ∀ c : Chain,
        let k := s.part.chain c
        t.part.chain c =
          { k with
            training := if k.state = .training then { k.training with ms := k.training.ms + 1 } else k.training
            seats := k.seats.map fun x => { x with sincePoll := if x.sincePoll < 100 then x.sincePoll + 1 else x.sincePoll } } ∧
        (.training c ∈ t.part.owed ↔ (t.part.chain c).state = .training ∧ 50 ≤ (t.part.chain c).training.ms)) ∧
  ∀ p : Part, p.tickJobs = [] → p.runJobs true = p

/-- One second at a speaker list entry (R89, R90, R96): the remaining time falls by one but not below 0, the flag is set and
SPEECH_WARNING queued at the warn lead, and the seat is credited a second. After the entries, taken oldest first, the present flag
of every PRESENT seat with standing DELEGATE or CHAIR is set (R97); the attendance list names, in seat order, the seats that spoke
or were present (R99). A SECOND_TICK moves the clock and runs this work job by job, up to the first step that has a command of its
own (log 2): an entry that stands at 0 is due its expiry test (R91); a VOICE-held entry whose seat's voice flag is clear counts
one second of silence, up to 30 (log 23), and is due its close at the voice hold (R57; a set flag keeps the count as it is and the
microphone open, log 44); the floor's event ends with the auto-advance pass and QUEUE_CHANGED (R45, R55); a running grace timer
counts down and is due its end at 0 (R152); the standby timer counts down while the room is AWAKE, no session is OPEN and the
delay is above 0, and is due its expiry at 0 (R39). -/
def Obligations.SpeechSecondCounted : Prop :=
  (∀ (p : Part) (x : Seat) (e : Speaker), (p.floor.speakers.find? fun e => e.seat = x) = some e →
    let time := e.remaining.map fun t => t - 1
    let lead := p.floor.preset.warnLead
    let due := e.warned = false ∧ ∃ t, time = some t ∧ 0 < lead ∧ t ≤ lead
    ((p.tickEntry x).floor.speakers.find? fun e => e.seat = x) =
      some { e with remaining := time, warned := if due then true else e.warned } ∧
    ((p.tickEntry x).floor.speakers.filter fun e => e.seat ≠ x) = (p.floor.speakers.filter fun e => e.seat ≠ x) ∧
    (p.tickEntry x).floor.queue = p.floor.queue ∧ (p.tickEntry x).floor.stack = p.floor.stack ∧
    (due → p.link.mask.getLsbD 12 = true → p.link.notices.length < 32 →
      (p.tickEntry x).link.notices =
        p.link.notices ++ [⟨.speechWarning x e.grantNo (time.getD 0) lead, p.link.inRequest⟩]) ∧
    (¬due → (p.tickEntry x).link = p.link) ∧
    (∀ d, p.sched.session = some d →
      (p.tickEntry x).sched.session =
        some { d with
          attendance := d.attendance.modify x.val fun a => { a with seconds := countUpTo 65535 a.seconds } }) ∧
    (p.tickEntry x).mixer = p.mixer) ∧
  (∀ p : Part,
    let seats := p.floor.speakers.map Speaker.seat
    (p.isOpen = true →
      p.tickPlan = seats.map .entry ++ [.present] ++ seats.map .voice ++
        [.floorEnd p.floor.queue, .grace .one, .grace .two, .standby]) ∧
    (p.isOpen = false → p.tickPlan = [.grace .one, .grace .two, .standby]) ∧
    (p.sched.session = none → p.runJob .present = p) ∧
    ∀ d, p.sched.session = some d → d.attendance.length = 64 → p.seats.length = 64 →
      ∃ record : List Attendance,
        p.runJob .present = { p with sched := { p.sched with session := some { d with attendance := record } } } ∧
        ∀ x : Seat,
          let here := (p.seat x).link = .present ∧ ((p.seat x).standing = .delegate ∨ (p.seat x).standing = .chair)
          record[x.val]? = (d.attendance[x.val]?).map fun a => { a with present := if here then true else a.present }) ∧
  (∀ (s : State) (moved : Bool) (rest : List Owed), s.part.power = .running → s.part.tickJobs = [] →
    s.part.owed = .tick moved :: rest →
    let d := s.part.sched
    let shown : Part := { s.part with
      owed := rest
      sched := if moved then d else { d with clock := d.clock.next, valid := d.valid && d.clock ≠ ⟨65535, 1439, 59⟩ } }
    exec .secondTick s = s.to (({ shown with tickJobs := shown.tickPlan }).runJobs true)) ∧
  (∀ (p : Part) (j : TickJob) (rest : List TickJob), p.tickJobs = j :: rest →
    let step := (∃ x, j = .expiry x ∨ j = .silence x) ∨ (∃ n, j = .graceEnd n) ∨ j = .standbyEnd
    (step → p.runJobs true = p) ∧ (¬step → p.runJobs true = (({ p with tickJobs := rest }).runJob j).runJobs true)) ∧
  (∀ (p : Part) (x : Seat),
    let entry := p.floor.speakers.find? fun e => e.seat = x
    let counted := p.tickEntry x
    (entry = none → p.runJob (.entry x) = p ∧ p.runJob (.voice x) = p) ∧
    (∀ e, entry = some e →
      p.runJob (.entry x) =
        if e.remaining = some 0 ∨ e.remaining = some 1 then { counted with tickJobs := .expiry x :: p.tickJobs } else counted) ∧
    ∀ e, entry = some e →
      let counts := e.kind = .delegate ∧ (e.source = .voice ∨ (e.source = .auto ∧ p.floor.preset.mode = .voice)) ∧
        (p.seat x).voice = false
      let second (n : Nat) := if n < 30 then n + 1 else n
      let silent : Part := { p with
        floor := { p.floor with
          speakers := p.floor.speakers.map fun e => if e.seat = x then { e with silence := second e.silence } else e } }
      (¬counts → p.runJob (.voice x) = p) ∧
      (counts →
        p.runJob (.voice x) =
          if p.floor.preset.voiceHold ≤ second e.silence then { silent with tickJobs := .silence x :: p.tickJobs } else silent)) ∧
  (∀ (p : Part) (before : List QueueEntry),
    let q := p.autoAdvance
    p.runJob (.floorEnd before) =
      if q.floor.queue ≠ before ∨ q.floor.headPlaced = true then
        { q with
          floor := { q.floor with headPlaced := false }
          link := q.link.notify (.queueChanged (q.floor.queue.map QueueEntry.seat)) }
      else q) ∧
  (∀ (p : Part) (n : Slot),
    let v := p.screens
    (v.grace n = none → p.runJob (.grace n) = p) ∧
    ∀ t, v.grace n = some t →
      let counted : Part := { p with
        screens := match n with
          | .one => { v with grace1 := some (t - 1) }
          | .two => { v with grace2 := some (t - 1) } }
      p.runJob (.grace n) = if t ≤ 1 then { counted with tickJobs := .graceEnd n :: p.tickJobs } else counted) ∧
  (∀ p : Part,
    let d := p.sched
    let counts := d.standby = .awake ∧ d.session = none ∧ 0 < d.delay
    let counted : Part := { p with sched := { d with timer := d.timer.map fun t => t - 1 } }
    (¬counts → p.runJob .standby = p) ∧
    (counts →
      p.runJob .standby =
        if d.timer = some 0 ∨ d.timer = some 1 then { counted with tickJobs := .standbyEnd :: p.tickJobs } else counted)) ∧
  ∀ record : List Attendance,
    attendanceList record =
      (List.finRange 64).filterMap fun x =>
        match record[x.val]? with
        | some a => if 0 < a.seconds ∨ a.present = true then some (x, a.seconds) else none
        | none => none

/-! ## The mixer (chapter 6) -/

/-- The outputs of a completed block (R113 to R116): ROOM and RECORD are the channel sum scaled and saturated, or 0 while forced,
and the clip counter counts a block with a saturated ROOM sample. An OPEN channel's samples are those that its entry's lane
received, from the opening on (R104), while the chain is ACTIVE and the lane's transmitting set is exactly its assigned seat, and
0 otherwise (R170). The channel sum adds, sample by sample, every OPEN channel's sample times its gain over 32768, rounded down,
and that of every channel closed within the block up to its close (R103, R113); a close keeps the record for it. That the
positions of openings and closes are operands is the model's choice (log 5), and so is that a lane's sets are read once per block,
or at the close (log 25). -/
def Obligations.BlockOutputsFormed : Prop :=
  (∀ (gain : Nat) (xs : List Int), gained gain xs = xs.map fun x : Int => (x * (gain : Int)) / 32768) ∧
  (∀ (p : Part) (audio : List LaneAudio) (changedAt : List Nat),
    let received (c : Chain) (lane k : Nat) : Int := match audio.find? fun a => a.chain = c && a.lane = lane with
      | some a => (a.samples.getD k 0).toInt
      | none => 0
    let input (ch : Nat) (r : Channel) (k : Nat) : Int := match p.floor.speakers.find? fun e => e.channel = ch with
      | some e =>
        let c := chainOf r.seat
        let delivers := (p.chain c).state = .active ∧ ∃ x, (p.chain c).lanes[e.lane]? = some ⟨some x, [x]⟩
        let opened : Nat := match r.openedAt with
          | some i => changedAt.getD i 16
          | none => 0
        if delivers ∧ opened ≤ k then received c e.lane k else 0
      | none => 0
    (∀ (ch : Nat) (r : Channel), p.channelInput audio changedAt ch r = (List.range 16).map (input ch r)) ∧
    p.channelSum audio changedAt =
      (List.range 16).map fun k =>
        (p.mixer.channels.zipIdx.map fun x => match x.1 with
          | some r => input x.2 r k * r.gain / 32768
          | none => 0).sum +
        (p.mixer.closed.map fun r =>
          if r.live = true ∧ k < changedAt.getD r.closedAt 16 then received r.chain r.lane k * r.gain / 32768 else 0).sum) ∧
  (∀ (p : Part) (x : Seat) (cause : CloseCause) (e : Speaker) (r : Channel),
    (p.floor.speakers.find? fun e => e.seat = x) = some e → p.mixer.channels.getD e.channel none = some r →
    let k := p.chain (chainOf x)
    let live := decide (k.state = .active) && (k.lanes[e.lane]?).any fun l => l.assigned.any fun y => l.transmitting = [y]
    (p.closeMic x (some cause)).mixer.closed =
      if r.openedAt = none then p.mixer.closed ++ [⟨chainOf r.seat, e.lane, live, r.gain, p.mixer.changes⟩]
      else p.mixer.closed) ∧
  ∀ (s : State) (audio : List LaneAudio) (changedAt : List Nat), s.part.Quiet →
    let m := s.part.mixer
    let sum := s.part.channelSum audio changedAt
    let level (n : Nat) (x : Int) : Int := (x * n) / 128
    let output (n : Nat) : List Sample := sum.map fun x => BitVec.ofInt 16 (max (-32768) (min 32767 (level n x)))
    let silent : Bool := m.block.mute || m.block.outputForced
    ∃ t, exec (.blockCompletion audio changedAt) s = .next t ∧
      t.part.mixer.roomOut = (if silent then List.replicate 16 0 else output m.block.master) ∧
      t.part.mixer.recordOut =
        (if m.block.recordForced || m.block.outputForced then List.replicate 16 0 else output m.block.record) ∧
      t.part.mixer.clip =
        (if silent = false ∧ ∃ x ∈ sum, level m.block.master x < -32768 ∨ 32767 < level m.block.master x then
          countUpTo 65535 m.clip else m.clip) ∧
      t.part.mixer.block = ⟨m.params.master, m.params.record, m.mute, m.recordForced, m.outputForced⟩ ∧
      t.part.mixer.params = m.params ∧ t.part.mixer.mute = m.mute ∧
      t.part.floor = s.part.floor ∧ t.part.screens = s.part.screens ∧ t.part.zones = s.part.zones ∧
      t.part.sched = { s.part.sched with completions := (s.part.sched.completions + 1) % 1000 }

/-- The gain computation of a block completion (R105 to R111): each OPEN channel's envelope tracks its block mean, its trim and bias
are read, and its gains follow the gate, the weights and the last-mic holder. The new last-mic holder is the channel with the
greatest envelope at or above the gate, the lowest-numbered of equals; with none, it stays while a channel is OPEN (R109). -/
def Obligations.GainsComputed : Prop :=
  ∀ (s : State) (audio : List LaneAudio) (changedAt : List Nat), s.part.Quiet →
    ∃ t, exec (.blockCompletion audio changedAt) s = .next t ∧
      let m := s.part.mixer
      let opened := t.part.mixer.channels.filterMap id
      let weight (c : Channel) : Nat := (if c.envelope = 0 then 1 else c.envelope) * c.bias
      t.part.mixer.channels.map (Option.map Channel.seat) = m.channels.map (Option.map Channel.seat) ∧
      (∀ (ch : Nat) (c d : Channel), m.channels[ch]? = some (some c) → t.part.mixer.channels[ch]? = some (some d) →
        let mean := min 32767 (((s.part.channelInput audio changedAt ch c).map Int.natAbs).sum / 16)
        d.envelope =
          (if c.envelope < mean then c.envelope + (mean - c.envelope) / 2 ^ m.params.attack
          else c.envelope - (c.envelope - mean) / 2 ^ m.params.release) ∧
        d.trim = (s.part.seat c.seat).trim ∧
        d.gain = d.share * d.trim / 16 ∧
        (∀ e, (s.part.floor.speakers.find? fun e => e.channel = ch) = some e →
          d.bias = if e.kind = .chair then s.part.floor.preset.chairBias else 1) ∧
        d.share =
          if ∃ x ∈ opened, m.params.gate ≤ x.envelope then 32768 * weight d / (opened.map weight).sum
          else
            match m.holder with
            | some h => if h = ch then 32768 else 0
            | none => 32768 / opened.length) ∧
      (∀ (ch : Nat) (d : Channel), t.part.mixer.channels[ch]? = some (some d) → m.params.gate ≤ d.envelope →
        (∀ (k : Nat) (e : Channel), t.part.mixer.channels[k]? = some (some e) →
          e.envelope < d.envelope ∨ (e.envelope = d.envelope ∧ ch ≤ k)) →
        t.part.mixer.holder = some ch) ∧
      ((∀ e ∈ opened, e.envelope < m.params.gate) → t.part.mixer.holder = if opened = [] then none else m.holder)

/-- SET_MIX (R123) and MUTE_ROOM (R117). The number of a choice, on 0 and off 1, is the model's (log 6). A recount gives each seat
of a chain its duck count and its loudspeaker state, and queues SPEAKER_STATE for a PRESENT seat whose state is new; an opening
and a close leave both as they stand by the channels (R121, R122). -/
def Obligations.MixRequests : Prop :=
  (∀ (s : State) (tag : Byte), s.part.Ready →
    (∀ m : MixPreset, m.Fits →
      (s.part.isOpen = false → exec (.setMix tag (mixBytes m)) s = s.refuses 0xB0 tag 0x08) ∧
      (s.part.isOpen = true →
        exec (.setMix tag (mixBytes m)) s =
          s.acceptsWaking 0xB0 tag []
            ((({ s.part.taken with mixer := { s.part.mixer with params := m } }).recountChain .A).recountChain .B))) ∧
    (∀ m : MixPreset, m.gate < 65536 → m.attack < 256 → m.release < 256 → m.master < 256 → m.record < 256 →
      m.duck < 256 → ¬m.Fits → exec (.setMix tag (mixBytes m)) s = s.refuses 0xB0 tag 0x03) ∧
    (∀ n, n < 2 →
      exec (.muteRoom tag (u8 n)) s =
        s.acceptsWaking 0xB2 tag [] { s.part.taken with mixer := { s.part.mixer with mute := n = 0 } }) ∧
    ∀ n, 1 < n → n < 256 → exec (.muteRoom tag (u8 n)) s = s.refuses 0xB2 tag 0x03) ∧
  ∀ p : Part, p.mixer.ducks.length = 64 → p.mixer.loud.length = 64 →
    let far (x y : Seat) : Nat := (x.val % 32 - y.val % 32) + (y.val % 32 - x.val % 32)
    let duck (m : Mixer) (x : Seat) : Nat :=
      (m.channels.filter fun r => r.any fun k =>
        chainOf k.seat = chainOf x && k.seat ≠ x && far k.seat x ≤ m.params.duck).length
    let state (m : Mixer) (x : Seat) : Loud :=
      if m.channels.any fun r => r.any fun k => k.seat = x then .muted
      else if 0 < duck m x then .ducked
      else .normal
    (∀ c : Chain,
      let q := p.recountChain c
      q = { p with
        mixer := { p.mixer with ducks := q.mixer.ducks, loud := q.mixer.loud }, chainA := q.chainA, chainB := q.chainB } ∧
      (∀ x : Seat,
        q.mixer.ducks.getD x.val 0 = (if chainOf x = c then duck p.mixer x else p.mixer.ducks.getD x.val 0) ∧
        q.mixer.loud.getD x.val .normal = if chainOf x = c then state p.mixer x else p.mixer.loud.getD x.val .normal) ∧
      q.chain c =
        (chainSeats c).foldl (init := p.chain c) (fun k x =>
          if state p.mixer x ≠ p.mixer.loud.getD x.val .normal ∧ (p.seat x).link = .present then
            k.queueItem x (.speakerState (state p.mixer x))
          else k) ∧
      ∀ other, other ≠ c → q.chain other = p.chain other) ∧
    ∀ (x y : Seat) (ch : Nat), chainOf y = chainOf x →
      (∀ kind,
        let q := p.mixerOpen x ch kind
        q.mixer.ducks.getD y.val 0 = duck q.mixer y ∧ q.mixer.loud.getD y.val .normal = state q.mixer y) ∧
      ∀ lane live, p.mixer.channels.getD ch none ≠ none →
        let q := p.mixerClose x ch lane live
        q.mixer.ducks.getD y.val 0 = duck q.mixer y ∧ q.mixer.loud.getD y.val .normal = state q.mixer y

/-! ## The camera director (chapter 7) -/

/-- SET_CAMERA (R138), and the camera and preset of a seat (R131). The number of a choice, yes 0 and no 1, is the model's
(log 6). -/
def Obligations.CameraSettingsReplaced : Prop :=
  (∀ (s : State) (tag : Byte) (stripe settle hold idle forget : Nat), s.part.Ready → stripe < 256 → settle < 65536 →
    hold < 65536 → idle < 256 → forget < 256 →
    exec (.setCamera tag (u8 stripe ++ u16 settle ++ u16 hold ++ u8 idle ++ u8 forget)) s =
      if stripe ≤ 2 ∧ settle ≤ 3000 ∧ 250 ≤ hold ∧ hold ≤ 5000 ∧ 1 ≤ idle ∧ idle ≤ 60 ∧ forget ≤ 1 then
        s.acceptsWaking 0xB4 tag []
          { s.part.taken with
            director := { s.part.director with
              stripe := if stripe = 0 then .block else if stripe = 1 then .pairs else .interleave
              settleTime := settle
              switchHold := hold
              idleTime := idle
              current := if forget = 0 then s.part.director.current.map fun _ => none else s.part.director.current } }
      else s.refuses 0xB4 tag 0x03) ∧
  ∀ (p : Part) (x : Seat),
    (∀ shot, (p.seat x).shot = some shot → p.shotFor x = shot) ∧
    ((p.seat x).shot = none →
      (p.shotFor x).preset = x.val + 1 ∧
      (p.shotFor x).camera.val =
        match p.director.stripe with
        | .block => x.val / 16
        | .pairs => x.val % 2 + 2 * (x.val / 32)
        | .interleave => x.val % 4)

/-- The camera director's steps: the end of a settle (R133), a switch (R132) and the idle time (R129, R134). A switch hands the
new active speaker to the screen router, clears the idle count, aims at the seat's camera and preset by the four lines of R132,
and clears the candidate and its count; the active speaker that becomes NONE drops the pending recall and follows CAM_W (R134). A
new active speaker or follow source is handed to the screen router, which recomputes its screens; a value that stands is not
handed on (R135). Every change of active speaker queues ACTIVE_SPEAKER with its cause: SWITCH with the camera and preset, whether
a recall was sent and the follow source after the change; IDLE, MIC_CLOSED (R130) and SESSION_END (R136) with none of them and the
wide source (R135). -/
def Obligations.DirectorStepsTaken : Prop :=
  (∀ (s : State) (r : Recall) (rest : List Owed), s.part.power = .running → s.part.tickJobs = [] →
    s.part.owed = .settle :: rest → s.part.director.aimed = some r → r.settle = 0 →
    s.part.director.active = some r.seat →
    let cleared := { s.part with owed := rest, director := { s.part.director with aimed := none } }
    exec .settleEnd s =
      s.to
        (if s.part.shotFor r.seat = r.shot then cleared.setFollow (.cam r.shot.camera)
        else cleared.aim r.seat (s.part.shotFor r.seat))) ∧
  (∀ (s : State) (x : Seat) (rest : List Owed), s.part.power = .running → s.part.tickJobs = [] →
    s.part.owed = .switch :: rest → s.part.director.candidate = some x →
    s.part.director.switchHold ≤ s.part.director.hold →
    let p := { s.part with owed := rest }
    let d := p.director
    let shot := p.shotFor x
    let stands := d.current.getD shot.camera.val none = some shot.preset ∧ ∀ r, d.aimed = some r → r.shot.camera ≠ shot.camera
    let recalled := (∀ r, d.aimed = some r → r.shot ≠ shot) ∧ ¬stands
    let active := p.setActive (some x)
    let aimed := Part.aim x shot { active with director := { active.director with idle := 0 } }
    exec .activeSpeakerSwitch s =
      s.to { aimed with
        director := { aimed.director with candidate := none, hold := 0 }
        link := p.link.notify
          (.activeSpeaker (some x) d.active .switch (some shot) (decide recalled) aimed.director.follow) } ∧
    aimed.director.active = some x ∧ aimed.director.idle = 0 ∧ aimed.floor = p.floor ∧ aimed.mixer = p.mixer ∧
    aimed.sched = p.sched ∧ aimed.owed = rest) ∧
  (∀ p : Part,
    let ended :=
      let unset := p.setActive none
      Part.setFollow .wide { unset with director := { unset.director with aimed := none } }
    let told (cause : ActiveCause) := p.link.notify (.activeSpeaker none p.director.active cause none false .wide)
    (∀ (s : State) (rest : List Owed), s.part.power = .running → s.part.tickJobs = [] → s.part.owed = .idle :: rest →
      p = { s.part with owed := rest } → p.director.active.isSome = true → p.director.idleTime * 1000 ≤ p.director.idle →
      exec .activeSpeakerIdle s = s.to { ended with director := { ended.director with idle := 0 }, link := told .idle }) ∧
    (∀ x : Seat,
      (p.director.active = some x →
        p.directorClose x = { ended with
          director := { ended.director with candidate := none, hold := 0, idle := 0 }, link := told .micClosed }) ∧
      (p.director.active ≠ some x → p.director.candidate = some x →
        p.directorClose x = { p with director := { p.director with candidate := none, hold := 0 } }) ∧
      (p.director.active ≠ some x → p.director.candidate ≠ some x → p.directorClose x = p)) ∧
    p.directorSessionClose = { ended with
      director := { ended.director with candidate := none, hold := 0, idle := 0 }
      link := if p.director.active.isSome = true then told .sessionEnd else p.link } ∧
    ended.director.active = none ∧ ended.director.aimed = none ∧ ended.director.follow = .wide ∧
    ended.director.current = p.director.current ∧ ended.floor = p.floor ∧ ended.mixer = p.mixer ∧ ended.sched = p.sched) ∧
  (∀ (p : Part) (a : Option Seat) (f : Follow),
    p.setActive a =
      (if p.director.active = a then p
      else
        Part.recomputeScreens { p with
          director := { p.director with active := a }, screens := { p.screens with active := a } }) ∧
    p.setFollow f =
      if p.director.follow = f then p
      else
        Part.recomputeScreens { p with
          director := { p.director with follow := f }, screens := { p.screens with follow := f } }) ∧
  ∀ (p : Part) (x : Seat) (shot : Shot),
    let d := p.director
    let stands := d.current.getD shot.camera.val none = some shot.preset ∧ ∀ r, d.aimed = some r → r.shot.camera ≠ shot.camera
    let sent (q : Part) := ({ q with
      screens := { q.screens with queue := placeRecord (.cameraRecall shot.camera shot.preset) q.screens.queue }
      director := { q.director with current := q.director.current.set shot.camera.val (some shot.preset) } } : Part)
    let dropped := { p with director := { d with aimed := none } }
    (∀ r, d.aimed = some r → r.shot = shot →
      p.aim x shot = { p with director := { d with aimed := some { r with seat := x } } }) ∧
    ((∀ r, d.aimed = some r → r.shot ≠ shot) →
      (stands → p.aim x shot = dropped.setFollow (.cam shot.camera)) ∧
      (¬stands → d.settleTime = 0 → p.aim x shot = (sent dropped).setFollow (.cam shot.camera)) ∧
      (¬stands → d.settleTime ≠ 0 →
        p.aim x shot =
          let cut := if d.follow = .cam shot.camera then dropped.setFollow .wide else dropped
          { sent cut with director := { (sent cut).director with aimed := some ⟨shot, x, d.settleTime⟩ } }))

/-- The director's counts at a block completion (R126 to R129): the seat chosen is that of the OPEN channel with the greatest
envelope at or above the gate, the lowest-numbered of equals (R127); the settle, the candidate and hold count, and the idle count
follow it, and make a settle's end, a switch or the idle time due. -/
def Obligations.DirectorCounts : Prop :=
  (∀ (d : Director) (chosen : Option Seat),
    let e := d.count chosen
    e.aimed = (d.aimed.map fun r => { r with settle := r.settle - 1 }) ∧
    (chosen = none ∨ chosen = d.active → e.candidate = none ∧ e.hold = 0) ∧
    (∀ x, chosen = some x → d.active ≠ some x → d.candidate = some x → e.candidate = some x ∧ e.hold = d.hold + 1) ∧
    (∀ x, chosen = some x → d.active ≠ some x → d.candidate ≠ some x → e.candidate = some x ∧ e.hold = 1) ∧
    (e.idle = if d.active.isSome ∧ chosen = none then d.idle + 1 else 0) ∧
    e.active = d.active ∧ e.follow = d.follow ∧ e.current = d.current) ∧
  ∀ (s : State) (audio : List LaneAudio) (changedAt : List Nat), s.part.Quiet →
    ∃ (t : State) (chosen : Option Seat), exec (.blockCompletion audio changedAt) s = .next t ∧
      let gate := s.part.mixer.params.gate
      let e := t.part.director
      (∀ (ch : Nat) (d : Channel), t.part.mixer.channels[ch]? = some (some d) → gate ≤ d.envelope →
        (∀ (k : Nat) (c : Channel), t.part.mixer.channels[k]? = some (some c) →
          c.envelope < d.envelope ∨ (c.envelope = d.envelope ∧ ch ≤ k)) →
        chosen = some d.seat) ∧
      ((∀ c ∈ t.part.mixer.channels.filterMap id, c.envelope < gate) → chosen = none) ∧
      e = s.part.director.count chosen ∧
      (.settle ∈ t.part.owed ↔ ∃ r, e.aimed = some r ∧ r.settle = 0) ∧
      (.switch ∈ t.part.owed ↔ chosen ≠ none ∧ e.candidate ≠ none ∧ e.switchHold ≤ e.hold) ∧
      (.idle ∈ t.part.owed ↔ chosen = none ∧ e.active ≠ none ∧ e.idleTime * 1000 ≤ e.idle)

/-! ## Screens and sharing (chapter 8) -/

/-- The source of a screen: the first line of R143 that holds, FOLLOW_SHARE and AUTO as in R141. -/
def Obligations.ScreenSourceDecided : Prop :=
  ∀ (p : Part) (i : Fin 8) (screen : Screen), p.screens.screens[i.val]? = some screen →
    let v := p.screens
    let shown : Slot → Option Share
      | .one => v.slot1
      | .two => v.slot2
    let followShare (preferred other : Slot) (fallback : ScreenSource) : ScreenSource :=
      if (shown preferred).isSome then .share preferred else if (shown other).isSome then .share other else fallback
    let followed : ScreenSource := match v.follow with
      | .wide => .wide
      | .cam c => .cam c
    let mode := screen.override.getD ((v.plans.getD v.plan.val []).getD i.val .auto)
    p.decideSource i =
      if p.sched.standby = .standby then .blank
      else if v.confidential = true ∧ screen.cls = .external then .blank
      else
        match mode with
        | .fixed source => source
        | .followSpeaker none => followed
        | .followSpeaker (some z) => if ∃ x, v.active = some x ∧ p.inZone z x = true then followed else .wide
        | .followShare .one fallback => followShare .one .two fallback
        | .followShare .two fallback => followShare .two .one fallback
        | .auto => followShare .one .two followed

/-- SET_SCREEN_PLAN (R155) and SET_SCREEN (R156), with BAD_ARG for every value out of range; the recomputation that follows, which
places a ROUTE record for a screen whose source is new and for no other (R144); and the re-examination of a share, the first line of
R151 that holds. The number of a choice, yes 0 and no 1, is the model's (log 6), and so are BAD_ARG for a share-requires-floor byte
that is neither on nor off (log 35), slot 1 before slot 2 (log 40), what a HELD seat's lines read (log 41), and the recomputation
before the re-examination when one SETUP asks for both (log 45). -/
def Obligations.ScreenSettingsReplaced : Prop :=
  (∀ (s : State) (tag : Byte), s.part.Ready →
    let v := s.part.screens
    let undefined (bytes : List Byte) : Prop :=
      (∃ k, 9 < k ∧ k < 256 ∧ bytes = u8 0 ++ u8 k) ∨ (∃ z, 7 < z ∧ z < 256 ∧ bytes = u8 1 ++ u8 1 ++ u8 z) ∨
      ∃ n k, n < 256 ∧ k < 256 ∧ (n = 0 ∨ 2 < n ∨ 7 < k) ∧ bytes = u8 2 ++ u8 n ++ u8 k
    (∀ (n : Fin 4) (modes : List ScreenMode), modes.length = 8 → (∀ m ∈ modes, m.Fits) →
      let stored := { s.part.taken with screens := { v with plans := v.plans.set n.val modes } }
      exec (.setScreenPlan tag (u8 0 ++ u8 n.val ++ modes.flatMap modeBytes)) s =
        s.acceptsWaking 0xB5 tag [] (if v.plan = n then stored.recomputeScreens else stored)) ∧
    (∀ (n : Nat) (modes : List ScreenMode), 3 < n → n < 256 → modes.length = 8 →
      exec (.setScreenPlan tag (u8 0 ++ u8 n ++ modes.flatMap modeBytes)) s = s.refuses 0xB5 tag 0x03) ∧
    (∀ (n : Nat) (before after : List ScreenMode) (bytes : List Byte), n < 256 → undefined bytes → before.length + after.length = 7 →
      exec (.setScreenPlan tag (u8 0 ++ u8 n ++ before.flatMap modeBytes ++ bytes ++ after.flatMap modeBytes)) s =
        s.refuses 0xB5 tag 0x03) ∧
    (∀ (n mode : Nat) (before : List ScreenMode) (rest : List Byte), n < 256 → before.length < 8 → 3 < mode → mode < 256 →
      exec (.setScreenPlan tag (u8 0 ++ u8 n ++ before.flatMap modeBytes ++ u8 mode ++ rest)) s = s.refuses 0xB5 tag 0x03) ∧
    (∀ (classes : List ScreenClass) (policy : SharePolicy) (requiresFloor : Bool) (graceTime : Nat), classes.length = 8 →
      graceTime ≤ 10 →
      let stored := { s.part.taken with
        screens := { v with
          screens := List.zipWith (fun screen cls => { screen with cls := cls }) v.screens classes
          policy := policy
          requiresFloor := requiresFloor
          graceTime := graceTime } }
      let shown := if v.screens.map Screen.cls = classes then stored else stored.recomputeScreens
      exec (.setScreenPlan tag
          (u8 1 ++ classes.flatMap (fun k => u8 k.ctorIdx) ++ u8 policy.ctorIdx ++ flagBytes requiresFloor ++ u8 graceTime)) s =
        s.acceptsWaking 0xB5 tag []
          (if requiresFloor = true ∧ v.requiresFloor = false then shown.reexamineAll else shown)) ∧
    (∀ (classes : List Nat) (policy requiresFloor graceTime : Nat), classes.length = 8 → (∀ k ∈ classes, k < 256) →
      policy < 256 → requiresFloor < 256 → graceTime < 256 →
      (∃ k ∈ classes, 1 < k) ∨ 1 < policy ∨ 1 < requiresFloor ∨ 10 < graceTime →
      exec (.setScreenPlan tag (u8 1 ++ classes.flatMap u8 ++ u8 policy ++ u8 requiresFloor ++ u8 graceTime)) s =
        s.refuses 0xB5 tag 0x03) ∧
    (∀ n payload, 1 < n → n < 256 → exec (.setScreenPlan tag (u8 n ++ payload)) s = s.refuses 0xB5 tag 0x03) ∧
    (∀ (i : Fin 8) (mode : Option ScreenMode), (∀ m ∈ mode, m.Fits) →
      let overridden := ∃ screen, v.screens[i.val]? = some screen ∧ screen.override ≠ none
      (mode ≠ none ∨ overridden →
        exec (.setScreen tag (u8 i.val ++ optBytes modeBytes mode)) s =
          s.acceptsWaking 0xB6 tag []
            ({ s.part.taken with
              screens := { v with
                screens := v.screens.modify i.val fun screen => { screen with override := mode } } }).recomputeScreens) ∧
      (mode = none → ¬overridden →
        exec (.setScreen tag (u8 i.val ++ optBytes modeBytes mode)) s = s.acceptsWaking 0xB6 tag [] s.part.taken)) ∧
    (∀ n mode, 7 < n → n < 256 → exec (.setScreen tag (u8 n ++ optBytes modeBytes mode)) s = s.refuses 0xB6 tag 0x03) ∧
    (∀ n bytes, n < 256 → undefined bytes → exec (.setScreen tag (u8 n ++ u8 1 ++ bytes)) s = s.refuses 0xB6 tag 0x03) ∧
    (∀ n mode rest, n < 256 → 3 < mode → mode < 256 →
      exec (.setScreen tag (u8 n ++ u8 1 ++ u8 mode ++ rest)) s = s.refuses 0xB6 tag 0x03) ∧
    ∀ n presence rest, n < 256 → 1 < presence → presence < 256 →
      exec (.setScreen tag (u8 n ++ u8 presence ++ rest)) s = s.refuses 0xB6 tag 0x03) ∧
  (∀ p : Part, p.screens.screens.length = 8 →
    let v := p.screens
    p.recomputeScreens =
      { p with
        screens := { v with
          screens := List.zipWith (fun screen i => { screen with source := p.decideSource i }) v.screens (List.finRange 8)
          queue := (List.finRange 8).foldl (init := v.queue) fun queue i =>
            if (v.screens[i.val]?).map Screen.source = some (p.decideSource i) then queue
            else placeRecord (.route i (p.decideSource i)) queue } }) ∧
  ∀ p : Part,
    let v := p.screens
    (∀ x : Seat, (∀ h, v.slot1 = some h → h.seat ≠ x) → (∀ h, v.slot2 = some h → h.seat ≠ x) → p.reexamine x = p) ∧
    (∀ (x : Seat) (slot : Slot) (h : Share), v.slot slot = some h → h.seat = x →
      (slot = .two → ∀ g, v.slot1 = some g → g.seat ≠ x) →
      let r := p.seat x
      let lost := r.link = .silent ∨ r.link = .absent
      let standingLost := r.standing = .out ∨ r.standing = .listener
      let changed := r.input ≠ some h.input ∨ (r.link = .present ∧ r.unitType ≠ some .presenter)
      let left := r.link ≠ .held ∧ v.requiresFloor = true ∧ r.standing = .delegate ∧ p.speaking x = false ∧
        ¬∃ f ∈ p.floor.stack, ∃ e ∈ f.saved, e.seat = x
      (lost → p.reexamine x = p.endShare slot .seatLost) ∧
      (¬lost → standingLost → p.reexamine x = p.endShare slot .standingLost) ∧
      (¬lost → ¬standingLost → changed → p.reexamine x = p.endShare slot .inputChanged) ∧
      (¬lost → ¬standingLost → ¬changed → left → p.reexamine x = p.endShare slot .floorLeft) ∧
      (¬lost → ¬standingLost → ¬changed → ¬left → p.reexamine x = p)) ∧
    p.reexamineAll =
      let first := match v.slot1 with
        | some h => p.reexamine h.seat
        | none => p
      match v.slot2 with
      | some h => first.reexamine h.seat
      | none => first

/-- SHARE_START and SHARE_STOP (R157), and how a share starts and ends (R149, R150). A slot taken records the share, SHARE_BUS
with its input, SHARE_CHANGED STARTED, and the screens computed again. A share that ends frees its slot and its grace timer and
queues SHARE_CHANGED ENDED with the cause; unless it is taken over, the screens are computed again and SHARE_BUS with none
follows. That a slot taken while the other is free, and an end, leave no older share is the model's (log 14). -/
def Obligations.SharesStartAndEnd : Prop :=
  (∀ (s : State) (tag : Byte), s.part.Ready →
    (∀ n, 63 < n → n < 256 → exec (.shareStart tag (u8 n)) s = s.refuses 0xB7 tag 0x03) ∧
    (∀ x : Seat,
      let p := s.part.taken
      let command := Instr.shareStart tag (seatBytes x)
      let holds := (p.screens.slot1.any fun h => h.seat = x) = true ∨ (p.screens.slot2.any fun h => h.seat = x) = true
      let r := p.seat x
      let may := r.link = .present ∧ r.unitType = some .presenter ∧ r.input.isSome = true ∧ r.signal = true ∧
        (r.standing = .delegate ∨ r.standing = .chair) ∧
        (p.screens.requiresFloor = true → r.standing = .delegate →
          p.speaking x = true ∨ ∃ f ∈ p.floor.stack, ∃ e ∈ f.saved, e.seat = x)
      (p.isOpen = false → exec command s = s.refuses 0xB7 tag 0x08) ∧
      (p.isOpen = true → holds → exec command s = s.refuses 0xB7 tag 0x0A) ∧
      (p.isOpen = true → ¬holds → ¬may → exec command s = s.refuses 0xB7 tag 0x04) ∧
      (p.isOpen = true → ¬holds → may →
        (p.screens.slot1 = none → exec command s = s.accepts 0xB7 tag [1] (p.takeSlot .one x .controller)) ∧
        (p.screens.slot1.isSome = true → p.screens.slot2 = none →
          exec command s = s.accepts 0xB7 tag [2] (p.takeSlot .two x .controller)) ∧
        (∀ h1 h2, p.screens.slot1 = some h1 → p.screens.slot2 = some h2 →
          (p.screens.policy = .deny → exec command s = s.refuses 0xB7 tag 0x07) ∧
          (p.screens.policy = .takeover → p.screens.older = some .one →
            exec command s =
              s.accepts 0xB7 tag [1] ((p.freeShare .one h1 .takenOver).takeSlot .one x .controller)) ∧
          (p.screens.policy = .takeover → p.screens.older = some .two →
            exec command s =
              s.accepts 0xB7 tag [2] ((p.freeShare .two h2 .takenOver).takeSlot .two x .controller))))) ∧
    (∀ n, n = 0 ∨ 2 < n → n < 256 → exec (.shareStop tag (u8 n)) s = s.refuses 0xB8 tag 0x03) ∧
    ∀ slot : Slot,
      let p := s.part.taken
      (p.isOpen = false → exec (.shareStop tag (slotBytes slot)) s = s.refuses 0xB8 tag 0x08) ∧
      (p.isOpen = true → p.screens.slot slot = none → exec (.shareStop tag (slotBytes slot)) s = s.refuses 0xB8 tag 0x05) ∧
      (p.isOpen = true → (p.screens.slot slot).isSome = true →
        exec (.shareStop tag (slotBytes slot)) s = s.accepts 0xB8 tag [] (p.endShare slot .controller))) ∧
  (∀ (p : Part) (slot : Slot) (x : Seat) (source : Source),
    let q := p.takeSlot slot x source
    let v := p.screens
    let input := (p.seat x).input.getD 0
    let share : Share := ⟨x, input, v.starts + 1, source⟩
    let held : Screens := match slot with
      | .one => { v with slot1 := some share }
      | .two => { v with slot2 := some share }
    q =
      ({ p with
        screens := { held with
          starts := v.starts + 1
          older := if (v.slot (otherSlot slot)).isSome then some (otherSlot slot) else none
          queue := placeRecord (.shareBus slot (some input)) v.queue }
        link := p.link.notify (.shareChanged slot .started x input (v.starts + 1) source none) }).recomputeScreens ∧
    q.screens.slot slot = some ⟨x, (p.seat x).input.getD 0, p.screens.starts + 1, source⟩ ∧
    q.screens.starts = p.screens.starts + 1 ∧ q.screens.slot (otherSlot slot) = p.screens.slot (otherSlot slot) ∧
    q.screens.older = (if (p.screens.slot (otherSlot slot)).isSome then some (otherSlot slot) else none) ∧
    q.floor = p.floor ∧ q.seats = p.seats ∧ q.sched = p.sched ∧ q.mixer = p.mixer) ∧
  ∀ (p : Part) (slot : Slot) (cause : ShareCause) (h : Share), p.screens.slot slot = some h →
    let q := p.endShare slot cause
    let v := p.screens
    let freed : Part := { p with
      screens := match slot with
        | .one => { v with slot1 := none, grace1 := none, older := none }
        | .two => { v with slot2 := none, grace2 := none, older := none }
      link := p.link.notify (.shareChanged slot .ended h.seat h.input h.startNo h.source (some cause)) }
    let shown := freed.recomputeScreens
    p.freeShare slot h cause = freed ∧
    q = { shown with screens := { shown.screens with queue := placeRecord (.shareBus slot none) shown.screens.queue } } ∧
    q.screens.slot slot = none ∧ q.screens.grace slot = none ∧
    q.screens.slot (otherSlot slot) = p.screens.slot (otherSlot slot) ∧
    q.link = p.link.notify (.shareChanged slot .ended h.seat h.input h.startNo h.source (some cause)) ∧
    q.floor = p.floor ∧ q.seats = p.seats ∧ q.sched = p.sched ∧ q.mixer = p.mixer

/-- The screen link (R153) and SCREEN_REFRESH (R158): a record replaces the waiting record of its target in place or joins the tail;
the idle link takes the oldest record, and is idle again when it has been sent. -/
def Obligations.ScreenLinkRecords : Prop :=
  (∀ (r : LinkRecord) (queue : List LinkRecord),
    ((∀ x ∈ queue, r.sameTarget x = false) → placeRecord r queue = queue ++ [r]) ∧
    ((∃ x ∈ queue, r.sameTarget x = true) → (placeRecord r queue).length = queue.length ∧
      ∀ k : Nat, (placeRecord r queue)[k]? = (queue[k]?).map fun x => if r.sameTarget x then r else x)) ∧
  (∀ s : State, s.part.Quiet →
    (∀ r rest, s.part.screens.sending = none → s.part.screens.queue = r :: rest →
      exec .screenLinkTransmitStart s =
        s.to { s.part with screens := { s.part.screens with queue := rest, sending := some r } }) ∧
    (s.part.screens.sending.isSome = true ∨ s.part.screens.queue = [] → exec .screenLinkTransmitStart s = .next s) ∧
    exec .screenLinkTransmitDone s = s.to { s.part with screens := { s.part.screens with sending := none } }) ∧
  ∀ (s : State) (tag : Byte), s.part.Ready →
    let v := s.part.screens
    let records := (List.finRange 8).map (fun i => LinkRecord.route i (v.sourceOf i)) ++
      [.shareBus .one (v.slot1.map Share.input), .shareBus .two (v.slot2.map Share.input)]
    exec (.screenRefresh tag []) s =
      s.accepts 0xBA tag []
        { s.part.taken with screens := { v with queue := records.foldl (fun q r => placeRecord r q) v.queue } }

/-! ## The seat chains (chapters 9 and 10) -/

/-- SET_CHAIN (R173) and CHAIN_RESTART (R174). The number of a flag, on 0 and off 1, is the model's (log 6). A retrain abandons
the exchange, empties the list and the sets, makes the PRESENT seats HELD, and trains: the chain's record starts its first
attempt, its microphones close with CHAIN_RETRAIN, its voice onset counts become 0, and CHAIN_STATE is queued (R67, R167). The OFF
sequence abandons the same, makes every seat ABSENT and switches the chain off (R173). A seat made ABSENT releases its levels and
flags (R2), leaves the speaker list, the queue, the held presses, the frames and the holders (R66, R73, R83), and has its share
examined (R151). That its items leave the exchange list, with its mark in the stale set, is the model's choice (log 28). So are
the order in which the blocks take its change of link state, that of R169's list (log 9), and that the first attempt of a training
begins with no pair locked, whatever had reported lock before (log 42). -/
def Obligations.ChainRequests : Prop :=
  (∀ (s : State) (tag : Byte) (c : Chain), s.part.Ready →
    (∀ k : ChainSettings,
      let before := (s.part.chain c).settings.enabled
      let set := s.part.taken.modChain c fun x => { x with settings := k }
      let payload := u8 c.ctorIdx ++ flagBytes k.enabled ++ u8 k.pairs ++ u8 k.attempts ++ u8 k.hold ++ u8 k.retries ++ u8 k.silent
      (k.Fits →
        exec (.setChain tag payload) s =
          s.acceptsWaking 0xBC tag []
            (if before = true ∧ k.enabled = false then set.switchOff c
            else if before = false ∧ k.enabled = true ∧ (s.part.chain c).state = .off then set.train c .controller
            else set)) ∧
      (k.pairs < 256 → k.attempts < 256 → k.hold < 256 → k.retries < 256 → k.silent < 256 → ¬k.Fits →
        exec (.setChain tag payload) s = s.refuses 0xBC tag 0x03)) ∧
    (∀ n enabled pairs attempts hold retries silent, n < 256 → enabled < 256 → pairs < 256 → attempts < 256 → hold < 256 →
      retries < 256 → silent < 256 → 1 < n ∨ 1 < enabled →
      exec (.setChain tag (u8 n ++ u8 enabled ++ u8 pairs ++ u8 attempts ++ u8 hold ++ u8 retries ++ u8 silent)) s =
        s.refuses 0xBC tag 0x03) ∧
    ((s.part.chain c).state = .off → exec (.chainRestart tag (u8 c.ctorIdx)) s = s.refuses 0xBE tag 0x04) ∧
    ((s.part.chain c).state = .active →
      exec (.chainRestart tag (u8 c.ctorIdx)) s = s.acceptsWaking 0xBE tag [] (s.part.taken.retrain c .controller)) ∧
    ((s.part.chain c).state = .training ∨ (s.part.chain c).state = .enumerating ∨ (s.part.chain c).state = .failed →
      exec (.chainRestart tag (u8 c.ctorIdx)) s = s.acceptsWaking 0xBE tag [] (s.part.taken.train c .controller)) ∧
    ∀ n, 1 < n → n < 256 → exec (.chainRestart tag (u8 n)) s = s.refuses 0xBE tag 0x03) ∧
  (∀ (p : Part) (c : Chain) (cause : ChainCause),
    let abandoned := p.modChain c fun k =>
      { k with exchange := none, items := [], stale := [], lanes := k.lanes.map fun l => { l with transmitting := [] } }
    let told (seats : List Seat) (q : Part) : Part :=
      let k := q.chain c
      q.notify (.chainState c k.state k.cause k.attempt k.pairs k.degraded k.overlength k.found seats)
    let present := (chainSeats c).filter fun x => (p.seat x).link = .present
    let reachable := (chainSeats c).filter fun x => (p.seat x).link ≠ .absent
    let begun := p.modChain c fun k =>
      { k with
        state := .training
        cause := cause
        attempt := 1
        pairs := none
        training := ⟨k.settings.pairs, false, false, false, 0⟩
        enumerated := []
        exchange := none
        pointer := 0
        seats := k.seats.map fun x => { x with toggle := false } }
    let speakers := (p.floor.speakers.map Speaker.seat).filter fun x => chainOf x = c
    let silenced (q : Part) : Part :=
      let closed := speakers.foldl (fun q x => q.closeMic x (some .chainRetrain)) q
      { closed with
        floor := { closed.floor with onsets := (chainSeats c).foldl (fun o x => o.set x.val 0) closed.floor.onsets } }
    p.train c cause = told [] (begun.floorEvent silenced) ∧
    ((p.train c cause).chain c).state = .training ∧ (∀ e ∈ (p.train c cause).floor.speakers, chainOf e.seat ≠ c) ∧
    (silenced begun).floor.queue = p.floor.queue ∧ (silenced begun).floor.held = p.floor.held ∧
    p.retrain c cause =
      (present.foldl (fun q x => (q.modSeat x fun r => { r with link := .held }).reexamine x) abandoned).train c cause ∧
    (p.seats.length = 64 → ∀ x : Seat,
      ((p.retrain c cause).seat x).link =
        if chainOf x = c ∧ (p.seat x).link = .present then .held else (p.seat x).link) ∧
    p.switchOff c =
      (let gone := reachable.foldl (fun q x => q.becomeAbsent x) abandoned
       let off := gone.modChain c fun k =>
         { k with state := .off, pairs := none, degraded := false, overlength := false, enumerated := [] }
       told reachable (off.floorEvent id)) ∧
    ((p.switchOff c).chain c).state = .off ∧
    (p.seats.length = 64 → ∀ x : Seat,
      ((p.switchOff c).seat x).link = if chainOf x = c then .absent else (p.seat x).link)) ∧
  ∀ (p : Part) (x : Seat),
    let listed := (p.modChain (chainOf x) fun k =>
      ChainCtl.removeItems (fun i => i.seat = x)
        { k with
          lanes := k.lanes.map fun l => { l with transmitting := l.transmitting.erase x }
          stale := k.stale.erase x }).modChain (chainOf x) fun k =>
      { k with seats := k.seats.modify (x.val % 32) fun t => { t with fault := false } }
    let released := (listed.modSeat x fun r =>
      { r with
        link := .absent
        speakPressed := false, auxPressed := false, voice := false, signal := false, denial := false, denialMs := 0 }).derive x
    p.becomeAbsent x =
      (released.floorEvent fun q => ((q.floorLost x).leaveSaved x).release (.seat x)).reexamine x ∧
    (p.floorLost x).floor =
      { p.floor with
        speakers := p.floor.speakers.filter fun e => e.seat ≠ x
        queue := p.floor.queue.filter fun e => e.seat ≠ x
        held := p.floor.held.filter fun e => e.seat ≠ x
        onsets := p.floor.onsets.set x.val 0 } ∧
    ∀ e, (p.floor.speakers.find? fun e => e.seat = x) = some e → p.link.mask.getLsbD 7 = true → p.link.notices.length < 32 →
      ∃ more, (p.floorLost x).link.notices =
        p.link.notices ++
          ⟨.micClosed x e.kind .seatLost e.grantNo e.channel e.lane e.remaining, p.link.inRequest⟩ :: more

/-- Training (R162, R163, R164, R167): locks are recorded, the attempt ends when every pair it tries has locked or after 50 ms,
and a loss of lock acts by the chain's state. A chain that becomes FAILED empties its transmitting sets (R170), makes its seats
that are not ABSENT ABSENT in seat order, and queues CHAIN_STATE naming them (R163, R172). PAIR_LOCK outside TRAINING changes
nothing (log 3). A failed attempt sets the pair count in force to none, also after an enumeration, and leaves DEGRADED as it was
written (log 16). That the attempt after it begins with no pair locked is the model's choice (log 42). Which pair's loss of lock
ends an enumeration is read by log 17. -/
def Obligations.TrainingSteps : Prop :=
  (∀ (s : State) (c : Chain) (pair : Pair), s.part.Quiet →
    let k := s.part.chain c
    let locked := k.training.setLock pair true
    let p := s.part.modChain c fun x => { x with training := locked }
    (k.state ≠ .training → exec (.pairLock c pair) s = .next s) ∧
    (k.state = .training → locked.allLocked = false → exec (.pairLock c pair) s = s.to p) ∧
    (k.state = .training → locked.allLocked = true →
      exec (.pairLock c pair) s =
        s.to (p.modChain c fun x =>
          { x with
            state := .enumerating
            pairs := some locked.pairs
            degraded := false
            enumerated := []
            exchange := some (.addressed (.enumerate 0) [] x.settings.retries ((x.settings.hold + 1) * 16)) }))) ∧
  (∀ (s : State) (c : Chain) (rest : List Owed), s.part.power = .running → s.part.tickJobs = [] →
    s.part.owed = .training c :: rest →
    let k := s.part.chain c
    let t := k.training
    let p := { s.part with owed := rest }
    k.state = .training → 50 ≤ t.ms →
    (t.control = true → t.lane1 = true →
      exec (.trainingAttemptEnd c) s =
        s.to (p.modChain c fun x =>
          { x with
            state := .enumerating
            pairs := some (if t.lane2 = true ∨ t.pairs < 2 then t.pairs else 1)
            degraded := !(t.lane2 || t.pairs < 2)
            enumerated := []
            exchange := some (.addressed (.enumerate 0) [] x.settings.retries ((x.settings.hold + 1) * 16)) })) ∧
    (t.control = false ∨ t.lane1 = false →
      exec (.trainingAttemptEnd c) s = s.to (p.failedAttempt c))) ∧
  (∀ (s : State) (c : Chain) (pair : Pair), s.part.Quiet →
    let k := s.part.chain c
    let inForce := pair = .control ∨ (pair = .lane1 ∧ ∃ n, k.pairs = some n ∧ 1 ≤ n) ∨
      (pair = .lane2 ∧ ∃ n, k.pairs = some n ∧ 2 ≤ n)
    (k.state = .active → inForce → exec (.lossOfLock c pair) s = s.to (s.part.retrain c .lockLost)) ∧
    (k.state = .active → ¬inForce → exec (.lossOfLock c pair) s = .next s) ∧
    (k.state = .enumerating → exec (.lossOfLock c pair) s = s.to (s.part.failedAttempt c)) ∧
    (k.state = .training →
      exec (.lossOfLock c pair) s = s.to (s.part.modChain c fun x => { x with training := x.training.setLock pair false })) ∧
    (k.state = .off ∨ k.state = .failed → exec (.lossOfLock c pair) s = .next s)) ∧
  ∀ (p : Part) (c : Chain),
    let k := p.chain c
    (k.attempt < k.settings.attempts →
      p.failedAttempt c =
        p.modChain c fun x =>
          { x with
            state := .training
            attempt := x.attempt + 1
            pairs := none
            training := ⟨x.settings.pairs, false, false, false, 0⟩
            enumerated := []
            exchange := none }) ∧
    (k.settings.attempts ≤ k.attempt →
      (let lost := (chainSeats c).filter fun x => (p.seat x).link ≠ .absent
       let failed := p.modChain c fun x =>
         { x with
           state := .failed
           pairs := none
           enumerated := []
           exchange := none
           lanes := x.lanes.map fun l => { l with transmitting := [] } }
       let gone := lost.foldl (fun q x => q.becomeAbsent x) failed
       let g := gone.chain c
       p.failedAttempt c = gone.notify
         (.chainState c g.state g.cause g.attempt g.pairs g.degraded g.overlength g.found lost) ∧
       g.pairs = none ∧ g.cause = k.cause ∧ g.attempt = k.attempt ∧ g.degraded = k.degraded ∧
       ∀ l ∈ g.lanes, l.transmitting = []) ∧
      ((p.failedAttempt c).chain c).state = .failed ∧
      ∀ x : Seat, chainOf x = c → ((p.failedAttempt c).seat x).link = .absent)

/-- What a chain's list holds and what the chain takes next: the first line of R178 for an item that is queued, and the
stale-indicator set with its refresh (R179); the choice of R180, made by an idle chain when asked, when a turnaround ends, and when
a seat falls due (R171); and what the chosen exchange sends, the 6 beats of a broadcast (R181), the beats of a nameplate (R185), the
content of a REFRESH (R186) and a poll (R187). The end of a broadcast starts the turnaround. -/
def Obligations.ExchangesChosen : Prop :=
  (∀ (p : Part) (c : Chain),
    let k := p.chain c
    let urgent := k.items.find? fun i => i.payload.kind = .micState ∨ i.payload.kind = .speakerState
    let indicator := k.items.find? fun i => i.payload.kind ≠ .micState ∧ i.payload.kind ≠ .speakerState
    let poll := ((List.range 32).map fun i => seatAt c (k.pointer + i)).find? p.pollDue
    (∀ i, urgent = some i → p.nextChoice c = some (.item i)) ∧
    (∀ title, urgent = none → k.broadcast = some title → p.nextChoice c = some (.broadcast title)) ∧
    (∀ i, urgent = none → k.broadcast = none → indicator = some i → p.nextChoice c = some (.item i)) ∧
    (∀ x, urgent = none → k.broadcast = none → indicator = none → poll = some x → p.nextChoice c = some (.poll x)) ∧
    (urgent = none → k.broadcast = none → indicator = none → poll = none → p.nextChoice c = none)) ∧
  (∀ (s : State) (c : Chain), s.part.Quiet →
    let k := s.part.chain c
    (k.state = .active → k.exchange = none →
      (∀ choice, s.part.nextChoice c = some choice →
        exec (.exchangeChoice c) s = s.to (s.part.begin c choice) ∧
        ∃ e, ((s.part.begin c choice).chain c).exchange = some e) ∧
      (s.part.nextChoice c = none → exec (.exchangeChoice c) s = .next s) ∧
      ∀ x, chainOf x = c → s.part.pollDue x = true → exec (.slowPollDue x) s = exec (.exchangeChoice c) s) ∧
    (k.state ≠ .active ∨ k.exchange ≠ none → exec (.exchangeChoice c) s = .next s) ∧
    (∀ title beats, k.exchange = some (.broadcast title beats) →
      exec (.broadcastDone c) s =
        s.to (s.part.modChain c fun x =>
          { x with exchange := some .turnaround, broadcast := if x.broadcast = some title then none else x.broadcast })) ∧
    (k.exchange = some .turnaround → k.state = .active →
      let idle := s.part.modChain c fun x => { x with exchange := none }
      exec (.turnaroundEnd c) s =
        s.to
          (match idle.nextChoice c with
            | some choice => idle.begin c choice
            | none => idle))) ∧
  (∀ (p : Part) (c : Chain),
    let k := p.chain c
    let cut (size count : Nat) (text : Text) : List Text :=
      (List.range count).map fun n =>
        ((text ++ List.replicate (size * count - text.length) 0x20).drop (size * n)).take size
    let plate (x : Seat) (name status : Text) : List Text :=
      let text := (name ++ List.replicate (24 - name.length) 0x20) ++ (status ++ List.replicate (12 - status.length) 0x20)
      if (p.seat x).unitType = some .presenter then cut 8 5 text
      else if (p.seat x).unitType = some .nameplate then cut 4 9 text
      else []
    let hold := (k.settings.hold + 1) * 16
    let retries (i : Item) := if i.attempts = 0 then k.settings.retries else 0
    (∀ title,
      p.begin c (.broadcast title) = p.modChain c fun x => { x with exchange := some (.broadcast title (cut 4 6 title)) }) ∧
    (∀ i, i.payload ≠ .refresh → (∀ name status, i.payload ≠ .nameplate name status) →
      p.begin c (.item i) = p.modChain c fun x =>
        { x with exchange := some (.addressed (.item i.seat i.payload) [] (retries i) hold) }) ∧
    (∀ i name status, i.payload = .nameplate name status →
      p.begin c (.item i) = p.modChain c fun x =>
        { x with exchange := some (.addressed (.item i.seat i.payload) (plate i.seat name status) (retries i) hold) }) ∧
    (∀ i, i.payload = .refresh →
      let r := p.seat i.seat
      let lane := (p.floor.speakers.find? fun e => e.seat = i.seat).map Speaker.lane
      let sent := Sent.refresh i.seat r.ring lane (p.mixer.loud.getD i.seat.val .normal)
      p.begin c (.item i) = p.modChain c fun x =>
        ChainCtl.removeItems (fun y => y.seat = i.seat && y.payload.kind ≠ .refresh)
          { x with exchange := some (.addressed sent (plate i.seat r.nameLine r.statusLine) (retries i) hold) }) ∧
    ∀ x : Seat,
      let toggle := (k.seats.getD (x.val % 32) ⟨false, false, 0⟩).toggle
      p.begin c (.poll x) = p.modChain c fun y =>
        { y with
          exchange := some (.addressed (.poll x toggle) [] (if (p.seat x).link = .present then k.settings.retries else 0) hold)
          seats := y.seats.modify (x.val % 32) fun t => { t with sincePoll := 0 } }) ∧
  (∀ (k : ChainCtl) (x : Seat) (payload : Payload),
    let q := k.queueItem x payload
    let same (i : Item) := i.seat = x ∧ i.payload.kind = payload.kind
    let urgent := payload.kind = .micState ∨ payload.kind = .speakerState
    let stale := if payload.kind = .refresh then k.stale.erase x else k.stale
    let victim (i : Item) := i.payload.kind ≠ .micState ∧ i.payload.kind ≠ .speakerState ∧
      k.inProgress i.seat i.payload.kind = false
    ((∃ i ∈ k.items, same i) →
      q = { k with
        items := k.items.map fun i =>
          if same i then { i with payload := payload, renewed := i.renewed || k.inProgress x payload.kind } else i
        stale := stale }) ∧
    ((∀ i ∈ k.items, ¬same i) → k.items.length < 48 →
      q = { k with items := k.items ++ [⟨x, payload, 0, false⟩], stale := stale }) ∧
    (∀ front v back, (∀ i ∈ k.items, ¬same i) → 48 ≤ k.items.length → urgent → k.items = front ++ v :: back →
      (∀ i ∈ front, ¬victim i) → victim v →
      let marked := ChainCtl.markStale v.seat { k with items := front ++ back }
      q = { marked with items := marked.items ++ [⟨x, payload, 0, false⟩] }) ∧
    ((∀ i ∈ k.items, ¬same i) → 48 ≤ k.items.length → ¬urgent ∨ (∀ i ∈ k.items, ¬victim i) → q = k.markStale x)) ∧
  ∀ (k : ChainCtl) (x : Seat),
    let refreshed := (∃ i ∈ k.items, i.seat = x ∧ i.payload.kind = .refresh) ∧ k.inProgress x .refresh = false
    (refreshed → k.markStale x = k) ∧
    (¬refreshed → k.markStale x = ChainCtl.staleRefresh { k with stale := insertSeat x k.stale }) ∧
    (∀ y, y ∈ insertSeat x k.stale ↔ y = x ∨ y ∈ k.stale) ∧
    (k.stale = [] ∨ 24 < k.items.length → k.staleRefresh = k) ∧
    (∀ lowest rest, k.stale = lowest :: rest → k.stale.length ≤ 32 → k.items.length ≤ 24 →
      k.staleRefresh = ChainCtl.staleRefresh (ChainCtl.keep lowest .refresh { k with stale := rest })) ∧
    ∀ gone : Item → Bool,
      ((∃ i ∈ k.items, gone i = true) →
        k.removeItems gone = ChainCtl.staleRefresh { k with items := k.items.filter fun i => !gone i }) ∧
      ((∀ i ∈ k.items, gone i = false) → k.removeItems gone = k)

/-- The attempts of an addressed exchange (R182 to R184, R187, R188): a bad check or a timeout is followed by a retry while one is
left and fails the exchange otherwise; a good response ends the exchange with its effect. A failure counts at the item (R184), the
seat (R168) and the failure run (R166), or ends the enumeration (R164); a success clears the counts, brings a SILENT seat back
(R168, R169), moves the item off the list (R184), settles the transmitting sets (R170, R186) and turns the poll toggle (R187). The
enumeration settles by R165. A poll's response stores the levels and flags (R3), hands the voice flag on as an event of the floor
and a changed signal flag to the screen router, which starts, keeps or stops the grace timer (R152), and adds its presses, which
wait (log 21); a changed fault flag is stored and reported (R172, R188). A seat that becomes SILENT loses its list items, its
place in the transmitting and stale sets and its levels and flags (R168, R170, R179, R2), and is due for a poll (R171); in one
event of the floor its microphone closes with SEAT_LOST, it leaves the queue, the held presses and the frames (R66, R73), and its
priority is released (R83); then its share is examined (R151). The order in which the seats behind it in the queue are derived is
the model's (log 47), and so is that the blocks take a change of link state in the order of R169's list (log 9). That the check of
a response is an operand is the model's (log 18), and so is that a seat becomes SILENT before its failure run is tested (log 29).
-/
def Obligations.AttemptsResolved : Prop :=
  (∀ (s : State) (c : Chain) (sent : Sent) (beats : List Text) (retries hold : Nat) (answer : UnitAnswer), s.part.Quiet →
    (s.part.chain c).exchange = some (.addressed sent beats retries hold) →
    let k := s.part.chain c
    (∀ n, retries = n + 1 →
      let retried := s.part.modChain c fun x =>
        { x with
          exchange := some (.addressed sent beats n hold)
          retryCounter := (x.retryCounter + 1) % 65536
          rollover := x.rollover || x.retryCounter = 65535 }
      exec (.holdLimitTimeout c) s = s.to retried ∧ exec (.attemptResponse c false answer) s = s.to retried) ∧
    (retries = 0 →
      exec (.holdLimitTimeout c) s = s.to (s.part.exchangeFailed c sent) ∧
      exec (.attemptResponse c false answer) s = s.to (s.part.exchangeFailed c sent)) ∧
    exec (.attemptResponse c true answer) s = s.to (s.part.exchangeSucceeded c sent answer) ∧
    (∀ x payload, sent = .item x payload → (s.part.seat x).link = .present → chainOf x = c → s.part.seats.length = 64 →
      ∃ t, exec (.attemptResponse c true answer) s = .next t ∧ (t.part.chain c).exchange = none ∧
        (t.part.chain c).failureRun = 0 ∧ (t.part.seat x).failures = 0 ∧ (t.part.seat x).link = .present ∧
        ((∀ i ∈ k.items, i.is x payload.kind = true → i.renewed = false) →
          ∀ i ∈ (t.part.chain c).items, i.seat = x → i.payload.kind = payload.kind → payload.kind = .refresh)) ∧
    (∀ x toggle, sent = .poll x toggle → (s.part.seat x).link = .present → chainOf x = c →
      ∃ t, exec (.attemptResponse c true answer) s = .next t ∧ (t.part.chain c).exchange = none ∧
        (t.part.chain c).pointer = (x.val % 32 + 1) % 32 ∧
        t.part.presses =
          s.part.presses ++ List.replicate answer.speakPresses.val ⟨x, .speak⟩ ++
            List.replicate answer.auxPresses.val ⟨x, .aux⟩) ∧
    ∀ position, sent = .enumerate position → answer.endOfChain = false → position < 31 →
      exec (.attemptResponse c true answer) s =
        s.to (s.part.modChain c fun x =>
          { x with
            enumerated := x.enumerated ++ [⟨answer.unitType, answer.serial⟩]
            exchange := some (.addressed (.enumerate (position + 1)) [] x.settings.retries ((x.settings.hold + 1) * 16)) })) ∧
  (∀ (p : Part) (c : Chain) (x : Seat),
    let ended := p.modChain c fun k => { k with exchange := none }
    let failedItem (kind : ItemKind) := ended.modChain c fun k =>
      { k with items := k.items.map fun i =>
        if i.seat = x ∧ i.payload.kind = kind then { i with attempts := countUpTo 15 i.attempts, renewed := false } else i }
    (∀ n, p.exchangeFailed c (.enumerate n) = ended.settle c false) ∧
    (∀ toggle, p.exchangeFailed c (.poll x toggle) =
      (ended.modChain c fun k => { k with pointer := (x.val % 32 + 1) % 32 }).seatFailed c x) ∧
    (∀ payload, p.exchangeFailed c (.item x payload) = (failedItem payload.kind).seatFailed c x) ∧
    (∀ ring lane loud, p.exchangeFailed c (.refresh x ring lane loud) = (failedItem .refresh).seatFailed c x)) ∧
  (∀ (p : Part) (c : Chain) (x : Seat),
    let r := p.seat x
    let fault := ((p.chain (chainOf x)).seats.getD (x.val % 32) ⟨false, false, 0⟩).fault
    let told (event : SeatEvent) (link : LinkState) (q : Part) : Part :=
      q.notify (.seatState x event link r.unitType r.serial fault)
    let failures := countUpTo 15 r.failures
    let counted := p.modSeat x fun t => { t with failures := countUpTo 15 t.failures }
    let run (q : Part) : Part :=
      let up := q.modChain c fun k => { k with failureRun := k.failureRun + 1 }
      if 16 ≤ (up.chain c).failureRun then up.retrain c .failureRun else up
    let cleared := (p.modChain c fun k => { k with failureRun := 0 }).modSeat x fun t => { t with failures := 0 }
    (p.seats.length = 64 → r.link = .present →
      (failures < (p.chain c).settings.silent → p.seatFailed c x = run counted) ∧
      ((p.chain c).settings.silent ≤ failures →
        p.seatFailed c x = run ((told .silent .silent counted).becomeSilent x))) ∧
    (r.link = .silent → p.seatFailed c x = counted) ∧
    (r.link = .held ∨ r.link = .absent → p.seatFailed c x = p) ∧
    (r.link ≠ .silent → p.seatSucceeded c x = cleared) ∧
    (r.link = .silent → p.seats.length = 64 →
      p.seatSucceeded c x = (told .returned .present cleared).becomePresent x) ∧
    (p.seats.length = 64 →
      ((p.becomeSilent x).seat x).link = .silent ∧ ((p.becomePresent x).seat x).link = .present) ∧
    p.becomeSilent x =
      (let listed := (p.modChain (chainOf x) fun k =>
         ChainCtl.removeItems (fun i => i.seat = x)
           { k with
             lanes := k.lanes.map fun l => { l with transmitting := l.transmitting.erase x }
             stale := k.stale.erase x }).modChain (chainOf x) fun k =>
         { k with seats := k.seats.modify (x.val % 32) fun t => { t with sincePoll := 100 } }
       let released := (listed.modSeat x fun t =>
         { t with
           link := .silent
           speakPressed := false, auxPressed := false, voice := false, signal := false, denial := false, denialMs := 0 }).derive x
       (released.floorEvent fun q => ((q.floorLost x).leaveSaved x).release (.seat x)).reexamine x) ∧
    p.floorLost x =
      (let closed := p.closeMic x (some .seatLost)
       let left := Part.derive x { closed with
         floor := { closed.floor with
           queue := closed.floor.queue.filter fun e => e.seat ≠ x
           held := closed.floor.held.filter fun e => e.seat ≠ x
           onsets := closed.floor.onsets.set x.val 0 } }
       if p.isQueued x = true then left.deriveQueued else left) ∧
    p.leaveSaved x =
      (if (∃ r ∈ p.floor.stack, ∃ e ∈ r.saved, e.seat = x) then
        (Part.reexamine x { p with
          floor := { p.floor with
            stack := p.floor.stack.map fun r => { r with saved := r.saved.filter fun e => e.seat ≠ x } } }).derive x
      else p) ∧
    p.becomePresent x =
      (let due := (p.modChain (chainOf x) fun k =>
         { k with seats := k.seats.modify (x.val % 32) fun t => { t with sincePoll := 100 } }).modSeat x fun t =>
         { t with link := .present }
       let floor := (due.queueItem x .refresh).floorEvent id
       let seen := (floor.queueItem x (.speakerState (floor.mixer.loud.getD x.val .normal))).reexamine x
       seen.queueItem x
         (match seen.floor.speakers.find? fun e => e.seat = x with
           | some e => .micOpen e.lane
           | none => .micClosed))) ∧
  (∀ (p : Part) (c : Chain) (x : Seat) (answer : UnitAnswer),
    let ended := p.modChain c fun k => { k with exchange := none }
    (∀ toggle,
      p.exchangeSucceeded c (.poll x toggle) answer =
        (let turned := (ended.modChain (chainOf x) fun k =>
           { k with seats := k.seats.modify (x.val % 32) fun t => { t with toggle := !t.toggle } }).modChain c fun k =>
           { k with pointer := (x.val % 32 + 1) % 32 }
         ((turned.seatSucceeded c x).pollReport x answer).reportFault x answer.fault)) ∧
    (∀ payload,
      p.exchangeSucceeded c (.item x payload) answer =
        (ended.modChain c fun k =>
          ChainCtl.itemSent x payload.kind
            (match payload with
              | .micOpen lane => k.micTaken x (some lane)
              | .micClosed => k.micTaken x none
              | _ => k)).seatSucceeded c x) ∧
    (∀ ring lane loud,
      p.exchangeSucceeded c (.refresh x ring lane loud) answer =
        (ended.modChain c fun k => (k.micTaken x lane).itemSent x .refresh).seatSucceeded c x) ∧
    (answer.endOfChain = true → ∀ n,
      p.exchangeSucceeded c (.enumerate n) answer =
        (ended.modChain c fun k => { k with enumerated := k.enumerated ++ [⟨answer.unitType, answer.serial⟩] }).settle c false) ∧
    (answer.endOfChain = false → ∀ n, 31 ≤ n →
      p.exchangeSucceeded c (.enumerate n) answer =
        (ended.modChain c fun k => { k with enumerated := k.enumerated ++ [⟨answer.unitType, answer.serial⟩] }).settle c true)) ∧
  (∀ (p : Part) (x : Seat) (answer : UnitAnswer),
    let r := p.seat x
    let heard := (p.modSeat x fun t =>
      { t with
        speakPressed := answer.speakPressed
        auxPressed := answer.auxPressed
        voice := answer.voice
        signal := answer.signal }).floorEvent (Part.voiceReport x answer.voice)
    let seen := if r.signal = answer.signal then heard else heard.signalChanged x answer.signal
    let k := p.chain (chainOf x)
    let fault := (k.seats.getD (x.val % 32) ⟨false, false, 0⟩).fault
    p.pollReport x answer =
      { seen with
        presses := seen.presses ++ List.replicate answer.speakPresses.val ⟨x, .speak⟩ ++
          List.replicate answer.auxPresses.val ⟨x, .aux⟩ } ∧
    (answer.fault = fault → p.reportFault x answer.fault = p) ∧
    (answer.fault ≠ fault → k.seats.length = 32 →
      p.reportFault x answer.fault =
        (p.modChain (chainOf x) fun k =>
          { k with seats := k.seats.modify (x.val % 32) fun t => { t with fault := answer.fault } }).notify
          (.seatState x .fault r.link r.unitType r.serial answer.fault))) ∧
  (∀ (p : Part) (x : Seat),
    let v := p.screens
    let timed (slot : Slot) (time : Option Nat) : Part :=
      { p with
        screens := match slot with
          | .one => { v with grace1 := time }
          | .two => { v with grace2 := time } }
    (∀ present, (∀ h, v.slot1 = some h → h.seat ≠ x) → (∀ h, v.slot2 = some h → h.seat ≠ x) → p.signalChanged x present = p) ∧
    ∀ (slot : Slot) (h : Share), v.slot slot = some h → h.seat = x → (slot = .two → ∀ g, v.slot1 = some g → g.seat ≠ x) →
      p.signalChanged x true = timed slot none ∧
      ((v.grace slot).isSome = true → p.signalChanged x false = p) ∧
      (v.grace slot = none → v.graceTime = 0 → p.signalChanged x false = p.endShare slot .signalLost) ∧
      (v.grace slot = none → v.graceTime ≠ 0 → p.signalChanged x false = timed slot (some v.graceTime))) ∧
  (∀ (k : ChainCtl) (x : Seat),
    (∀ (mic : Option Nat) (n : Nat),
      (k.micTaken x mic).lanes[n]? = (k.lanes[n]?).map fun l =>
        { l with
          transmitting := if mic = some n then insertSeat x (l.transmitting.erase x) else l.transmitting.erase x }) ∧
    ∀ kind : ItemKind,
      let same (i : Item) := i.seat = x ∧ i.payload.kind = kind
      ((∃ i ∈ k.items, same i ∧ i.renewed = true) →
        k.itemSent x kind =
          { k with items := k.items.map fun i => if same i then { i with renewed := false, attempts := 0 } else i }) ∧
      ((∀ i ∈ k.items, same i → i.renewed = false) →
        k.itemSent x kind = k.removeItems fun i => i.seat = x && i.payload.kind = kind)) ∧
  (∀ (p : Part) (x : Seat) (lane : Nat),
    let assign (seat : Option Seat) := p.modChain (chainOf x) fun k =>
      { k with lanes := k.lanes.modify lane fun l => { l with assigned := seat } }
    let present := (p.seat x).link = .present
    p.chainOpen x lane = (if present then (assign (some x)).queueItem x (.micOpen lane) else assign (some x)) ∧
    p.chainClose x lane = if present then (assign none).queueItem x .micClosed else assign none) ∧
  ∀ (p : Part) (c : Chain) (overlength : Bool),
    let units := (p.chain c).enumerated
    let found := units.zipIdx.foldl (fun q u => q.settleFound (seatAt c u.2) u.1) p
    let missing := (chainSeats c).filter fun x => (found.seat x).link ≠ .absent ∧ units.length ≤ x.val % 32
    let absent := missing.foldl (fun q x => q.becomeAbsent x) found
    let active := absent.modChain c fun k =>
      { k with
        found := k.enumerated.length
        overlength := overlength
        failureRun := 0
        state := .active
        enumerated := []
        exchange := none }
    let passed := active.floorEvent id
    let k := passed.chain c
    p.settle c overlength =
      ((passed.notify (.chainState c k.state k.cause k.attempt k.pairs k.degraded k.overlength k.found missing)).modChain c
        fun x => { x with broadcast := some passed.sessionTitle }) ∧
    ((p.settle c overlength).chain c).state = .active ∧
    ∀ (x : Seat) (u : FoundUnit),
      let r := p.seat x
      let recorded := p.modSeat x fun t => { t with unitType := some u.unitType, serial := some u.serial, failures := 0 }
      let fault := ((p.chain (chainOf x)).seats.getD (x.val % 32) ⟨false, false, 0⟩).fault
      let noticed :=
        if r.serial ≠ none ∧ r.serial ≠ some u.serial then
          recorded.notify (.seatState x .changed .present (some u.unitType) (some u.serial) fault)
        else recorded
      p.seats.length = 64 → p.settleFound x u = if r.link = .present then noticed else noticed.becomePresent x

/-! ## Invariants -/

/-- The machine right after device reset is safe: the bounds of every queue and table, one entry per seat in the speaker list, the
queue, the held-press set and the frames, channels and lanes held once, and share gains of at most unity. -/
def Obligations.ResetIsSafe : Prop := State.reset.Safe ∧ ∀ (cause : ResetCause) (straps : BitVec 2) (pending : List Instr) (draws : Nat),
  (⟨Part.reset cause straps, pending, draws⟩ : State).Safe

/-- Every step keeps the machine safe. -/
def Obligations.EveryStepStaysSafe : Prop := ∀ s t : State, s.Safe → step s = .next t → t.Safe

end
end

