-- ==== Sys2Proof/Laws/State.lean ====
section
/-!
SUPPORT. What each named update of the part leaves and writes: one lemma per field per update, so that no proof unfolds a record
update; and reading a seat record or a chain after a write.
-/
namespace Sys2Proof.Machine

/-! ### Part.modSeat -/

@[simp] theorem Part.modSeat_power (s : Seat) (f : SeatRec → SeatRec) (p : Part) : (p.modSeat s f).power = p.power := rfl
@[simp] theorem Part.modSeat_link (s : Seat) (f : SeatRec → SeatRec) (p : Part) : (p.modSeat s f).link = p.link := rfl
@[simp] theorem Part.modSeat_seats (s : Seat) (f : SeatRec → SeatRec) (p : Part) : (p.modSeat s f).seats = updateAt f p.seats s.val := rfl
@[simp] theorem Part.modSeat_pressSeq (s : Seat) (f : SeatRec → SeatRec) (p : Part) : (p.modSeat s f).pressSeq = p.pressSeq := rfl
@[simp] theorem Part.modSeat_presses (s : Seat) (f : SeatRec → SeatRec) (p : Part) : (p.modSeat s f).presses = p.presses := rfl
@[simp] theorem Part.modSeat_zones (s : Seat) (f : SeatRec → SeatRec) (p : Part) : (p.modSeat s f).zones = p.zones := rfl
@[simp] theorem Part.modSeat_sched (s : Seat) (f : SeatRec → SeatRec) (p : Part) : (p.modSeat s f).sched = p.sched := rfl
@[simp] theorem Part.modSeat_floor (s : Seat) (f : SeatRec → SeatRec) (p : Part) : (p.modSeat s f).floor = p.floor := rfl
@[simp] theorem Part.modSeat_mixer (s : Seat) (f : SeatRec → SeatRec) (p : Part) : (p.modSeat s f).mixer = p.mixer := rfl
@[simp] theorem Part.modSeat_director (s : Seat) (f : SeatRec → SeatRec) (p : Part) : (p.modSeat s f).director = p.director := rfl
@[simp] theorem Part.modSeat_screens (s : Seat) (f : SeatRec → SeatRec) (p : Part) : (p.modSeat s f).screens = p.screens := rfl
@[simp] theorem Part.modSeat_chainA (s : Seat) (f : SeatRec → SeatRec) (p : Part) : (p.modSeat s f).chainA = p.chainA := rfl
@[simp] theorem Part.modSeat_chainB (s : Seat) (f : SeatRec → SeatRec) (p : Part) : (p.modSeat s f).chainB = p.chainB := rfl
@[simp] theorem Part.modSeat_owed (s : Seat) (f : SeatRec → SeatRec) (p : Part) : (p.modSeat s f).owed = p.owed := rfl
@[simp] theorem Part.modSeat_tickJobs (s : Seat) (f : SeatRec → SeatRec) (p : Part) : (p.modSeat s f).tickJobs = p.tickJobs := rfl

/-! ### Part.modFloor -/

@[simp] theorem Part.modFloor_power (f : Floor → Floor) (p : Part) : (p.modFloor f).power = p.power := rfl
@[simp] theorem Part.modFloor_link (f : Floor → Floor) (p : Part) : (p.modFloor f).link = p.link := rfl
@[simp] theorem Part.modFloor_seats (f : Floor → Floor) (p : Part) : (p.modFloor f).seats = p.seats := rfl
@[simp] theorem Part.modFloor_pressSeq (f : Floor → Floor) (p : Part) : (p.modFloor f).pressSeq = p.pressSeq := rfl
@[simp] theorem Part.modFloor_presses (f : Floor → Floor) (p : Part) : (p.modFloor f).presses = p.presses := rfl
@[simp] theorem Part.modFloor_zones (f : Floor → Floor) (p : Part) : (p.modFloor f).zones = p.zones := rfl
@[simp] theorem Part.modFloor_sched (f : Floor → Floor) (p : Part) : (p.modFloor f).sched = p.sched := rfl
@[simp] theorem Part.modFloor_floor (f : Floor → Floor) (p : Part) : (p.modFloor f).floor = f p.floor := rfl
@[simp] theorem Part.modFloor_mixer (f : Floor → Floor) (p : Part) : (p.modFloor f).mixer = p.mixer := rfl
@[simp] theorem Part.modFloor_director (f : Floor → Floor) (p : Part) : (p.modFloor f).director = p.director := rfl
@[simp] theorem Part.modFloor_screens (f : Floor → Floor) (p : Part) : (p.modFloor f).screens = p.screens := rfl
@[simp] theorem Part.modFloor_chainA (f : Floor → Floor) (p : Part) : (p.modFloor f).chainA = p.chainA := rfl
@[simp] theorem Part.modFloor_chainB (f : Floor → Floor) (p : Part) : (p.modFloor f).chainB = p.chainB := rfl
@[simp] theorem Part.modFloor_owed (f : Floor → Floor) (p : Part) : (p.modFloor f).owed = p.owed := rfl
@[simp] theorem Part.modFloor_tickJobs (f : Floor → Floor) (p : Part) : (p.modFloor f).tickJobs = p.tickJobs := rfl

/-! ### Part.modMixer -/

@[simp] theorem Part.modMixer_power (f : Mixer → Mixer) (p : Part) : (p.modMixer f).power = p.power := rfl
@[simp] theorem Part.modMixer_link (f : Mixer → Mixer) (p : Part) : (p.modMixer f).link = p.link := rfl
@[simp] theorem Part.modMixer_seats (f : Mixer → Mixer) (p : Part) : (p.modMixer f).seats = p.seats := rfl
@[simp] theorem Part.modMixer_pressSeq (f : Mixer → Mixer) (p : Part) : (p.modMixer f).pressSeq = p.pressSeq := rfl
@[simp] theorem Part.modMixer_presses (f : Mixer → Mixer) (p : Part) : (p.modMixer f).presses = p.presses := rfl
@[simp] theorem Part.modMixer_zones (f : Mixer → Mixer) (p : Part) : (p.modMixer f).zones = p.zones := rfl
@[simp] theorem Part.modMixer_sched (f : Mixer → Mixer) (p : Part) : (p.modMixer f).sched = p.sched := rfl
@[simp] theorem Part.modMixer_floor (f : Mixer → Mixer) (p : Part) : (p.modMixer f).floor = p.floor := rfl
@[simp] theorem Part.modMixer_mixer (f : Mixer → Mixer) (p : Part) : (p.modMixer f).mixer = f p.mixer := rfl
@[simp] theorem Part.modMixer_director (f : Mixer → Mixer) (p : Part) : (p.modMixer f).director = p.director := rfl
@[simp] theorem Part.modMixer_screens (f : Mixer → Mixer) (p : Part) : (p.modMixer f).screens = p.screens := rfl
@[simp] theorem Part.modMixer_chainA (f : Mixer → Mixer) (p : Part) : (p.modMixer f).chainA = p.chainA := rfl
@[simp] theorem Part.modMixer_chainB (f : Mixer → Mixer) (p : Part) : (p.modMixer f).chainB = p.chainB := rfl
@[simp] theorem Part.modMixer_owed (f : Mixer → Mixer) (p : Part) : (p.modMixer f).owed = p.owed := rfl
@[simp] theorem Part.modMixer_tickJobs (f : Mixer → Mixer) (p : Part) : (p.modMixer f).tickJobs = p.tickJobs := rfl

/-! ### Part.modDirector -/

@[simp] theorem Part.modDirector_power (f : Director → Director) (p : Part) : (p.modDirector f).power = p.power := rfl
@[simp] theorem Part.modDirector_link (f : Director → Director) (p : Part) : (p.modDirector f).link = p.link := rfl
@[simp] theorem Part.modDirector_seats (f : Director → Director) (p : Part) : (p.modDirector f).seats = p.seats := rfl
@[simp] theorem Part.modDirector_pressSeq (f : Director → Director) (p : Part) : (p.modDirector f).pressSeq = p.pressSeq := rfl
@[simp] theorem Part.modDirector_presses (f : Director → Director) (p : Part) : (p.modDirector f).presses = p.presses := rfl
@[simp] theorem Part.modDirector_zones (f : Director → Director) (p : Part) : (p.modDirector f).zones = p.zones := rfl
@[simp] theorem Part.modDirector_sched (f : Director → Director) (p : Part) : (p.modDirector f).sched = p.sched := rfl
@[simp] theorem Part.modDirector_floor (f : Director → Director) (p : Part) : (p.modDirector f).floor = p.floor := rfl
@[simp] theorem Part.modDirector_mixer (f : Director → Director) (p : Part) : (p.modDirector f).mixer = p.mixer := rfl
@[simp] theorem Part.modDirector_director (f : Director → Director) (p : Part) : (p.modDirector f).director = f p.director := rfl
@[simp] theorem Part.modDirector_screens (f : Director → Director) (p : Part) : (p.modDirector f).screens = p.screens := rfl
@[simp] theorem Part.modDirector_chainA (f : Director → Director) (p : Part) : (p.modDirector f).chainA = p.chainA := rfl
@[simp] theorem Part.modDirector_chainB (f : Director → Director) (p : Part) : (p.modDirector f).chainB = p.chainB := rfl
@[simp] theorem Part.modDirector_owed (f : Director → Director) (p : Part) : (p.modDirector f).owed = p.owed := rfl
@[simp] theorem Part.modDirector_tickJobs (f : Director → Director) (p : Part) : (p.modDirector f).tickJobs = p.tickJobs := rfl

/-! ### Part.modScreens -/

@[simp] theorem Part.modScreens_power (f : Screens → Screens) (p : Part) : (p.modScreens f).power = p.power := rfl
@[simp] theorem Part.modScreens_link (f : Screens → Screens) (p : Part) : (p.modScreens f).link = p.link := rfl
@[simp] theorem Part.modScreens_seats (f : Screens → Screens) (p : Part) : (p.modScreens f).seats = p.seats := rfl
@[simp] theorem Part.modScreens_pressSeq (f : Screens → Screens) (p : Part) : (p.modScreens f).pressSeq = p.pressSeq := rfl
@[simp] theorem Part.modScreens_presses (f : Screens → Screens) (p : Part) : (p.modScreens f).presses = p.presses := rfl
@[simp] theorem Part.modScreens_zones (f : Screens → Screens) (p : Part) : (p.modScreens f).zones = p.zones := rfl
@[simp] theorem Part.modScreens_sched (f : Screens → Screens) (p : Part) : (p.modScreens f).sched = p.sched := rfl
@[simp] theorem Part.modScreens_floor (f : Screens → Screens) (p : Part) : (p.modScreens f).floor = p.floor := rfl
@[simp] theorem Part.modScreens_mixer (f : Screens → Screens) (p : Part) : (p.modScreens f).mixer = p.mixer := rfl
@[simp] theorem Part.modScreens_director (f : Screens → Screens) (p : Part) : (p.modScreens f).director = p.director := rfl
@[simp] theorem Part.modScreens_screens (f : Screens → Screens) (p : Part) : (p.modScreens f).screens = f p.screens := rfl
@[simp] theorem Part.modScreens_chainA (f : Screens → Screens) (p : Part) : (p.modScreens f).chainA = p.chainA := rfl
@[simp] theorem Part.modScreens_chainB (f : Screens → Screens) (p : Part) : (p.modScreens f).chainB = p.chainB := rfl
@[simp] theorem Part.modScreens_owed (f : Screens → Screens) (p : Part) : (p.modScreens f).owed = p.owed := rfl
@[simp] theorem Part.modScreens_tickJobs (f : Screens → Screens) (p : Part) : (p.modScreens f).tickJobs = p.tickJobs := rfl

/-! ### Part.modSched -/

@[simp] theorem Part.modSched_power (f : Scheduler → Scheduler) (p : Part) : (p.modSched f).power = p.power := rfl
@[simp] theorem Part.modSched_link (f : Scheduler → Scheduler) (p : Part) : (p.modSched f).link = p.link := rfl
@[simp] theorem Part.modSched_seats (f : Scheduler → Scheduler) (p : Part) : (p.modSched f).seats = p.seats := rfl
@[simp] theorem Part.modSched_pressSeq (f : Scheduler → Scheduler) (p : Part) : (p.modSched f).pressSeq = p.pressSeq := rfl
@[simp] theorem Part.modSched_presses (f : Scheduler → Scheduler) (p : Part) : (p.modSched f).presses = p.presses := rfl
@[simp] theorem Part.modSched_zones (f : Scheduler → Scheduler) (p : Part) : (p.modSched f).zones = p.zones := rfl
@[simp] theorem Part.modSched_sched (f : Scheduler → Scheduler) (p : Part) : (p.modSched f).sched = f p.sched := rfl
@[simp] theorem Part.modSched_floor (f : Scheduler → Scheduler) (p : Part) : (p.modSched f).floor = p.floor := rfl
@[simp] theorem Part.modSched_mixer (f : Scheduler → Scheduler) (p : Part) : (p.modSched f).mixer = p.mixer := rfl
@[simp] theorem Part.modSched_director (f : Scheduler → Scheduler) (p : Part) : (p.modSched f).director = p.director := rfl
@[simp] theorem Part.modSched_screens (f : Scheduler → Scheduler) (p : Part) : (p.modSched f).screens = p.screens := rfl
@[simp] theorem Part.modSched_chainA (f : Scheduler → Scheduler) (p : Part) : (p.modSched f).chainA = p.chainA := rfl
@[simp] theorem Part.modSched_chainB (f : Scheduler → Scheduler) (p : Part) : (p.modSched f).chainB = p.chainB := rfl
@[simp] theorem Part.modSched_owed (f : Scheduler → Scheduler) (p : Part) : (p.modSched f).owed = p.owed := rfl
@[simp] theorem Part.modSched_tickJobs (f : Scheduler → Scheduler) (p : Part) : (p.modSched f).tickJobs = p.tickJobs := rfl

/-! ### Part.modSession -/

@[simp] theorem Part.modSession_power (f : Session → Session) (p : Part) : (p.modSession f).power = p.power := rfl
@[simp] theorem Part.modSession_link (f : Session → Session) (p : Part) : (p.modSession f).link = p.link := rfl
@[simp] theorem Part.modSession_seats (f : Session → Session) (p : Part) : (p.modSession f).seats = p.seats := rfl
@[simp] theorem Part.modSession_pressSeq (f : Session → Session) (p : Part) : (p.modSession f).pressSeq = p.pressSeq := rfl
@[simp] theorem Part.modSession_presses (f : Session → Session) (p : Part) : (p.modSession f).presses = p.presses := rfl
@[simp] theorem Part.modSession_zones (f : Session → Session) (p : Part) : (p.modSession f).zones = p.zones := rfl
@[simp] theorem Part.modSession_sched (f : Session → Session) (p : Part) : (p.modSession f).sched = { p.sched with session := p.sched.session.map f } := rfl
@[simp] theorem Part.modSession_floor (f : Session → Session) (p : Part) : (p.modSession f).floor = p.floor := rfl
@[simp] theorem Part.modSession_mixer (f : Session → Session) (p : Part) : (p.modSession f).mixer = p.mixer := rfl
@[simp] theorem Part.modSession_director (f : Session → Session) (p : Part) : (p.modSession f).director = p.director := rfl
@[simp] theorem Part.modSession_screens (f : Session → Session) (p : Part) : (p.modSession f).screens = p.screens := rfl
@[simp] theorem Part.modSession_chainA (f : Session → Session) (p : Part) : (p.modSession f).chainA = p.chainA := rfl
@[simp] theorem Part.modSession_chainB (f : Session → Session) (p : Part) : (p.modSession f).chainB = p.chainB := rfl
@[simp] theorem Part.modSession_owed (f : Session → Session) (p : Part) : (p.modSession f).owed = p.owed := rfl
@[simp] theorem Part.modSession_tickJobs (f : Session → Session) (p : Part) : (p.modSession f).tickJobs = p.tickJobs := rfl

/-! ### Part.modLink -/

@[simp] theorem Part.modLink_power (f : Link → Link) (p : Part) : (p.modLink f).power = p.power := rfl
@[simp] theorem Part.modLink_link (f : Link → Link) (p : Part) : (p.modLink f).link = f p.link := rfl
@[simp] theorem Part.modLink_seats (f : Link → Link) (p : Part) : (p.modLink f).seats = p.seats := rfl
@[simp] theorem Part.modLink_pressSeq (f : Link → Link) (p : Part) : (p.modLink f).pressSeq = p.pressSeq := rfl
@[simp] theorem Part.modLink_presses (f : Link → Link) (p : Part) : (p.modLink f).presses = p.presses := rfl
@[simp] theorem Part.modLink_zones (f : Link → Link) (p : Part) : (p.modLink f).zones = p.zones := rfl
@[simp] theorem Part.modLink_sched (f : Link → Link) (p : Part) : (p.modLink f).sched = p.sched := rfl
@[simp] theorem Part.modLink_floor (f : Link → Link) (p : Part) : (p.modLink f).floor = p.floor := rfl
@[simp] theorem Part.modLink_mixer (f : Link → Link) (p : Part) : (p.modLink f).mixer = p.mixer := rfl
@[simp] theorem Part.modLink_director (f : Link → Link) (p : Part) : (p.modLink f).director = p.director := rfl
@[simp] theorem Part.modLink_screens (f : Link → Link) (p : Part) : (p.modLink f).screens = p.screens := rfl
@[simp] theorem Part.modLink_chainA (f : Link → Link) (p : Part) : (p.modLink f).chainA = p.chainA := rfl
@[simp] theorem Part.modLink_chainB (f : Link → Link) (p : Part) : (p.modLink f).chainB = p.chainB := rfl
@[simp] theorem Part.modLink_owed (f : Link → Link) (p : Part) : (p.modLink f).owed = p.owed := rfl
@[simp] theorem Part.modLink_tickJobs (f : Link → Link) (p : Part) : (p.modLink f).tickJobs = p.tickJobs := rfl

/-! ### Part.notify -/

@[simp] theorem Part.notify_power (n : Notice) (p : Part) : (p.notify n).power = p.power := rfl
@[simp] theorem Part.notify_link (n : Notice) (p : Part) : (p.notify n).link = p.link.notify n := rfl
@[simp] theorem Part.notify_seats (n : Notice) (p : Part) : (p.notify n).seats = p.seats := rfl
@[simp] theorem Part.notify_pressSeq (n : Notice) (p : Part) : (p.notify n).pressSeq = p.pressSeq := rfl
@[simp] theorem Part.notify_presses (n : Notice) (p : Part) : (p.notify n).presses = p.presses := rfl
@[simp] theorem Part.notify_zones (n : Notice) (p : Part) : (p.notify n).zones = p.zones := rfl
@[simp] theorem Part.notify_sched (n : Notice) (p : Part) : (p.notify n).sched = p.sched := rfl
@[simp] theorem Part.notify_floor (n : Notice) (p : Part) : (p.notify n).floor = p.floor := rfl
@[simp] theorem Part.notify_mixer (n : Notice) (p : Part) : (p.notify n).mixer = p.mixer := rfl
@[simp] theorem Part.notify_director (n : Notice) (p : Part) : (p.notify n).director = p.director := rfl
@[simp] theorem Part.notify_screens (n : Notice) (p : Part) : (p.notify n).screens = p.screens := rfl
@[simp] theorem Part.notify_chainA (n : Notice) (p : Part) : (p.notify n).chainA = p.chainA := rfl
@[simp] theorem Part.notify_chainB (n : Notice) (p : Part) : (p.notify n).chainB = p.chainB := rfl
@[simp] theorem Part.notify_owed (n : Notice) (p : Part) : (p.notify n).owed = p.owed := rfl
@[simp] theorem Part.notify_tickJobs (n : Notice) (p : Part) : (p.notify n).tickJobs = p.tickJobs := rfl

/-! ### Part.placeRecord -/

@[simp] theorem Part.placeRecord_power (r : LinkRecord) (p : Part) : (p.placeRecord r).power = p.power := rfl
@[simp] theorem Part.placeRecord_link (r : LinkRecord) (p : Part) : (p.placeRecord r).link = p.link := rfl
@[simp] theorem Part.placeRecord_seats (r : LinkRecord) (p : Part) : (p.placeRecord r).seats = p.seats := rfl
@[simp] theorem Part.placeRecord_pressSeq (r : LinkRecord) (p : Part) : (p.placeRecord r).pressSeq = p.pressSeq := rfl
@[simp] theorem Part.placeRecord_presses (r : LinkRecord) (p : Part) : (p.placeRecord r).presses = p.presses := rfl
@[simp] theorem Part.placeRecord_zones (r : LinkRecord) (p : Part) : (p.placeRecord r).zones = p.zones := rfl
@[simp] theorem Part.placeRecord_sched (r : LinkRecord) (p : Part) : (p.placeRecord r).sched = p.sched := rfl
@[simp] theorem Part.placeRecord_floor (r : LinkRecord) (p : Part) : (p.placeRecord r).floor = p.floor := rfl
@[simp] theorem Part.placeRecord_mixer (r : LinkRecord) (p : Part) : (p.placeRecord r).mixer = p.mixer := rfl
@[simp] theorem Part.placeRecord_director (r : LinkRecord) (p : Part) : (p.placeRecord r).director = p.director := rfl
@[simp] theorem Part.placeRecord_screens (r : LinkRecord) (p : Part) : (p.placeRecord r).screens = { p.screens with queue := Machine.placeRecord r p.screens.queue } := rfl
@[simp] theorem Part.placeRecord_chainA (r : LinkRecord) (p : Part) : (p.placeRecord r).chainA = p.chainA := rfl
@[simp] theorem Part.placeRecord_chainB (r : LinkRecord) (p : Part) : (p.placeRecord r).chainB = p.chainB := rfl
@[simp] theorem Part.placeRecord_owed (r : LinkRecord) (p : Part) : (p.placeRecord r).owed = p.owed := rfl
@[simp] theorem Part.placeRecord_tickJobs (r : LinkRecord) (p : Part) : (p.placeRecord r).tickJobs = p.tickJobs := rfl

/-! ### Part.modChain -/

@[simp] theorem Part.modChain_power (c : Chain) (f : ChainCtl → ChainCtl) (p : Part) : (p.modChain c f).power = p.power := by
  cases c <;> rfl
@[simp] theorem Part.modChain_link (c : Chain) (f : ChainCtl → ChainCtl) (p : Part) : (p.modChain c f).link = p.link := by
  cases c <;> rfl
@[simp] theorem Part.modChain_seats (c : Chain) (f : ChainCtl → ChainCtl) (p : Part) : (p.modChain c f).seats = p.seats := by
  cases c <;> rfl
@[simp] theorem Part.modChain_pressSeq (c : Chain) (f : ChainCtl → ChainCtl) (p : Part) : (p.modChain c f).pressSeq = p.pressSeq := by
  cases c <;> rfl
@[simp] theorem Part.modChain_presses (c : Chain) (f : ChainCtl → ChainCtl) (p : Part) : (p.modChain c f).presses = p.presses := by
  cases c <;> rfl
@[simp] theorem Part.modChain_zones (c : Chain) (f : ChainCtl → ChainCtl) (p : Part) : (p.modChain c f).zones = p.zones := by
  cases c <;> rfl
@[simp] theorem Part.modChain_sched (c : Chain) (f : ChainCtl → ChainCtl) (p : Part) : (p.modChain c f).sched = p.sched := by
  cases c <;> rfl
@[simp] theorem Part.modChain_floor (c : Chain) (f : ChainCtl → ChainCtl) (p : Part) : (p.modChain c f).floor = p.floor := by
  cases c <;> rfl
@[simp] theorem Part.modChain_mixer (c : Chain) (f : ChainCtl → ChainCtl) (p : Part) : (p.modChain c f).mixer = p.mixer := by
  cases c <;> rfl
@[simp] theorem Part.modChain_director (c : Chain) (f : ChainCtl → ChainCtl) (p : Part) : (p.modChain c f).director = p.director := by
  cases c <;> rfl
@[simp] theorem Part.modChain_screens (c : Chain) (f : ChainCtl → ChainCtl) (p : Part) : (p.modChain c f).screens = p.screens := by
  cases c <;> rfl
@[simp] theorem Part.modChain_owed (c : Chain) (f : ChainCtl → ChainCtl) (p : Part) : (p.modChain c f).owed = p.owed := by
  cases c <;> rfl
@[simp] theorem Part.modChain_tickJobs (c : Chain) (f : ChainCtl → ChainCtl) (p : Part) : (p.modChain c f).tickJobs = p.tickJobs := by
  cases c <;> rfl

@[simp] theorem Part.modChain_chain_same (c : Chain) (f : ChainCtl → ChainCtl) (p : Part) :
    (p.modChain c f).chain c = f (p.chain c) := by
  cases c <;> rfl

theorem Part.modChain_chain_ne {c d : Chain} (h : d ≠ c) (f : ChainCtl → ChainCtl) (p : Part) :
    (p.modChain c f).chain d = p.chain d := by
  cases c <;> cases d <;> first | rfl | exact absurd rfl h

theorem Part.modChain_chain (c d : Chain) (f : ChainCtl → ChainCtl) (p : Part) :
    (p.modChain c f).chain d = if d = c then f (p.chain d) else p.chain d := by
  cases c <;> cases d <;> rfl

@[simp] theorem Part.modSeat_chain (s : Seat) (f : SeatRec → SeatRec) (c : Chain) (p : Part) : (p.modSeat s f).chain c = p.chain c := by
  cases c <;> rfl
@[simp] theorem Part.modFloor_chain (f : Floor → Floor) (c : Chain) (p : Part) : (p.modFloor f).chain c = p.chain c := by
  cases c <;> rfl
@[simp] theorem Part.modMixer_chain (f : Mixer → Mixer) (c : Chain) (p : Part) : (p.modMixer f).chain c = p.chain c := by
  cases c <;> rfl
@[simp] theorem Part.modDirector_chain (f : Director → Director) (c : Chain) (p : Part) : (p.modDirector f).chain c = p.chain c := by
  cases c <;> rfl
@[simp] theorem Part.modScreens_chain (f : Screens → Screens) (c : Chain) (p : Part) : (p.modScreens f).chain c = p.chain c := by
  cases c <;> rfl
@[simp] theorem Part.modSched_chain (f : Scheduler → Scheduler) (c : Chain) (p : Part) : (p.modSched f).chain c = p.chain c := by
  cases c <;> rfl
@[simp] theorem Part.modSession_chain (f : Session → Session) (c : Chain) (p : Part) : (p.modSession f).chain c = p.chain c := by
  cases c <;> rfl
@[simp] theorem Part.modLink_chain (f : Link → Link) (c : Chain) (p : Part) : (p.modLink f).chain c = p.chain c := by
  cases c <;> rfl
@[simp] theorem Part.notify_chain (n : Notice) (c : Chain) (p : Part) : (p.notify n).chain c = p.chain c := by
  cases c <;> rfl
@[simp] theorem Part.placeRecord_chain (r : LinkRecord) (c : Chain) (p : Part) : (p.placeRecord r).chain c = p.chain c := by
  cases c <;> rfl

@[simp] theorem Part.modFloor_seat (f : Floor → Floor) (t : Seat) (p : Part) : (p.modFloor f).seat t = p.seat t := rfl
@[simp] theorem Part.modMixer_seat (f : Mixer → Mixer) (t : Seat) (p : Part) : (p.modMixer f).seat t = p.seat t := rfl
@[simp] theorem Part.modDirector_seat (f : Director → Director) (t : Seat) (p : Part) : (p.modDirector f).seat t = p.seat t := rfl
@[simp] theorem Part.modScreens_seat (f : Screens → Screens) (t : Seat) (p : Part) : (p.modScreens f).seat t = p.seat t := rfl
@[simp] theorem Part.modSched_seat (f : Scheduler → Scheduler) (t : Seat) (p : Part) : (p.modSched f).seat t = p.seat t := rfl
@[simp] theorem Part.modSession_seat (f : Session → Session) (t : Seat) (p : Part) : (p.modSession f).seat t = p.seat t := rfl
@[simp] theorem Part.modLink_seat (f : Link → Link) (t : Seat) (p : Part) : (p.modLink f).seat t = p.seat t := rfl
@[simp] theorem Part.notify_seat (n : Notice) (t : Seat) (p : Part) : (p.notify n).seat t = p.seat t := rfl
@[simp] theorem Part.placeRecord_seat (r : LinkRecord) (t : Seat) (p : Part) : (p.placeRecord r).seat t = p.seat t := rfl
@[simp] theorem Part.modChain_seat (c : Chain) (f : ChainCtl → ChainCtl) (t : Seat) (p : Part) :
    (p.modChain c f).seat t = p.seat t := by
  cases c <;> rfl

/-! ### Lists of a fixed length -/

@[simp] theorem length_updateAt {α : Type} (f : α → α) (xs : List α) (i : Nat) : (updateAt f xs i).length = xs.length := by
  induction xs generalizing i with
  | nil => rfl
  | cons x xs ih => cases i <;> simp [updateAt, ih]

theorem getD_updateAt {α : Type} (f : α → α) (xs : List α) (i j : Nat) (d : α) :
    (updateAt f xs i).getD j d = if i = j ∧ j < xs.length then f (xs.getD j d) else xs.getD j d := by
  induction xs generalizing i j with
  | nil => simp [updateAt]
  | cons x xs ih =>
    cases i <;> cases j <;> simp [updateAt]
    rename_i i j
    simpa using ih i j

/-- A seat record after a write to a seat: the written seat's, where the table has one, and every other seat's as before. -/
theorem Part.seat_modSeat (s t : Seat) (f : SeatRec → SeatRec) (p : Part) :
    (p.modSeat s f).seat t = if s = t ∧ t.val < p.seats.length then f (p.seat t) else p.seat t := by
  have h := getD_updateAt f p.seats s.val t.val SeatRec.reset
  simpa [Part.seat, Part.modSeat, Fin.ext_iff] using h

@[simp] theorem Part.seat_modSeat_ne {s t : Seat} (h : s ≠ t) (f : SeatRec → SeatRec) (p : Part) :
    (p.modSeat s f).seat t = p.seat t := by
  simp [Part.seat_modSeat, h]

end Sys2Proof.Machine
end

