-- ==== Sys2Proof/Laws/Frames.lean ====
section
/-!
SUPPORT. What each operation of the blocks leaves unchanged, one lemma per operation: the fields of the part that it does not
write. What a lemma does not name, the operation may write.
-/
namespace Sys2Proof.Machine

/-! ### Exchange lists -/

@[simp] theorem Part.queueItem_frame (s : Seat) (payload : Payload) (p : Part) :
    (p.queueItem s payload).power = p.power ∧ (p.queueItem s payload).link = p.link ∧
    (p.queueItem s payload).seats = p.seats ∧ (p.queueItem s payload).pressSeq = p.pressSeq ∧
    (p.queueItem s payload).presses = p.presses ∧ (p.queueItem s payload).zones = p.zones ∧
    (p.queueItem s payload).sched = p.sched ∧ (p.queueItem s payload).floor = p.floor ∧
    (p.queueItem s payload).mixer = p.mixer ∧ (p.queueItem s payload).director = p.director ∧
    (p.queueItem s payload).screens = p.screens ∧ (p.queueItem s payload).owed = p.owed ∧
    (p.queueItem s payload).tickJobs = p.tickJobs := by simp [Part.queueItem]

@[simp] theorem Part.queueIfPresent_frame (s : Seat) (payload : Payload) (p : Part) :
    (p.queueIfPresent s payload).power = p.power ∧ (p.queueIfPresent s payload).link = p.link ∧
    (p.queueIfPresent s payload).seats = p.seats ∧ (p.queueIfPresent s payload).pressSeq = p.pressSeq ∧
    (p.queueIfPresent s payload).presses = p.presses ∧ (p.queueIfPresent s payload).zones = p.zones ∧
    (p.queueIfPresent s payload).sched = p.sched ∧ (p.queueIfPresent s payload).floor = p.floor ∧
    (p.queueIfPresent s payload).mixer = p.mixer ∧ (p.queueIfPresent s payload).director = p.director ∧
    (p.queueIfPresent s payload).screens = p.screens ∧ (p.queueIfPresent s payload).owed = p.owed ∧
    (p.queueIfPresent s payload).tickJobs = p.tickJobs := by
  unfold Part.queueIfPresent
  (repeat' split) <;> simp

/-! ### Seat table -/

@[simp] theorem Part.deriveRing_frame (s : Seat) (p : Part) :
    (p.deriveRing s).power = p.power ∧ (p.deriveRing s).link = p.link ∧ (p.deriveRing s).pressSeq = p.pressSeq ∧
    (p.deriveRing s).presses = p.presses ∧ (p.deriveRing s).zones = p.zones ∧ (p.deriveRing s).sched = p.sched ∧
    (p.deriveRing s).floor = p.floor ∧ (p.deriveRing s).mixer = p.mixer ∧ (p.deriveRing s).director = p.director ∧
    (p.deriveRing s).screens = p.screens ∧ (p.deriveRing s).owed = p.owed ∧ (p.deriveRing s).tickJobs = p.tickJobs := by
  simp only [Part.deriveRing]
  split <;> simp

@[simp] theorem Part.derivePlate_frame (s : Seat) (p : Part) :
    (p.derivePlate s).power = p.power ∧ (p.derivePlate s).link = p.link ∧ (p.derivePlate s).pressSeq = p.pressSeq ∧
    (p.derivePlate s).presses = p.presses ∧ (p.derivePlate s).zones = p.zones ∧ (p.derivePlate s).sched = p.sched ∧
    (p.derivePlate s).floor = p.floor ∧ (p.derivePlate s).mixer = p.mixer ∧ (p.derivePlate s).director = p.director ∧
    (p.derivePlate s).screens = p.screens ∧ (p.derivePlate s).owed = p.owed ∧ (p.derivePlate s).tickJobs = p.tickJobs := by
  simp only [Part.derivePlate]
  (repeat' split) <;> simp

@[simp] theorem Part.derive_frame (s : Seat) (p : Part) :
    (p.derive s).power = p.power ∧ (p.derive s).link = p.link ∧ (p.derive s).pressSeq = p.pressSeq ∧
    (p.derive s).presses = p.presses ∧ (p.derive s).zones = p.zones ∧ (p.derive s).sched = p.sched ∧
    (p.derive s).floor = p.floor ∧ (p.derive s).mixer = p.mixer ∧ (p.derive s).director = p.director ∧
    (p.derive s).screens = p.screens ∧ (p.derive s).owed = p.owed ∧ (p.derive s).tickJobs = p.tickJobs := by simp [Part.derive]

@[simp] theorem Part.deriveSeats_frame (seats : List Seat) (p : Part) :
    (p.deriveSeats seats).power = p.power ∧ (p.deriveSeats seats).link = p.link ∧
    (p.deriveSeats seats).pressSeq = p.pressSeq ∧ (p.deriveSeats seats).presses = p.presses ∧
    (p.deriveSeats seats).zones = p.zones ∧ (p.deriveSeats seats).sched = p.sched ∧ (p.deriveSeats seats).floor = p.floor ∧
    (p.deriveSeats seats).mixer = p.mixer ∧ (p.deriveSeats seats).director = p.director ∧
    (p.deriveSeats seats).screens = p.screens ∧ (p.deriveSeats seats).owed = p.owed ∧
    (p.deriveSeats seats).tickJobs = p.tickJobs := by
  unfold Part.deriveSeats
  induction seats generalizing p with
  | nil => simp
  | cons x xs ih => simp [ih]

@[simp] theorem Part.deriveAll_frame (p : Part) :
    (p.deriveAll).power = p.power ∧ (p.deriveAll).link = p.link ∧ (p.deriveAll).pressSeq = p.pressSeq ∧
    (p.deriveAll).presses = p.presses ∧ (p.deriveAll).zones = p.zones ∧ (p.deriveAll).sched = p.sched ∧
    (p.deriveAll).floor = p.floor ∧ (p.deriveAll).mixer = p.mixer ∧ (p.deriveAll).director = p.director ∧
    (p.deriveAll).screens = p.screens ∧ (p.deriveAll).owed = p.owed ∧ (p.deriveAll).tickJobs = p.tickJobs := by simp [Part.deriveAll]

@[simp] theorem Part.deriveQueued_frame (p : Part) :
    (p.deriveQueued).power = p.power ∧ (p.deriveQueued).link = p.link ∧ (p.deriveQueued).pressSeq = p.pressSeq ∧
    (p.deriveQueued).presses = p.presses ∧ (p.deriveQueued).zones = p.zones ∧ (p.deriveQueued).sched = p.sched ∧
    (p.deriveQueued).floor = p.floor ∧ (p.deriveQueued).mixer = p.mixer ∧ (p.deriveQueued).director = p.director ∧
    (p.deriveQueued).screens = p.screens ∧ (p.deriveQueued).owed = p.owed ∧ (p.deriveQueued).tickJobs = p.tickJobs := by simp [Part.deriveQueued]

@[simp] theorem Part.deny_frame (s : Seat) (p : Part) :
    (p.deny s).power = p.power ∧ (p.deny s).link = p.link ∧ (p.deny s).pressSeq = p.pressSeq ∧
    (p.deny s).presses = p.presses ∧ (p.deny s).zones = p.zones ∧ (p.deny s).sched = p.sched ∧ (p.deny s).floor = p.floor ∧
    (p.deny s).mixer = p.mixer ∧ (p.deny s).director = p.director ∧ (p.deny s).screens = p.screens ∧
    (p.deny s).owed = p.owed ∧ (p.deny s).tickJobs = p.tickJobs := by simp [Part.deny]

@[simp] theorem Part.endDenial_frame (s : Seat) (p : Part) :
    (p.endDenial s).power = p.power ∧ (p.endDenial s).link = p.link ∧ (p.endDenial s).pressSeq = p.pressSeq ∧
    (p.endDenial s).presses = p.presses ∧ (p.endDenial s).zones = p.zones ∧ (p.endDenial s).sched = p.sched ∧
    (p.endDenial s).floor = p.floor ∧ (p.endDenial s).mixer = p.mixer ∧ (p.endDenial s).director = p.director ∧
    (p.endDenial s).screens = p.screens ∧ (p.endDenial s).owed = p.owed ∧ (p.endDenial s).tickJobs = p.tickJobs := by
  unfold Part.endDenial
  (repeat' split) <;> simp

@[simp] theorem Part.seatTableLink_frame (s : Seat) (link : LinkState) (p : Part) :
    (p.seatTableLink s link).power = p.power ∧ (p.seatTableLink s link).link = p.link ∧
    (p.seatTableLink s link).pressSeq = p.pressSeq ∧ (p.seatTableLink s link).presses = p.presses ∧
    (p.seatTableLink s link).zones = p.zones ∧ (p.seatTableLink s link).sched = p.sched ∧
    (p.seatTableLink s link).floor = p.floor ∧ (p.seatTableLink s link).mixer = p.mixer ∧
    (p.seatTableLink s link).director = p.director ∧ (p.seatTableLink s link).screens = p.screens ∧
    (p.seatTableLink s link).owed = p.owed ∧ (p.seatTableLink s link).tickJobs = p.tickJobs := by
  simp only [Part.seatTableLink]
  (repeat' split) <;> simp [Part.seatTableLink.released]

@[simp] theorem Part.setStanding_frame (s : Seat) (standing : Standing) (p : Part) :
    (p.setStanding s standing).power = p.power ∧ (p.setStanding s standing).link = p.link ∧
    (p.setStanding s standing).pressSeq = p.pressSeq ∧ (p.setStanding s standing).presses = p.presses ∧
    (p.setStanding s standing).zones = p.zones ∧ (p.setStanding s standing).sched = p.sched ∧
    (p.setStanding s standing).floor = p.floor ∧ (p.setStanding s standing).mixer = p.mixer ∧
    (p.setStanding s standing).director = p.director ∧ (p.setStanding s standing).screens = p.screens ∧
    (p.setStanding s standing).chainA = p.chainA ∧ (p.setStanding s standing).chainB = p.chainB ∧
    (p.setStanding s standing).owed = p.owed ∧ (p.setStanding s standing).tickJobs = p.tickJobs := by simp [Part.setStanding]

@[simp] theorem Part.openStandings_frame (b : Booking) (p : Part) :
    (p.openStandings b).power = p.power ∧ (p.openStandings b).link = p.link ∧ (p.openStandings b).pressSeq = p.pressSeq ∧
    (p.openStandings b).presses = p.presses ∧ (p.openStandings b).zones = p.zones ∧ (p.openStandings b).sched = p.sched ∧
    (p.openStandings b).floor = p.floor ∧ (p.openStandings b).mixer = p.mixer ∧ (p.openStandings b).director = p.director ∧
    (p.openStandings b).screens = p.screens ∧ (p.openStandings b).owed = p.owed ∧ (p.openStandings b).tickJobs = p.tickJobs := by
  simp only [Part.openStandings, Part.deriveAll_frame]
  generalize hs : (fun (q : Part) s => q.setStanding s (p.standingFor b s)) = step
  have h : ∀ (q : Part) s, (step q s).power = q.power ∧ (step q s).link = q.link ∧ (step q s).pressSeq = q.pressSeq ∧
      (step q s).presses = q.presses ∧ (step q s).zones = q.zones ∧ (step q s).sched = q.sched ∧
      (step q s).floor = q.floor ∧ (step q s).mixer = q.mixer ∧ (step q s).director = q.director ∧
      (step q s).screens = q.screens ∧ (step q s).owed = q.owed ∧ (step q s).tickJobs = q.tickJobs := by
    subst hs; simp
  clear hs
  generalize allSeats = seats
  induction seats generalizing p with
  | nil => simp
  | cons x xs ih => simp [ih, h]

@[simp] theorem Part.closeStandings_frame (p : Part) :
    (p.closeStandings).power = p.power ∧ (p.closeStandings).link = p.link ∧ (p.closeStandings).pressSeq = p.pressSeq ∧
    (p.closeStandings).presses = p.presses ∧ (p.closeStandings).zones = p.zones ∧ (p.closeStandings).sched = p.sched ∧
    (p.closeStandings).floor = p.floor ∧ (p.closeStandings).mixer = p.mixer ∧ (p.closeStandings).director = p.director ∧
    (p.closeStandings).screens = p.screens ∧ (p.closeStandings).owed = p.owed ∧ (p.closeStandings).tickJobs = p.tickJobs := by simp [Part.closeStandings]

/-! ### Mixer -/

@[simp] theorem Part.recountSeat_frame (s : Seat) (p : Part) :
    (p.recountSeat s).power = p.power ∧ (p.recountSeat s).link = p.link ∧ (p.recountSeat s).seats = p.seats ∧
    (p.recountSeat s).pressSeq = p.pressSeq ∧ (p.recountSeat s).presses = p.presses ∧ (p.recountSeat s).zones = p.zones ∧
    (p.recountSeat s).sched = p.sched ∧ (p.recountSeat s).floor = p.floor ∧ (p.recountSeat s).director = p.director ∧
    (p.recountSeat s).screens = p.screens ∧ (p.recountSeat s).owed = p.owed ∧ (p.recountSeat s).tickJobs = p.tickJobs := by
  simp only [Part.recountSeat]
  split <;> simp

@[simp] theorem Part.recountChain_frame (c : Chain) (p : Part) :
    (p.recountChain c).power = p.power ∧ (p.recountChain c).link = p.link ∧ (p.recountChain c).seats = p.seats ∧
    (p.recountChain c).pressSeq = p.pressSeq ∧ (p.recountChain c).presses = p.presses ∧ (p.recountChain c).zones = p.zones ∧
    (p.recountChain c).sched = p.sched ∧ (p.recountChain c).floor = p.floor ∧ (p.recountChain c).director = p.director ∧
    (p.recountChain c).screens = p.screens ∧ (p.recountChain c).owed = p.owed ∧ (p.recountChain c).tickJobs = p.tickJobs := by
  unfold Part.recountChain
  generalize chainSeats c = seats
  induction seats generalizing p with
  | nil => simp
  | cons x xs ih => simp [ih]

@[simp] theorem Part.mixerOpen_frame (s : Seat) (ch : Nat) (kind : Kind) (p : Part) :
    (p.mixerOpen s ch kind).power = p.power ∧ (p.mixerOpen s ch kind).link = p.link ∧
    (p.mixerOpen s ch kind).seats = p.seats ∧ (p.mixerOpen s ch kind).pressSeq = p.pressSeq ∧
    (p.mixerOpen s ch kind).presses = p.presses ∧ (p.mixerOpen s ch kind).zones = p.zones ∧
    (p.mixerOpen s ch kind).sched = p.sched ∧ (p.mixerOpen s ch kind).floor = p.floor ∧
    (p.mixerOpen s ch kind).director = p.director ∧ (p.mixerOpen s ch kind).screens = p.screens ∧
    (p.mixerOpen s ch kind).owed = p.owed ∧ (p.mixerOpen s ch kind).tickJobs = p.tickJobs := by simp [Part.mixerOpen]

@[simp] theorem Part.mixerClose_frame (s : Seat) (ch lane : Nat) (live : Bool) (p : Part) :
    (p.mixerClose s ch lane live).power = p.power ∧ (p.mixerClose s ch lane live).link = p.link ∧
    (p.mixerClose s ch lane live).seats = p.seats ∧ (p.mixerClose s ch lane live).pressSeq = p.pressSeq ∧
    (p.mixerClose s ch lane live).presses = p.presses ∧ (p.mixerClose s ch lane live).zones = p.zones ∧
    (p.mixerClose s ch lane live).sched = p.sched ∧ (p.mixerClose s ch lane live).floor = p.floor ∧
    (p.mixerClose s ch lane live).director = p.director ∧ (p.mixerClose s ch lane live).screens = p.screens ∧
    (p.mixerClose s ch lane live).owed = p.owed ∧ (p.mixerClose s ch lane live).tickJobs = p.tickJobs := by
  unfold Part.mixerClose
  (repeat' split) <;> simp

@[simp] theorem Part.mixerSessionOpen_frame (b : Booking) (p : Part) :
    (p.mixerSessionOpen b).power = p.power ∧ (p.mixerSessionOpen b).link = p.link ∧ (p.mixerSessionOpen b).seats = p.seats ∧
    (p.mixerSessionOpen b).pressSeq = p.pressSeq ∧ (p.mixerSessionOpen b).presses = p.presses ∧
    (p.mixerSessionOpen b).zones = p.zones ∧ (p.mixerSessionOpen b).sched = p.sched ∧
    (p.mixerSessionOpen b).floor = p.floor ∧ (p.mixerSessionOpen b).director = p.director ∧
    (p.mixerSessionOpen b).screens = p.screens ∧ (p.mixerSessionOpen b).owed = p.owed ∧
    (p.mixerSessionOpen b).tickJobs = p.tickJobs := by simp [Part.mixerSessionOpen]

@[simp] theorem Part.mixerSessionClose_frame (p : Part) :
    (p.mixerSessionClose).power = p.power ∧ (p.mixerSessionClose).link = p.link ∧ (p.mixerSessionClose).seats = p.seats ∧
    (p.mixerSessionClose).pressSeq = p.pressSeq ∧ (p.mixerSessionClose).presses = p.presses ∧
    (p.mixerSessionClose).zones = p.zones ∧ (p.mixerSessionClose).sched = p.sched ∧ (p.mixerSessionClose).floor = p.floor ∧
    (p.mixerSessionClose).director = p.director ∧ (p.mixerSessionClose).screens = p.screens ∧
    (p.mixerSessionClose).owed = p.owed ∧ (p.mixerSessionClose).tickJobs = p.tickJobs := by
  have h : ∀ (n : List Nat) (q : Part), (n.foldl (fun q ch => q.modMixer (Mixer.free ch 0 false)) q) =
      { q with mixer := (n.foldl (fun q ch => q.modMixer (Mixer.free ch 0 false)) q).mixer } := by
    intro n
    induction n with
    | nil => intro q; rfl
    | cons x xs ih => intro q; rw [List.foldl_cons, ih]; rfl
  simp only [Part.mixerSessionClose, Part.recountChain_frame]
  rw [h]
  simp

@[simp] theorem Part.mixBlock_frame (audio : List LaneAudio) (changedAt : List Nat) (p : Part) :
    (p.mixBlock audio changedAt).power = p.power ∧ (p.mixBlock audio changedAt).link = p.link ∧
    (p.mixBlock audio changedAt).seats = p.seats ∧ (p.mixBlock audio changedAt).pressSeq = p.pressSeq ∧
    (p.mixBlock audio changedAt).presses = p.presses ∧ (p.mixBlock audio changedAt).zones = p.zones ∧
    (p.mixBlock audio changedAt).sched = p.sched ∧ (p.mixBlock audio changedAt).floor = p.floor ∧
    (p.mixBlock audio changedAt).director = p.director ∧ (p.mixBlock audio changedAt).screens = p.screens ∧
    (p.mixBlock audio changedAt).chainA = p.chainA ∧ (p.mixBlock audio changedAt).chainB = p.chainB ∧
    (p.mixBlock audio changedAt).owed = p.owed ∧ (p.mixBlock audio changedAt).tickJobs = p.tickJobs := by simp [Part.mixBlock]

/-! ### Screen router -/

@[simp] theorem Part.recomputeScreen_frame (i : Fin 8) (p : Part) :
    (p.recomputeScreen i).power = p.power ∧ (p.recomputeScreen i).link = p.link ∧ (p.recomputeScreen i).seats = p.seats ∧
    (p.recomputeScreen i).pressSeq = p.pressSeq ∧ (p.recomputeScreen i).presses = p.presses ∧
    (p.recomputeScreen i).zones = p.zones ∧ (p.recomputeScreen i).sched = p.sched ∧ (p.recomputeScreen i).floor = p.floor ∧
    (p.recomputeScreen i).mixer = p.mixer ∧ (p.recomputeScreen i).director = p.director ∧
    (p.recomputeScreen i).chainA = p.chainA ∧ (p.recomputeScreen i).chainB = p.chainB ∧
    (p.recomputeScreen i).owed = p.owed ∧ (p.recomputeScreen i).tickJobs = p.tickJobs := by
  simp only [Part.recomputeScreen]
  split <;> simp

@[simp] theorem Part.recomputeScreens_frame (p : Part) :
    (p.recomputeScreens).power = p.power ∧ (p.recomputeScreens).link = p.link ∧ (p.recomputeScreens).seats = p.seats ∧
    (p.recomputeScreens).pressSeq = p.pressSeq ∧ (p.recomputeScreens).presses = p.presses ∧
    (p.recomputeScreens).zones = p.zones ∧ (p.recomputeScreens).sched = p.sched ∧ (p.recomputeScreens).floor = p.floor ∧
    (p.recomputeScreens).mixer = p.mixer ∧ (p.recomputeScreens).director = p.director ∧
    (p.recomputeScreens).chainA = p.chainA ∧ (p.recomputeScreens).chainB = p.chainB ∧ (p.recomputeScreens).owed = p.owed ∧
    (p.recomputeScreens).tickJobs = p.tickJobs := by
  unfold Part.recomputeScreens
  generalize List.finRange 8 = screens
  induction screens generalizing p with
  | nil => simp
  | cons x xs ih => simp [ih]

@[simp] theorem Part.freeShare_frame (n : Slot) (h : Share) (cause : ShareCause) (p : Part) :
    (p.freeShare n h cause).power = p.power ∧ (p.freeShare n h cause).seats = p.seats ∧
    (p.freeShare n h cause).pressSeq = p.pressSeq ∧ (p.freeShare n h cause).presses = p.presses ∧
    (p.freeShare n h cause).zones = p.zones ∧ (p.freeShare n h cause).sched = p.sched ∧
    (p.freeShare n h cause).floor = p.floor ∧ (p.freeShare n h cause).mixer = p.mixer ∧
    (p.freeShare n h cause).director = p.director ∧ (p.freeShare n h cause).chainA = p.chainA ∧
    (p.freeShare n h cause).chainB = p.chainB ∧ (p.freeShare n h cause).owed = p.owed ∧
    (p.freeShare n h cause).tickJobs = p.tickJobs := by simp [Part.freeShare]

@[simp] theorem Part.endShare_frame (n : Slot) (cause : ShareCause) (p : Part) :
    (p.endShare n cause).power = p.power ∧ (p.endShare n cause).seats = p.seats ∧
    (p.endShare n cause).pressSeq = p.pressSeq ∧ (p.endShare n cause).presses = p.presses ∧
    (p.endShare n cause).zones = p.zones ∧ (p.endShare n cause).sched = p.sched ∧ (p.endShare n cause).floor = p.floor ∧
    (p.endShare n cause).mixer = p.mixer ∧ (p.endShare n cause).director = p.director ∧
    (p.endShare n cause).chainA = p.chainA ∧ (p.endShare n cause).chainB = p.chainB ∧ (p.endShare n cause).owed = p.owed ∧
    (p.endShare n cause).tickJobs = p.tickJobs := by
  unfold Part.endShare
  (repeat' split) <;> simp

@[simp] theorem Part.takeSlot_frame (n : Slot) (s : Seat) (source : Source) (p : Part) :
    (p.takeSlot n s source).power = p.power ∧ (p.takeSlot n s source).seats = p.seats ∧
    (p.takeSlot n s source).pressSeq = p.pressSeq ∧ (p.takeSlot n s source).presses = p.presses ∧
    (p.takeSlot n s source).zones = p.zones ∧ (p.takeSlot n s source).sched = p.sched ∧
    (p.takeSlot n s source).floor = p.floor ∧ (p.takeSlot n s source).mixer = p.mixer ∧
    (p.takeSlot n s source).director = p.director ∧ (p.takeSlot n s source).chainA = p.chainA ∧
    (p.takeSlot n s source).chainB = p.chainB ∧ (p.takeSlot n s source).owed = p.owed ∧
    (p.takeSlot n s source).tickJobs = p.tickJobs := by simp [Part.takeSlot]

theorem Part.grantShare_frame (s : Seat) (source : Source) (p : Part) (x : Slot × Part) (h : p.grantShare s source = some x) :
    x.2.power = p.power ∧ x.2.seats = p.seats ∧ x.2.pressSeq = p.pressSeq ∧ x.2.presses = p.presses ∧ x.2.zones = p.zones ∧
    x.2.sched = p.sched ∧ x.2.floor = p.floor ∧ x.2.mixer = p.mixer ∧ x.2.director = p.director ∧ x.2.chainA = p.chainA ∧
    x.2.chainB = p.chainB ∧ x.2.owed = p.owed ∧ x.2.tickJobs = p.tickJobs := by
  unfold Part.grantShare at h
  split at h
  · cases h; simp
  · split at h
    · contradiction
    · dsimp only at h
      split at h
      · cases h; simp
      · contradiction

@[simp] theorem Part.shareToggle_frame (s : Seat) (p : Part) :
    (p.shareToggle s).power = p.power ∧ (p.shareToggle s).pressSeq = p.pressSeq ∧ (p.shareToggle s).presses = p.presses ∧
    (p.shareToggle s).zones = p.zones ∧ (p.shareToggle s).sched = p.sched ∧ (p.shareToggle s).floor = p.floor ∧
    (p.shareToggle s).mixer = p.mixer ∧ (p.shareToggle s).director = p.director ∧ (p.shareToggle s).owed = p.owed ∧
    (p.shareToggle s).tickJobs = p.tickJobs := by
  unfold Part.shareToggle
  split
  · simp
  · split
    · split
      · rename_i h
        have := Part.grantShare_frame _ _ _ _ h
        simp_all
      · simp
    · simp

@[simp] theorem Part.reexamine_frame (s : Seat) (p : Part) :
    (p.reexamine s).power = p.power ∧ (p.reexamine s).seats = p.seats ∧ (p.reexamine s).pressSeq = p.pressSeq ∧
    (p.reexamine s).presses = p.presses ∧ (p.reexamine s).zones = p.zones ∧ (p.reexamine s).sched = p.sched ∧
    (p.reexamine s).floor = p.floor ∧ (p.reexamine s).mixer = p.mixer ∧ (p.reexamine s).director = p.director ∧
    (p.reexamine s).chainA = p.chainA ∧ (p.reexamine s).chainB = p.chainB ∧ (p.reexamine s).owed = p.owed ∧
    (p.reexamine s).tickJobs = p.tickJobs := by
  unfold Part.reexamine
  (repeat' split) <;> simp

@[simp] theorem Part.reexamineSeats_frame (seats : List Seat) (p : Part) :
    (p.reexamineSeats seats).power = p.power ∧ (p.reexamineSeats seats).seats = p.seats ∧
    (p.reexamineSeats seats).pressSeq = p.pressSeq ∧ (p.reexamineSeats seats).presses = p.presses ∧
    (p.reexamineSeats seats).zones = p.zones ∧ (p.reexamineSeats seats).sched = p.sched ∧
    (p.reexamineSeats seats).floor = p.floor ∧ (p.reexamineSeats seats).mixer = p.mixer ∧
    (p.reexamineSeats seats).director = p.director ∧ (p.reexamineSeats seats).chainA = p.chainA ∧
    (p.reexamineSeats seats).chainB = p.chainB ∧ (p.reexamineSeats seats).owed = p.owed ∧
    (p.reexamineSeats seats).tickJobs = p.tickJobs := by
  unfold Part.reexamineSeats
  induction seats generalizing p with
  | nil => simp
  | cons x xs ih => simp [ih]

@[simp] theorem Part.reexamineAll_frame (p : Part) :
    (p.reexamineAll).power = p.power ∧ (p.reexamineAll).seats = p.seats ∧ (p.reexamineAll).pressSeq = p.pressSeq ∧
    (p.reexamineAll).presses = p.presses ∧ (p.reexamineAll).zones = p.zones ∧ (p.reexamineAll).sched = p.sched ∧
    (p.reexamineAll).floor = p.floor ∧ (p.reexamineAll).mixer = p.mixer ∧ (p.reexamineAll).director = p.director ∧
    (p.reexamineAll).chainA = p.chainA ∧ (p.reexamineAll).chainB = p.chainB ∧ (p.reexamineAll).owed = p.owed ∧
    (p.reexamineAll).tickJobs = p.tickJobs := by simp [Part.reexamineAll]

@[simp] theorem Part.signalChanged_frame (s : Seat) (present : Bool) (p : Part) :
    (p.signalChanged s present).power = p.power ∧ (p.signalChanged s present).seats = p.seats ∧
    (p.signalChanged s present).pressSeq = p.pressSeq ∧ (p.signalChanged s present).presses = p.presses ∧
    (p.signalChanged s present).zones = p.zones ∧ (p.signalChanged s present).sched = p.sched ∧
    (p.signalChanged s present).floor = p.floor ∧ (p.signalChanged s present).mixer = p.mixer ∧
    (p.signalChanged s present).director = p.director ∧ (p.signalChanged s present).chainA = p.chainA ∧
    (p.signalChanged s present).chainB = p.chainB ∧ (p.signalChanged s present).owed = p.owed ∧
    (p.signalChanged s present).tickJobs = p.tickJobs := by
  unfold Part.signalChanged
  (repeat' split) <;> simp

@[simp] theorem Part.countGrace_frame (n : Slot) (p : Part) :
    (p.countGrace n).power = p.power ∧ (p.countGrace n).link = p.link ∧ (p.countGrace n).seats = p.seats ∧
    (p.countGrace n).pressSeq = p.pressSeq ∧ (p.countGrace n).presses = p.presses ∧ (p.countGrace n).zones = p.zones ∧
    (p.countGrace n).sched = p.sched ∧ (p.countGrace n).floor = p.floor ∧ (p.countGrace n).mixer = p.mixer ∧
    (p.countGrace n).director = p.director ∧ (p.countGrace n).chainA = p.chainA ∧ (p.countGrace n).chainB = p.chainB ∧
    (p.countGrace n).owed = p.owed ∧ (p.countGrace n).tickJobs = p.tickJobs := by
  unfold Part.countGrace
  (repeat' split) <;> simp

@[simp] theorem Part.graceExpiry_frame (n : Slot) (p : Part) :
    (p.graceExpiry n).power = p.power ∧ (p.graceExpiry n).seats = p.seats ∧ (p.graceExpiry n).pressSeq = p.pressSeq ∧
    (p.graceExpiry n).presses = p.presses ∧ (p.graceExpiry n).zones = p.zones ∧ (p.graceExpiry n).sched = p.sched ∧
    (p.graceExpiry n).floor = p.floor ∧ (p.graceExpiry n).mixer = p.mixer ∧ (p.graceExpiry n).director = p.director ∧
    (p.graceExpiry n).chainA = p.chainA ∧ (p.graceExpiry n).chainB = p.chainB ∧ (p.graceExpiry n).owed = p.owed ∧
    (p.graceExpiry n).tickJobs = p.tickJobs := by
  unfold Part.graceExpiry
  (repeat' split) <;> simp

@[simp] theorem Part.screensSessionOpen_frame (b : Booking) (p : Part) :
    (p.screensSessionOpen b).power = p.power ∧ (p.screensSessionOpen b).link = p.link ∧
    (p.screensSessionOpen b).seats = p.seats ∧ (p.screensSessionOpen b).pressSeq = p.pressSeq ∧
    (p.screensSessionOpen b).presses = p.presses ∧ (p.screensSessionOpen b).zones = p.zones ∧
    (p.screensSessionOpen b).sched = p.sched ∧ (p.screensSessionOpen b).floor = p.floor ∧
    (p.screensSessionOpen b).mixer = p.mixer ∧ (p.screensSessionOpen b).director = p.director ∧
    (p.screensSessionOpen b).chainA = p.chainA ∧ (p.screensSessionOpen b).chainB = p.chainB ∧
    (p.screensSessionOpen b).owed = p.owed ∧ (p.screensSessionOpen b).tickJobs = p.tickJobs := by simp [Part.screensSessionOpen]

@[simp] theorem Part.closeShare_frame (n : Slot) (p : Part) :
    (p.closeShare n).power = p.power ∧ (p.closeShare n).seats = p.seats ∧ (p.closeShare n).pressSeq = p.pressSeq ∧
    (p.closeShare n).presses = p.presses ∧ (p.closeShare n).zones = p.zones ∧ (p.closeShare n).sched = p.sched ∧
    (p.closeShare n).floor = p.floor ∧ (p.closeShare n).mixer = p.mixer ∧ (p.closeShare n).director = p.director ∧
    (p.closeShare n).chainA = p.chainA ∧ (p.closeShare n).chainB = p.chainB ∧ (p.closeShare n).owed = p.owed ∧
    (p.closeShare n).tickJobs = p.tickJobs := by
  unfold Part.closeShare
  (repeat' split) <;> simp

@[simp] theorem Part.screensSessionClose_frame (p : Part) :
    (p.screensSessionClose).power = p.power ∧ (p.screensSessionClose).seats = p.seats ∧
    (p.screensSessionClose).pressSeq = p.pressSeq ∧ (p.screensSessionClose).presses = p.presses ∧
    (p.screensSessionClose).zones = p.zones ∧ (p.screensSessionClose).sched = p.sched ∧
    (p.screensSessionClose).floor = p.floor ∧ (p.screensSessionClose).mixer = p.mixer ∧
    (p.screensSessionClose).director = p.director ∧ (p.screensSessionClose).chainA = p.chainA ∧
    (p.screensSessionClose).chainB = p.chainB ∧ (p.screensSessionClose).owed = p.owed ∧
    (p.screensSessionClose).tickJobs = p.tickJobs := by
  simp only [Part.screensSessionClose]
  generalize List.filter _ _ = ended
  have h : ∀ (n : List Slot) (q : Part), (n.foldl (fun q n => q.placeRecord (.shareBus n none)) q) =
      { q with screens := (n.foldl (fun q n => q.placeRecord (.shareBus n none)) q).screens } := by
    intro n
    induction n with
    | nil => intro q; rfl
    | cons x xs ih => intro q; rw [List.foldl_cons, ih]; rfl
  rw [h]
  simp

@[simp] theorem Part.screensStandby_frame (p : Part) :
    (p.screensStandby).power = p.power ∧ (p.screensStandby).link = p.link ∧ (p.screensStandby).seats = p.seats ∧
    (p.screensStandby).pressSeq = p.pressSeq ∧ (p.screensStandby).presses = p.presses ∧ (p.screensStandby).zones = p.zones ∧
    (p.screensStandby).sched = p.sched ∧ (p.screensStandby).floor = p.floor ∧ (p.screensStandby).mixer = p.mixer ∧
    (p.screensStandby).director = p.director ∧ (p.screensStandby).chainA = p.chainA ∧ (p.screensStandby).chainB = p.chainB ∧
    (p.screensStandby).owed = p.owed ∧ (p.screensStandby).tickJobs = p.tickJobs := by simp [Part.screensStandby]

/-! ### Camera director -/

@[simp] theorem Part.setFollow_frame (f : Follow) (p : Part) :
    (p.setFollow f).power = p.power ∧ (p.setFollow f).link = p.link ∧ (p.setFollow f).seats = p.seats ∧
    (p.setFollow f).pressSeq = p.pressSeq ∧ (p.setFollow f).presses = p.presses ∧ (p.setFollow f).zones = p.zones ∧
    (p.setFollow f).sched = p.sched ∧ (p.setFollow f).floor = p.floor ∧ (p.setFollow f).mixer = p.mixer ∧
    (p.setFollow f).chainA = p.chainA ∧ (p.setFollow f).chainB = p.chainB ∧ (p.setFollow f).owed = p.owed ∧
    (p.setFollow f).tickJobs = p.tickJobs := by
  unfold Part.setFollow
  (repeat' split) <;> simp

@[simp] theorem Part.setActive_frame (a : Option Seat) (p : Part) :
    (p.setActive a).power = p.power ∧ (p.setActive a).link = p.link ∧ (p.setActive a).seats = p.seats ∧
    (p.setActive a).pressSeq = p.pressSeq ∧ (p.setActive a).presses = p.presses ∧ (p.setActive a).zones = p.zones ∧
    (p.setActive a).sched = p.sched ∧ (p.setActive a).floor = p.floor ∧ (p.setActive a).mixer = p.mixer ∧
    (p.setActive a).chainA = p.chainA ∧ (p.setActive a).chainB = p.chainB ∧ (p.setActive a).owed = p.owed ∧
    (p.setActive a).tickJobs = p.tickJobs := by
  unfold Part.setActive
  (repeat' split) <;> simp

@[simp] theorem Part.sendRecall_frame (shot : Shot) (p : Part) :
    (p.sendRecall shot).power = p.power ∧ (p.sendRecall shot).link = p.link ∧ (p.sendRecall shot).seats = p.seats ∧
    (p.sendRecall shot).pressSeq = p.pressSeq ∧ (p.sendRecall shot).presses = p.presses ∧
    (p.sendRecall shot).zones = p.zones ∧ (p.sendRecall shot).sched = p.sched ∧ (p.sendRecall shot).floor = p.floor ∧
    (p.sendRecall shot).mixer = p.mixer ∧ (p.sendRecall shot).chainA = p.chainA ∧ (p.sendRecall shot).chainB = p.chainB ∧
    (p.sendRecall shot).owed = p.owed ∧ (p.sendRecall shot).tickJobs = p.tickJobs := by simp [Part.sendRecall]

@[simp] theorem Part.dropRecall_frame (p : Part) :
    (p.dropRecall).power = p.power ∧ (p.dropRecall).link = p.link ∧ (p.dropRecall).seats = p.seats ∧
    (p.dropRecall).pressSeq = p.pressSeq ∧ (p.dropRecall).presses = p.presses ∧ (p.dropRecall).zones = p.zones ∧
    (p.dropRecall).sched = p.sched ∧ (p.dropRecall).floor = p.floor ∧ (p.dropRecall).mixer = p.mixer ∧
    (p.dropRecall).screens = p.screens ∧ (p.dropRecall).chainA = p.chainA ∧ (p.dropRecall).chainB = p.chainB ∧
    (p.dropRecall).owed = p.owed ∧ (p.dropRecall).tickJobs = p.tickJobs := by simp [Part.dropRecall]

@[simp] theorem Part.aim_frame (s : Seat) (shot : Shot) (p : Part) :
    (p.aim s shot).power = p.power ∧ (p.aim s shot).link = p.link ∧ (p.aim s shot).seats = p.seats ∧
    (p.aim s shot).pressSeq = p.pressSeq ∧ (p.aim s shot).presses = p.presses ∧ (p.aim s shot).zones = p.zones ∧
    (p.aim s shot).sched = p.sched ∧ (p.aim s shot).floor = p.floor ∧ (p.aim s shot).mixer = p.mixer ∧
    (p.aim s shot).chainA = p.chainA ∧ (p.aim s shot).chainB = p.chainB ∧ (p.aim s shot).owed = p.owed ∧
    (p.aim s shot).tickJobs = p.tickJobs := by
  simp only [Part.aim]
  (repeat' split) <;> simp

@[simp] theorem Part.becomeActive_frame (s : Seat) (p : Part) :
    (p.becomeActive s).power = p.power ∧ (p.becomeActive s).seats = p.seats ∧ (p.becomeActive s).pressSeq = p.pressSeq ∧
    (p.becomeActive s).presses = p.presses ∧ (p.becomeActive s).zones = p.zones ∧ (p.becomeActive s).sched = p.sched ∧
    (p.becomeActive s).floor = p.floor ∧ (p.becomeActive s).mixer = p.mixer ∧ (p.becomeActive s).chainA = p.chainA ∧
    (p.becomeActive s).chainB = p.chainB ∧ (p.becomeActive s).owed = p.owed ∧ (p.becomeActive s).tickJobs = p.tickJobs := by simp [Part.becomeActive]

@[simp] theorem Part.becomeNone_frame (cause : ActiveCause) (p : Part) :
    (p.becomeNone cause).power = p.power ∧ (p.becomeNone cause).seats = p.seats ∧
    (p.becomeNone cause).pressSeq = p.pressSeq ∧ (p.becomeNone cause).presses = p.presses ∧
    (p.becomeNone cause).zones = p.zones ∧ (p.becomeNone cause).sched = p.sched ∧ (p.becomeNone cause).floor = p.floor ∧
    (p.becomeNone cause).mixer = p.mixer ∧ (p.becomeNone cause).chainA = p.chainA ∧ (p.becomeNone cause).chainB = p.chainB ∧
    (p.becomeNone cause).owed = p.owed ∧ (p.becomeNone cause).tickJobs = p.tickJobs := by simp [Part.becomeNone]

@[simp] theorem Part.settleEnded_frame (p : Part) :
    (p.settleEnded).power = p.power ∧ (p.settleEnded).link = p.link ∧ (p.settleEnded).seats = p.seats ∧
    (p.settleEnded).pressSeq = p.pressSeq ∧ (p.settleEnded).presses = p.presses ∧ (p.settleEnded).zones = p.zones ∧
    (p.settleEnded).sched = p.sched ∧ (p.settleEnded).floor = p.floor ∧ (p.settleEnded).mixer = p.mixer ∧
    (p.settleEnded).chainA = p.chainA ∧ (p.settleEnded).chainB = p.chainB ∧ (p.settleEnded).owed = p.owed ∧
    (p.settleEnded).tickJobs = p.tickJobs := by
  simp only [Part.settleEnded]
  (repeat' split) <;> simp

@[simp] theorem Part.switchDue_frame (p : Part) :
    (p.switchDue).power = p.power ∧ (p.switchDue).seats = p.seats ∧ (p.switchDue).pressSeq = p.pressSeq ∧
    (p.switchDue).presses = p.presses ∧ (p.switchDue).zones = p.zones ∧ (p.switchDue).sched = p.sched ∧
    (p.switchDue).floor = p.floor ∧ (p.switchDue).mixer = p.mixer ∧ (p.switchDue).chainA = p.chainA ∧
    (p.switchDue).chainB = p.chainB ∧ (p.switchDue).owed = p.owed ∧ (p.switchDue).tickJobs = p.tickJobs := by
  unfold Part.switchDue
  (repeat' split) <;> simp

@[simp] theorem Part.idleDue_frame (p : Part) :
    (p.idleDue).power = p.power ∧ (p.idleDue).seats = p.seats ∧ (p.idleDue).pressSeq = p.pressSeq ∧
    (p.idleDue).presses = p.presses ∧ (p.idleDue).zones = p.zones ∧ (p.idleDue).sched = p.sched ∧
    (p.idleDue).floor = p.floor ∧ (p.idleDue).mixer = p.mixer ∧ (p.idleDue).chainA = p.chainA ∧
    (p.idleDue).chainB = p.chainB ∧ (p.idleDue).owed = p.owed ∧ (p.idleDue).tickJobs = p.tickJobs := by
  unfold Part.idleDue
  (repeat' split) <;> simp

@[simp] theorem Part.directorClose_frame (s : Seat) (p : Part) :
    (p.directorClose s).power = p.power ∧ (p.directorClose s).seats = p.seats ∧ (p.directorClose s).pressSeq = p.pressSeq ∧
    (p.directorClose s).presses = p.presses ∧ (p.directorClose s).zones = p.zones ∧ (p.directorClose s).sched = p.sched ∧
    (p.directorClose s).floor = p.floor ∧ (p.directorClose s).mixer = p.mixer ∧ (p.directorClose s).chainA = p.chainA ∧
    (p.directorClose s).chainB = p.chainB ∧ (p.directorClose s).owed = p.owed ∧ (p.directorClose s).tickJobs = p.tickJobs := by
  unfold Part.directorClose
  (repeat' split) <;> simp

@[simp] theorem Part.directorSessionClose_frame (p : Part) :
    (p.directorSessionClose).power = p.power ∧ (p.directorSessionClose).seats = p.seats ∧
    (p.directorSessionClose).pressSeq = p.pressSeq ∧ (p.directorSessionClose).presses = p.presses ∧
    (p.directorSessionClose).zones = p.zones ∧ (p.directorSessionClose).sched = p.sched ∧
    (p.directorSessionClose).floor = p.floor ∧ (p.directorSessionClose).mixer = p.mixer ∧
    (p.directorSessionClose).chainA = p.chainA ∧ (p.directorSessionClose).chainB = p.chainB ∧
    (p.directorSessionClose).owed = p.owed ∧ (p.directorSessionClose).tickJobs = p.tickJobs := by
  unfold Part.directorSessionClose
  dsimp only
  split <;> simp

@[simp] theorem Part.directorStandby_frame (p : Part) :
    (p.directorStandby).power = p.power ∧ (p.directorStandby).link = p.link ∧ (p.directorStandby).seats = p.seats ∧
    (p.directorStandby).pressSeq = p.pressSeq ∧ (p.directorStandby).presses = p.presses ∧
    (p.directorStandby).zones = p.zones ∧ (p.directorStandby).sched = p.sched ∧ (p.directorStandby).floor = p.floor ∧
    (p.directorStandby).mixer = p.mixer ∧ (p.directorStandby).chainA = p.chainA ∧ (p.directorStandby).chainB = p.chainB ∧
    (p.directorStandby).owed = p.owed ∧ (p.directorStandby).tickJobs = p.tickJobs := by simp [Part.directorStandby]

/-! ### Floor controller -/

@[simp] theorem Part.chainOpen_frame (s : Seat) (lane : Nat) (p : Part) :
    (p.chainOpen s lane).power = p.power ∧ (p.chainOpen s lane).link = p.link ∧ (p.chainOpen s lane).seats = p.seats ∧
    (p.chainOpen s lane).pressSeq = p.pressSeq ∧ (p.chainOpen s lane).presses = p.presses ∧
    (p.chainOpen s lane).zones = p.zones ∧ (p.chainOpen s lane).sched = p.sched ∧ (p.chainOpen s lane).floor = p.floor ∧
    (p.chainOpen s lane).mixer = p.mixer ∧ (p.chainOpen s lane).director = p.director ∧
    (p.chainOpen s lane).screens = p.screens ∧ (p.chainOpen s lane).owed = p.owed ∧
    (p.chainOpen s lane).tickJobs = p.tickJobs := by simp [Part.chainOpen]

@[simp] theorem Part.chainClose_frame (s : Seat) (lane : Nat) (p : Part) :
    (p.chainClose s lane).power = p.power ∧ (p.chainClose s lane).link = p.link ∧ (p.chainClose s lane).seats = p.seats ∧
    (p.chainClose s lane).pressSeq = p.pressSeq ∧ (p.chainClose s lane).presses = p.presses ∧
    (p.chainClose s lane).zones = p.zones ∧ (p.chainClose s lane).sched = p.sched ∧ (p.chainClose s lane).floor = p.floor ∧
    (p.chainClose s lane).mixer = p.mixer ∧ (p.chainClose s lane).director = p.director ∧
    (p.chainClose s lane).screens = p.screens ∧ (p.chainClose s lane).owed = p.owed ∧
    (p.chainClose s lane).tickJobs = p.tickJobs := by simp [Part.chainClose]

@[simp] theorem Part.openWith_frame (e : Speaker) (p : Part) :
    (p.openWith e).power = p.power ∧ (p.openWith e).pressSeq = p.pressSeq ∧ (p.openWith e).presses = p.presses ∧
    (p.openWith e).zones = p.zones ∧ (p.openWith e).sched = p.sched ∧ (p.openWith e).owed = p.owed ∧
    (p.openWith e).tickJobs = p.tickJobs := by
  simp only [Part.openWith]
  split <;> simp

@[simp] theorem Part.openMic_frame (s : Seat) (kind : Kind) (source : Source) (duringFreeze : Bool) (restored : Option (Option Nat × Bool)) (p : Part) :
    (p.openMic s kind source duringFreeze restored).power = p.power ∧
    (p.openMic s kind source duringFreeze restored).pressSeq = p.pressSeq ∧
    (p.openMic s kind source duringFreeze restored).presses = p.presses ∧
    (p.openMic s kind source duringFreeze restored).zones = p.zones ∧
    (p.openMic s kind source duringFreeze restored).sched = p.sched ∧
    (p.openMic s kind source duringFreeze restored).owed = p.owed ∧
    (p.openMic s kind source duringFreeze restored).tickJobs = p.tickJobs := by
  unfold Part.openMic
  (repeat' split) <;> simp

@[simp] theorem Part.closeWith_frame (e : Speaker) (cause : Option CloseCause) (p : Part) :
    (p.closeWith e cause).power = p.power ∧ (p.closeWith e cause).pressSeq = p.pressSeq ∧
    (p.closeWith e cause).presses = p.presses ∧ (p.closeWith e cause).zones = p.zones ∧
    (p.closeWith e cause).sched = p.sched ∧ (p.closeWith e cause).owed = p.owed ∧
    (p.closeWith e cause).tickJobs = p.tickJobs := by
  cases cause <;> simp only [Part.closeWith] <;> (repeat' split) <;> simp

@[simp] theorem Part.closeMic_frame (s : Seat) (cause : Option CloseCause) (p : Part) :
    (p.closeMic s cause).power = p.power ∧ (p.closeMic s cause).pressSeq = p.pressSeq ∧
    (p.closeMic s cause).presses = p.presses ∧ (p.closeMic s cause).zones = p.zones ∧ (p.closeMic s cause).sched = p.sched ∧
    (p.closeMic s cause).owed = p.owed ∧ (p.closeMic s cause).tickJobs = p.tickJobs := by
  unfold Part.closeMic
  (repeat' split) <;> simp

@[simp] theorem Part.closeSeats_frame (seats : List Seat) (cause : Option CloseCause) (p : Part) :
    (p.closeSeats seats cause).power = p.power ∧ (p.closeSeats seats cause).pressSeq = p.pressSeq ∧
    (p.closeSeats seats cause).presses = p.presses ∧ (p.closeSeats seats cause).zones = p.zones ∧
    (p.closeSeats seats cause).sched = p.sched ∧ (p.closeSeats seats cause).owed = p.owed ∧
    (p.closeSeats seats cause).tickJobs = p.tickJobs := by
  unfold Part.closeSeats
  induction seats generalizing p with
  | nil => simp
  | cons x xs ih => simp [ih]

@[simp] theorem Part.advanceWith_frame (n : Nat) (p : Part) :
    (p.advanceWith n).power = p.power ∧ (p.advanceWith n).pressSeq = p.pressSeq ∧ (p.advanceWith n).presses = p.presses ∧
    (p.advanceWith n).zones = p.zones ∧ (p.advanceWith n).sched = p.sched ∧ (p.advanceWith n).owed = p.owed ∧
    (p.advanceWith n).tickJobs = p.tickJobs := by
  induction n generalizing p with
  | zero => simp [Part.advanceWith]
  | succ n ih =>
    simp only [Part.advanceWith]
    (repeat' split) <;> simp [ih]

@[simp] theorem Part.autoAdvance_frame (p : Part) :
    (p.autoAdvance).power = p.power ∧ (p.autoAdvance).pressSeq = p.pressSeq ∧ (p.autoAdvance).presses = p.presses ∧
    (p.autoAdvance).zones = p.zones ∧ (p.autoAdvance).sched = p.sched ∧ (p.autoAdvance).owed = p.owed ∧
    (p.autoAdvance).tickJobs = p.tickJobs := by
  unfold Part.autoAdvance
  (repeat' split) <;> simp

@[simp] theorem Part.endFloorEvent_frame (before : List QueueEntry) (p : Part) :
    (p.endFloorEvent before).power = p.power ∧ (p.endFloorEvent before).seats = p.seats ∧
    (p.endFloorEvent before).pressSeq = p.pressSeq ∧ (p.endFloorEvent before).presses = p.presses ∧
    (p.endFloorEvent before).zones = p.zones ∧ (p.endFloorEvent before).sched = p.sched ∧
    (p.endFloorEvent before).mixer = p.mixer ∧ (p.endFloorEvent before).director = p.director ∧
    (p.endFloorEvent before).screens = p.screens ∧ (p.endFloorEvent before).chainA = p.chainA ∧
    (p.endFloorEvent before).chainB = p.chainB ∧ (p.endFloorEvent before).owed = p.owed ∧
    (p.endFloorEvent before).tickJobs = p.tickJobs := by
  unfold Part.endFloorEvent
  (repeat' split) <;> simp

@[simp] theorem Part.appendSeat_frame (s : Seat) (source : Source) (p : Part) :
    (p.appendSeat s source).power = p.power ∧ (p.appendSeat s source).link = p.link ∧
    (p.appendSeat s source).pressSeq = p.pressSeq ∧ (p.appendSeat s source).presses = p.presses ∧
    (p.appendSeat s source).zones = p.zones ∧ (p.appendSeat s source).sched = p.sched ∧
    (p.appendSeat s source).mixer = p.mixer ∧ (p.appendSeat s source).director = p.director ∧
    (p.appendSeat s source).screens = p.screens ∧ (p.appendSeat s source).owed = p.owed ∧
    (p.appendSeat s source).tickJobs = p.tickJobs := by simp [Part.appendSeat]

@[simp] theorem Part.appendOrFull_frame (s : Seat) (source : Source) (p : Part) :
    (p.appendOrFull s source).2.power = p.power ∧ (p.appendOrFull s source).2.pressSeq = p.pressSeq ∧
    (p.appendOrFull s source).2.presses = p.presses ∧ (p.appendOrFull s source).2.zones = p.zones ∧
    (p.appendOrFull s source).2.sched = p.sched ∧ (p.appendOrFull s source).2.mixer = p.mixer ∧
    (p.appendOrFull s source).2.director = p.director ∧ (p.appendOrFull s source).2.screens = p.screens ∧
    (p.appendOrFull s source).2.owed = p.owed ∧ (p.appendOrFull s source).2.tickJobs = p.tickJobs := by
  unfold Part.appendOrFull
  (repeat' split) <;> simp

@[simp] theorem Part.replaceWith_frame (e : Speaker) (s : Seat) (source : Source) (duringFreeze : Bool) (p : Part) :
    (p.replaceWith e s source duringFreeze).power = p.power ∧
    (p.replaceWith e s source duringFreeze).pressSeq = p.pressSeq ∧
    (p.replaceWith e s source duringFreeze).presses = p.presses ∧ (p.replaceWith e s source duringFreeze).zones = p.zones ∧
    (p.replaceWith e s source duringFreeze).sched = p.sched ∧ (p.replaceWith e s source duringFreeze).owed = p.owed ∧
    (p.replaceWith e s source duringFreeze).tickJobs = p.tickJobs := by simp [Part.replaceWith]

@[simp] theorem Part.requestDelegate_frame (s : Seat) (source : Source) (p : Part) :
    (p.requestDelegate s source).2.power = p.power ∧ (p.requestDelegate s source).2.pressSeq = p.pressSeq ∧
    (p.requestDelegate s source).2.presses = p.presses ∧ (p.requestDelegate s source).2.zones = p.zones ∧
    (p.requestDelegate s source).2.sched = p.sched ∧ (p.requestDelegate s source).2.owed = p.owed ∧
    (p.requestDelegate s source).2.tickJobs = p.tickJobs := by
  unfold Part.requestDelegate
  (repeat' split) <;> simp

@[simp] theorem Part.requeuePreempted_frame (e : Speaker) (p : Part) :
    (p.requeuePreempted e).power = p.power ∧ (p.requeuePreempted e).pressSeq = p.pressSeq ∧
    (p.requeuePreempted e).presses = p.presses ∧ (p.requeuePreempted e).zones = p.zones ∧
    (p.requeuePreempted e).sched = p.sched ∧ (p.requeuePreempted e).mixer = p.mixer ∧
    (p.requeuePreempted e).director = p.director ∧ (p.requeuePreempted e).screens = p.screens ∧
    (p.requeuePreempted e).owed = p.owed ∧ (p.requeuePreempted e).tickJobs = p.tickJobs := by
  unfold Part.requeuePreempted
  (repeat' split) <;> simp

@[simp] theorem Part.openChair_frame (s : Seat) (source : Source) (p : Part) :
    (p.openChair s source).2.power = p.power ∧ (p.openChair s source).2.pressSeq = p.pressSeq ∧
    (p.openChair s source).2.presses = p.presses ∧ (p.openChair s source).2.zones = p.zones ∧
    (p.openChair s source).2.sched = p.sched ∧ (p.openChair s source).2.owed = p.owed ∧
    (p.openChair s source).2.tickJobs = p.tickJobs := by
  unfold Part.openChair
  (repeat' split) <;> simp

@[simp] theorem Part.requestChair_frame (s : Seat) (source : Source) (p : Part) :
    (p.requestChair s source).2.power = p.power ∧ (p.requestChair s source).2.pressSeq = p.pressSeq ∧
    (p.requestChair s source).2.presses = p.presses ∧ (p.requestChair s source).2.zones = p.zones ∧
    (p.requestChair s source).2.sched = p.sched ∧ (p.requestChair s source).2.owed = p.owed ∧
    (p.requestChair s source).2.tickJobs = p.tickJobs := by
  unfold Part.requestChair
  (repeat' split) <;> simp

@[simp] theorem Part.withdraw_frame (s : Seat) (p : Part) :
    (p.withdraw s).power = p.power ∧ (p.withdraw s).link = p.link ∧ (p.withdraw s).pressSeq = p.pressSeq ∧
    (p.withdraw s).presses = p.presses ∧ (p.withdraw s).zones = p.zones ∧ (p.withdraw s).sched = p.sched ∧
    (p.withdraw s).mixer = p.mixer ∧ (p.withdraw s).director = p.director ∧ (p.withdraw s).screens = p.screens ∧
    (p.withdraw s).owed = p.owed ∧ (p.withdraw s).tickJobs = p.tickJobs := by simp [Part.withdraw]

@[simp] theorem Part.unhold_frame (s : Seat) (p : Part) :
    (p.unhold s).power = p.power ∧ (p.unhold s).link = p.link ∧ (p.unhold s).pressSeq = p.pressSeq ∧
    (p.unhold s).presses = p.presses ∧ (p.unhold s).zones = p.zones ∧ (p.unhold s).sched = p.sched ∧
    (p.unhold s).mixer = p.mixer ∧ (p.unhold s).director = p.director ∧ (p.unhold s).screens = p.screens ∧
    (p.unhold s).owed = p.owed ∧ (p.unhold s).tickJobs = p.tickJobs := by simp [Part.unhold]

@[simp] theorem Part.resolvePress_frame (s : Seat) (pressNo : Word32) (source : Source) (p : Part) :
    (p.resolvePress s pressNo source).power = p.power ∧ (p.resolvePress s pressNo source).pressSeq = p.pressSeq ∧
    (p.resolvePress s pressNo source).presses = p.presses ∧ (p.resolvePress s pressNo source).zones = p.zones ∧
    (p.resolvePress s pressNo source).sched = p.sched ∧ (p.resolvePress s pressNo source).owed = p.owed ∧
    (p.resolvePress s pressNo source).tickJobs = p.tickJobs := by
  unfold Part.resolvePress Part.denyIfDenied
  (repeat' split) <;> simp

@[simp] theorem Part.resolveVoice_frame (s : Seat) (p : Part) :
    (p.resolveVoice s).power = p.power ∧ (p.resolveVoice s).pressSeq = p.pressSeq ∧ (p.resolveVoice s).presses = p.presses ∧
    (p.resolveVoice s).zones = p.zones ∧ (p.resolveVoice s).sched = p.sched ∧ (p.resolveVoice s).owed = p.owed ∧
    (p.resolveVoice s).tickJobs = p.tickJobs := by
  unfold Part.resolveVoice
  (repeat' split) <;> simp

@[simp] theorem Part.voiceReport_frame (s : Seat) (voice : Bool) (p : Part) :
    (p.voiceReport s voice).power = p.power ∧ (p.voiceReport s voice).pressSeq = p.pressSeq ∧
    (p.voiceReport s voice).presses = p.presses ∧ (p.voiceReport s voice).zones = p.zones ∧
    (p.voiceReport s voice).sched = p.sched ∧ (p.voiceReport s voice).owed = p.owed ∧
    (p.voiceReport s voice).tickJobs = p.tickJobs := by
  unfold Part.voiceReport
  (repeat' split) <;> simp

@[simp] theorem Part.floorLost_frame (s : Seat) (p : Part) :
    (p.floorLost s).power = p.power ∧ (p.floorLost s).pressSeq = p.pressSeq ∧ (p.floorLost s).presses = p.presses ∧
    (p.floorLost s).zones = p.zones ∧ (p.floorLost s).sched = p.sched ∧ (p.floorLost s).owed = p.owed ∧
    (p.floorLost s).tickJobs = p.tickJobs := by
  simp only [Part.floorLost]
  split <;> simp

@[simp] theorem Part.floorRetrain_frame (c : Chain) (p : Part) :
    (p.floorRetrain c).power = p.power ∧ (p.floorRetrain c).pressSeq = p.pressSeq ∧ (p.floorRetrain c).presses = p.presses ∧
    (p.floorRetrain c).zones = p.zones ∧ (p.floorRetrain c).sched = p.sched ∧ (p.floorRetrain c).owed = p.owed ∧
    (p.floorRetrain c).tickJobs = p.tickJobs := by simp [Part.floorRetrain]

@[simp] theorem Part.floorStanding_frame (s : Seat) (old new : Standing) (p : Part) :
    (p.floorStanding s old new).power = p.power ∧ (p.floorStanding s old new).pressSeq = p.pressSeq ∧
    (p.floorStanding s old new).presses = p.presses ∧ (p.floorStanding s old new).zones = p.zones ∧
    (p.floorStanding s old new).sched = p.sched ∧ (p.floorStanding s old new).owed = p.owed ∧
    (p.floorStanding s old new).tickJobs = p.tickJobs := by
  simp only [Part.floorStanding]
  (repeat' split) <;> simp

@[simp] theorem Part.floorSessionClose_frame (p : Part) :
    (p.floorSessionClose).power = p.power ∧ (p.floorSessionClose).pressSeq = p.pressSeq ∧
    (p.floorSessionClose).presses = p.presses ∧ (p.floorSessionClose).zones = p.zones ∧
    (p.floorSessionClose).sched = p.sched ∧ (p.floorSessionClose).owed = p.owed ∧
    (p.floorSessionClose).tickJobs = p.tickJobs := by simp [Part.floorSessionClose]

/-! ### Priority -/

@[simp] theorem Part.notifyPriority_frame (action : PriorityAction) (holder : Option Holder) (seats : List Seat) (p : Part) :
    (p.notifyPriority action holder seats).power = p.power ∧ (p.notifyPriority action holder seats).seats = p.seats ∧
    (p.notifyPriority action holder seats).pressSeq = p.pressSeq ∧
    (p.notifyPriority action holder seats).presses = p.presses ∧ (p.notifyPriority action holder seats).zones = p.zones ∧
    (p.notifyPriority action holder seats).sched = p.sched ∧ (p.notifyPriority action holder seats).floor = p.floor ∧
    (p.notifyPriority action holder seats).mixer = p.mixer ∧ (p.notifyPriority action holder seats).director = p.director ∧
    (p.notifyPriority action holder seats).screens = p.screens ∧ (p.notifyPriority action holder seats).chainA = p.chainA ∧
    (p.notifyPriority action holder seats).chainB = p.chainB ∧ (p.notifyPriority action holder seats).owed = p.owed ∧
    (p.notifyPriority action holder seats).tickJobs = p.tickJobs := by simp [Part.notifyPriority]

@[simp] theorem Part.deriveHolder_frame (h : Holder) (p : Part) :
    (p.deriveHolder h).power = p.power ∧ (p.deriveHolder h).link = p.link ∧ (p.deriveHolder h).pressSeq = p.pressSeq ∧
    (p.deriveHolder h).presses = p.presses ∧ (p.deriveHolder h).zones = p.zones ∧ (p.deriveHolder h).sched = p.sched ∧
    (p.deriveHolder h).floor = p.floor ∧ (p.deriveHolder h).mixer = p.mixer ∧ (p.deriveHolder h).director = p.director ∧
    (p.deriveHolder h).screens = p.screens ∧ (p.deriveHolder h).owed = p.owed ∧ (p.deriveHolder h).tickJobs = p.tickJobs := by
  unfold Part.deriveHolder
  (repeat' split) <;> simp

@[simp] theorem Part.join_frame (h : Holder) (p : Part) :
    (p.join h).power = p.power ∧ (p.join h).link = p.link ∧ (p.join h).pressSeq = p.pressSeq ∧
    (p.join h).presses = p.presses ∧ (p.join h).zones = p.zones ∧ (p.join h).sched = p.sched ∧ (p.join h).mixer = p.mixer ∧
    (p.join h).director = p.director ∧ (p.join h).screens = p.screens ∧ (p.join h).owed = p.owed ∧
    (p.join h).tickJobs = p.tickJobs := by simp [Part.join]

@[simp] theorem Part.leave_frame (h : Holder) (p : Part) :
    (p.leave h).power = p.power ∧ (p.leave h).link = p.link ∧ (p.leave h).pressSeq = p.pressSeq ∧
    (p.leave h).presses = p.presses ∧ (p.leave h).zones = p.zones ∧ (p.leave h).sched = p.sched ∧
    (p.leave h).mixer = p.mixer ∧ (p.leave h).director = p.director ∧ (p.leave h).screens = p.screens ∧
    (p.leave h).owed = p.owed ∧ (p.leave h).tickJobs = p.tickJobs := by simp [Part.leave]

@[simp] theorem Part.leaveSaved_frame (s : Seat) (p : Part) :
    (p.leaveSaved s).power = p.power ∧ (p.leaveSaved s).pressSeq = p.pressSeq ∧ (p.leaveSaved s).presses = p.presses ∧
    (p.leaveSaved s).zones = p.zones ∧ (p.leaveSaved s).sched = p.sched ∧ (p.leaveSaved s).mixer = p.mixer ∧
    (p.leaveSaved s).director = p.director ∧ (p.leaveSaved s).owed = p.owed ∧ (p.leaveSaved s).tickJobs = p.tickJobs := by
  unfold Part.leaveSaved
  (repeat' split) <;> simp

@[simp] theorem Part.floorReset_frame (p : Part) :
    (p.floorReset).power = p.power ∧ (p.floorReset).pressSeq = p.pressSeq ∧ (p.floorReset).presses = p.presses ∧
    (p.floorReset).zones = p.zones ∧ (p.floorReset).sched = p.sched ∧ (p.floorReset).owed = p.owed ∧
    (p.floorReset).tickJobs = p.tickJobs := by
  simp only [Part.floorReset]
  split <;> simp

@[simp] theorem Part.discardBottom_frame (p : Part) :
    (p.discardBottom).power = p.power ∧ (p.discardBottom).pressSeq = p.pressSeq ∧ (p.discardBottom).presses = p.presses ∧
    (p.discardBottom).zones = p.zones ∧ (p.discardBottom).sched = p.sched ∧ (p.discardBottom).mixer = p.mixer ∧
    (p.discardBottom).director = p.director ∧ (p.discardBottom).owed = p.owed ∧ (p.discardBottom).tickJobs = p.tickJobs := by
  simp only [Part.discardBottom]
  (repeat' split) <;> simp

@[simp] theorem Part.makeRoom_frame (p : Part) :
    (p.makeRoom).power = p.power ∧ (p.makeRoom).pressSeq = p.pressSeq ∧ (p.makeRoom).presses = p.presses ∧
    (p.makeRoom).zones = p.zones ∧ (p.makeRoom).sched = p.sched ∧ (p.makeRoom).owed = p.owed ∧
    (p.makeRoom).tickJobs = p.tickJobs := by
  unfold Part.makeRoom
  (repeat' split) <;> simp

@[simp] theorem Part.chairMic_frame (h : Holder) (p : Part) :
    (p.chairMic h).power = p.power ∧ (p.chairMic h).pressSeq = p.pressSeq ∧ (p.chairMic h).presses = p.presses ∧
    (p.chairMic h).zones = p.zones ∧ (p.chairMic h).sched = p.sched ∧ (p.chairMic h).owed = p.owed ∧
    (p.chairMic h).tickJobs = p.tickJobs := by
  unfold Part.chairMic
  (repeat' split) <;> simp

@[simp] theorem Part.take_frame (h : Holder) (p : Part) :
    (p.take h).power = p.power ∧ (p.take h).pressSeq = p.pressSeq ∧ (p.take h).presses = p.presses ∧
    (p.take h).zones = p.zones ∧ (p.take h).sched = p.sched ∧ (p.take h).owed = p.owed ∧ (p.take h).tickJobs = p.tickJobs := by simp [Part.take]

@[simp] theorem Part.retake_frame (h : Holder) (p : Part) :
    (p.retake h).power = p.power ∧ (p.retake h).pressSeq = p.pressSeq ∧ (p.retake h).presses = p.presses ∧
    (p.retake h).zones = p.zones ∧ (p.retake h).sched = p.sched ∧ (p.retake h).owed = p.owed ∧
    (p.retake h).tickJobs = p.tickJobs := by simp [Part.retake]

@[simp] theorem Part.processHeld_frame (p : Part) :
    (p.processHeld).power = p.power ∧ (p.processHeld).pressSeq = p.pressSeq ∧ (p.processHeld).presses = p.presses ∧
    (p.processHeld).zones = p.zones ∧ (p.processHeld).sched = p.sched ∧ (p.processHeld).owed = p.owed ∧
    (p.processHeld).tickJobs = p.tickJobs := by
  unfold Part.processHeld
  generalize p.floor.held = held
  induction held generalizing p with
  | nil => simp
  | cons x xs ih =>
    rw [List.foldl_cons]
    split <;> simp [ih]

@[simp] theorem Restore.seat_frame (r : Restore) (e : Saved) :
    (r.seat e).part.power = r.part.power ∧ (r.seat e).part.pressSeq = r.part.pressSeq ∧ (r.seat e).part.presses = r.part.presses ∧
    (r.seat e).part.zones = r.part.zones ∧ (r.seat e).part.sched = r.part.sched ∧ (r.seat e).part.owed = r.part.owed ∧
    (r.seat e).part.tickJobs = r.part.tickJobs := by
  simp only [Restore.seat]
  (repeat' split) <;> simp

@[simp] theorem Part.restoreFrame_frame (frame : ResumeFrame) (p : Part) :
    (p.restoreFrame frame).power = p.power ∧ (p.restoreFrame frame).pressSeq = p.pressSeq ∧
    (p.restoreFrame frame).presses = p.presses ∧ (p.restoreFrame frame).zones = p.zones ∧
    (p.restoreFrame frame).sched = p.sched ∧ (p.restoreFrame frame).owed = p.owed ∧
    (p.restoreFrame frame).tickJobs = p.tickJobs := by
  have h : ∀ (l : List Saved) (r : Restore),
      (l.foldl Restore.seat r).part.power = r.part.power ∧ (l.foldl Restore.seat r).part.pressSeq = r.part.pressSeq ∧
      (l.foldl Restore.seat r).part.presses = r.part.presses ∧ (l.foldl Restore.seat r).part.zones = r.part.zones ∧
      (l.foldl Restore.seat r).part.sched = r.part.sched ∧ (l.foldl Restore.seat r).part.owed = r.part.owed ∧
      (l.foldl Restore.seat r).part.tickJobs = r.part.tickJobs := by
    intro l
    induction l with
    | nil => simp
    | cons x xs ih => intro r; rw [List.foldl_cons]; simpa using ih (r.seat x)
  have h := h frame.saved ⟨p, 0, []⟩
  simp only [Part.restoreFrame]
  split <;> simp [h]

@[simp] theorem Part.popWith_frame (n : Nat) (p : Part) :
    (p.popWith n).power = p.power ∧ (p.popWith n).pressSeq = p.pressSeq ∧ (p.popWith n).presses = p.presses ∧
    (p.popWith n).zones = p.zones ∧ (p.popWith n).sched = p.sched ∧ (p.popWith n).owed = p.owed ∧
    (p.popWith n).tickJobs = p.tickJobs := by
  induction n generalizing p with
  | zero => simp [Part.popWith]
  | succ n ih =>
    simp only [Part.popWith]
    (repeat' split) <;> simp [ih]

@[simp] theorem Part.pop_frame (p : Part) :
    (p.pop).power = p.power ∧ (p.pop).pressSeq = p.pressSeq ∧ (p.pop).presses = p.presses ∧ (p.pop).zones = p.zones ∧
    (p.pop).sched = p.sched ∧ (p.pop).owed = p.owed ∧ (p.pop).tickJobs = p.tickJobs := by simp [Part.pop]

@[simp] theorem Part.release_frame (h : Holder) (p : Part) :
    (p.release h).power = p.power ∧ (p.release h).pressSeq = p.pressSeq ∧ (p.release h).presses = p.presses ∧
    (p.release h).zones = p.zones ∧ (p.release h).sched = p.sched ∧ (p.release h).owed = p.owed ∧
    (p.release h).tickJobs = p.tickJobs := by
  simp only [Part.release]
  (repeat' split) <;> simp

@[simp] theorem Part.takeOrRetake_frame (h : Holder) (p : Part) :
    (p.takeOrRetake h).power = p.power ∧ (p.takeOrRetake h).pressSeq = p.pressSeq ∧ (p.takeOrRetake h).presses = p.presses ∧
    (p.takeOrRetake h).zones = p.zones ∧ (p.takeOrRetake h).sched = p.sched ∧ (p.takeOrRetake h).owed = p.owed ∧
    (p.takeOrRetake h).tickJobs = p.tickJobs := by
  unfold Part.takeOrRetake
  (repeat' split) <;> simp

@[simp] theorem Part.chairAux_frame (s : Seat) (p : Part) :
    (p.chairAux s).power = p.power ∧ (p.chairAux s).pressSeq = p.pressSeq ∧ (p.chairAux s).presses = p.presses ∧
    (p.chairAux s).zones = p.zones ∧ (p.chairAux s).sched = p.sched ∧ (p.chairAux s).owed = p.owed ∧
    (p.chairAux s).tickJobs = p.tickJobs := by
  unfold Part.chairAux
  (repeat' split) <;> simp

@[simp] theorem Part.lostSeat_frame (s : Seat) (p : Part) :
    (p.lostSeat s).power = p.power ∧ (p.lostSeat s).pressSeq = p.pressSeq ∧ (p.lostSeat s).presses = p.presses ∧
    (p.lostSeat s).zones = p.zones ∧ (p.lostSeat s).sched = p.sched ∧ (p.lostSeat s).owed = p.owed ∧
    (p.lostSeat s).tickJobs = p.tickJobs := by simp [Part.lostSeat]

@[simp] theorem Part.changedStanding_frame (s : Seat) (old new : Standing) (p : Part) :
    (p.changedStanding s old new).power = p.power ∧ (p.changedStanding s old new).pressSeq = p.pressSeq ∧
    (p.changedStanding s old new).presses = p.presses ∧ (p.changedStanding s old new).zones = p.zones ∧
    (p.changedStanding s old new).sched = p.sched ∧ (p.changedStanding s old new).owed = p.owed ∧
    (p.changedStanding s old new).tickJobs = p.tickJobs := by
  simp only [Part.changedStanding]
  (repeat' split) <;> simp

@[simp] theorem Part.clearPriority_frame (p : Part) :
    (p.clearPriority).power = p.power ∧ (p.clearPriority).pressSeq = p.pressSeq ∧ (p.clearPriority).presses = p.presses ∧
    (p.clearPriority).zones = p.zones ∧ (p.clearPriority).sched = p.sched ∧ (p.clearPriority).mixer = p.mixer ∧
    (p.clearPriority).director = p.director ∧ (p.clearPriority).screens = p.screens ∧ (p.clearPriority).owed = p.owed ∧
    (p.clearPriority).tickJobs = p.tickJobs := by
  simp only [Part.clearPriority]
  split <;> simp

/-! ### Speech -/

@[simp] theorem Part.markPresent_frame (p : Part) :
    (p.markPresent).power = p.power ∧ (p.markPresent).link = p.link ∧ (p.markPresent).seats = p.seats ∧
    (p.markPresent).pressSeq = p.pressSeq ∧ (p.markPresent).presses = p.presses ∧ (p.markPresent).zones = p.zones ∧
    (p.markPresent).floor = p.floor ∧ (p.markPresent).mixer = p.mixer ∧ (p.markPresent).director = p.director ∧
    (p.markPresent).screens = p.screens ∧ (p.markPresent).chainA = p.chainA ∧ (p.markPresent).chainB = p.chainB ∧
    (p.markPresent).owed = p.owed ∧ (p.markPresent).tickJobs = p.tickJobs := by simp [Part.markPresent]

@[simp] theorem Part.tickEntry_frame (s : Seat) (p : Part) :
    (p.tickEntry s).power = p.power ∧ (p.tickEntry s).pressSeq = p.pressSeq ∧ (p.tickEntry s).presses = p.presses ∧
    (p.tickEntry s).zones = p.zones ∧ (p.tickEntry s).mixer = p.mixer ∧ (p.tickEntry s).director = p.director ∧
    (p.tickEntry s).screens = p.screens ∧ (p.tickEntry s).owed = p.owed ∧ (p.tickEntry s).tickJobs = p.tickJobs := by
  simp only [Part.tickEntry]
  (repeat' split) <;> simp

@[simp] theorem Part.expire_frame (s : Seat) (p : Part) :
    (p.expire s).power = p.power ∧ (p.expire s).pressSeq = p.pressSeq ∧ (p.expire s).presses = p.presses ∧
    (p.expire s).zones = p.zones ∧ (p.expire s).sched = p.sched ∧ (p.expire s).owed = p.owed ∧
    (p.expire s).tickJobs = p.tickJobs := by
  unfold Part.expire
  (repeat' split) <;> simp

@[simp] theorem Part.tickSilence_frame (s : Seat) (p : Part) :
    (p.tickSilence s).power = p.power ∧ (p.tickSilence s).link = p.link ∧ (p.tickSilence s).seats = p.seats ∧
    (p.tickSilence s).pressSeq = p.pressSeq ∧ (p.tickSilence s).presses = p.presses ∧ (p.tickSilence s).zones = p.zones ∧
    (p.tickSilence s).sched = p.sched ∧ (p.tickSilence s).mixer = p.mixer ∧ (p.tickSilence s).director = p.director ∧
    (p.tickSilence s).screens = p.screens ∧ (p.tickSilence s).chainA = p.chainA ∧ (p.tickSilence s).chainB = p.chainB ∧
    (p.tickSilence s).owed = p.owed ∧ (p.tickSilence s).tickJobs = p.tickJobs := by
  unfold Part.tickSilence
  (repeat' split) <;> simp

@[simp] theorem Part.silenceClose_frame (s : Seat) (p : Part) :
    (p.silenceClose s).power = p.power ∧ (p.silenceClose s).pressSeq = p.pressSeq ∧ (p.silenceClose s).presses = p.presses ∧
    (p.silenceClose s).zones = p.zones ∧ (p.silenceClose s).sched = p.sched ∧ (p.silenceClose s).owed = p.owed ∧
    (p.silenceClose s).tickJobs = p.tickJobs := by
  unfold Part.silenceClose
  (repeat' split) <;> simp

@[simp] theorem Part.extendEntry_frame (s : Seat) (time : Nat) (p : Part) :
    (p.extendEntry s time).power = p.power ∧ (p.extendEntry s time).link = p.link ∧
    (p.extendEntry s time).pressSeq = p.pressSeq ∧ (p.extendEntry s time).presses = p.presses ∧
    (p.extendEntry s time).zones = p.zones ∧ (p.extendEntry s time).sched = p.sched ∧
    (p.extendEntry s time).mixer = p.mixer ∧ (p.extendEntry s time).director = p.director ∧
    (p.extendEntry s time).screens = p.screens ∧ (p.extendEntry s time).owed = p.owed ∧
    (p.extendEntry s time).tickJobs = p.tickJobs := by simp [Part.extendEntry]

/-! ### Scheduler -/

@[simp] theorem Part.moveClock_frame (p : Part) :
    (p.moveClock).power = p.power ∧ (p.moveClock).link = p.link ∧ (p.moveClock).seats = p.seats ∧
    (p.moveClock).pressSeq = p.pressSeq ∧ (p.moveClock).presses = p.presses ∧ (p.moveClock).zones = p.zones ∧
    (p.moveClock).floor = p.floor ∧ (p.moveClock).mixer = p.mixer ∧ (p.moveClock).director = p.director ∧
    (p.moveClock).screens = p.screens ∧ (p.moveClock).chainA = p.chainA ∧ (p.moveClock).chainB = p.chainB ∧
    (p.moveClock).owed = p.owed ∧ (p.moveClock).tickJobs = p.tickJobs := by simp [Part.moveClock]

@[simp] theorem Part.pendBroadcast_frame (c : Chain) (p : Part) :
    (p.pendBroadcast c).power = p.power ∧ (p.pendBroadcast c).link = p.link ∧ (p.pendBroadcast c).seats = p.seats ∧
    (p.pendBroadcast c).pressSeq = p.pressSeq ∧ (p.pendBroadcast c).presses = p.presses ∧
    (p.pendBroadcast c).zones = p.zones ∧ (p.pendBroadcast c).sched = p.sched ∧ (p.pendBroadcast c).floor = p.floor ∧
    (p.pendBroadcast c).mixer = p.mixer ∧ (p.pendBroadcast c).director = p.director ∧
    (p.pendBroadcast c).screens = p.screens ∧ (p.pendBroadcast c).owed = p.owed ∧ (p.pendBroadcast c).tickJobs = p.tickJobs := by simp [Part.pendBroadcast]

@[simp] theorem Part.setRate_frame (rate : PollRate) (p : Part) :
    (p.setRate rate).power = p.power ∧ (p.setRate rate).link = p.link ∧ (p.setRate rate).seats = p.seats ∧
    (p.setRate rate).pressSeq = p.pressSeq ∧ (p.setRate rate).presses = p.presses ∧ (p.setRate rate).zones = p.zones ∧
    (p.setRate rate).sched = p.sched ∧ (p.setRate rate).floor = p.floor ∧ (p.setRate rate).mixer = p.mixer ∧
    (p.setRate rate).director = p.director ∧ (p.setRate rate).screens = p.screens ∧ (p.setRate rate).owed = p.owed ∧
    (p.setRate rate).tickJobs = p.tickJobs := by simp [Part.setRate]

@[simp] theorem Part.enterStandby_frame (p : Part) :
    (p.enterStandby).power = p.power ∧ (p.enterStandby).pressSeq = p.pressSeq ∧ (p.enterStandby).presses = p.presses ∧
    (p.enterStandby).zones = p.zones ∧ (p.enterStandby).floor = p.floor ∧ (p.enterStandby).owed = p.owed ∧
    (p.enterStandby).tickJobs = p.tickJobs := by simp [Part.enterStandby]

@[simp] theorem Part.wakeEvent_frame (p : Part) :
    (p.wakeEvent).power = p.power ∧ (p.wakeEvent).pressSeq = p.pressSeq ∧ (p.wakeEvent).presses = p.presses ∧
    (p.wakeEvent).zones = p.zones ∧ (p.wakeEvent).floor = p.floor ∧ (p.wakeEvent).director = p.director ∧
    (p.wakeEvent).owed = p.owed ∧ (p.wakeEvent).tickJobs = p.tickJobs := by
  unfold Part.wakeEvent
  (repeat' split) <;> simp

@[simp] theorem Part.standbyExpiry_frame (p : Part) :
    (p.standbyExpiry).power = p.power ∧ (p.standbyExpiry).pressSeq = p.pressSeq ∧ (p.standbyExpiry).presses = p.presses ∧
    (p.standbyExpiry).zones = p.zones ∧ (p.standbyExpiry).floor = p.floor ∧ (p.standbyExpiry).owed = p.owed ∧
    (p.standbyExpiry).tickJobs = p.tickJobs := by
  unfold Part.standbyExpiry
  (repeat' split) <;> simp

@[simp] theorem Part.tickStandby_frame (p : Part) :
    (p.tickStandby).power = p.power ∧ (p.tickStandby).link = p.link ∧ (p.tickStandby).seats = p.seats ∧
    (p.tickStandby).pressSeq = p.pressSeq ∧ (p.tickStandby).presses = p.presses ∧ (p.tickStandby).zones = p.zones ∧
    (p.tickStandby).floor = p.floor ∧ (p.tickStandby).mixer = p.mixer ∧ (p.tickStandby).director = p.director ∧
    (p.tickStandby).screens = p.screens ∧ (p.tickStandby).chainA = p.chainA ∧ (p.tickStandby).chainB = p.chainB ∧
    (p.tickStandby).owed = p.owed ∧ (p.tickStandby).tickJobs = p.tickJobs := by
  unfold Part.tickStandby
  (repeat' split) <;> simp

@[simp] theorem Part.setWarned_frame (w : Bool) (p : Part) :
    (p.setWarned w).power = p.power ∧ (p.setWarned w).link = p.link ∧ (p.setWarned w).seats = p.seats ∧
    (p.setWarned w).pressSeq = p.pressSeq ∧ (p.setWarned w).presses = p.presses ∧ (p.setWarned w).zones = p.zones ∧
    (p.setWarned w).floor = p.floor ∧ (p.setWarned w).mixer = p.mixer ∧ (p.setWarned w).director = p.director ∧
    (p.setWarned w).screens = p.screens ∧ (p.setWarned w).chainA = p.chainA ∧ (p.setWarned w).chainB = p.chainB ∧
    (p.setWarned w).owed = p.owed ∧ (p.setWarned w).tickJobs = p.tickJobs := by simp [Part.setWarned]

@[simp] theorem Part.endWarningTest_frame (p : Part) :
    (p.endWarningTest).power = p.power ∧ (p.endWarningTest).pressSeq = p.pressSeq ∧ (p.endWarningTest).presses = p.presses ∧
    (p.endWarningTest).zones = p.zones ∧ (p.endWarningTest).floor = p.floor ∧ (p.endWarningTest).mixer = p.mixer ∧
    (p.endWarningTest).director = p.director ∧ (p.endWarningTest).screens = p.screens ∧ (p.endWarningTest).owed = p.owed ∧
    (p.endWarningTest).tickJobs = p.tickJobs := by
  unfold Part.endWarningTest
  (repeat' split) <;> simp

@[simp] theorem Part.checkIn_frame (p : Part) :
    (p.checkIn).power = p.power ∧ (p.checkIn).link = p.link ∧ (p.checkIn).seats = p.seats ∧
    (p.checkIn).pressSeq = p.pressSeq ∧ (p.checkIn).presses = p.presses ∧ (p.checkIn).zones = p.zones ∧
    (p.checkIn).floor = p.floor ∧ (p.checkIn).mixer = p.mixer ∧ (p.checkIn).director = p.director ∧
    (p.checkIn).screens = p.screens ∧ (p.checkIn).chainA = p.chainA ∧ (p.checkIn).chainB = p.chainB ∧
    (p.checkIn).owed = p.owed ∧ (p.checkIn).tickJobs = p.tickJobs := by simp [Part.checkIn]

@[simp] theorem Part.fillSession_frame (b : Booking) (p : Part) :
    (p.fillSession b).power = p.power ∧ (p.fillSession b).link = p.link ∧ (p.fillSession b).seats = p.seats ∧
    (p.fillSession b).pressSeq = p.pressSeq ∧ (p.fillSession b).presses = p.presses ∧ (p.fillSession b).zones = p.zones ∧
    (p.fillSession b).floor = p.floor ∧ (p.fillSession b).mixer = p.mixer ∧ (p.fillSession b).director = p.director ∧
    (p.fillSession b).screens = p.screens ∧ (p.fillSession b).chainA = p.chainA ∧ (p.fillSession b).chainB = p.chainB ∧
    (p.fillSession b).owed = p.owed ∧ (p.fillSession b).tickJobs = p.tickJobs := by simp [Part.fillSession]

@[simp] theorem Part.openSession_frame (b : Booking) (p : Part) :
    (p.openSession b).power = p.power ∧ (p.openSession b).pressSeq = p.pressSeq ∧ (p.openSession b).presses = p.presses ∧
    (p.openSession b).zones = p.zones ∧ (p.openSession b).director = p.director ∧ (p.openSession b).owed = p.owed ∧
    (p.openSession b).tickJobs = p.tickJobs := by
  unfold Part.openSession
  dsimp only
  split <;> simp

@[simp] theorem Part.emptySession_frame (d : Session) (cause : SessionCause) (p : Part) :
    (p.emptySession d cause).power = p.power ∧ (p.emptySession d cause).seats = p.seats ∧
    (p.emptySession d cause).pressSeq = p.pressSeq ∧ (p.emptySession d cause).presses = p.presses ∧
    (p.emptySession d cause).zones = p.zones ∧ (p.emptySession d cause).floor = p.floor ∧
    (p.emptySession d cause).mixer = p.mixer ∧ (p.emptySession d cause).director = p.director ∧
    (p.emptySession d cause).screens = p.screens ∧ (p.emptySession d cause).chainA = p.chainA ∧
    (p.emptySession d cause).chainB = p.chainB ∧ (p.emptySession d cause).owed = p.owed ∧
    (p.emptySession d cause).tickJobs = p.tickJobs := by simp [Part.emptySession]

@[simp] theorem Part.closeSession_frame (cause : SessionCause) (p : Part) :
    (p.closeSession cause).power = p.power ∧ (p.closeSession cause).pressSeq = p.pressSeq ∧
    (p.closeSession cause).presses = p.presses ∧ (p.closeSession cause).zones = p.zones ∧
    (p.closeSession cause).owed = p.owed ∧ (p.closeSession cause).tickJobs = p.tickJobs := by
  unfold Part.closeSession
  split <;> simp [Part.floorEvent]

@[simp] theorem Part.endTest_frame (p : Part) :
    (p.endTest).power = p.power ∧ (p.endTest).pressSeq = p.pressSeq ∧ (p.endTest).presses = p.presses ∧
    (p.endTest).zones = p.zones ∧ (p.endTest).owed = p.owed ∧ (p.endTest).tickJobs = p.tickJobs := by
  unfold Part.endTest
  (repeat' split) <;> simp

@[simp] theorem Part.dropMissed_frame (p : Part) :
    (p.dropMissed).power = p.power ∧ (p.dropMissed).seats = p.seats ∧ (p.dropMissed).pressSeq = p.pressSeq ∧
    (p.dropMissed).presses = p.presses ∧ (p.dropMissed).zones = p.zones ∧ (p.dropMissed).floor = p.floor ∧
    (p.dropMissed).mixer = p.mixer ∧ (p.dropMissed).director = p.director ∧ (p.dropMissed).screens = p.screens ∧
    (p.dropMissed).chainA = p.chainA ∧ (p.dropMissed).chainB = p.chainB ∧ (p.dropMissed).owed = p.owed ∧
    (p.dropMissed).tickJobs = p.tickJobs := by
  unfold Part.dropMissed
  dsimp only
  generalize List.filter _ _ = gone
  generalize hq : p.modSched _ = q
  have h : q.power = p.power ∧ q.seats = p.seats ∧ q.pressSeq = p.pressSeq ∧ q.presses = p.presses ∧ q.zones = p.zones ∧
      q.floor = p.floor ∧ q.mixer = p.mixer ∧ q.director = p.director ∧ q.screens = p.screens ∧ q.chainA = p.chainA ∧
      q.chainB = p.chainB ∧ q.owed = p.owed ∧ q.tickJobs = p.tickJobs := by subst hq; simp
  clear hq
  induction gone generalizing q with
  | nil => simpa using h
  | cons x xs ih =>
    rw [List.foldl_cons]
    exact ih _ (by simpa using h)

@[simp] theorem Part.startTest_frame (p : Part) :
    (p.startTest).power = p.power ∧ (p.startTest).pressSeq = p.pressSeq ∧ (p.startTest).presses = p.presses ∧
    (p.startTest).zones = p.zones ∧ (p.startTest).director = p.director ∧ (p.startTest).owed = p.owed ∧
    (p.startTest).tickJobs = p.tickJobs := by
  unfold Part.startTest
  (repeat' split) <;> simp

@[simp] theorem Part.noShowTest_frame (p : Part) :
    (p.noShowTest).power = p.power ∧ (p.noShowTest).pressSeq = p.pressSeq ∧ (p.noShowTest).presses = p.presses ∧
    (p.noShowTest).zones = p.zones ∧ (p.noShowTest).owed = p.owed ∧ (p.noShowTest).tickJobs = p.tickJobs := by
  unfold Part.noShowTest
  (repeat' split) <;> simp

@[simp] theorem Part.bookingWork_frame (p : Part) :
    (p.bookingWork).power = p.power ∧ (p.bookingWork).pressSeq = p.pressSeq ∧ (p.bookingWork).presses = p.presses ∧
    (p.bookingWork).zones = p.zones ∧ (p.bookingWork).owed = p.owed ∧ (p.bookingWork).tickJobs = p.tickJobs := by simp [Part.bookingWork]

@[simp] theorem Part.minuteWork_frame (p : Part) :
    (p.minuteWork).power = p.power ∧ (p.minuteWork).pressSeq = p.pressSeq ∧ (p.minuteWork).presses = p.presses ∧
    (p.minuteWork).zones = p.zones ∧ (p.minuteWork).owed = p.owed ∧ (p.minuteWork).tickJobs = p.tickJobs := by
  unfold Part.minuteWork
  (repeat' split) <;> simp

@[simp] theorem Part.attemptAdhoc_frame (s : Seat) (p : Part) :
    (p.attemptAdhoc s).power = p.power ∧ (p.attemptAdhoc s).pressSeq = p.pressSeq ∧ (p.attemptAdhoc s).presses = p.presses ∧
    (p.attemptAdhoc s).zones = p.zones ∧ (p.attemptAdhoc s).director = p.director ∧ (p.attemptAdhoc s).owed = p.owed ∧
    (p.attemptAdhoc s).tickJobs = p.tickJobs := by
  unfold Part.attemptAdhoc
  dsimp only
  (repeat' split) <;> simp

@[simp] theorem Part.schedulerPress_frame (s : Seat) (button : Button) (p : Part) :
    (p.schedulerPress s button).power = p.power ∧ (p.schedulerPress s button).pressSeq = p.pressSeq ∧
    (p.schedulerPress s button).presses = p.presses ∧ (p.schedulerPress s button).zones = p.zones ∧
    (p.schedulerPress s button).director = p.director ∧ (p.schedulerPress s button).owed = p.owed ∧
    (p.schedulerPress s button).tickJobs = p.tickJobs := by
  unfold Part.schedulerPress
  dsimp only
  (repeat' split) <;> simp

@[simp] theorem Part.routePress_frame (s : Seat) (button : Button) (number : Word32) (p : Part) :
    (p.routePress s button number).power = p.power ∧ (p.routePress s button number).pressSeq = p.pressSeq ∧
    (p.routePress s button number).presses = p.presses ∧ (p.routePress s button number).zones = p.zones ∧
    (p.routePress s button number).sched = p.sched ∧ (p.routePress s button number).owed = p.owed ∧
    (p.routePress s button number).tickJobs = p.tickJobs := by
  unfold Part.routePress
  dsimp only
  (repeat' split) <;> simp [Part.floorEvent]

@[simp] theorem Part.takePress_frame (s : Seat) (button : Button) (p : Part) :
    (p.takePress s button).power = p.power ∧ (p.takePress s button).presses = p.presses ∧
    (p.takePress s button).zones = p.zones ∧ (p.takePress s button).owed = p.owed ∧
    (p.takePress s button).tickJobs = p.tickJobs := by
  unfold Part.takePress
  (repeat' split) <;> simp

/-! ### Chains -/

@[simp] theorem Part.modChainSeat_frame (s : Seat) (f : ChainSeat → ChainSeat) (p : Part) :
    (p.modChainSeat s f).power = p.power ∧ (p.modChainSeat s f).link = p.link ∧ (p.modChainSeat s f).seats = p.seats ∧
    (p.modChainSeat s f).pressSeq = p.pressSeq ∧ (p.modChainSeat s f).presses = p.presses ∧
    (p.modChainSeat s f).zones = p.zones ∧ (p.modChainSeat s f).sched = p.sched ∧ (p.modChainSeat s f).floor = p.floor ∧
    (p.modChainSeat s f).mixer = p.mixer ∧ (p.modChainSeat s f).director = p.director ∧
    (p.modChainSeat s f).screens = p.screens ∧ (p.modChainSeat s f).owed = p.owed ∧
    (p.modChainSeat s f).tickJobs = p.tickJobs := by simp [Part.modChainSeat]

@[simp] theorem Part.becomePresent_frame (s : Seat) (p : Part) :
    (p.becomePresent s).power = p.power ∧ (p.becomePresent s).pressSeq = p.pressSeq ∧
    (p.becomePresent s).presses = p.presses ∧ (p.becomePresent s).zones = p.zones ∧ (p.becomePresent s).sched = p.sched ∧
    (p.becomePresent s).owed = p.owed ∧ (p.becomePresent s).tickJobs = p.tickJobs := by simp [Part.becomePresent, Part.floorEvent]

@[simp] theorem Part.becomeHeld_frame (s : Seat) (p : Part) :
    (p.becomeHeld s).power = p.power ∧ (p.becomeHeld s).pressSeq = p.pressSeq ∧ (p.becomeHeld s).presses = p.presses ∧
    (p.becomeHeld s).zones = p.zones ∧ (p.becomeHeld s).sched = p.sched ∧ (p.becomeHeld s).floor = p.floor ∧
    (p.becomeHeld s).mixer = p.mixer ∧ (p.becomeHeld s).director = p.director ∧ (p.becomeHeld s).owed = p.owed ∧
    (p.becomeHeld s).tickJobs = p.tickJobs := by simp [Part.becomeHeld]

@[simp] theorem Part.becomeSilent_frame (s : Seat) (p : Part) :
    (p.becomeSilent s).power = p.power ∧ (p.becomeSilent s).pressSeq = p.pressSeq ∧ (p.becomeSilent s).presses = p.presses ∧
    (p.becomeSilent s).zones = p.zones ∧ (p.becomeSilent s).sched = p.sched ∧ (p.becomeSilent s).owed = p.owed ∧
    (p.becomeSilent s).tickJobs = p.tickJobs := by simp [Part.becomeSilent, Part.floorEvent]

@[simp] theorem Part.becomeAbsent_frame (s : Seat) (p : Part) :
    (p.becomeAbsent s).power = p.power ∧ (p.becomeAbsent s).pressSeq = p.pressSeq ∧ (p.becomeAbsent s).presses = p.presses ∧
    (p.becomeAbsent s).zones = p.zones ∧ (p.becomeAbsent s).sched = p.sched ∧ (p.becomeAbsent s).owed = p.owed ∧
    (p.becomeAbsent s).tickJobs = p.tickJobs := by simp [Part.becomeAbsent, Part.floorEvent]

@[simp] theorem Part.becomeAbsentAll_frame (seats : List Seat) (p : Part) :
    (p.becomeAbsentAll seats).power = p.power ∧ (p.becomeAbsentAll seats).pressSeq = p.pressSeq ∧
    (p.becomeAbsentAll seats).presses = p.presses ∧ (p.becomeAbsentAll seats).zones = p.zones ∧
    (p.becomeAbsentAll seats).sched = p.sched ∧ (p.becomeAbsentAll seats).owed = p.owed ∧
    (p.becomeAbsentAll seats).tickJobs = p.tickJobs := by
  unfold Part.becomeAbsentAll
  induction seats generalizing p with
  | nil => simp
  | cons x xs ih => simp [ih]

@[simp] theorem Part.notifySeat_frame (s : Seat) (event : SeatEvent) (link : LinkState) (p : Part) :
    (p.notifySeat s event link).power = p.power ∧ (p.notifySeat s event link).seats = p.seats ∧
    (p.notifySeat s event link).pressSeq = p.pressSeq ∧ (p.notifySeat s event link).presses = p.presses ∧
    (p.notifySeat s event link).zones = p.zones ∧ (p.notifySeat s event link).sched = p.sched ∧
    (p.notifySeat s event link).floor = p.floor ∧ (p.notifySeat s event link).mixer = p.mixer ∧
    (p.notifySeat s event link).director = p.director ∧ (p.notifySeat s event link).screens = p.screens ∧
    (p.notifySeat s event link).chainA = p.chainA ∧ (p.notifySeat s event link).chainB = p.chainB ∧
    (p.notifySeat s event link).owed = p.owed ∧ (p.notifySeat s event link).tickJobs = p.tickJobs := by simp [Part.notifySeat]

@[simp] theorem Part.notifyChain_frame (c : Chain) (madeAbsent : List Seat) (p : Part) :
    (p.notifyChain c madeAbsent).power = p.power ∧ (p.notifyChain c madeAbsent).seats = p.seats ∧
    (p.notifyChain c madeAbsent).pressSeq = p.pressSeq ∧ (p.notifyChain c madeAbsent).presses = p.presses ∧
    (p.notifyChain c madeAbsent).zones = p.zones ∧ (p.notifyChain c madeAbsent).sched = p.sched ∧
    (p.notifyChain c madeAbsent).floor = p.floor ∧ (p.notifyChain c madeAbsent).mixer = p.mixer ∧
    (p.notifyChain c madeAbsent).director = p.director ∧ (p.notifyChain c madeAbsent).screens = p.screens ∧
    (p.notifyChain c madeAbsent).chainA = p.chainA ∧ (p.notifyChain c madeAbsent).chainB = p.chainB ∧
    (p.notifyChain c madeAbsent).owed = p.owed ∧ (p.notifyChain c madeAbsent).tickJobs = p.tickJobs := by simp [Part.notifyChain]

@[simp] theorem Part.train_frame (c : Chain) (cause : ChainCause) (p : Part) :
    (p.train c cause).power = p.power ∧ (p.train c cause).pressSeq = p.pressSeq ∧ (p.train c cause).presses = p.presses ∧
    (p.train c cause).zones = p.zones ∧ (p.train c cause).sched = p.sched ∧ (p.train c cause).owed = p.owed ∧
    (p.train c cause).tickJobs = p.tickJobs := by simp [Part.train, Part.floorEvent]

@[simp] theorem Part.retrain_frame (c : Chain) (cause : ChainCause) (p : Part) :
    (p.retrain c cause).power = p.power ∧ (p.retrain c cause).pressSeq = p.pressSeq ∧
    (p.retrain c cause).presses = p.presses ∧ (p.retrain c cause).zones = p.zones ∧ (p.retrain c cause).sched = p.sched ∧
    (p.retrain c cause).owed = p.owed ∧ (p.retrain c cause).tickJobs = p.tickJobs := by
  unfold Part.retrain
  dsimp only
  generalize List.filter _ _ = seats
  generalize hq : p.modChain c ChainCtl.abandon = q
  have h : q.power = p.power ∧ q.pressSeq = p.pressSeq ∧ q.presses = p.presses ∧ q.zones = p.zones ∧ q.sched = p.sched ∧
      q.owed = p.owed ∧ q.tickJobs = p.tickJobs := by subst hq; simp
  clear hq
  induction seats generalizing q with
  | nil => simpa using h
  | cons x xs ih =>
    rw [List.foldl_cons]
    exact ih (q.becomeHeld x) (by simpa using h)

@[simp] theorem Part.switchOff_frame (c : Chain) (p : Part) :
    (p.switchOff c).power = p.power ∧ (p.switchOff c).pressSeq = p.pressSeq ∧ (p.switchOff c).presses = p.presses ∧
    (p.switchOff c).zones = p.zones ∧ (p.switchOff c).sched = p.sched ∧ (p.switchOff c).owed = p.owed ∧
    (p.switchOff c).tickJobs = p.tickJobs := by simp [Part.switchOff, Part.floorEvent]

@[simp] theorem Part.failedAttempt_frame (c : Chain) (p : Part) :
    (p.failedAttempt c).power = p.power ∧ (p.failedAttempt c).pressSeq = p.pressSeq ∧
    (p.failedAttempt c).presses = p.presses ∧ (p.failedAttempt c).zones = p.zones ∧ (p.failedAttempt c).sched = p.sched ∧
    (p.failedAttempt c).owed = p.owed ∧ (p.failedAttempt c).tickJobs = p.tickJobs := by
  unfold Part.failedAttempt
  dsimp only
  split <;> simp

@[simp] theorem Part.endAttempt_frame (c : Chain) (p : Part) :
    (p.endAttempt c).power = p.power ∧ (p.endAttempt c).pressSeq = p.pressSeq ∧ (p.endAttempt c).presses = p.presses ∧
    (p.endAttempt c).zones = p.zones ∧ (p.endAttempt c).sched = p.sched ∧ (p.endAttempt c).owed = p.owed ∧
    (p.endAttempt c).tickJobs = p.tickJobs := by
  unfold Part.endAttempt
  dsimp only
  split <;> simp

@[simp] theorem Part.attemptTimeout_frame (c : Chain) (p : Part) :
    (p.attemptTimeout c).power = p.power ∧ (p.attemptTimeout c).pressSeq = p.pressSeq ∧
    (p.attemptTimeout c).presses = p.presses ∧ (p.attemptTimeout c).zones = p.zones ∧ (p.attemptTimeout c).sched = p.sched ∧
    (p.attemptTimeout c).owed = p.owed ∧ (p.attemptTimeout c).tickJobs = p.tickJobs := by
  unfold Part.attemptTimeout
  dsimp only
  split <;> simp

@[simp] theorem Part.pairLocked_frame (c : Chain) (pair : Pair) (p : Part) :
    (p.pairLocked c pair).power = p.power ∧ (p.pairLocked c pair).pressSeq = p.pressSeq ∧
    (p.pairLocked c pair).presses = p.presses ∧ (p.pairLocked c pair).zones = p.zones ∧
    (p.pairLocked c pair).sched = p.sched ∧ (p.pairLocked c pair).owed = p.owed ∧
    (p.pairLocked c pair).tickJobs = p.tickJobs := by
  unfold Part.pairLocked
  dsimp only
  (repeat' split) <;> simp

@[simp] theorem Part.lockLost_frame (c : Chain) (pair : Pair) (p : Part) :
    (p.lockLost c pair).power = p.power ∧ (p.lockLost c pair).pressSeq = p.pressSeq ∧
    (p.lockLost c pair).presses = p.presses ∧ (p.lockLost c pair).zones = p.zones ∧ (p.lockLost c pair).sched = p.sched ∧
    (p.lockLost c pair).owed = p.owed ∧ (p.lockLost c pair).tickJobs = p.tickJobs := by
  unfold Part.lockLost
  dsimp only
  (repeat' split) <;> simp

@[simp] theorem Part.settleFound_frame (s : Seat) (u : FoundUnit) (p : Part) :
    (p.settleFound s u).power = p.power ∧ (p.settleFound s u).pressSeq = p.pressSeq ∧
    (p.settleFound s u).presses = p.presses ∧ (p.settleFound s u).zones = p.zones ∧ (p.settleFound s u).sched = p.sched ∧
    (p.settleFound s u).owed = p.owed ∧ (p.settleFound s u).tickJobs = p.tickJobs := by
  unfold Part.settleFound
  dsimp only
  (repeat' split) <;> simp

@[simp] theorem Part.settle_frame (c : Chain) (overlength : Bool) (p : Part) :
    (p.settle c overlength).power = p.power ∧ (p.settle c overlength).pressSeq = p.pressSeq ∧
    (p.settle c overlength).presses = p.presses ∧ (p.settle c overlength).zones = p.zones ∧
    (p.settle c overlength).sched = p.sched ∧ (p.settle c overlength).owed = p.owed ∧
    (p.settle c overlength).tickJobs = p.tickJobs := by
  unfold Part.settle
  dsimp only
  generalize (p.chain c).enumerated.zipIdx = units
  have h : ∀ (u : List (FoundUnit × Nat)) (q : Part),
      (u.foldl (fun q x => q.settleFound (seatAt c x.2) x.1) q).power = q.power ∧
      (u.foldl (fun q x => q.settleFound (seatAt c x.2) x.1) q).pressSeq = q.pressSeq ∧
      (u.foldl (fun q x => q.settleFound (seatAt c x.2) x.1) q).presses = q.presses ∧
      (u.foldl (fun q x => q.settleFound (seatAt c x.2) x.1) q).zones = q.zones ∧
      (u.foldl (fun q x => q.settleFound (seatAt c x.2) x.1) q).sched = q.sched ∧
      (u.foldl (fun q x => q.settleFound (seatAt c x.2) x.1) q).owed = q.owed ∧
      (u.foldl (fun q x => q.settleFound (seatAt c x.2) x.1) q).tickJobs = q.tickJobs := by
    intro u
    induction u with
    | nil => simp
    | cons x xs ih => intro q; rw [List.foldl_cons]; simpa using ih (q.settleFound (seatAt c x.2) x.1)
  simp [h, Part.floorEvent]

@[simp] theorem Part.enumerated_frame (c : Chain) (position : Nat) (answer : UnitAnswer) (p : Part) :
    (p.enumerated c position answer).power = p.power ∧ (p.enumerated c position answer).pressSeq = p.pressSeq ∧
    (p.enumerated c position answer).presses = p.presses ∧ (p.enumerated c position answer).zones = p.zones ∧
    (p.enumerated c position answer).sched = p.sched ∧ (p.enumerated c position answer).owed = p.owed ∧
    (p.enumerated c position answer).tickJobs = p.tickJobs := by
  unfold Part.enumerated
  dsimp only
  (repeat' split) <;> simp

@[simp] theorem Part.setChain_frame (c : Chain) (settings : ChainSettings) (p : Part) :
    (p.setChain c settings).power = p.power ∧ (p.setChain c settings).pressSeq = p.pressSeq ∧
    (p.setChain c settings).presses = p.presses ∧ (p.setChain c settings).zones = p.zones ∧
    (p.setChain c settings).sched = p.sched ∧ (p.setChain c settings).owed = p.owed ∧
    (p.setChain c settings).tickJobs = p.tickJobs := by
  unfold Part.setChain
  dsimp only
  (repeat' split) <;> simp

@[simp] theorem Part.restartChain_frame (c : Chain) (p : Part) :
    (p.restartChain c).power = p.power ∧ (p.restartChain c).pressSeq = p.pressSeq ∧ (p.restartChain c).presses = p.presses ∧
    (p.restartChain c).zones = p.zones ∧ (p.restartChain c).sched = p.sched ∧ (p.restartChain c).owed = p.owed ∧
    (p.restartChain c).tickJobs = p.tickJobs := by
  unfold Part.restartChain
  (repeat' split) <;> simp

/-! ### Exchanges -/

@[simp] theorem Part.beginRefresh_frame (c : Chain) (i : Item) (p : Part) :
    (p.beginRefresh c i).power = p.power ∧ (p.beginRefresh c i).link = p.link ∧ (p.beginRefresh c i).seats = p.seats ∧
    (p.beginRefresh c i).pressSeq = p.pressSeq ∧ (p.beginRefresh c i).presses = p.presses ∧
    (p.beginRefresh c i).zones = p.zones ∧ (p.beginRefresh c i).sched = p.sched ∧ (p.beginRefresh c i).floor = p.floor ∧
    (p.beginRefresh c i).mixer = p.mixer ∧ (p.beginRefresh c i).director = p.director ∧
    (p.beginRefresh c i).screens = p.screens ∧ (p.beginRefresh c i).owed = p.owed ∧
    (p.beginRefresh c i).tickJobs = p.tickJobs := by simp [Part.beginRefresh]

@[simp] theorem Part.beginItem_frame (c : Chain) (i : Item) (p : Part) :
    (p.beginItem c i).power = p.power ∧ (p.beginItem c i).link = p.link ∧ (p.beginItem c i).seats = p.seats ∧
    (p.beginItem c i).pressSeq = p.pressSeq ∧ (p.beginItem c i).presses = p.presses ∧ (p.beginItem c i).zones = p.zones ∧
    (p.beginItem c i).sched = p.sched ∧ (p.beginItem c i).floor = p.floor ∧ (p.beginItem c i).mixer = p.mixer ∧
    (p.beginItem c i).director = p.director ∧ (p.beginItem c i).screens = p.screens ∧ (p.beginItem c i).owed = p.owed ∧
    (p.beginItem c i).tickJobs = p.tickJobs := by
  unfold Part.beginItem
  (repeat' split) <;> simp

@[simp] theorem Part.beginPoll_frame (c : Chain) (s : Seat) (p : Part) :
    (p.beginPoll c s).power = p.power ∧ (p.beginPoll c s).link = p.link ∧ (p.beginPoll c s).seats = p.seats ∧
    (p.beginPoll c s).pressSeq = p.pressSeq ∧ (p.beginPoll c s).presses = p.presses ∧ (p.beginPoll c s).zones = p.zones ∧
    (p.beginPoll c s).sched = p.sched ∧ (p.beginPoll c s).floor = p.floor ∧ (p.beginPoll c s).mixer = p.mixer ∧
    (p.beginPoll c s).director = p.director ∧ (p.beginPoll c s).screens = p.screens ∧ (p.beginPoll c s).owed = p.owed ∧
    (p.beginPoll c s).tickJobs = p.tickJobs := by simp [Part.beginPoll]

@[simp] theorem Part.begin_frame (c : Chain) (choice : Choice) (p : Part) :
    (p.begin c choice).power = p.power ∧ (p.begin c choice).link = p.link ∧ (p.begin c choice).seats = p.seats ∧
    (p.begin c choice).pressSeq = p.pressSeq ∧ (p.begin c choice).presses = p.presses ∧ (p.begin c choice).zones = p.zones ∧
    (p.begin c choice).sched = p.sched ∧ (p.begin c choice).floor = p.floor ∧ (p.begin c choice).mixer = p.mixer ∧
    (p.begin c choice).director = p.director ∧ (p.begin c choice).screens = p.screens ∧ (p.begin c choice).owed = p.owed ∧
    (p.begin c choice).tickJobs = p.tickJobs := by
  unfold Part.begin
  (repeat' split) <;> simp

@[simp] theorem Part.chooseNext_frame (c : Chain) (p : Part) :
    (p.chooseNext c).power = p.power ∧ (p.chooseNext c).link = p.link ∧ (p.chooseNext c).seats = p.seats ∧
    (p.chooseNext c).pressSeq = p.pressSeq ∧ (p.chooseNext c).presses = p.presses ∧ (p.chooseNext c).zones = p.zones ∧
    (p.chooseNext c).sched = p.sched ∧ (p.chooseNext c).floor = p.floor ∧ (p.chooseNext c).mixer = p.mixer ∧
    (p.chooseNext c).director = p.director ∧ (p.chooseNext c).screens = p.screens ∧ (p.chooseNext c).owed = p.owed ∧
    (p.chooseNext c).tickJobs = p.tickJobs := by
  unfold Part.chooseNext
  (repeat' split) <;> simp

@[simp] theorem Part.turnaroundEnded_frame (c : Chain) (p : Part) :
    (p.turnaroundEnded c).power = p.power ∧ (p.turnaroundEnded c).link = p.link ∧ (p.turnaroundEnded c).seats = p.seats ∧
    (p.turnaroundEnded c).pressSeq = p.pressSeq ∧ (p.turnaroundEnded c).presses = p.presses ∧
    (p.turnaroundEnded c).zones = p.zones ∧ (p.turnaroundEnded c).sched = p.sched ∧ (p.turnaroundEnded c).floor = p.floor ∧
    (p.turnaroundEnded c).mixer = p.mixer ∧ (p.turnaroundEnded c).director = p.director ∧
    (p.turnaroundEnded c).screens = p.screens ∧ (p.turnaroundEnded c).owed = p.owed ∧
    (p.turnaroundEnded c).tickJobs = p.tickJobs := by
  unfold Part.turnaroundEnded
  (repeat' split) <;> simp

@[simp] theorem Part.endExchange_frame (c : Chain) (p : Part) :
    (p.endExchange c).power = p.power ∧ (p.endExchange c).link = p.link ∧ (p.endExchange c).seats = p.seats ∧
    (p.endExchange c).pressSeq = p.pressSeq ∧ (p.endExchange c).presses = p.presses ∧ (p.endExchange c).zones = p.zones ∧
    (p.endExchange c).sched = p.sched ∧ (p.endExchange c).floor = p.floor ∧ (p.endExchange c).mixer = p.mixer ∧
    (p.endExchange c).director = p.director ∧ (p.endExchange c).screens = p.screens ∧ (p.endExchange c).owed = p.owed ∧
    (p.endExchange c).tickJobs = p.tickJobs := by simp [Part.endExchange]

@[simp] theorem Part.countRun_frame (c : Chain) (p : Part) :
    (p.countRun c).power = p.power ∧ (p.countRun c).pressSeq = p.pressSeq ∧ (p.countRun c).presses = p.presses ∧
    (p.countRun c).zones = p.zones ∧ (p.countRun c).sched = p.sched ∧ (p.countRun c).owed = p.owed ∧
    (p.countRun c).tickJobs = p.tickJobs := by
  unfold Part.countRun
  dsimp only
  split <;> simp

@[simp] theorem Part.seatFailed_frame (c : Chain) (s : Seat) (p : Part) :
    (p.seatFailed c s).power = p.power ∧ (p.seatFailed c s).pressSeq = p.pressSeq ∧ (p.seatFailed c s).presses = p.presses ∧
    (p.seatFailed c s).zones = p.zones ∧ (p.seatFailed c s).sched = p.sched ∧ (p.seatFailed c s).owed = p.owed ∧
    (p.seatFailed c s).tickJobs = p.tickJobs := by
  unfold Part.seatFailed
  dsimp only
  (repeat' split) <;> simp

@[simp] theorem Part.exchangeFailed_frame (c : Chain) (sent : Sent) (p : Part) :
    (p.exchangeFailed c sent).power = p.power ∧ (p.exchangeFailed c sent).pressSeq = p.pressSeq ∧
    (p.exchangeFailed c sent).presses = p.presses ∧ (p.exchangeFailed c sent).zones = p.zones ∧
    (p.exchangeFailed c sent).sched = p.sched ∧ (p.exchangeFailed c sent).owed = p.owed ∧
    (p.exchangeFailed c sent).tickJobs = p.tickJobs := by
  unfold Part.exchangeFailed
  dsimp only
  split <;> simp

@[simp] theorem Part.attemptFailed_frame (c : Chain) (p : Part) :
    (p.attemptFailed c).power = p.power ∧ (p.attemptFailed c).pressSeq = p.pressSeq ∧
    (p.attemptFailed c).presses = p.presses ∧ (p.attemptFailed c).zones = p.zones ∧ (p.attemptFailed c).sched = p.sched ∧
    (p.attemptFailed c).owed = p.owed ∧ (p.attemptFailed c).tickJobs = p.tickJobs := by
  unfold Part.attemptFailed
  (repeat' split) <;> simp

@[simp] theorem Part.seatSucceeded_frame (c : Chain) (s : Seat) (p : Part) :
    (p.seatSucceeded c s).power = p.power ∧ (p.seatSucceeded c s).pressSeq = p.pressSeq ∧
    (p.seatSucceeded c s).presses = p.presses ∧ (p.seatSucceeded c s).zones = p.zones ∧
    (p.seatSucceeded c s).sched = p.sched ∧ (p.seatSucceeded c s).owed = p.owed ∧
    (p.seatSucceeded c s).tickJobs = p.tickJobs := by
  unfold Part.seatSucceeded
  dsimp only
  split <;> simp

@[simp] theorem Part.reportFault_frame (s : Seat) (fault : Bool) (p : Part) :
    (p.reportFault s fault).power = p.power ∧ (p.reportFault s fault).seats = p.seats ∧
    (p.reportFault s fault).pressSeq = p.pressSeq ∧ (p.reportFault s fault).presses = p.presses ∧
    (p.reportFault s fault).zones = p.zones ∧ (p.reportFault s fault).sched = p.sched ∧
    (p.reportFault s fault).floor = p.floor ∧ (p.reportFault s fault).mixer = p.mixer ∧
    (p.reportFault s fault).director = p.director ∧ (p.reportFault s fault).screens = p.screens ∧
    (p.reportFault s fault).owed = p.owed ∧ (p.reportFault s fault).tickJobs = p.tickJobs := by
  unfold Part.reportFault
  (repeat' split) <;> simp

@[simp] theorem Part.pollReport_frame (s : Seat) (answer : UnitAnswer) (p : Part) :
    (p.pollReport s answer).power = p.power ∧ (p.pollReport s answer).pressSeq = p.pressSeq ∧
    (p.pollReport s answer).zones = p.zones ∧ (p.pollReport s answer).sched = p.sched ∧
    (p.pollReport s answer).owed = p.owed ∧ (p.pollReport s answer).tickJobs = p.tickJobs := by
  unfold Part.pollReport
  dsimp only
  split <;> simp [Part.floorEvent]

@[simp] theorem Part.pollSucceeded_frame (c : Chain) (s : Seat) (answer : UnitAnswer) (p : Part) :
    (p.pollSucceeded c s answer).power = p.power ∧ (p.pollSucceeded c s answer).pressSeq = p.pressSeq ∧
    (p.pollSucceeded c s answer).zones = p.zones ∧ (p.pollSucceeded c s answer).sched = p.sched ∧
    (p.pollSucceeded c s answer).owed = p.owed ∧ (p.pollSucceeded c s answer).tickJobs = p.tickJobs := by simp [Part.pollSucceeded]

@[simp] theorem Part.exchangeSucceeded_frame (c : Chain) (sent : Sent) (answer : UnitAnswer) (p : Part) :
    (p.exchangeSucceeded c sent answer).power = p.power ∧ (p.exchangeSucceeded c sent answer).pressSeq = p.pressSeq ∧
    (p.exchangeSucceeded c sent answer).zones = p.zones ∧ (p.exchangeSucceeded c sent answer).sched = p.sched ∧
    (p.exchangeSucceeded c sent answer).owed = p.owed ∧ (p.exchangeSucceeded c sent answer).tickJobs = p.tickJobs := by
  unfold Part.exchangeSucceeded
  dsimp only
  split <;> simp

@[simp] theorem Part.attemptAnswered_frame (c : Chain) (checkGood : Bool) (answer : UnitAnswer) (p : Part) :
    (p.attemptAnswered c checkGood answer).power = p.power ∧ (p.attemptAnswered c checkGood answer).pressSeq = p.pressSeq ∧
    (p.attemptAnswered c checkGood answer).zones = p.zones ∧ (p.attemptAnswered c checkGood answer).sched = p.sched ∧
    (p.attemptAnswered c checkGood answer).owed = p.owed ∧ (p.attemptAnswered c checkGood answer).tickJobs = p.tickJobs := by
  unfold Part.attemptAnswered
  (repeat' split) <;> simp

end Sys2Proof.Machine
end

