-- ==== Sys2Proof/Laws/Work.lean ====
section
/-!
SUPPORT. What the work of a block can do. Every operation of the blocks is `Work`: it reaches the link interface through queued
notices alone (R195), and it keeps the invariant of the blocks (that of the floor stands in Laws/FloorSafe.lean). One lemma per
operation says so, in the form that composes: `Work b p → Work b (operation p)`.
-/
namespace Sys2Proof.Machine

/-- The link after a block has queued these notices, one after another. -/
def Link.notifyAll (ns : List Notice) (l : Link) : Link := ns.foldl (fun k n => k.notify n) l

theorem Link.notifyAll_append (ms ns : List Notice) (l : Link) :
    l.notifyAll (ms ++ ns) = (l.notifyAll ms).notifyAll ns := by
  simp [Link.notifyAll]

/-- What the work of a block can do to the part. -/
structure Work (p q : Part) : Prop where
  notes : ∃ ns, q.link = p.link.notifyAll ns
  safe : p.BlocksSafe → q.BlocksSafe

theorem Work.refl (p : Part) : Work p p := ⟨⟨[], rfl⟩, id⟩

theorem Work.trans {p q r : Part} (h : Work p q) (k : Work q r) : Work p r := by
  obtain ⟨ns, hn⟩ := h.notes
  obtain ⟨ms, hm⟩ := k.notes
  exact ⟨⟨ns ++ ms, by rw [hm, hn, Link.notifyAll_append]⟩, fun hp => k.safe (h.safe hp)⟩

/-- A change that leaves the link alone and keeps the invariant. -/
theorem Work.quietly {p q : Part} (h : q.link = p.link) (k : p.BlocksSafe → q.BlocksSafe) : Work p q := ⟨⟨[], h⟩, k⟩

/-- Work done for each member of a list. -/
theorem Work.foldl {α : Type} {b : Part} {f : Part → α → Part} (h : ∀ q x, Work b q → Work b (f q x)) (xs : List α) :
    ∀ {p : Part}, Work b p → Work b (xs.foldl f p) := by
  induction xs with
  | nil => exact id
  | cons x xs ih => exact fun hp => ih (h _ x hp)

/-! ### The named updates -/

theorem Work.notify {b p : Part} (n : Notice) (h : Work b p) : Work b (p.notify n) := by
  refine h.trans ⟨⟨[n], rfl⟩, fun k => ?_⟩
  exact ⟨k.seatCount, k.seats, k.zones, k.sched, k.mixer, k.director, k.screens, k.chainA, k.chainB⟩

@[simp] theorem updateAt_length {α : Type} (f : α → α) (xs : List α) (i : Nat) : (updateAt f xs i).length = xs.length := by
  induction xs generalizing i with
  | nil => rfl
  | cons x xs ih => cases i <;> simp [updateAt, ih]

theorem updateAt_mem {α : Type} {f : α → α} {xs : List α} {i : Nat} {y : α} (h : y ∈ updateAt f xs i) :
    y ∈ xs ∨ ∃ x ∈ xs, y = f x := by
  induction xs generalizing i with
  | nil => simp [updateAt] at h
  | cons x xs ih =>
    cases i with
    | zero => simp only [updateAt, List.mem_cons] at h; rcases h with h | h <;> simp [h]
    | succ i =>
      simp only [updateAt, List.mem_cons] at h
      rcases h with h | h
      · simp [h]
      · rcases ih h with h | ⟨z, hz, e⟩
        · simp [h]
        · exact .inr ⟨z, by simp [hz], e⟩

theorem Work.modSeat {b p : Part} {s : Seat} {f : SeatRec → SeatRec} (hf : ∀ r : SeatRec, r.Safe → (f r).Safe) (h : Work b p) :
    Work b (p.modSeat s f) := by
  refine h.trans (.quietly rfl fun k => { k with seatCount := by simpa using k.seatCount, seats := fun r hr => ?_ })
  rcases updateAt_mem hr with hr | ⟨x, hx, e⟩
  · exact k.seats r hr
  · exact e ▸ hf x (k.seats x hx)

theorem Work.modFloor {b p : Part} {f : Floor → Floor} (h : Work b p) : Work b (p.modFloor f) :=
  h.trans (.quietly rfl fun k => { k with })

theorem Work.modMixer {b p : Part} {f : Mixer → Mixer} (hf : p.mixer.Safe → (f p.mixer).Safe) (h : Work b p) :
    Work b (p.modMixer f) :=
  h.trans (.quietly rfl fun k => { k with mixer := hf k.mixer })

theorem Work.modDirector {b p : Part} {f : Director → Director} (hf : p.director.Safe → (f p.director).Safe) (h : Work b p) :
    Work b (p.modDirector f) :=
  h.trans (.quietly rfl fun k => { k with director := hf k.director })

theorem Work.modScreens {b p : Part} {f : Screens → Screens} (hf : p.screens.Safe → (f p.screens).Safe) (h : Work b p) :
    Work b (p.modScreens f) :=
  h.trans (.quietly rfl fun k => { k with screens := hf k.screens })

theorem Work.modSched {b p : Part} {f : Scheduler → Scheduler} (hf : p.sched.Safe → (f p.sched).Safe) (h : Work b p) :
    Work b (p.modSched f) :=
  h.trans (.quietly rfl fun k => { k with sched := hf k.sched })

theorem Work.modSession {b p : Part} {f : Session → Session} (h : Work b p) : Work b (p.modSession f) :=
  .modSched (fun k => ⟨k.day, k.minute, k.second, k.completions, k.bookings⟩) h

theorem Work.modChain {b p : Part} {c : Chain} {f : ChainCtl → ChainCtl} (hf : ∀ k : ChainCtl, k.Safe → (f k).Safe)
    (h : Work b p) : Work b (p.modChain c f) := by
  cases c
  · exact h.trans (.quietly rfl fun k => { k with chainA := hf _ k.chainA })
  · exact h.trans (.quietly rfl fun k => { k with chainB := hf _ k.chainB })

/-! ### Exchange lists (R177 to R179) -/

/-- The list of a chain keeps one item per seat and kind. -/
abbrev ItemsOnce (items : List Item) : Prop := items.Pairwise fun a b => ¬(a.seat = b.seat ∧ a.payload.kind = b.payload.kind)

theorem ChainCtl.keep_items (s : Seat) (payload : Payload) (c : ChainCtl) :
    (c.keep s payload).items.length ≤ c.items.length + 1 ∧
      (c.items.any (·.is s payload.kind) = true → (c.keep s payload).items.length = c.items.length) := by
  unfold ChainCtl.keep
  split <;> simp_all

theorem ChainCtl.keep_once {s : Seat} {payload : Payload} {c : ChainCtl} (h : ItemsOnce c.items) :
    ItemsOnce (c.keep s payload).items := by
  unfold ChainCtl.keep
  split
  · refine List.pairwise_map.2 (h.imp ?_)
    intro a b hab
    simp only [Item.is, Bool.and_eq_true, decide_eq_true_eq]
    by_cases ha : a.seat = s ∧ a.payload.kind = payload.kind <;> by_cases hb : b.seat = s ∧ b.payload.kind = payload.kind <;>
      simp only [ha, hb, and_self, if_true, if_false] <;> grind
  · rename_i hn
    refine List.pairwise_append.2 ⟨h, List.pairwise_singleton _ _, ?_⟩
    intro a ha b hb
    simp only [List.mem_singleton] at hb
    subst hb
    simp only [List.any_eq_true, not_exists, not_and] at hn
    have := hn a ha
    simpa [Item.is] using this

@[simp] theorem ChainCtl.keep_frame (s : Seat) (payload : Payload) (c : ChainCtl) :
    (c.keep s payload).retryCounter = c.retryCounter ∧ (c.keep s payload).pointer = c.pointer ∧
      (c.keep s payload).seats = c.seats ∧ (c.keep s payload).lanes = c.lanes ∧ (c.keep s payload).stale = c.stale := by
  unfold ChainCtl.keep
  split <;> simp

/-- Keeping an item on a list with room, or in place of its like. -/
theorem ChainCtl.Safe.keep {s : Seat} {payload : Payload} {c : ChainCtl} (h : c.Safe)
    (room : c.items.any (·.is s payload.kind) = true ∨ c.items.length < 48) : (c.keep s payload).Safe := by
  have k := c.keep_items s payload
  refine ⟨?_, ChainCtl.keep_once h.once, ?_, ?_, ?_, ?_, ?_⟩
  · rcases room with r | r
    · rw [k.2 r]; exact h.items
    · have := k.1; omega
  all_goals simp [h.retries, h.pointer, h.seats, h.lanes]
  exact h.since

theorem ChainCtl.Safe.staleRefreshWith {c : ChainCtl} (n : Nat) (h : c.Safe) : (c.staleRefreshWith n).Safe := by
  induction n generalizing c with
  | zero => exact h
  | succ n ih =>
    unfold ChainCtl.staleRefreshWith
    split
    · exact h
    · split
      · refine ih (ChainCtl.Safe.keep (c := { c with stale := _ }) ⟨h.items, h.once, h.retries, h.pointer, h.seats, h.since, h.lanes⟩
          (.inr ?_))
        simp only; omega
      · exact h

/-- The stale refresh brings a list up to 25 items at most, and leaves a longer one alone (R179). -/
theorem ChainCtl.staleRefreshWith_items (n : Nat) (c : ChainCtl) :
    (c.staleRefreshWith n).items.length ≤ max 25 c.items.length := by
  induction n generalizing c with
  | zero => exact Nat.le_max_right _ _
  | succ n ih =>
    unfold ChainCtl.staleRefreshWith
    split
    · exact Nat.le_max_right _ _
    · rename_i s rest _
      split
      · refine Nat.le_trans (ih _) ?_
        have := (ChainCtl.keep_items s .refresh { c with stale := rest }).1
        simp only at this; omega
      · exact Nat.le_max_right _ _

theorem ChainCtl.Safe.markStale {s : Seat} {c : ChainCtl} (h : c.Safe) : (c.markStale s).Safe := by
  unfold ChainCtl.markStale
  split
  · exact h
  · exact ChainCtl.Safe.staleRefreshWith (c := { c with stale := _ }) 32
      ⟨h.items, h.once, h.retries, h.pointer, h.seats, h.since, h.lanes⟩

theorem ChainCtl.markStale_items (s : Seat) (c : ChainCtl) : (c.markStale s).items.length ≤ max 25 c.items.length := by
  unfold ChainCtl.markStale
  split
  · exact Nat.le_max_right _ _
  · exact ChainCtl.staleRefreshWith_items 32 { c with stale := insertSeat s c.stale }

/-- Fewer items on a list. -/
theorem ChainCtl.Safe.fewer {c : ChainCtl} {items : List Item} (h : c.Safe) (sub : items.Sublist c.items) :
    ChainCtl.Safe { c with items := items } :=
  ⟨Nat.le_trans sub.length_le h.items, h.once.sublist sub, h.retries, h.pointer, h.seats, h.since, h.lanes⟩

theorem ChainCtl.Safe.queueItem {s : Seat} {payload : Payload} {c : ChainCtl} (h : c.Safe) : (c.queueItem s payload).Safe := by
  unfold ChainCtl.queueItem
  split
  · rename_i room
    have k : (c.keep s payload).Safe := h.keep (by simpa using room)
    dsimp only
    split
    · exact ⟨k.items, k.once, k.retries, k.pointer, k.seats, k.since, k.lanes⟩
    · exact k
  · split
    · rename_i victim _ found
      have mem := List.mem_of_find?_eq_some found
      refine ChainCtl.Safe.keep (ChainCtl.Safe.markStale (h.fewer (List.erase_sublist))) (.inr ?_)
      have e : (c.items.erase victim).length = c.items.length - 1 := List.length_erase_of_mem mem
      have m := ChainCtl.markStale_items victim.seat { c with items := c.items.erase victim }
      have := h.items
      have : 0 < c.items.length := List.length_pos_of_mem mem
      simp only [e] at m; omega
    · exact h.markStale

theorem ChainCtl.Safe.removeItems {gone : Item → Bool} {c : ChainCtl} (h : c.Safe) : (c.removeItems gone).Safe := by
  unfold ChainCtl.removeItems
  split
  · exact ChainCtl.Safe.staleRefreshWith 32 (h.fewer List.filter_sublist)
  · exact h

/-- New lanes of the same number. -/
theorem ChainCtl.Safe.relane {c : ChainCtl} {lanes : List Lane} (h : c.Safe) (e : lanes.length = c.lanes.length) :
    ChainCtl.Safe { c with lanes := lanes } :=
  ⟨h.items, h.once, h.retries, h.pointer, h.seats, h.since, e.trans h.lanes⟩

theorem ChainCtl.Safe.stopTransmitting {s : Seat} {c : ChainCtl} (h : c.Safe) : (c.stopTransmitting s).Safe :=
  h.relane (by simp)

theorem ChainCtl.Safe.emptyTransmitting {c : ChainCtl} (h : c.Safe) : c.emptyTransmitting.Safe := h.relane (by simp)

theorem ChainCtl.Safe.micTaken {s : Seat} {mic : Option Nat} {c : ChainCtl} (h : c.Safe) : (c.micTaken s mic).Safe := by
  unfold ChainCtl.micTaken
  cases mic
  · exact h.stopTransmitting
  · exact ChainCtl.Safe.relane h.stopTransmitting (by simp)

theorem Work.queueItem {b p : Part} {s : Seat} {payload : Payload} (h : Work b p) : Work b (p.queueItem s payload) :=
  .modChain (fun _ k => k.queueItem) h

theorem Work.queueIfPresent {b p : Part} {s : Seat} {payload : Payload} (h : Work b p) :
    Work b (p.queueIfPresent s payload) := by
  unfold Part.queueIfPresent
  split
  · exact h.queueItem
  · exact h

/-! ### The screen link queue (R153) -/

theorem LinkRecord.sameTarget_symm (a b : LinkRecord) : a.sameTarget b = b.sameTarget a := by
  cases a <;> cases b <;> simp [LinkRecord.sameTarget, eq_comm]

theorem LinkRecord.sameTarget_trans {a b c : LinkRecord} (h : a.sameTarget b = true) : a.sameTarget c = b.sameTarget c := by
  cases a <;> cases b <;> simp_all [LinkRecord.sameTarget] <;> cases c <;> simp

theorem placeRecord_targets {r : LinkRecord} {queue : List LinkRecord}
    (h : queue.Pairwise fun a b => a.sameTarget b = false) :
    (Machine.placeRecord r queue).Pairwise fun a b => a.sameTarget b = false := by
  unfold Machine.placeRecord
  split
  · refine List.pairwise_map.2 (h.imp ?_)
    intro a b hab
    by_cases ha : r.sameTarget a = true <;> by_cases hb : r.sameTarget b = true <;> simp only [ha, hb, if_true]
    · rw [LinkRecord.sameTarget_trans (a := r) ha] at hb; simp_all
    · simpa using hb
    · rw [LinkRecord.sameTarget_symm]; simpa using ha
    · simpa using hab
  · rename_i hn
    refine List.pairwise_append.2 ⟨h, List.pairwise_singleton _ _, ?_⟩
    intro a ha b hb
    simp only [List.mem_singleton] at hb
    subst hb
    simp only [List.any_eq_true, not_exists, not_and, Bool.not_eq_true] at hn
    rw [LinkRecord.sameTarget_symm]
    exact hn a ha

theorem Work.placeRecord {b p : Part} {r : LinkRecord} (h : Work b p) : Work b (p.placeRecord r) :=
  .modScreens (fun k => { k with targets := placeRecord_targets k.targets }) h

end Sys2Proof.Machine
end

