-- ==== Sys2Proof/Laws/FloorSafe.lean ====
section
/-!
SUPPORT. The floor keeps its invariant: first the updates of the floor by themselves, then one lemma per operation of the floor
controller, of the priority mechanism and of the speech timing logic, in the form that composes:
`p.floor.Safe → (operation p).floor.Safe`.
-/
namespace Sys2Proof.Machine

/-! ### The floor by itself -/

/-- What the uniqueness rules of R44 and R48 read of a speaker list entry. -/
def Speaker.place (e : Speaker) : Seat × Nat × Nat := (e.seat, e.channel, e.lane)

/-- Whether a seat stands in the speaker list. -/
def Floor.Speaks (f : Floor) (s : Seat) : Prop := ∃ e ∈ f.speakers, e.seat = s

/-- A floor without some speakers, queued seats, held presses and saved seats, or with its queue in another order. -/
theorem Floor.Safe.shrink {f g : Floor} (h : f.Safe)
    (sp : (g.speakers.map Speaker.place).Sublist (f.speakers.map Speaker.place))
    (qu : (g.queue.map QueueEntry.seat).Subperm (f.queue.map QueueEntry.seat))
    (he : (g.held.map HeldPress.seat).Sublist (f.held.map HeldPress.seat))
    (sa : g.saved.Sublist f.saved) (st : g.stack.length ≤ f.stack.length) (on : g.onsets.length = f.onsets.length) : g.Safe := by
  have back : ∀ e ∈ g.speakers, ∃ d ∈ f.speakers, d.seat = e.seat ∧ d.channel = e.channel ∧ d.lane = e.lane := by
    intro e m
    obtain ⟨d, md, k⟩ := List.mem_map.1 (sp.subset (List.mem_map_of_mem (f := Speaker.place) m))
    simp only [Speaker.place, Prod.mk.injEq] at k
    exact ⟨d, md, k.1, k.2.1, k.2.2⟩
  have queued : ∀ x ∈ g.queue, ∃ y ∈ f.queue, y.seat = x.seat := fun x m =>
    List.mem_map.1 (qu.subset (List.mem_map_of_mem (f := QueueEntry.seat) m))
  have held : ∀ x ∈ g.held, ∃ y ∈ f.held, y.seat = x.seat := fun x m =>
    List.mem_map.1 (he.subset (List.mem_map_of_mem (f := HeldPress.seat) m))
  have seats : (g.speakers.map Speaker.seat).Sublist (f.speakers.map Speaker.seat) := by
    have k := sp.map Prod.fst
    rw [List.map_map, List.map_map] at k
    exact k
  have channels : (g.speakers.map Speaker.channel).Sublist (f.speakers.map Speaker.channel) := by
    have k := sp.map fun x => x.2.1
    rw [List.map_map, List.map_map] at k
    exact k
  refine ⟨?_, st.trans h.stack, on.trans h.onsets, h.speakersOnce.sublist seats, ?_, h.heldOnce.sublist he, h.savedOnce.sublist sa,
    ?_, ?_, ?_, ?_, ?_, h.channelOnce.sublist channels, ?_⟩
  · have k := qu.length_le
    simp only [List.length_map] at k
    exact k.trans h.queue
  · obtain ⟨l, perm, sub⟩ := qu
    exact perm.nodup_iff.1 (h.queuedOnce.sublist sub)
  · intro e me x mx
    obtain ⟨d, md, hd, _⟩ := back e me
    obtain ⟨y, my, hy⟩ := queued x mx
    exact hd ▸ hy ▸ h.queuedSilent d md y my
  · intro e me x mx
    obtain ⟨d, md, hd, _⟩ := back e me
    obtain ⟨y, my, hy⟩ := held x mx
    exact hd ▸ hy ▸ h.heldSilent d md y my
  · intro e me x mx
    obtain ⟨d, md, hd⟩ := queued e me
    obtain ⟨y, my, hy⟩ := held x mx
    exact hd ▸ hy ▸ h.heldWaits d md y my
  · intro e me m
    obtain ⟨d, md, hd, _⟩ := back e me
    exact h.savedSilent d md (hd ▸ sa.subset m)
  · intro e me
    obtain ⟨d, md, _, hc, _⟩ := back e me
    exact hc ▸ h.channels d md
  · have k : (f.speakers.map Speaker.place).Pairwise fun a b => chainOf a.1 = chainOf b.1 → a.2.2 ≠ b.2.2 :=
      List.pairwise_map.2 h.laneOnce
    exact List.pairwise_map.1 (k.sublist sp)

/-- A floor with the same speakers, queue, held presses and frames. -/
theorem Floor.Safe.alike {f g : Floor} (h : f.Safe) (sp : g.speakers.map Speaker.place = f.speakers.map Speaker.place)
    (qu : g.queue = f.queue) (he : g.held = f.held) (sa : g.saved = f.saved) (st : g.stack.length = f.stack.length)
    (on : g.onsets.length = f.onsets.length) : g.Safe :=
  h.shrink (sp ▸ List.Sublist.refl _) (qu ▸ List.Subperm.refl _) (he ▸ List.Sublist.refl _) (sa ▸ List.Sublist.refl _) st.le on

theorem Floor.Safe.setOnset {f : Floor} (h : f.Safe) (s : Seat) (n : Nat) : (f.setOnset s n).Safe :=
  h.alike rfl rfl rfl rfl rfl (updateAt_length _ _ _)

theorem Floor.Safe.dequeue {f : Floor} (h : f.Safe) (s : Seat) : (f.dequeue s).Safe :=
  h.shrink (List.Sublist.refl _) (List.filter_sublist.map _).subperm (List.Sublist.refl _) (List.Sublist.refl _) (le_refl _) rfl

theorem Floor.Safe.dropHeld {f : Floor} (h : f.Safe) (s : Seat) : (f.dropHeld s).Safe :=
  h.shrink (List.Sublist.refl _) (List.Subperm.refl _) (List.filter_sublist.map _) (List.Sublist.refl _) (le_refl _) rfl

theorem Floor.saved_leaveFrames (s : Seat) (f : Floor) : (f.leaveFrames s).saved = f.saved.filter fun t => t ≠ s := by
  unfold Floor.saved Floor.leaveFrames
  simp only [List.flatMap_map, List.filter_flatMap, List.filter_map]
  rfl

theorem Floor.Safe.leaveFrames {f : Floor} (h : f.Safe) (s : Seat) : (f.leaveFrames s).Safe :=
  h.shrink (List.Sublist.refl _) (List.Subperm.refl _) (List.Sublist.refl _) (f.saved_leaveFrames s ▸ List.filter_sublist)
    (List.length_map _).le rfl

/-- A speaker list without some entries. -/
theorem Floor.Safe.filterSpeakers {f : Floor} (h : f.Safe) (keep : Speaker → Bool) :
    Floor.Safe { f with speakers := f.speakers.filter keep } :=
  h.shrink (List.filter_sublist.map _) (List.Subperm.refl _) (List.Sublist.refl _) (List.Sublist.refl _) (le_refl _) rfl

theorem Floor.Safe.modSpeaker {f : Floor} (h : f.Safe) (s : Seat) {g : Speaker → Speaker}
    (k : ∀ e ∈ f.speakers, e.seat = s → (g e).place = e.place) : (f.modSpeaker s g).Safe := by
  refine h.alike ?_ rfl rfl rfl rfl rfl
  unfold Floor.modSpeaker
  rw [List.map_map]
  refine List.map_congr_left fun e m => ?_
  show Speaker.place (if e.seat = s then g e else e) = e.place
  split
  · exact k e m ‹_›
  · rfl

/-- A seat that does not speak is appended to the queue (R45, R54). -/
theorem Floor.Safe.append {f : Floor} (h : f.Safe) {s : Seat} (source : Source) (silent : ¬f.Speaks s)
    (waiting : ∀ x ∈ f.queue, x.seat ≠ s) (room : f.queue.length < 32) : (f.append s source).Safe := by
  have k := h.dropHeld s
  refine ⟨?_, k.stack, k.onsets, k.speakersOnce, ?_, k.heldOnce, k.savedOnce, ?_, k.heldSilent, ?_, k.savedSilent, k.channels,
    k.channelOnce, k.laneOnce⟩
  · simp only [Floor.append, List.length_append, List.length_singleton]
    omega
  · simp only [Floor.append, List.map_append, List.map_cons, List.map_nil]
    refine List.nodup_append.2 ⟨h.queuedOnce, List.nodup_singleton _, ?_⟩
    intro a ma b mb
    obtain ⟨x, mx, rfl⟩ := List.mem_map.1 ma
    rw [List.mem_singleton.1 mb]
    exact waiting x mx
  · intro e me x mx
    rcases List.mem_append.1 mx with mx | mx
    · exact h.queuedSilent e me x mx
    · rw [List.mem_singleton.1 mx]
      exact fun q => silent ⟨e, me, q⟩
  · intro e me x mx
    rcases List.mem_append.1 me with me | me
    · exact k.heldWaits e me x mx
    · rw [List.mem_singleton.1 me]
      have t := (List.mem_filter.1 mx).2
      simp only [decide_eq_true_eq] at t
      exact fun q => t q.symm

/-- A seat that neither speaks nor waits is placed at the head of the queue (R52). -/
theorem Floor.Safe.prepend {f : Floor} (h : f.Safe) {x : QueueEntry} (silent : ¬f.Speaks x.seat)
    (waiting : ∀ y ∈ f.queue, y.seat ≠ x.seat) (held : ∀ y ∈ f.held, y.seat ≠ x.seat) (room : f.queue.length < 32)
    (seq : Word32) : Floor.Safe { f with queue := x :: f.queue, enqueueSeq := seq } := by
  refine ⟨?_, h.stack, h.onsets, h.speakersOnce, ?_, h.heldOnce, h.savedOnce, ?_, h.heldSilent, ?_, h.savedSilent, h.channels,
    h.channelOnce, h.laneOnce⟩
  · simp only [List.length_cons]
    omega
  · simp only [List.map_cons, List.nodup_cons, List.mem_map, not_exists, not_and]
    exact ⟨waiting, h.queuedOnce⟩
  · intro e me y my
    rcases List.mem_cons.1 my with rfl | my
    · exact fun q => silent ⟨e, me, q⟩
    · exact h.queuedSilent e me y my
  · intro e me y my
    rcases List.mem_cons.1 me with rfl | me
    · exact fun q => held y my q.symm
    · exact h.heldWaits e me y my

/-- A seat that neither speaks nor waits is put into the held-press set (R46). -/
theorem Floor.Safe.hold {f : Floor} (h : f.Safe) {x : HeldPress} (silent : ¬f.Speaks x.seat)
    (waiting : ∀ y ∈ f.queue, y.seat ≠ x.seat) (held : ∀ y ∈ f.held, y.seat ≠ x.seat) :
    Floor.Safe { f with held := f.held ++ [x] } := by
  refine ⟨h.queue, h.stack, h.onsets, h.speakersOnce, h.queuedOnce, ?_, h.savedOnce, h.queuedSilent, ?_, ?_, h.savedSilent,
    h.channels, h.channelOnce, h.laneOnce⟩
  · simp only [List.map_append, List.map_cons, List.map_nil]
    refine List.nodup_append.2 ⟨h.heldOnce, List.nodup_singleton _, ?_⟩
    intro a ma b mb
    obtain ⟨y, my, rfl⟩ := List.mem_map.1 ma
    rw [List.mem_singleton.1 mb]
    exact held y my
  · intro e me y my
    rcases List.mem_append.1 my with my | my
    · exact h.heldSilent e me y my
    · rw [List.mem_singleton.1 my]
      exact fun q => silent ⟨e, me, q⟩
  · intro e me y my
    rcases List.mem_append.1 my with my | my
    · exact h.heldWaits e me y my
    · rw [List.mem_singleton.1 my]
      exact waiting e me

/-- A seat that does not speak opens on a free channel and a free lane (R48, R49). -/
theorem Floor.Safe.opened {f : Floor} (h : f.Safe) {e : Speaker} (silent : ¬f.Speaks e.seat) (low : e.channel < 12)
    (channel : ∀ d ∈ f.speakers, d.channel ≠ e.channel)
    (lane : ∀ d ∈ f.speakers, chainOf d.seat = chainOf e.seat → d.lane ≠ e.lane) : (f.opened e).Safe := by
  have k := (((h.dequeue e.seat).dropHeld e.seat).leaveFrames e.seat).setOnset e.seat 0
  have notQueued : ∀ x ∈ (f.dequeue e.seat).queue, x.seat ≠ e.seat := fun x mx => by
    simpa using (List.mem_filter.1 mx).2
  have notHeld : ∀ x ∈ (f.dropHeld e.seat).held, x.seat ≠ e.seat := fun x mx => by
    simpa using (List.mem_filter.1 mx).2
  refine ⟨k.queue, k.stack, k.onsets, ?_, k.queuedOnce, k.heldOnce, k.savedOnce, ?_, ?_, k.heldWaits, ?_, ?_, ?_, ?_⟩
  · simp only [Floor.opened, List.map_append, List.map_cons, List.map_nil]
    refine List.nodup_append.2 ⟨h.speakersOnce, List.nodup_singleton _, ?_⟩
    intro a ma b mb
    obtain ⟨d, md, rfl⟩ := List.mem_map.1 ma
    rw [List.mem_singleton.1 mb]
    exact fun q => silent ⟨d, md, q⟩
  · intro d md x mx
    rcases List.mem_append.1 md with md | md
    · exact k.queuedSilent d md x mx
    · rw [List.mem_singleton.1 md]
      exact fun q => notQueued x mx q.symm
  · intro d md x mx
    rcases List.mem_append.1 md with md | md
    · exact k.heldSilent d md x mx
    · rw [List.mem_singleton.1 md]
      exact fun q => notHeld x mx q.symm
  · intro d md m
    rcases List.mem_append.1 md with md | md
    · exact k.savedSilent d md m
    · rw [List.mem_singleton.1 md] at m
      have t : e.seat ∈ ((f.dequeue e.seat).dropHeld e.seat).saved.filter fun t => t ≠ e.seat :=
        Floor.saved_leaveFrames _ _ ▸ m
      simpa using (List.mem_filter.1 t).2
  · intro d md
    rcases List.mem_append.1 md with md | md
    · exact h.channels d md
    · exact List.mem_singleton.1 md ▸ low
  · simp only [Floor.opened, List.map_append, List.map_cons, List.map_nil]
    refine List.nodup_append.2 ⟨h.channelOnce, List.nodup_singleton _, ?_⟩
    intro a ma b mb
    obtain ⟨d, md, rfl⟩ := List.mem_map.1 ma
    rw [List.mem_singleton.1 mb]
    exact channel d md
  · simp only [Floor.opened]
    refine List.pairwise_append.2 ⟨h.laneOnce, List.pairwise_singleton _ _, ?_⟩
    intro d md x mx
    rw [List.mem_singleton.1 mx]
    exact lane d md

/-- A queued seat's entry is reinserted (R62). -/
theorem Floor.Safe.insertAt {f : Floor} (h : f.Safe) {x : QueueEntry} (m : x ∈ f.queue) (k : Nat) {g : Floor}
    (e : g = { f with queue := g.queue, held := g.held, enqueueSeq := g.enqueueSeq, headPlaced := g.headPlaced })
    (q : g.queue = (f.queue.filter fun y => y.seat ≠ x.seat).take k ++ x :: (f.queue.filter fun y => y.seat ≠ x.seat).drop k)
    (he : g.held.Sublist f.held) : g.Safe := by
  have sub : (g.queue.map QueueEntry.seat).Subperm (f.queue.map QueueEntry.seat) := by
    have nodup : (x.seat :: (f.queue.filter fun y => y.seat ≠ x.seat).map QueueEntry.seat).Nodup := by
      refine List.nodup_cons.2 ⟨?_, h.queuedOnce.sublist (List.filter_sublist.map _)⟩
      rw [List.mem_map]
      rintro ⟨y, my, q⟩
      simpa using absurd q (by simpa using (List.mem_filter.1 my).2)
    have perm : (g.queue.map QueueEntry.seat).Perm (x.seat :: (f.queue.filter fun y => y.seat ≠ x.seat).map QueueEntry.seat) := by
      rw [q]
      have t := (List.perm_middle (a := x) (l₁ := (f.queue.filter fun y => y.seat ≠ x.seat).take k)
        (l₂ := (f.queue.filter fun y => y.seat ≠ x.seat).drop k))
      rw [List.take_append_drop] at t
      exact t.map _
    refine perm.subperm.trans (List.subperm_of_subset nodup ?_)
    intro s ms
    rcases List.mem_cons.1 ms with rfl | ms
    · exact List.mem_map_of_mem m
    · exact (List.filter_sublist.map _).subset ms
  rw [e]
  exact h.shrink (List.Sublist.refl _) sub (he.map _) (List.Sublist.refl _) (le_refl _) rfl

/-- A seat that does not speak is placed in the head region (R80). -/
theorem Floor.Safe.placeHead {f : Floor} (h : f.Safe) (k : Nat) {e : Saved} (silent : ¬f.Speaks e.seat)
    (room : (∃ x ∈ f.queue, x.seat = e.seat) ∨ f.queue.length < 32) : (f.placeHead k e).Safe := by
  unfold Floor.placeHead
  dsimp only
  cases found : f.queue.find? fun x => x.seat = e.seat with
  | some x =>
    have m : x ∈ f.queue := List.mem_of_find?_eq_some found
    have q : x.seat = e.seat := by simpa using List.find?_some found
    refine h.insertAt m k rfl ?_ List.filter_sublist
    rw [q]
    rfl
  | none =>
    have waiting : ∀ y ∈ f.queue, y.seat ≠ e.seat := fun y my => by simpa using List.find?_eq_none.1 found y my
    have short : f.queue.length < 32 := room.resolve_left fun ⟨x, mx, q⟩ => waiting x mx q
    have rest : (f.queue.filter fun x => x.seat ≠ e.seat) = f.queue := List.filter_eq_self.2 fun y my => by simpa using waiting y my
    have put := (h.dropHeld e.seat).prepend (x := ⟨e.seat, f.enqueueSeq + 1, queuedSource e.source⟩) silent waiting
      (fun y my => by simpa using (List.mem_filter.1 my).2) short 0
    refine put.shrink (List.Sublist.refl _) ?_ (List.Sublist.refl _) (List.Sublist.refl _) (le_refl _) rfl
    simp only [Option.getD_none, rest]
    have t := (List.perm_middle (a := (⟨e.seat, f.enqueueSeq + 1, queuedSource e.source⟩ : QueueEntry)) (l₁ := f.queue.take k)
      (l₂ := f.queue.drop k))
    rw [List.take_append_drop] at t
    exact (t.map QueueEntry.seat).subperm

/-- A frame pushed for speakers that close (R72, R75). -/
theorem Floor.Safe.push {f : Floor} (h : f.Safe) (room : f.stack.length < 4) (holder : Holder) (entries : List Speaker)
    (among : entries.Sublist f.speakers) :
    Floor.Safe { f with
      stack := ⟨holder, false, entries.map Speaker.saved⟩ :: f.stack
      speakers := f.speakers.filter fun e => e.seat ∉ entries.map Speaker.seat } := by
  have k := h.filterSpeakers fun e => e.seat ∉ entries.map Speaker.seat
  have seats : (entries.map Speaker.saved).map Saved.seat = entries.map Speaker.seat := by
    rw [List.map_map]
    rfl
  have saved (g : Floor) (e : g.stack = ⟨holder, false, entries.map Speaker.saved⟩ :: f.stack) :
      g.saved = entries.map Speaker.seat ++ f.saved := by
    unfold Floor.saved
    rw [e, List.flatMap_cons]
    exact congrArg (· ++ _) seats
  refine ⟨k.queue, ?_, k.onsets, k.speakersOnce, k.queuedOnce, k.heldOnce, ?_, k.queuedSilent, k.heldSilent, k.heldWaits, ?_,
    k.channels, k.channelOnce, k.laneOnce⟩
  · simp only [List.length_cons]
    omega
  · rw [saved _ rfl]
    refine List.nodup_append.2 ⟨h.speakersOnce.sublist (among.map _), h.savedOnce, ?_⟩
    intro a ma b mb q
    obtain ⟨e, me, rfl⟩ := List.mem_map.1 ma
    exact h.savedSilent e (among.subset me) (q ▸ mb)
  · intro e me m
    rw [saved _ rfl] at m
    rcases List.mem_append.1 m with m | m
    · simpa [m] using (List.mem_filter.1 me).2
    · exact k.savedSilent e me m

/-! ### Conditions -/

variable {p : Part}

theorem Part.speaking_iff {s : Seat} : p.speaking s = true ↔ p.floor.Speaks s := by
  simp [Part.speaking, Floor.Speaks]

theorem Part.isQueued_iff {s : Seat} : p.isQueued s = true ↔ ∃ x ∈ p.floor.queue, x.seat = s := by
  simp [Part.isQueued]

theorem Part.isHeldPress_iff {s : Seat} : p.isHeldPress s = true ↔ ∃ x ∈ p.floor.held, x.seat = s := by
  simp [Part.isHeldPress]

theorem Part.speaker?_some {s : Seat} {e : Speaker} (h : p.speaker? s = some e) : e ∈ p.floor.speakers ∧ e.seat = s :=
  ⟨List.mem_of_find?_eq_some h, by simpa using List.find?_some h⟩

theorem Part.speaker?_none {s : Seat} (h : p.speaker? s = none) : ¬p.floor.Speaks s := by
  rintro ⟨e, m, q⟩
  simpa [q] using List.find?_eq_none.1 h e m

theorem Part.freeLane_free {c : Chain} {lane : Nat} (h : p.freeLane c = some lane) :
    ∀ d ∈ p.floor.speakers, chainOf d.seat = c → d.lane ≠ lane := by
  have t := List.find?_some h
  simp only [Part.laneHeld, Bool.not_eq_true', List.any_eq_false, Bool.and_eq_true, decide_eq_true_eq, not_and] at t
  exact t

theorem Part.freeChannel_free {ch : Nat} (h : p.freeChannel = some ch) :
    ch < 12 ∧ ∀ d ∈ p.floor.speakers, d.channel ≠ ch := by
  refine ⟨List.mem_range.1 (List.mem_of_find?_eq_some h), ?_⟩
  have t := List.find?_some h
  simpa using t

/-! ### Floor controller -/

theorem Part.openWith_floor (e : Speaker) (p : Part) : (p.openWith e).floor = p.floor.opened e := by
  unfold Part.openWith
  dsimp only
  split <;> simp

theorem Part.closeWith_floor (e : Speaker) (cause : Option CloseCause) (p : Part) :
    (p.closeWith e cause).floor = { p.floor with speakers := p.floor.speakers.filter fun x => x.seat ≠ e.seat } := by
  unfold Part.closeWith
  dsimp only
  (repeat' split) <;> simp

theorem Part.closeMic_floor (s : Seat) (cause : Option CloseCause) (p : Part) :
    (p.closeMic s cause).floor = { p.floor with speakers := p.floor.speakers.filter fun x => x.seat ≠ s } := by
  unfold Part.closeMic
  split
  · rw [Part.closeWith_floor, (Part.speaker?_some ‹_›).2]
  · have silent : p.floor.speakers.filter (fun x => x.seat ≠ s) = p.floor.speakers :=
      List.filter_eq_self.2 fun e m => by simpa using fun q => Part.speaker?_none ‹_› ⟨e, m, q⟩
    rw [silent]

theorem Part.closeSeats_floor (seats : List Seat) (cause : Option CloseCause) (p : Part) :
    (p.closeSeats seats cause).floor = { p.floor with speakers := p.floor.speakers.filter fun x => x.seat ∉ seats } := by
  unfold Part.closeSeats
  induction seats generalizing p with
  | nil => simp
  | cons s seats ih =>
    rw [List.foldl_cons, ih, Part.closeMic_floor, List.filter_filter]
    refine congrArg (fun l => ({ p.floor with speakers := l } : Floor)) (List.filter_congr fun x _ => ?_)
    by_cases q : x.seat = s <;> simp [q]

theorem closeWith_safe {e : Speaker} {cause : Option CloseCause} (h : p.floor.Safe) : (p.closeWith e cause).floor.Safe := by
  rw [Part.closeWith_floor]
  exact h.filterSpeakers _

theorem closeMic_safe {s : Seat} {cause : Option CloseCause} (h : p.floor.Safe) : (p.closeMic s cause).floor.Safe := by
  rw [Part.closeMic_floor]
  exact h.filterSpeakers _

theorem closeSeats_safe {seats : List Seat} {cause : Option CloseCause} (h : p.floor.Safe) :
    (p.closeSeats seats cause).floor.Safe := by
  rw [Part.closeSeats_floor]
  exact h.filterSpeakers _

theorem openMic_safe {s : Seat} {kind : Kind} {source : Source} {freeze : Bool} {restored : Option (Option Nat × Bool)}
    (h : p.floor.Safe) (silent : ¬p.floor.Speaks s) : (p.openMic s kind source freeze restored).floor.Safe := by
  unfold Part.openMic
  split
  · rename_i lane channel hl hc
    dsimp only
    rw [Part.openWith_floor]
    obtain ⟨low, free⟩ := Part.freeChannel_free hc
    exact h.opened silent low free (Part.freeLane_free hl)
  · exact h

/-- Opening a seat's microphone lets no other seat speak. -/
theorem Part.openMic_speaks {s t : Seat} {kind : Kind} {source : Source} {freeze : Bool}
    {restored : Option (Option Nat × Bool)} (h : (p.openMic s kind source freeze restored).floor.Speaks t) :
    p.floor.Speaks t ∨ t = s := by
  unfold Part.openMic at h
  split at h
  · dsimp only at h
    rw [Part.openWith_floor] at h
    obtain ⟨e, m, q⟩ := h
    rcases List.mem_append.1 m with m | m
    · exact .inl ⟨e, m, q⟩
    · rw [List.mem_singleton.1 m] at q
      exact .inr q.symm
  · exact .inl h

theorem advanceWith_safe {n : Nat} (h : p.floor.Safe) : (p.advanceWith n).floor.Safe := by
  induction n generalizing p with
  | zero => exact h
  | succ n ih =>
    unfold Part.advanceWith
    (repeat' split)
    · rename_i s next
      obtain ⟨x, found, q⟩ := Option.map_eq_some_iff.1 next
      have m := List.mem_of_find?_eq_some found
      refine ih (openMic_safe h ?_)
      rintro ⟨e, me, k⟩
      exact h.queuedSilent e me x m (k.trans q.symm)
    · exact h
    · exact h

theorem autoAdvance_safe (h : p.floor.Safe) : p.autoAdvance.floor.Safe := by
  unfold Part.autoAdvance
  split
  · exact advanceWith_safe h
  · exact h

theorem endFloorEvent_safe {before : List QueueEntry} (h : p.floor.Safe) : (p.endFloorEvent before).floor.Safe := by
  unfold Part.endFloorEvent
  split
  · exact h.alike rfl rfl rfl rfl rfl rfl
  · exact h

/-- The floor controller takes one event whose own work keeps the invariant. -/
theorem floorEvent_safe {work : Part → Part} (h : (work p).floor.Safe) : (p.floorEvent work).floor.Safe := by
  unfold Part.floorEvent
  exact endFloorEvent_safe (autoAdvance_safe h)

theorem appendSeat_safe {s : Seat} {source : Source} (h : p.floor.Safe) (silent : ¬p.floor.Speaks s)
    (waiting : p.isQueued s = false) (room : p.floor.queueFull = false) : (p.appendSeat s source).floor.Safe := by
  unfold Part.appendSeat
  simp only [Part.derive_frame, Part.modFloor_floor]
  refine h.append source silent (fun x m q => ?_) (by simpa [Floor.queueFull] using room)
  rw [Part.isQueued_iff.2 ⟨x, m, q⟩] at waiting
  cases waiting

theorem appendOrFull_safe {s : Seat} {source : Source} (h : p.floor.Safe) (silent : ¬p.floor.Speaks s)
    (waiting : p.isQueued s = false) : (p.appendOrFull s source).2.floor.Safe := by
  unfold Part.appendOrFull
  split
  · exact h
  · rename_i room
    exact appendSeat_safe h silent waiting (Bool.eq_false_iff.2 room)

/-- A seat that does not speak still does not once an entry is closed. -/
theorem Part.closeWith_silent {s : Seat} {e : Speaker} {cause : Option CloseCause} (silent : ¬p.floor.Speaks s) :
    ¬(p.closeWith e cause).floor.Speaks s := by
  rw [Part.closeWith_floor]
  rintro ⟨d, m, q⟩
  exact silent ⟨d, (List.mem_filter.1 m).1, q⟩

theorem replaceWith_safe {e : Speaker} {s : Seat} {source : Source} {freeze : Bool} (h : p.floor.Safe)
    (silent : ¬p.floor.Speaks s) : (p.replaceWith e s source freeze).floor.Safe := by
  unfold Part.replaceWith
  exact openMic_safe (closeWith_safe h) (Part.closeWith_silent silent)

theorem requestDelegate_safe {s : Seat} {source : Source} (h : p.floor.Safe) (silent : ¬p.floor.Speaks s)
    (waiting : p.isQueued s = false) : (p.requestDelegate s source).2.floor.Safe := by
  unfold Part.requestDelegate
  (repeat' split) <;> (try dsimp only) <;> with_reducible first
    | exact openMic_safe h silent
    | exact appendOrFull_safe h silent waiting
    | exact replaceWith_safe h silent
    | exact h

theorem requeuePreempted_floor_speakers (e : Speaker) (p : Part) :
    (p.requeuePreempted e).floor.speakers = p.floor.speakers := by
  unfold Part.requeuePreempted
  split
  · rfl
  · simp

theorem requeuePreempted_safe {e : Speaker} {cause : Option CloseCause} (h : p.floor.Safe) (m : e ∈ p.floor.speakers) :
    ((p.closeWith e cause).requeuePreempted e).floor.Safe := by
  have k : (p.closeWith e cause).floor.Safe := closeWith_safe h
  unfold Part.requeuePreempted
  split
  · exact k
  · rename_i room
    simp only [Part.deriveQueued_frame, Part.modFloor_floor]
    have silent : ¬(p.closeWith e cause).floor.Speaks e.seat := by
      rw [Part.closeWith_floor]
      rintro ⟨d, md, q⟩
      simpa [q] using (List.mem_filter.1 md).2
    refine k.prepend silent (fun y my q => ?_) (fun y my q => ?_) (by simpa [Floor.queueFull] using room) _
    · rw [Part.closeWith_floor] at my
      exact h.queuedSilent e m y my q.symm
    · rw [Part.closeWith_floor] at my
      exact h.heldSilent e m y my q.symm

theorem openChair_safe {s : Seat} {source : Source} (h : p.floor.Safe) (silent : ¬p.floor.Speaks s) :
    (p.openChair s source).2.floor.Safe := by
  unfold Part.openChair
  (repeat' split) <;> dsimp only
  · exact openMic_safe h silent
  · rename_i e found
    have m : e ∈ p.floor.speakers := List.mem_reverse.1 (List.mem_of_find?_eq_some found)
    refine openMic_safe (requeuePreempted_safe h m) ?_
    rintro ⟨d, md, q⟩
    rw [requeuePreempted_floor_speakers] at md
    exact Part.closeWith_silent silent ⟨d, md, q⟩
  · exact h

theorem requestChair_safe {s : Seat} {source : Source} (h : p.floor.Safe) : (p.requestChair s source).2.floor.Safe := by
  unfold Part.requestChair
  (repeat' split)
  · exact closeMic_safe h
  · exact h
  · exact openChair_safe h fun k => absurd (Part.speaking_iff.2 k) ‹_›

theorem withdraw_safe {s : Seat} (h : p.floor.Safe) : (p.withdraw s).floor.Safe := by
  unfold Part.withdraw
  simpa using h.dequeue s

theorem unhold_safe {s : Seat} (h : p.floor.Safe) : (p.unhold s).floor.Safe := by
  unfold Part.unhold
  simpa using h.dropHeld s

theorem denyIfDenied_safe {s : Seat} {r : Verdict × Part} (h : r.2.floor.Safe) : (Part.denyIfDenied s r).floor.Safe := by
  unfold Part.denyIfDenied
  split
  · simpa using h
  · exact h

theorem resolvePress_safe {s : Seat} {pressNo : Word32} {source : Source} (h : p.floor.Safe) :
    (p.resolvePress s pressNo source).floor.Safe := by
  unfold Part.resolvePress
  split
  · simpa using h
  split
  · simpa using h
  · simpa using h
  · exact denyIfDenied_safe (requestChair_safe h)
  split
  · split
    · exact closeMic_safe h
    · exact h
  rename_i quiet
  have silent : ¬p.floor.Speaks s := fun k => quiet (Part.speaking_iff.2 k)
  split
  · split
    · exact withdraw_safe h
    · exact h
  rename_i unqueued
  have waiting : p.isQueued s = false := by simpa using unqueued
  split
  · split
    · exact unhold_safe h
    · exact h
  rename_i unheld
  split
  · simp only [Part.derive_frame, Part.modFloor_floor]
    exact h.hold silent (fun y my q => unqueued (Part.isQueued_iff.2 ⟨y, my, q⟩))
      fun y my q => unheld (Part.isHeldPress_iff.2 ⟨y, my, q⟩)
  split
  · exact denyIfDenied_safe (appendOrFull_safe h silent waiting)
  · exact denyIfDenied_safe (requestDelegate_safe h silent waiting)
  · exact denyIfDenied_safe (requestDelegate_safe h silent waiting)

theorem resolveVoice_safe {s : Seat} (h : p.floor.Safe) : (p.resolveVoice s).floor.Safe := by
  unfold Part.resolveVoice
  split
  · rename_i k
    simp only [Bool.and_eq_true, Bool.not_eq_true', decide_eq_true_eq] at k
    refine requestDelegate_safe h (fun q => ?_) k.1.1.2
    rw [Part.speaking_iff.2 q] at k
    exact absurd k.1.1.1.2 (by decide)
  · exact h

theorem voiceReport_safe {s : Seat} {voice : Bool} (h : p.floor.Safe) : (p.voiceReport s voice).floor.Safe := by
  unfold Part.voiceReport
  dsimp only
  (repeat' split)
  · exact h.modSpeaker s fun _ _ _ => rfl
  · exact h
  · exact h.setOnset s 0
  · exact h.setOnset s 1
  · exact resolveVoice_safe (h.setOnset s 2)
  · exact h.setOnset s 2
  · exact h

theorem floorLost_safe {s : Seat} (h : p.floor.Safe) : (p.floorLost s).floor.Safe := by
  have k := (((closeMic_safe (s := s) (cause := some .seatLost) h).dequeue s).dropHeld s).setOnset s 0
  unfold Part.floorLost
  dsimp only
  split
  · simpa using k
  · simpa using k

theorem floorRetrain_safe {c : Chain} (h : p.floor.Safe) : (p.floorRetrain c).floor.Safe := by
  have set (seats : List Seat) (f : Floor) (k : f.Safe) : (seats.foldl (fun g s => g.setOnset s 0) f).Safe := by
    induction seats generalizing f with
    | nil => exact k
    | cons s seats ih => exact ih _ (k.setOnset s 0)
  unfold Part.floorRetrain
  dsimp only
  rw [Part.modFloor_floor]
  exact set _ _ (closeSeats_safe h)

theorem floorStanding_safe {s : Seat} {old new : Standing} (h : p.floor.Safe) : (p.floorStanding s old new).floor.Safe := by
  unfold Part.floorStanding
  dsimp only
  split
  · have acted : (if new = .chair then p.modFloor (Floor.modSpeaker s Speaker.becomeChair)
        else p.closeMic s (some .standingChanged)).floor.Safe := by
      split
      · exact h.modSpeaker s fun _ _ _ => rfl
      · exact closeMic_safe h
    have removed := (acted.dequeue s).dropHeld s
    split
    · simpa using removed
    · simpa using removed
  · exact closeMic_safe h
  · exact h
  · exact h

theorem floorSessionClose_safe (h : p.floor.Safe) : p.floorSessionClose.floor.Safe := by
  unfold Part.floorSessionClose
  simp only [Part.deriveSeats_frame, Part.modFloor_floor]
  exact (closeSeats_safe h).shrink (List.Sublist.refl _) (List.nil_subperm) (List.nil_sublist _) (List.Sublist.refl _) (le_refl _)
    (List.length_map _)

/-! ### Priority -/

theorem join_safe {x : Holder} (h : p.floor.Safe) : (p.join x).floor.Safe := by
  unfold Part.join
  simp only [Part.deriveHolder_frame, Part.modFloor_floor]
  exact h.alike rfl rfl rfl rfl rfl rfl

theorem leave_safe {x : Holder} (h : p.floor.Safe) : (p.leave x).floor.Safe := by
  unfold Part.leave
  simp only [Part.deriveHolder_frame, Part.modFloor_floor]
  exact h.alike rfl rfl rfl rfl rfl rfl

theorem leaveSaved_safe {s : Seat} (h : p.floor.Safe) : (p.leaveSaved s).floor.Safe := by
  unfold Part.leaveSaved
  split
  · simpa using h.leaveFrames s
  · exact h

/-- A floor that nobody waits for and that no frame saves (R82, R84). -/
theorem Floor.Safe.cleared {f g : Floor} (h : f.Safe) (sp : g.speakers = f.speakers) (qu : g.queue = [] ∨ g.queue = f.queue)
    (he : g.held = [] ∨ g.held = f.held) (st : g.stack = []) (on : g.onsets = f.onsets) : g.Safe := by
  refine h.shrink (sp ▸ List.Sublist.refl _) ?_ ?_ ?_ (st ▸ Nat.zero_le _) (on ▸ rfl)
  · rcases qu with e | e <;> rw [e]
    · exact List.nil_subperm
  · rcases he with e | e <;> rw [e]
    exact List.nil_sublist _
  · unfold Floor.saved
    rw [st]
    exact List.nil_sublist _

theorem floorReset_floor (p : Part) : p.floorReset.floor =
    { (p.closeSeats p.floor.delegateSeats (some .floorReset)).floor with queue := [], held := [], stack := [], holders := [] } := by
  unfold Part.floorReset
  dsimp only
  split <;> simp

theorem floorReset_safe (h : p.floor.Safe) : p.floorReset.floor.Safe := by
  rw [floorReset_floor]
  exact (closeSeats_safe h).cleared rfl (.inl rfl) (.inl rfl) rfl rfl

theorem discardBottom_floor (p : Part) : p.discardBottom.floor =
    match p.floor.stack.getLast? with
    | none => p.floor
    | some frame => p.floor.dropBottom frame := by
  unfold Part.discardBottom
  dsimp only
  (repeat' split) <;> simp_all

theorem Floor.Safe.dropBottom {f : Floor} (h : f.Safe) (frame : ResumeFrame) : (f.dropBottom frame).Safe := by
  refine h.shrink (List.Sublist.refl _) (List.Subperm.refl _) (List.Sublist.refl _) ?_ ?_ rfl
  · exact (List.dropLast_sublist f.stack).flatMap _
  · exact (List.dropLast_sublist f.stack).length_le

theorem makeRoom_safe (h : p.floor.Safe) : p.makeRoom.floor.Safe ∧ p.makeRoom.floor.stack.length < 4 := by
  unfold Part.makeRoom
  (repeat' split)
  · exact ⟨h, ‹_›⟩
  · rw [discardBottom_floor]
    split
    · rename_i none
      rw [List.getLast?_eq_none_iff.1 none]
      exact ⟨h, by decide⟩
    · refine ⟨h.dropBottom _, ?_⟩
      have := h.stack
      simp only [Floor.dropBottom, List.length_dropLast]
      omega
  · exact ⟨floorReset_safe h, by rw [floorReset_floor]; exact Nat.zero_lt_succ 3⟩

theorem chairMic_safe {x : Holder} (h : p.floor.Safe) : (p.chairMic x).floor.Safe := by
  unfold Part.chairMic
  (repeat' split)
  · exact h
  · exact openChair_safe h fun k => absurd (Part.speaking_iff.2 k) ‹_›
  · exact h

theorem take_safe {x : Holder} (h : p.floor.Safe) : (p.take x).floor.Safe := by
  obtain ⟨k, room⟩ := makeRoom_safe h
  unfold Part.take
  dsimp only
  refine chairMic_safe ?_
  rw [(Part.notifyPriority_frame _ _ _ _).2.2.2.2.2.2.1]
  refine join_safe ?_
  rw [Part.closeSeats_floor]
  have pushed := k.push room x (p.makeRoom.floor.speakers.filter fun e => e.kind = .delegate) List.filter_sublist
  rw [List.map_map]
  exact pushed

theorem Floor.saved_map (f : Floor) (g : ResumeFrame → ResumeFrame) (h : ∀ r, (g r).saved = r.saved) :
    Floor.saved { f with stack := f.stack.map g } = f.saved := by
  simp only [Floor.saved, List.flatMap_map, h]

/-- A floor whose frames have other marks (R74, R78). -/
theorem Floor.Safe.mark {f : Floor} (h : f.Safe) {g : ResumeFrame → ResumeFrame} (k : ∀ r, (g r).saved = r.saved) :
    Floor.Safe { f with stack := f.stack.map g } :=
  h.alike rfl rfl rfl (f.saved_map g k) (List.length_map _) rfl

theorem retake_safe {x : Holder} (h : p.floor.Safe) : (p.retake x).floor.Safe := by
  unfold Part.retake
  dsimp only
  refine chairMic_safe ?_
  rw [(Part.notifyPriority_frame _ _ _ _).2.2.2.2.2.2.1]
  refine join_safe (h.mark fun r => ?_)
  split <;> rfl

theorem processHeld_safe (h : p.floor.Safe) : p.processHeld.floor.Safe := by
  unfold Part.processHeld
  generalize p.floor.held = held
  induction held generalizing p with
  | nil => exact h
  | cons e held ih =>
    rw [List.foldl_cons]
    refine ih ?_
    split
    · simp only [Part.derive_frame]
      exact resolvePress_safe (h.dropHeld e.seat)
    · exact h

/-- One saved seat restored: the floor keeps its invariant, and no seat but this one begins to speak (R80). -/
theorem restoreSeat_safe {r : Restore} {e : Saved} (h : r.part.floor.Safe) (silent : ¬r.part.floor.Speaks e.seat) :
    (r.seat e).part.floor.Safe ∧ ∀ t, (r.seat e).part.floor.Speaks t → r.part.floor.Speaks t ∨ t = e.seat := by
  unfold Restore.seat
  dsimp only
  (repeat' split) <;> dsimp only <;> simp only [Part.reexamine_frame, Part.derive_frame, Part.deriveQueued_frame,
    Part.modFloor_floor]
  · exact ⟨openMic_safe h silent, fun t => Part.openMic_speaks⟩
  · exact ⟨h, fun t k => .inl k⟩
  · rename_i room
    refine ⟨h.placeHead _ silent ?_, fun t k => .inl k⟩
    cases queued : r.part.isQueued e.seat with
    | true => exact .inl (Part.isQueued_iff.1 queued)
    | false =>
      refine .inr ?_
      simpa [queued, Floor.queueFull] using room

theorem restoreAll_safe (saved : List Saved) {r : Restore} (h : r.part.floor.Safe) (once : (saved.map Saved.seat).Nodup)
    (silent : ∀ e ∈ saved, ¬r.part.floor.Speaks e.seat) : (saved.foldl Restore.seat r).part.floor.Safe := by
  induction saved generalizing r with
  | nil => exact h
  | cons e saved ih =>
    rw [List.map_cons, List.nodup_cons] at once
    obtain ⟨k, more⟩ := restoreSeat_safe h (silent e List.mem_cons_self)
    refine ih k once.2 fun d m speaks => ?_
    rcases more _ speaks with old | new
    · exact silent d (List.mem_cons_of_mem _ m) old
    · exact once.1 (new ▸ List.mem_map_of_mem m)

theorem restoreFrame_safe {frame : ResumeFrame} (h : p.floor.Safe) (once : (frame.saved.map Saved.seat).Nodup)
    (silent : ∀ e ∈ frame.saved, ¬p.floor.Speaks e.seat) : (p.restoreFrame frame).floor.Safe := by
  have k := restoreAll_safe frame.saved (r := ⟨p, 0, []⟩) h once silent
  unfold Part.restoreFrame
  dsimp only
  split
  · exact k
  · exact k

theorem popWith_safe {n : Nat} (h : p.floor.Safe) : (p.popWith n).floor.Safe := by
  induction n generalizing p with
  | zero => exact h
  | succ n ih =>
    unfold Part.popWith
    split
    · exact h
    · rename_i top rest stack
      have saved : p.floor.saved = top.saved.map Saved.seat ++ Floor.saved { p.floor with stack := rest } := by
        unfold Floor.saved
        rw [stack]
        rfl
      have popped : Floor.Safe { p.floor with stack := rest } := by
        refine h.shrink (List.Sublist.refl _) (List.Subperm.refl _) (List.Sublist.refl _) ?_ ?_ rfl
        · rw [saved]
          exact List.sublist_append_right _ _
        · rw [stack]
          exact Nat.le_succ _
      have once : (top.saved.map Saved.seat).Nodup := (List.nodup_append.1 (saved ▸ h.savedOnce)).1
      have restored := restoreFrame_safe (p := (p.modFloor fun f => { f with stack := rest }).notifyPriority .released
        (some top.holder) (top.saved.map Saved.seat)) (frame := top) popped once (by
          rintro e m ⟨d, md, q⟩
          refine h.savedSilent d md ?_
          rw [saved, q]
          exact List.mem_append_left _ (List.mem_map_of_mem m))
      dsimp only
      (repeat' split)
      · exact processHeld_safe restored
      · exact ih restored
      · exact restored

theorem pop_safe (h : p.floor.Safe) : p.pop.floor.Safe := by
  unfold Part.pop
  exact popWith_safe h

theorem release_safe {x : Holder} (h : p.floor.Safe) : (p.release x).floor.Safe := by
  unfold Part.release
  dsimp only
  (repeat' split) <;> (try rw [(Part.notifyPriority_frame _ _ _ _).2.2.2.2.2.2.1])
  · exact h
  · exact leave_safe h
  · exact pop_safe (leave_safe h)
  · exact leave_safe (h.mark fun r => by split <;> rfl)

theorem takeOrRetake_safe {x : Holder} (h : p.floor.Safe) : (p.takeOrRetake x).floor.Safe := by
  unfold Part.takeOrRetake
  split
  · exact retake_safe h
  · exact take_safe h

theorem chairAux_safe {s : Seat} (h : p.floor.Safe) : (p.chairAux s).floor.Safe := by
  unfold Part.chairAux
  split
  · exact release_safe h
  · exact takeOrRetake_safe h

theorem lostSeat_safe {s : Seat} (h : p.floor.Safe) : (p.lostSeat s).floor.Safe := by
  unfold Part.lostSeat
  exact release_safe (leaveSaved_safe (floorLost_safe h))

theorem changedStanding_safe {s : Seat} {old new : Standing} (h : p.floor.Safe) :
    (p.changedStanding s old new).floor.Safe := by
  unfold Part.changedStanding
  dsimp only
  split
  · exact leaveSaved_safe (floorStanding_safe h)
  · exact release_safe (floorStanding_safe h)
  · exact floorStanding_safe h
  · exact floorStanding_safe h

theorem clearPriority_safe (h : p.floor.Safe) : p.clearPriority.floor.Safe := by
  have k : Floor.Safe { p.floor with stack := [], holders := [] } := h.cleared rfl (.inr rfl) (.inr rfl) rfl rfl
  unfold Part.clearPriority
  dsimp only
  split <;> simpa using k

/-! ### Speech timing -/

theorem tickEntry_safe {s : Seat} (h : p.floor.Safe) : (p.tickEntry s).floor.Safe := by
  unfold Part.tickEntry
  dsimp only
  split
  · exact h
  · rename_i e found
    have stored : ((p.modSession (Session.credit s)).modFloor (Floor.modSpeaker s fun _ => e.countSecond)).floor.Safe := by
      refine h.modSpeaker s fun d m q => ?_
      obtain ⟨me, qe⟩ := Part.speaker?_some found
      have same : d = e := List.inj_on_of_nodup_map h.speakersOnce m me (q.trans qe.symm)
      rw [same]
      rfl
    split
    · simp only [Part.derive_frame]
      exact stored.modSpeaker s fun _ _ _ => rfl
    · simp only [Part.derive_frame]
      exact stored

theorem expire_safe {s : Seat} (h : p.floor.Safe) : (p.expire s).floor.Safe := by
  unfold Part.expire
  (repeat' split)
  · exact closeMic_safe h
  · exact h
  · exact h

theorem tickSilence_safe {s : Seat} (h : p.floor.Safe) : (p.tickSilence s).floor.Safe := by
  unfold Part.tickSilence
  (repeat' split)
  · exact h
  · exact h.modSpeaker s fun _ _ _ => rfl
  · exact h

theorem silenceClose_safe {s : Seat} (h : p.floor.Safe) : (p.silenceClose s).floor.Safe := by
  unfold Part.silenceClose
  split
  · exact closeMic_safe h
  · exact h

theorem extendEntry_safe {s : Seat} {time : Nat} (h : p.floor.Safe) : (p.extendEntry s time).floor.Safe := by
  unfold Part.extendEntry
  simp only [Part.derive_frame, Part.modFloor_floor]
  exact h.modSpeaker s fun _ _ _ => rfl

/-! ### The requests of the floor -/

theorem grantSeat_safe {s : Seat} (h : p.floor.Safe) (silent : ¬p.floor.Speaks s) : (p.grantSeat s).2.2.floor.Safe := by
  unfold Part.grantSeat
  dsimp only
  (repeat' split) <;> dsimp only
  · exact h
  · exact openChair_safe h silent
  · exact openMic_safe h silent
  · exact h
  · exact h
  · rename_i free _ _ room
    simp only [Bool.or_eq_true, not_or, Bool.not_eq_true] at free
    exact appendSeat_safe h silent free.2 (Bool.eq_false_iff.2 room)
  · exact replaceWith_safe h silent
  · exact h
  · exact h

theorem move_safe {s : Seat} {n : Nat} (h : p.floor.Safe) :
    ((p.modFloor (Floor.move s n)).deriveQueued).floor.Safe := by
  simp only [Part.deriveQueued_frame, Part.modFloor_floor]
  unfold Floor.move
  dsimp only
  split
  · rename_i e found
    have q : e.seat = s := by simpa using List.find?_some found
    refine h.insertAt (List.mem_of_find?_eq_some found) (n - 1) rfl ?_ (List.Sublist.refl _)
    rw [q]
  · exact h

theorem setFloor_safe {f : FloorPreset} (h : p.floor.Safe) : (p.setFloor f).floor.Safe := by
  unfold Part.setFloor
  dsimp only
  exact closeSeats_safe (h.alike rfl rfl rfl rfl rfl rfl)

end Sys2Proof.Machine
end

