-- ==== Sys2Proof/Laws/FloorEvents.lean ====
section
/-!
SUPPORT. What an event of the floor is followed by: the auto-advance pass, one grant at a time (R55), and QUEUE_CHANGED (R45, R80).
What a take's closes tell the room controller (R75), and what a floor reset leaves open (R82).
-/
namespace Sys2Proof.Machine

/-! ### The auto-advance pass (R55) -/

/-- Opening from the queue shortens it, or, without a free lane or channel, changes nothing. -/
theorem Part.openMic_queue {s : Seat} {kind : Kind} {source : Source} {freeze : Bool} {restored : Option (Option Nat × Bool)}
    (p : Part) :
    p.openMic s kind source freeze restored = p ∨
      (p.openMic s kind source freeze restored).floor.queue = p.floor.queue.filter fun e => e.seat ≠ s := by
  unfold Part.openMic
  (repeat' split)
  · right
    rw [Part.openWith_floor]
    rfl
  · exact .inl rfl

theorem Part.nextQueued_none {p : Part} (h : ∀ e ∈ p.floor.queue, p.freeLane (chainOf e.seat) = none) :
    p.nextQueued = none := by
  unfold Part.nextQueued
  rw [List.find?_eq_none.2 fun e m => by simp [h e m]]
  rfl

theorem Part.nextQueued_some {p : Part} {front back : List QueueEntry} {e : QueueEntry} (h : p.floor.queue = front ++ e :: back)
    (none : ∀ d ∈ front, p.freeLane (chainOf d.seat) = none) (free : p.freeLane (chainOf e.seat) ≠ .none) :
    p.nextQueued = some e.seat := by
  unfold Part.nextQueued
  rw [h, List.find?_append, List.find?_eq_none.2 fun d m => by simp [none d m],
    List.find?_cons_of_pos (by simpa [Option.isSome_iff_ne_none] using free)]
  rfl

theorem Part.nextQueued_mem {p : Part} {s : Seat} (h : p.nextQueued = some s) : ∃ e ∈ p.floor.queue, e.seat = s := by
  unfold Part.nextQueued at h
  obtain ⟨e, found, rfl⟩ := Option.map_eq_some_iff.1 h
  exact ⟨e, List.mem_of_find?_eq_some found, rfl⟩

theorem Part.advanceWith_stuck {p : Part} {s : Seat} (next : p.nextQueued = some s)
    (stuck : p.openMic s .delegate .auto false none = p) (n : Nat) : p.advanceWith n = p := by
  induction n with
  | zero => rfl
  | succ n ih =>
    unfold Part.advanceWith
    rw [next]
    dsimp only
    rw [stuck, ih]
    split <;> rfl

theorem Part.advanceWith_done {p : Part} (next : p.nextQueued = none) (n : Nat) : p.advanceWith n = p := by
  cases n with
  | zero => rfl
  | succ n =>
    unfold Part.advanceWith
    rw [next]
    split <;> rfl

theorem filter_length_lt {α : Type} {q : α → Bool} {xs : List α} {x : α} (m : x ∈ xs) (h : q x = false) :
    (xs.filter q).length < xs.length := by
  rcases Nat.lt_or_ge (xs.filter q).length xs.length with lt | ge
  · exact lt
  · have := List.filter_eq_self.1 (List.Sublist.eq_of_length_le List.filter_sublist ge) x m
    rw [h] at this
    cases this

/-- A pass needs no more grants than the queue has entries. -/
theorem Part.advanceWith_enough (n m : Nat) (p : Part) (fits : p.floor.queue.length ≤ n) (le : n ≤ m) :
    p.advanceWith m = p.advanceWith n := by
  induction n generalizing m p with
  | zero =>
    have none : p.nextQueued = none := Part.nextQueued_none fun e he => by
      rw [List.eq_nil_of_length_eq_zero (Nat.le_zero.1 fits)] at he
      cases he
    rw [Part.advanceWith_done none, Part.advanceWith_done none]
  | succ n ih =>
    obtain ⟨m, rfl⟩ : ∃ k, m = k + 1 := ⟨m - 1, by omega⟩
    rcases next : p.nextQueued with _ | s
    · rw [Part.advanceWith_done next, Part.advanceWith_done next]
    · rcases Part.openMic_queue (s := s) (kind := .delegate) (source := .auto) (freeze := false) (restored := none) p with
        stuck | shorter
      · rw [Part.advanceWith_stuck next stuck, Part.advanceWith_stuck next stuck]
      · unfold Part.advanceWith
        rw [next]
        dsimp only
        split
        · refine ih m _ ?_ (by omega)
          obtain ⟨e, he, rfl⟩ := Part.nextQueued_mem next
          have := filter_length_lt (q := fun d : QueueEntry => d.seat ≠ e.seat) he (by simp)
          rw [shorter]
          omega
        · rfl

theorem Part.frozen_iff (p : Part) : p.frozen = true ↔ p.floor.stack ≠ [] := by
  unfold Part.frozen
  cases p.floor.stack <;> simp

/-- Opening keeps what the pass asks for: the session, the preset in force and whether the floor is frozen. -/
theorem Part.openMic_advances {s : Seat} {kind : Kind} {source : Source} {freeze : Bool}
    {restored : Option (Option Nat × Bool)} (p : Part) :
    let q := p.openMic s kind source freeze restored
    q.isOpen = p.isOpen ∧ q.floor.preset = p.floor.preset ∧ q.frozen = p.frozen := by
  dsimp only
  unfold Part.openMic
  (repeat' split)
  · refine ⟨?_, ?_, ?_⟩
    · unfold Part.isOpen Part.openWith
      dsimp only
      split <;> simp
    · rw [Part.openWith_floor]
      rfl
    · unfold Part.frozen
      rw [Part.openWith_floor]
      simp [Floor.opened, Floor.leaveFrames, Floor.setOnset, Floor.dropHeld, Floor.dequeue]
  · exact ⟨rfl, rfl, rfl⟩

/-- One auto-advance pass: nothing without a session, the setting, an unfrozen floor and a free slot, or without a queued seat whose
chain has a free lane; otherwise the first such seat opens, and the pass goes on (R55). -/
theorem Part.autoAdvance_spec (p : Part) (fits : p.floor.queue.length ≤ 32) :
    let may := p.isOpen = true ∧ p.floor.preset.autoAdvance = true ∧ p.floor.stack = [] ∧ p.floor.delegates < p.floor.preset.limit
    (¬may → p.autoAdvance = p) ∧
    ((∀ e ∈ p.floor.queue, p.freeLane (chainOf e.seat) = none) → p.autoAdvance = p) ∧
    ∀ front e back, may → p.floor.queue = front ++ e :: back → (∀ d ∈ front, p.freeLane (chainOf d.seat) = none) →
      p.freeLane (chainOf e.seat) ≠ none →
      p.autoAdvance = (p.openMic e.seat .delegate .auto false none).autoAdvance := by
  have thawed : p.frozen = false ↔ p.floor.stack = [] := by
    have := Part.frozen_iff p
    cases h : p.frozen <;> simp_all
  refine ⟨fun may => ?_, fun none => ?_, fun front e back may h none free => ?_⟩
  · unfold Part.autoAdvance
    split
    · rename_i c
      simp only [Bool.and_eq_true, Bool.not_eq_true', thawed] at c
      have slot : p.slotFree = false := by
        unfold Part.slotFree
        simp only [decide_eq_false_iff_not]
        exact fun s => may ⟨c.1.1, c.1.2, c.2, s⟩
      unfold Part.advanceWith
      rw [slot]
      rfl
    · rfl
  · unfold Part.autoAdvance
    rw [Part.advanceWith_done (Part.nextQueued_none none)]
    split <;> rfl
  · have next := Part.nextQueued_some h none free
    have keeps := Part.openMic_advances (s := e.seat) (kind := .delegate) (source := .auto) (freeze := false) (restored := .none) p
    have go : (p.isOpen && p.floor.preset.autoAdvance && !p.frozen) = true := by
      simp only [Bool.and_eq_true, Bool.not_eq_true', thawed]
      exact ⟨⟨may.1, may.2.1⟩, may.2.2.1⟩
    unfold Part.autoAdvance
    rw [keeps.1, keeps.2.1, keeps.2.2, if_pos go, if_pos go]
    have slot : p.slotFree = true := decide_eq_true may.2.2.2
    rcases Part.openMic_queue (s := e.seat) (kind := .delegate) (source := .auto) (freeze := false) (restored := .none) p with
      stuck | shorter
    · rw [Part.advanceWith_stuck next stuck, stuck, Part.advanceWith_stuck next stuck]
    · have less : (p.openMic e.seat .delegate .auto false .none).floor.queue.length ≤ 31 := by
        have := filter_length_lt (xs := p.floor.queue) (q := fun d : QueueEntry => d.seat ≠ e.seat) (x := e)
          (by rw [h]; simp) (by simp)
        rw [shorter]
        omega
      rw [Part.advanceWith_enough 31 32 _ less (by omega)]
      conv_lhs => unfold Part.advanceWith
      rw [slot, next]
      rfl

/-- An event of the floor: its work, the auto-advance pass, and QUEUE_CHANGED when the queue is not as it was before the event, or
when a restore has placed a seat in its head region (R45, R55, R80). -/
theorem Part.floorEvent_spec (p : Part) (work : Part → Part) :
    let q := (work p).autoAdvance
    p.floorEvent work =
      if q.floor.queue = p.floor.queue ∧ q.floor.headPlaced = false then q
      else
        { q with
          floor := { q.floor with headPlaced := false }
          link := q.link.notify (.queueChanged (q.floor.queue.map QueueEntry.seat)) } := by
  dsimp only
  unfold Part.floorEvent Part.endFloorEvent
  generalize (work p).autoAdvance = q
  by_cases h : q.floor.queue = p.floor.queue ∧ q.floor.headPlaced = false
  · rw [if_pos h, if_neg (by simp [h.1, h.2])]
  · rw [if_neg h, if_pos]
    · rfl
    · simp only [Bool.or_eq_true, decide_eq_true_eq]
      by_cases same : q.floor.queue = p.floor.queue
      · exact .inr (Bool.not_eq_false _ ▸ fun c => h ⟨same, c⟩)
      · exact .inl same

/-! ### What closes tell (R50, R75) -/

/-- A notice about the active speaker or a share: all that a close without MIC_CLOSED can bring (R130, R151). -/
def Notice.ofClose (n : Notice) : Prop :=
  (∃ new previous cause shot sent follow, n = .activeSpeaker new previous cause shot sent follow) ∨
    ∃ slot action x input number source cause, n = .shareChanged slot action x input number source cause

theorem Part.directorClose_tells (s : Seat) (p : Part) :
    ∃ ns, (∀ n ∈ ns, n.ofClose) ∧ (p.directorClose s).link = p.link.notifyAll ns := by
  unfold Part.directorClose
  (repeat' split)
  · refine ⟨[.activeSpeaker none p.director.active .micClosed none false .wide], fun n m => ?_, ?_⟩
    · rw [List.mem_singleton.1 m]
      exact .inl ⟨_, _, _, _, _, _, rfl⟩
    · simp [Part.becomeNone, Part.dropRecall, Link.notifyAll]
  · exact ⟨[], by simp, rfl⟩
  · exact ⟨[], by simp, rfl⟩

theorem Part.endShare_tells (slot : Slot) (cause : ShareCause) (p : Part) :
    ∃ ns, (∀ n ∈ ns, n.ofClose) ∧ (p.endShare slot cause).link = p.link.notifyAll ns := by
  unfold Part.endShare
  split
  · exact ⟨[], by simp, rfl⟩
  · rename_i h _
    refine ⟨[.shareChanged slot .ended h.seat h.input h.startNo h.source (some cause)], fun n m => ?_, ?_⟩
    · rw [List.mem_singleton.1 m]
      exact .inr ⟨_, _, _, _, _, _, _, rfl⟩
    · simp [Part.freeShare, Link.notifyAll]

theorem Part.reexamine_tells (s : Seat) (p : Part) :
    ∃ ns, (∀ n ∈ ns, n.ofClose) ∧ (p.reexamine s).link = p.link.notifyAll ns := by
  unfold Part.reexamine
  (repeat' split)
  · exact ⟨[], by simp, rfl⟩
  · exact Part.endShare_tells _ _ p
  · exact ⟨[], by simp, rfl⟩

theorem Part.closeMic_none_tells (s : Seat) (p : Part) :
    ∃ ns, (∀ n ∈ ns, n.ofClose) ∧ (p.closeMic s none).link = p.link.notifyAll ns := by
  unfold Part.closeMic
  split
  · rename_i e _
    unfold Part.closeWith
    dsimp only
    rw [if_neg (by simp)]
    obtain ⟨ns, hn, en⟩ := Part.directorClose_tells e.seat
      (((p.modFloor fun f => { f with speakers := f.speakers.filter fun x => x.seat ≠ e.seat }).chainClose e.seat
        e.lane).mixerClose e.seat e.channel e.lane ((p.chain (chainOf e.seat)).laneLive e.lane))
    obtain ⟨ms, hm, em⟩ := Part.reexamine_tells e.seat
      ((((p.modFloor fun f => { f with speakers := f.speakers.filter fun x => x.seat ≠ e.seat }).chainClose e.seat
        e.lane).mixerClose e.seat e.channel e.lane ((p.chain (chainOf e.seat)).laneLive e.lane)).directorClose e.seat)
    refine ⟨ns ++ ms, fun n m => ?_, ?_⟩
    · rcases List.mem_append.1 m with m | m
      · exact hn n m
      · exact hm n m
    · rw [(Part.derive_frame _ _).2.1, em, en, Link.notifyAll_append]
      simp
  · exact ⟨[], by simp, rfl⟩

/-- The closes of a take queue no MIC_CLOSED (R75). -/
theorem Part.closeSeats_none_tells (seats : List Seat) (p : Part) :
    ∃ ns, (∀ n ∈ ns, n.ofClose) ∧ (p.closeSeats seats none).link = p.link.notifyAll ns := by
  unfold Part.closeSeats
  induction seats generalizing p with
  | nil => exact ⟨[], by simp, rfl⟩
  | cons s seats ih =>
    obtain ⟨ns, hn, en⟩ := Part.closeMic_none_tells s p
    obtain ⟨ms, hm, em⟩ := ih (p.closeMic s none)
    refine ⟨ns ++ ms, fun n m => ?_, ?_⟩
    · rcases List.mem_append.1 m with m | m
      · exact hn n m
      · exact hm n m
    · rw [List.foldl_cons, em, en, Link.notifyAll_append]

/-! ### Floor reset (R82) -/

/-- A floor reset closes the DELEGATE entries and leaves the CHAIR entries as they are (R82). -/
theorem Part.floorReset_speakers (p : Part) (once : (p.floor.speakers.map Speaker.seat).Nodup) :
    p.floorReset.floor.speakers = p.floor.speakers.filter fun e => e.kind = .chair := by
  have kept : p.floorReset.floor.speakers = p.floor.speakers.filter fun e => e.seat ∉ p.floor.delegateSeats := by
    unfold Part.floorReset
    simp only [Part.reexamineAll_frame, Part.deriveSeats_frame]
    split <;> simp [Part.closeSeats_floor, Part.notifyPriority]
  rw [kept]
  refine List.filter_congr fun e m => ?_
  unfold Floor.delegateSeats
  rcases k : e.kind with _ | _
  · simp only [decide_eq_decide]
    refine iff_of_false (fun out => out ?_) (by simp)
    exact List.mem_map.2 ⟨e, List.mem_filter.2 ⟨m, by simp [k]⟩, rfl⟩
  · simp only [decide_eq_decide, iff_true]
    intro out
    obtain ⟨d, md, same⟩ := List.mem_map.1 out
    rw [List.mem_filter] at md
    rw [List.inj_on_of_nodup_map once md.1 m same, k] at md
    simp at md

end Sys2Proof.Machine
end

