-- ==== Sys2Proof/Laws/Outputs.lean ====
section
/-!
SUPPORT. What the outputs become, one lemma per shared operation: the rings and nameplates that a derivation stores (R12 to R14),
the screen sources and ROUTE records of a recomputation (R144), and the duck counts, loudspeaker states and SPEAKER_STATE items of
a recount (R121, R122).
-/
namespace Sys2Proof.Machine

theorem updateAt_eq_modify {α : Type} (f : α → α) (xs : List α) (i : Nat) : updateAt f xs i = xs.modify i f := by
  induction xs generalizing i with
  | nil => simp [updateAt]
  | cons x xs ih => cases i <;> simp [updateAt, ih]

/-! ### Screens (R143, R144) -/

/-- The decision of a source reads nothing of the screens but the modes in force, the classes, the shares and the follow values. -/
theorem Part.decideSource_congr {p q : Part} (hs : q.sched = p.sched) (hz : q.zones = p.zones)
    (hv : q.screens.plans = p.screens.plans ∧ q.screens.plan = p.screens.plan ∧
      q.screens.confidential = p.screens.confidential ∧ q.screens.slot1 = p.screens.slot1 ∧
      q.screens.slot2 = p.screens.slot2 ∧ q.screens.follow = p.screens.follow ∧ q.screens.active = p.screens.active)
    (hm : q.screens.screens.map (fun s => (s.cls, s.override)) = p.screens.screens.map fun s => (s.cls, s.override))
    (i : Fin 8) : q.decideSource i = p.decideSource i := by
  obtain ⟨a, b, c, d, e, f, g⟩ := hv
  have key : (q.screens.screens[i.val]?).map (fun s => (s.cls, s.override)) =
      (p.screens.screens[i.val]?).map fun s => (s.cls, s.override) := by
    rw [← List.getElem?_map, hm, List.getElem?_map]
  have cl : q.screens.classOf i = p.screens.classOf i := by
    have := congrArg (Option.map Prod.fst) key
    unfold Screens.classOf
    simp only [Option.map_map] at this
    exact congrArg (fun o : Option ScreenClass => o.getD ScreenClass.internal) this
  have mo : q.screens.modeOf i = p.screens.modeOf i := by
    unfold Screens.modeOf
    rw [a, b]
    revert key
    rcases q.screens.screens[i.val]? with _ | ⟨_, o, _⟩ <;> rcases p.screens.screens[i.val]? with _ | ⟨_, o', _⟩ <;> simp
    rintro _ rfl
    cases o <;> rfl
  unfold Part.decideSource Part.inStandby Part.inZone Screens.autoSource Screens.followShare Screens.slot
  dsimp only
  rw [cl, mo, hs, hz, c, d, e, f, g]

/-- The screens with screen `i` showing the source decided for it. -/
def Part.shown (p : Part) (i : Fin 8) : List Screen :=
  p.screens.screens.modify i.val fun s => { s with source := p.decideSource i }

/-- The screen link queue with a ROUTE record for screen `i` when the source decided for it is new (R144). -/
def Part.routed (p : Part) (i : Fin 8) (queue : List LinkRecord) : List LinkRecord :=
  if p.decideSource i = p.screens.sourceOf i then queue else Machine.placeRecord (.route i (p.decideSource i)) queue

theorem Part.recomputeScreen_eq (p : Part) (i : Fin 8) :
    p.recomputeScreen i =
      { p with screens := { p.screens with screens := p.shown i, queue := p.routed i p.screens.queue } } := by
  unfold Part.recomputeScreen Part.shown Part.routed
  dsimp only
  split
  · rename_i h
    have : p.screens.screens.modify i.val (fun s => { s with source := p.decideSource i }) = p.screens.screens := by
      apply List.ext_getElem?
      intro k
      rw [List.getElem?_modify]
      split
      · rename_i e
        subst e
        unfold Screens.sourceOf at h
        rcases q : p.screens.screens[i.val]? with _ | s
        · simp
        · rw [q] at h; simp at h ⊢; rw [h]
      · simp
    rw [this]
  · unfold Part.placeRecord Part.modScreens
    dsimp only
    rw [updateAt_eq_modify]

theorem Part.recomputeScreen_decide (p : Part) (i j : Fin 8) : (p.recomputeScreen i).decideSource j = p.decideSource j := by
  rw [Part.recomputeScreen_eq]
  refine Part.decideSource_congr (p := p)
    (q := { p with screens := { p.screens with screens := p.shown i, queue := p.routed i p.screens.queue } })
    rfl rfl ⟨rfl, rfl, rfl, rfl, rfl, rfl, rfl⟩ ?_ j
  dsimp only
  apply List.ext_getElem?
  intro k
  rw [List.getElem?_map, List.getElem?_map, Part.shown, List.getElem?_modify]
  rcases p.screens.screens[k]? with _ | s
  · simp
  · simp; split <;> simp

theorem Part.recomputeScreens_decide (p : Part) (i : Fin 8) : p.recomputeScreens.decideSource i = p.decideSource i := by
  unfold Part.recomputeScreens
  generalize List.finRange 8 = l
  induction l generalizing p with
  | nil => rfl
  | cons j l ih => rw [List.foldl_cons, ih, Part.recomputeScreen_decide]

/-- What recomputing some screens does, one after another. -/
theorem Part.recompute_fold (l : List (Fin 8)) (nd : l.Nodup) (p : Part) :
    let q := l.foldl (fun q i => q.recomputeScreen i) p
    q = { p with screens := { p.screens with screens := q.screens.screens, queue := q.screens.queue } } ∧
    (∀ j : Fin 8, q.screens.screens[j.val]? =
      (p.screens.screens[j.val]?).map fun s => if j ∈ l then { s with source := p.decideSource j } else s) ∧
    (∀ j : Nat, 8 ≤ j → q.screens.screens[j]? = p.screens.screens[j]?) ∧
    q.screens.queue = l.foldl (fun k i => p.routed i k) p.screens.queue := by
  induction l generalizing p with
  | nil => refine ⟨rfl, fun j => ?_, fun _ _ => rfl, rfl⟩; simp
  | cons i l ih =>
    obtain ⟨ni, nl⟩ := List.nodup_cons.1 nd
    obtain ⟨a, c, e, d⟩ := ih nl (p.recomputeScreen i)
    dsimp only
    rw [List.foldl_cons]
    refine ⟨?_, ?_, ?_, ?_⟩
    · rw [a, Part.recomputeScreen_eq]
    · intro j
      rw [c j, Part.recomputeScreen_decide, Part.recomputeScreen_eq]
      dsimp only [Part.shown]
      rw [List.getElem?_modify]
      rcases p.screens.screens[j.val]? with _ | s
      · simp
      · by_cases h : i = j
        · subst h; simp
        · have : i.val ≠ j.val := fun e => h (Fin.ext e)
          have h' : j ≠ i := fun e => h e.symm
          simp [this, h']
    · intro j hj
      rw [e j hj, Part.recomputeScreen_eq]
      dsimp only [Part.shown]
      rw [List.getElem?_modify]
      rcases p.screens.screens[j]? with _ | s
      · rfl
      · have : i.val ≠ j := by omega
        simp [this]
    · rw [d, List.foldl_cons]
      have : (p.recomputeScreen i).screens.queue = p.routed i p.screens.queue := by rw [Part.recomputeScreen_eq]
      rw [this]
      refine List.foldl_ext _ _ _ fun k j m => ?_
      unfold Part.routed
      rw [Part.recomputeScreen_decide]
      have ne : j ≠ i := fun e => ni (e ▸ m)
      have : (p.recomputeScreen i).screens.sourceOf j = p.screens.sourceOf j := by
        rw [Part.recomputeScreen_eq]
        unfold Screens.sourceOf
        dsimp only [Part.shown]
        rw [List.getElem?_modify]
        have : i.val ≠ j.val := fun e => ne (Fin.ext e.symm)
        rcases p.screens.screens[j.val]? with _ | s
        · rfl
        · simp [this]
      rw [this]

/-- A recomputation of every screen: each shows the source decided for it, and each new source goes into a ROUTE record (R144). -/
theorem Part.recomputeScreens_spec (p : Part) :
    let q := p.recomputeScreens
    q = { p with screens := { p.screens with screens := q.screens.screens, queue := q.screens.queue } } ∧
    (∀ j : Fin 8, q.screens.screens[j.val]? =
      (p.screens.screens[j.val]?).map fun s => { s with source := p.decideSource j }) ∧
    (∀ j : Nat, 8 ≤ j → q.screens.screens[j]? = p.screens.screens[j]?) ∧
    q.screens.queue = (List.finRange 8).foldl (fun k i => p.routed i k) p.screens.queue := by
  unfold Part.recomputeScreens
  have nd := List.nodup_finRange 8
  have all : ∀ j : Fin 8, j ∈ List.finRange 8 := List.mem_finRange
  generalize List.finRange 8 = l at nd all
  obtain ⟨a, c, e, d⟩ := Part.recompute_fold l nd p
  refine ⟨a, fun j => ?_, e, d⟩
  rw [c j]
  simp [all j]

/-! ### The seats of a chain -/

theorem seatAt_val (c : Chain) (n : Nat) : (seatAt c n).val = (chainBase c + n % 32) % 64 := rfl

theorem chainOf_seatAt (c : Chain) (n : Nat) : chainOf (seatAt c n) = c := by
  unfold chainOf
  rw [seatAt_val]
  cases c
  · rw [if_pos]; show (0 + n % 32) % 64 < 32; omega
  · rw [if_neg]; show ¬(32 + n % 32) % 64 < 32; omega

theorem mem_chainSeats (c : Chain) (x : Seat) : x ∈ chainSeats c ↔ chainOf x = c := by
  unfold chainSeats
  rw [List.mem_map]
  constructor
  · rintro ⟨n, _, rfl⟩; exact chainOf_seatAt c n
  · intro h
    refine ⟨x.val % 32, by simp [Nat.mod_lt], Fin.ext ?_⟩
    rw [seatAt_val]
    unfold chainOf at h
    have := x.isLt
    split at h <;> subst h <;> simp only [chainBase] <;> omega

theorem chainSeats_nodup (c : Chain) : (chainSeats c).Nodup := by
  unfold chainSeats
  refine List.Nodup.map_on ?_ List.nodup_range
  intro a ha b hb e
  have := congrArg Fin.val e
  rw [seatAt_val, seatAt_val] at this
  simp at ha hb
  cases c <;> simp only [chainBase] at this <;> omega

/-! ### Loudspeakers (R121, R122) -/

/-- The loudspeaker state that a recount gives a seat (R122). -/
def Mixer.loudNew (m : Mixer) (x : Seat) : Loud :=
  if m.seatOpen x then .muted else if 0 < m.duckCount x then .ducked else .normal

/-- The chain's records with SPEAKER_STATE queued for a PRESENT seat of the chain whose loudspeaker state is new (R122). -/
def Part.spoken (p : Part) (c : Chain) (x : Seat) (k : ChainCtl) : ChainCtl :=
  if p.mixer.loudNew x ≠ p.mixer.loud.getD x.val .normal ∧ chainOf x = c ∧ (p.seat x).link = .present then
    k.queueItem x (.speakerState (p.mixer.loudNew x))
  else k

theorem Part.chain_queueIfPresent (p : Part) (x : Seat) (payload : Payload) (c : Chain) :
    (p.queueIfPresent x payload).chain c =
      if chainOf x = c ∧ (p.seat x).link = .present then (p.chain c).queueItem x payload else p.chain c := by
  unfold Part.queueIfPresent Part.queueItem
  split
  · rename_i h
    cases hc : chainOf x <;> cases c <;> simp [Part.chain, Part.modChain, h]
  · rename_i h; simp [h]

theorem Part.recountSeat_spec (x : Seat) (p : Part) (hd : p.mixer.ducks.length = 64) (hl : p.mixer.loud.length = 64) :
    let q := p.recountSeat x
    q = { p with
      mixer := { p.mixer with ducks := q.mixer.ducks, loud := q.mixer.loud }, chainA := q.chainA, chainB := q.chainB } ∧
    q.mixer.ducks.length = 64 ∧ q.mixer.loud.length = 64 ∧
    (∀ y : Seat, q.mixer.ducks.getD y.val 0 = if y = x then p.mixer.duckCount x else p.mixer.ducks.getD y.val 0) ∧
    (∀ y : Seat, q.mixer.loud.getD y.val .normal = if y = x then p.mixer.loudNew x else p.mixer.loud.getD y.val .normal) ∧
    ∀ c, q.chain c = p.spoken c x (p.chain c) := by
  have lo : (p.modMixer fun m => { m with ducks := updateAt (fun _ => m.duckCount x) m.ducks x.val }).mixer.loudOf x =
      p.mixer.loudNew x := by
    unfold Mixer.loudOf Mixer.loudNew
    have : (p.modMixer fun m => { m with ducks := updateAt (fun _ => m.duckCount x) m.ducks x.val }).mixer.ducks.getD x.val 0 =
        p.mixer.duckCount x := by
      show (updateAt _ p.mixer.ducks x.val).getD x.val 0 = _
      rw [getD_updateAt, if_pos ⟨rfl, by omega⟩]
    rw [this]
    rfl
  have gd (y : Seat) : (updateAt (fun _ => p.mixer.duckCount x) p.mixer.ducks x.val).getD y.val 0 =
      if y = x then p.mixer.duckCount x else p.mixer.ducks.getD y.val 0 := by
    rw [getD_updateAt]
    by_cases e : y = x
    · subst e; simp [hd]
    · have : x.val ≠ y.val := fun h => e (Fin.ext h.symm)
      simp [e, this]
  dsimp only
  unfold Part.recountSeat
  dsimp only
  rw [lo]
  split
  · rename_i h
    have h' : p.mixer.loudNew x = p.mixer.loud.getD x.val .normal := h
    refine ⟨rfl, by simpa using hd, hl, gd, fun y => ?_, fun c => ?_⟩
    · by_cases e : y = x
      · subst e; rw [if_pos rfl]; exact h'.symm
      · rw [if_neg e]; rfl
    · unfold Part.spoken
      rw [if_neg fun k => k.1 h']
      cases c <;> rfl
  · rename_i h
    have h' : p.mixer.loudNew x ≠ p.mixer.loud.getD x.val .normal := h
    have mx (q : Part) (payload : Payload) : (q.queueIfPresent x payload).mixer = q.mixer := by simp
    refine ⟨?_, ?_, ?_, ?_, ?_, ?_⟩
    · rw [mx]
      unfold Part.queueIfPresent Part.queueItem Part.modMixer
      cases hc : chainOf x <;> split <;> rfl
    · rw [mx]; simpa using hd
    · rw [mx]; simpa using hl
    · rw [mx]; exact gd
    · rw [mx]
      intro y
      show (updateAt _ p.mixer.loud x.val).getD y.val .normal = _
      rw [getD_updateAt]
      by_cases e : y = x
      · subst e; simp [hl]
      · have : x.val ≠ y.val := fun h => e (Fin.ext h.symm)
        simp [e, this]
    · intro c
      rw [Part.chain_queueIfPresent, Part.spoken]
      by_cases k : chainOf x = c ∧ (p.seat x).link = .present
      · rw [if_pos, if_pos (And.intro h' k)]
        · cases c <;> rfl
        · exact k
      · rw [if_neg, if_neg fun j => k j.2]
        · cases c <;> rfl
        · exact k

theorem Mixer.duckCount_congr {m n : Mixer} (hc : m.channels = n.channels) (hp : m.params = n.params) (x : Seat) :
    m.duckCount x = n.duckCount x := by
  unfold Mixer.duckCount; rw [hc, hp]

theorem Mixer.loudNew_congr {m n : Mixer} (hc : m.channels = n.channels) (hp : m.params = n.params) (x : Seat) :
    m.loudNew x = n.loudNew x := by
  unfold Mixer.loudNew Mixer.seatOpen; rw [hc, Mixer.duckCount_congr hc hp]

theorem Part.recount_fold (l : List Seat) (nd : l.Nodup) (p : Part) (hd : p.mixer.ducks.length = 64)
    (hl : p.mixer.loud.length = 64) :
    let q := l.foldl (fun q x => q.recountSeat x) p
    q = { p with
      mixer := { p.mixer with ducks := q.mixer.ducks, loud := q.mixer.loud }, chainA := q.chainA, chainB := q.chainB } ∧
    q.mixer.ducks.length = 64 ∧ q.mixer.loud.length = 64 ∧
    (∀ y : Seat, q.mixer.ducks.getD y.val 0 = if y ∈ l then p.mixer.duckCount y else p.mixer.ducks.getD y.val 0) ∧
    (∀ y : Seat, q.mixer.loud.getD y.val .normal = if y ∈ l then p.mixer.loudNew y else p.mixer.loud.getD y.val .normal) ∧
    ∀ c, q.chain c = l.foldl (fun k x => p.spoken c x k) (p.chain c) := by
  induction l generalizing p with
  | nil => exact ⟨rfl, hd, hl, fun _ => by simp, fun _ => by simp, fun _ => rfl⟩
  | cons x l ih =>
    obtain ⟨nx, nl⟩ := List.nodup_cons.1 nd
    obtain ⟨a, c, d, e, f, g⟩ := Part.recountSeat_spec x p hd hl
    obtain ⟨a', c', d', e', f', g'⟩ := ih nl (p.recountSeat x) c d
    have hc : (p.recountSeat x).mixer.channels = p.mixer.channels := by rw [a]
    have hp : (p.recountSeat x).mixer.params = p.mixer.params := by rw [a]
    dsimp only
    rw [List.foldl_cons]
    refine ⟨?_, c', d', ?_, ?_, ?_⟩
    · rw [a', a]
    · intro y
      rw [e', Mixer.duckCount_congr hc hp, e]
      by_cases h : y = x
      · subst h; simp [nx]
      · simp [h]
    · intro y
      rw [f', Mixer.loudNew_congr hc hp, f]
      by_cases h : y = x
      · subst h; simp [nx]
      · simp [h]
    · intro k
      rw [g', List.foldl_cons, g k]
      refine List.foldl_ext _ _ _ fun t y m => ?_
      have ne : y ≠ x := fun e => nx (e ▸ m)
      have sx : (p.recountSeat x).seat y = p.seat y := by unfold Part.seat; rw [a]
      unfold Part.spoken
      rw [Mixer.loudNew_congr hc hp, f, if_neg ne, sx]

/-- A recount of a chain: duck counts and loudspeaker states by R121 and R122 for its seats, and SPEAKER_STATE, in seat order, for
its PRESENT seats whose state is new; every other seat as before. -/
theorem Part.recountChain_spec (c : Chain) (p : Part) (hd : p.mixer.ducks.length = 64) (hl : p.mixer.loud.length = 64) :
    let q := p.recountChain c
    q = { p with
      mixer := { p.mixer with ducks := q.mixer.ducks, loud := q.mixer.loud }, chainA := q.chainA, chainB := q.chainB } ∧
    q.mixer.ducks.length = 64 ∧ q.mixer.loud.length = 64 ∧
    (∀ y : Seat, q.mixer.ducks.getD y.val 0 = if chainOf y = c then p.mixer.duckCount y else p.mixer.ducks.getD y.val 0) ∧
    (∀ y : Seat, q.mixer.loud.getD y.val .normal =
      if chainOf y = c then p.mixer.loudNew y else p.mixer.loud.getD y.val .normal) ∧
    ∀ k, q.chain k = (chainSeats c).foldl (fun t x => p.spoken k x t) (p.chain k) := by
  unfold Part.recountChain
  have nd := chainSeats_nodup c
  have all := mem_chainSeats c
  generalize chainSeats c = l at nd all
  obtain ⟨a, d, e, f, g, h⟩ := Part.recount_fold l nd p hd hl
  refine ⟨a, d, e, fun y => ?_, fun y => ?_, h⟩
  · exact (f y).trans (by simp only [all])
  · exact (g y).trans (by simp only [all])

/-! ### Rings and nameplates (R12 to R14) -/

/-- A seat's record with the ring and the nameplate that its rules give it (R12, R13). -/
def Part.lit (p : Part) (x : Seat) (r : SeatRec) : SeatRec :=
  { r with ring := p.ringOf x, nameLine := p.nameLineOf x, statusLine := p.statusLineOf x }

theorem Part.queueIfPresent_eq (p : Part) (x : Seat) (payload : Payload) :
    p.queueIfPresent x payload =
      { p with chainA := (p.queueIfPresent x payload).chainA, chainB := (p.queueIfPresent x payload).chainB } := by
  unfold Part.queueIfPresent Part.queueItem
  cases chainOf x <;> split <;> rfl

theorem Part.deriveRing_spec (p : Part) (x : Seat) (len : p.seats.length = 64) :
    let q := p.deriveRing x
    q = { p with seats := q.seats, chainA := q.chainA, chainB := q.chainB } ∧ q.seats.length = 64 ∧
    ∀ y, q.seat y = if y = x then { p.seat x with ring := p.ringOf x } else p.seat y := by
  dsimp only
  unfold Part.deriveRing
  dsimp only
  split
  · rename_i h
    refine ⟨rfl, len, fun y => ?_⟩
    split
    · rename_i e; subst e; rw [h]
    · rfl
  · have s (q : Part) (payload : Payload) : (q.queueIfPresent x payload).seats = q.seats := by simp
    refine ⟨?_, ?_, fun y => ?_⟩
    · rw [Part.queueIfPresent_eq]; rfl
    · rw [s]; show (updateAt _ _ _).length = 64; simpa using len
    · have : ((p.modSeat x fun r => { r with ring := p.ringOf x }).queueIfPresent x (.ring (p.ringOf x))).seat y =
          (p.modSeat x fun r => { r with ring := p.ringOf x }).seat y := by
        unfold Part.seat; rw [s]
      rw [this, Part.seat_modSeat]
      have := y.isLt
      by_cases e : y = x
      · subst e; simp [len]
      · simp [e, Ne.symm e]

theorem Part.derivePlate_spec (p : Part) (x : Seat) (len : p.seats.length = 64) :
    let q := p.derivePlate x
    q = { p with seats := q.seats, chainA := q.chainA, chainB := q.chainB } ∧ q.seats.length = 64 ∧
    ∀ y, q.seat y =
      if y = x then { p.seat x with nameLine := p.nameLineOf x, statusLine := p.statusLineOf x } else p.seat y := by
  have s (q : Part) (payload : Payload) : (q.queueIfPresent x payload).seats = q.seats := by simp
  have key : ∀ y, (p.modSeat x fun r => { r with nameLine := p.nameLineOf x, statusLine := p.statusLineOf x }).seat y =
      if y = x then { p.seat x with nameLine := p.nameLineOf x, statusLine := p.statusLineOf x } else p.seat y := by
    intro y
    rw [Part.seat_modSeat]
    have := y.isLt
    by_cases e : y = x
    · subst e; simp [len]
    · simp [e, Ne.symm e]
  have l2 : (p.modSeat x fun r =>
      { r with nameLine := p.nameLineOf x, statusLine := p.statusLineOf x }).seats.length = 64 := by
    show (updateAt _ _ _).length = 64; simpa using len
  dsimp only
  unfold Part.derivePlate
  dsimp only
  split
  · rename_i h
    simp at h
    refine ⟨rfl, len, fun y => ?_⟩
    split
    · rename_i e; subst e; rw [h.1, h.2]
    · rfl
  · split
    · refine ⟨?_, ?_, fun y => ?_⟩
      · rw [Part.queueIfPresent_eq]; rfl
      · rw [s]; exact l2
      · rw [← key y]; unfold Part.seat; rw [s]
    · exact ⟨rfl, l2, key⟩

/-- A derivation of one seat stores the ring and the nameplate that the rules give it, and touches no other record. -/
theorem Part.derive_spec (p : Part) (x : Seat) (len : p.seats.length = 64) :
    let q := p.derive x
    q = { p with seats := q.seats, chainA := q.chainA, chainB := q.chainB } ∧ q.seats.length = 64 ∧
    ∀ y, q.seat y = if y = x then p.lit x (p.seat x) else p.seat y := by
  obtain ⟨a, b, c⟩ := Part.deriveRing_spec p x len
  obtain ⟨a', b', c'⟩ := Part.derivePlate_spec (p.deriveRing x) x b
  have nm : (p.deriveRing x).nameLineOf x = p.nameLineOf x := by
    have hc := c x; rw [if_pos rfl] at hc
    unfold Part.nameLineOf Part.inStandby; rw [hc, a]
  have st : (p.deriveRing x).statusLineOf x = p.statusLineOf x := by
    unfold Part.statusLineOf Part.inStandby Part.minutesLeft Part.activeBooking Part.now Part.speaker? Part.queuePosition; rw [a]
  refine ⟨?_, b', fun y => ?_⟩
  · refine a'.trans ?_
    show _ = { p with
      seats := ((p.deriveRing x).derivePlate x).seats
      chainA := ((p.deriveRing x).derivePlate x).chainA
      chainB := ((p.deriveRing x).derivePlate x).chainB }
    generalize (p.deriveRing x).derivePlate x = z
    generalize p.deriveRing x = r at a
    rw [a]
  · show ((p.deriveRing x).derivePlate x).seat y = _
    rw [c' y, c, c, nm, st]
    by_cases e : y = x
    · subst e; rw [if_pos rfl, if_pos rfl, if_pos rfl]; rfl
    · simp [e]

/-- The ring and the nameplate of a seat do not depend on what is stored as a ring or a nameplate. -/
theorem Part.lit_derive (p : Part) (x y : Seat) (len : p.seats.length = 64) (r : SeatRec) :
    (p.derive x).lit y r = p.lit y r := by
  obtain ⟨a, b, c⟩ := Part.derive_spec p x len
  have h : ((p.derive x).seat y).denial = (p.seat y).denial ∧ ((p.derive x).seat y).standing = (p.seat y).standing ∧
      ((p.derive x).seat y).name = (p.seat y).name := by
    rw [c y]; split
    · rename_i e; subst e; exact ⟨rfl, rfl, rfl⟩
    · exact ⟨rfl, rfl, rfl⟩
  unfold Part.lit
  have h1 : (p.derive x).ringOf y = p.ringOf y := by
    unfold Part.ringOf Part.inStandby Part.holds Part.isSaved Part.speaker? Part.isQueued Part.isHeldPress Part.isOpen
    rw [h.1, h.2.1, a]
  have h2 : (p.derive x).nameLineOf y = p.nameLineOf y := by
    unfold Part.nameLineOf Part.inStandby; rw [h.2.2, a]
  have h3 : (p.derive x).statusLineOf y = p.statusLineOf y := by
    unfold Part.statusLineOf Part.inStandby Part.minutesLeft Part.activeBooking Part.now Part.speaker? Part.queuePosition; rw [a]
  rw [h1, h2, h3]

theorem Part.deriveSeats_spec (l : List Seat) (p : Part) (len : p.seats.length = 64) :
    let q := p.deriveSeats l
    q = { p with seats := q.seats, chainA := q.chainA, chainB := q.chainB } ∧ q.seats.length = 64 ∧
    ∀ y, q.seat y = if y ∈ l then p.lit y (p.seat y) else p.seat y := by
  induction l generalizing p with
  | nil => exact ⟨rfl, len, fun _ => by simp [Part.deriveSeats]⟩
  | cons x l ih =>
    obtain ⟨a, b, c⟩ := Part.derive_spec p x len
    obtain ⟨a', b', c'⟩ := ih (p.derive x) b
    refine ⟨?_, b', fun y => ?_⟩
    · refine a'.trans ?_
      show _ = { p with
        seats := ((p.derive x).deriveSeats l).seats
        chainA := ((p.derive x).deriveSeats l).chainA
        chainB := ((p.derive x).deriveSeats l).chainB }
      generalize (p.derive x).deriveSeats l = z
      generalize p.derive x = r at a
      rw [a]
    · show ((p.derive x).deriveSeats l).seat y = _
      rw [c' y, c y, Part.lit_derive p x y len]
      by_cases e : y = x
      · subst e
        simp only [List.mem_cons, true_or, if_true]
        split <;> rfl
      · simp [e]

/-- A derivation of every seat stores the ring and the nameplate that the rules give each (R12, R13). -/
theorem Part.deriveAll_spec (p : Part) (len : p.seats.length = 64) :
    let q := p.deriveAll
    q = { p with seats := q.seats, chainA := q.chainA, chainB := q.chainB } ∧ q.seats.length = 64 ∧
    ∀ y, q.seat y = p.lit y (p.seat y) := by
  have all : ∀ y : Seat, y ∈ allSeats := List.mem_finRange
  unfold Part.deriveAll
  generalize allSeats = l at all
  obtain ⟨a, b, c⟩ := Part.deriveSeats_spec l p len
  exact ⟨a, b, fun y => by rw [c y, if_pos (all y)]⟩

end Sys2Proof.Machine
end

