-- ==== Sys2Proof/Laws/Closes.lean ====
section
/-!
SUPPORT. What a close of a microphone does (R50): at its lane (R170), its channel (R103), the director (R130, R134) and the notices;
and what the closes of a take leave (R75).
-/
namespace Sys2Proof.Machine

/-! ### Lanes -/

theorem ChainCtl.staleRefreshWith_lanes (n : Nat) (c : ChainCtl) : (c.staleRefreshWith n).lanes = c.lanes := by
  induction n generalizing c with
  | zero => rfl
  | succ n ih =>
    unfold ChainCtl.staleRefreshWith
    (repeat' split)
    · rfl
    · rw [ih]; unfold ChainCtl.keep; split <;> rfl
    · rfl

theorem ChainCtl.keep_lanes (s : Seat) (payload : Payload) (c : ChainCtl) : (c.keep s payload).lanes = c.lanes := by
  unfold ChainCtl.keep
  split <;> rfl

theorem ChainCtl.markStale_lanes (s : Seat) (c : ChainCtl) : (c.markStale s).lanes = c.lanes := by
  unfold ChainCtl.markStale ChainCtl.staleRefresh
  split
  · rfl
  · exact ChainCtl.staleRefreshWith_lanes _ _

theorem ChainCtl.queueItem_lanes (s : Seat) (payload : Payload) (c : ChainCtl) : (c.queueItem s payload).lanes = c.lanes := by
  unfold ChainCtl.queueItem
  dsimp only
  (repeat' split)
  · exact ChainCtl.keep_lanes s payload c
  · exact ChainCtl.keep_lanes s payload c
  · rw [ChainCtl.keep_lanes, ChainCtl.markStale_lanes]
  · exact ChainCtl.markStale_lanes s c

theorem Part.queueIfPresent_lanes (s : Seat) (payload : Payload) (p : Part) (c : Chain) :
    ((p.queueIfPresent s payload).chain c).lanes = (p.chain c).lanes := by
  rw [Part.chain_queueIfPresent]
  split
  · exact ChainCtl.queueItem_lanes _ _ _
  · rfl

theorem Part.derive_lanes (s : Seat) (p : Part) (c : Chain) : ((p.derive s).chain c).lanes = (p.chain c).lanes := by
  have ring (p : Part) : ((p.deriveRing s).chain c).lanes = (p.chain c).lanes := by
    unfold Part.deriveRing
    dsimp only
    split
    · rfl
    · rw [Part.queueIfPresent_lanes]; cases c <;> rfl
  unfold Part.derive Part.derivePlate
  dsimp only
  (repeat' split)
  · exact ring p
  · rw [Part.queueIfPresent_lanes, ← ring p]; cases c <;> rfl
  · rw [← ring p]; cases c <;> rfl

theorem Part.recountSeat_lanes (s : Seat) (p : Part) (c : Chain) : ((p.recountSeat s).chain c).lanes = (p.chain c).lanes := by
  unfold Part.recountSeat
  dsimp only
  split
  · cases c <;> rfl
  · rw [Part.queueIfPresent_lanes]; cases c <;> rfl

theorem Part.recountChain_lanes (d : Chain) (p : Part) (c : Chain) : ((p.recountChain d).chain c).lanes = (p.chain c).lanes := by
  unfold Part.recountChain
  induction chainSeats d generalizing p with
  | nil => rfl
  | cons x xs ih => rw [List.foldl_cons, ih, Part.recountSeat_lanes]

theorem Part.mixerClose_lanes (s : Seat) (ch lane : Nat) (live : Bool) (p : Part) (c : Chain) :
    ((p.mixerClose s ch lane live).chain c).lanes = (p.chain c).lanes := by
  unfold Part.mixerClose
  split
  · rfl
  · rw [Part.recountChain_lanes, Part.recountSeat_lanes]; cases c <;> rfl

theorem Part.chain_congr {p q : Part} (a : q.chainA = p.chainA) (b : q.chainB = p.chainB) (c : Chain) : q.chain c = p.chain c := by
  cases c
  · exact a
  · exact b

theorem Part.chain_modChain (p : Part) (d c : Chain) (f : ChainCtl → ChainCtl) :
    (p.modChain d f).chain c = if c = d then f (p.chain c) else p.chain c := by cases c <;> cases d <;> rfl

theorem Part.chainClose_lanes (s : Seat) (lane : Nat) (p : Part) (c : Chain) :
    ((p.chainClose s lane).chain c).lanes =
      if c = chainOf s then (p.chain c).lanes.modify lane fun l => { l with assigned := none } else (p.chain c).lanes := by
  unfold Part.chainClose
  rw [Part.queueIfPresent_lanes, Part.chain_modChain]
  split
  · exact updateAt_eq_modify _ _ _
  · rfl

/-! ### A close, block by block (R50) -/

/-- The part without the entry of a seat, and with MIC_CLOSED queued when the close has a cause (R50). -/
def Part.delisted (e : Speaker) (cause : Option CloseCause) (p : Part) : Part :=
  { p with
    floor := { p.floor with speakers := p.floor.speakers.filter fun d => d.seat ≠ e.seat }
    link := match cause with
      | some c => p.link.notify (.micClosed e.seat e.kind c e.grantNo e.channel e.lane e.remaining)
      | none => p.link }

/-- A close handed to the chain, the mixer and the director. -/
def Part.handedClose (e : Speaker) (live : Bool) (p : Part) : Part :=
  ((p.chainClose e.seat e.lane).mixerClose e.seat e.channel e.lane live).directorClose e.seat

theorem Part.closeWith_eq (e : Speaker) (cause : Option CloseCause) (p : Part) :
    let handed := (p.delisted e cause).handedClose e ((p.chain (chainOf e.seat)).laneLive e.lane)
    p.closeWith e cause = (if cause = some .sessionEnd then handed else handed.reexamine e.seat).derive e.seat := by
  cases cause <;> rfl

theorem Part.closeMic_eq {p : Part} {x : Seat} {e : Speaker} (h : (p.floor.speakers.find? fun e => e.seat = x) = some e)
    (cause : Option CloseCause) : p.closeMic x cause = p.closeWith e cause := by
  unfold Part.closeMic Part.speaker?
  rw [h]

theorem Part.closeWith_mixer (e : Speaker) (cause : Option CloseCause) (p : Part) :
    (p.closeWith e cause).mixer =
      ((p.delisted e cause).chainClose e.seat e.lane |>.mixerClose e.seat e.channel e.lane
        ((p.chain (chainOf e.seat)).laneLive e.lane)).mixer := by
  rw [Part.closeWith_eq]
  split <;> simp [Part.handedClose]

theorem Part.recountSeat_channels (s : Seat) (p : Part) :
    (p.recountSeat s).mixer.channels = p.mixer.channels ∧ (p.recountSeat s).mixer.holder = p.mixer.holder := by
  unfold Part.recountSeat
  dsimp only
  split <;> simp [Part.modMixer]

theorem Part.recountChain_channels (c : Chain) (p : Part) :
    (p.recountChain c).mixer.channels = p.mixer.channels ∧ (p.recountChain c).mixer.holder = p.mixer.holder := by
  unfold Part.recountChain
  induction chainSeats c generalizing p with
  | nil => exact ⟨rfl, rfl⟩
  | cons x xs ih => rw [List.foldl_cons, (ih _).1, (ih _).2]; exact Part.recountSeat_channels x p

theorem set_none_of_none {α : Type} (xs : List (Option α)) (n : Nat) (h : xs.getD n none = none) : xs.set n none = xs := by
  induction xs generalizing n with
  | nil => rfl
  | cons x xs ih =>
    cases n with
    | zero => rw [show x = none from h]; rfl
    | succ n => rw [List.set_cons_succ, ih n (by simpa using h)]

/-- A close makes the channel FREE, and takes the last-mic holder from it (R103). -/
theorem Part.mixerClose_spec (s : Seat) (ch lane : Nat) (live : Bool) (p : Part) :
    let q := p.mixerClose s ch lane live
    q.mixer.channels = p.mixer.channels.set ch none ∧
    (p.mixer.channels.getD ch none = none → q = p) ∧
    (p.mixer.channels.getD ch none ≠ none → q.mixer.holder = if p.mixer.holder = some ch then none else p.mixer.holder) := by
  dsimp only
  unfold Part.mixerClose Mixer.channel?
  rcases h : p.mixer.channels.getD ch none with _ | r
  · simp [set_none_of_none _ _ h]
  · simp only [Option.isNone_some, Bool.false_eq_true, if_false, reduceCtorEq, false_implies, true_and]
    rw [(Part.recountChain_channels _ _).1, (Part.recountSeat_channels _ _).1, (Part.recountChain_channels _ _).2,
      (Part.recountSeat_channels _ _).2]
    simp only [Part.modMixer_mixer]
    unfold Mixer.free Mixer.channel?
    rw [h]
    exact ⟨updateAt_eq_modify _ _ _ |>.trans (by rw [List.set_eq_modify]), fun _ => rfl⟩

theorem Part.setActive_director (a : Option Seat) (p : Part) : (p.setActive a).director = { p.director with active := a } := by
  unfold Part.setActive
  split
  · rename_i h; rw [← h]
  · simp

theorem Part.setFollow_director (f : Follow) (p : Part) : (p.setFollow f).director = { p.director with follow := f } := by
  unfold Part.setFollow
  split
  · rename_i h; rw [← h]
  · simp

/-- Aiming leaves the active speaker and the idle count, and nothing outside the director and the screen router (R132). -/
theorem Part.aim_keeps (x : Seat) (shot : Shot) (p : Part) :
    let q := p.aim x shot
    q.director.active = p.director.active ∧ q.director.idle = p.director.idle ∧ q.link = p.link ∧ q.floor = p.floor ∧
    q.mixer = p.mixer ∧ q.sched = p.sched ∧ q.owed = p.owed := by
  unfold Part.aim
  dsimp only
  (repeat' split) <;> simp [Part.setFollow_director, Part.dropRecall, Part.sendRecall, Part.placeRecord]

/-- What a close leaves of the director (R130, R134). -/
theorem Part.directorClose_director (x : Seat) (p : Part) :
    let d := p.director
    (p.directorClose x).director =
      if d.active = some x then
        { d with active := none, aimed := none, follow := .wide, candidate := none, hold := 0, idle := 0 }
      else if d.candidate = some x then { d with candidate := none, hold := 0 }
      else d := by
  dsimp only
  unfold Part.directorClose
  (repeat' split)
  · simp [Part.becomeNone, Part.dropRecall, Part.setFollow_director, Part.setActive_director, Director.clearCandidate]
  · rfl
  · rfl

theorem Part.closeWith_director (e : Speaker) (cause : Option CloseCause) (p : Part) :
    let d := p.director
    (p.closeWith e cause).director =
      if d.active = some e.seat then
        { d with active := none, aimed := none, follow := .wide, candidate := none, hold := 0, idle := 0 }
      else if d.candidate = some e.seat then { d with candidate := none, hold := 0 }
      else d := by
  have h := Part.directorClose_director e.seat (((p.delisted e cause).chainClose e.seat e.lane).mixerClose e.seat e.channel
    e.lane ((p.chain (chainOf e.seat)).laneLive e.lane))
  dsimp only at h ⊢
  have same : (((p.delisted e cause).chainClose e.seat e.lane).mixerClose e.seat e.channel e.lane
      ((p.chain (chainOf e.seat)).laneLive e.lane)).director = p.director := by simp [Part.delisted]
  rw [same] at h
  rw [← h, Part.closeWith_eq]
  split <;> simp [Part.handedClose]

/-- A close frees its lane and changes no other (R170). -/
theorem Part.closeWith_lanes (e : Speaker) (cause : Option CloseCause) (p : Part) (c : Chain) :
    ((p.closeWith e cause).chain c).lanes =
      if c = chainOf e.seat then (p.chain c).lanes.modify e.lane fun l => { l with assigned := none } else (p.chain c).lanes := by
  have dir (s : Seat) (q : Part) : (q.directorClose s).chain c = q.chain c := by
    refine Part.chain_congr ?_ ?_ c <;> simp
  have exam (s : Seat) (q : Part) : (q.reexamine s).chain c = q.chain c := by
    refine Part.chain_congr ?_ ?_ c <;> simp
  have removed : (p.delisted e cause).chain c = p.chain c := by cases c <;> rfl
  rw [Part.closeWith_eq]
  rw [Part.derive_lanes]
  split
  · rw [Part.handedClose, dir, Part.mixerClose_lanes, Part.chainClose_lanes, removed]
  · rw [exam, Part.handedClose, dir, Part.mixerClose_lanes, Part.chainClose_lanes, removed]

/-- What a close queues after its MIC_CLOSED tells of the active speaker and of a share alone (R50, R75, R130, R151). -/
theorem Part.closeWith_tells (e : Speaker) (cause : Option CloseCause) (p : Part) :
    ∃ ns, (∀ n ∈ ns, n.ofClose) ∧ (p.closeWith e cause).link = (p.delisted e cause).link.notifyAll ns := by
  rw [Part.closeWith_eq]
  obtain ⟨ns, hn, en⟩ := Part.directorClose_tells e.seat (((p.delisted e cause).chainClose e.seat e.lane).mixerClose e.seat
    e.channel e.lane ((p.chain (chainOf e.seat)).laneLive e.lane))
  obtain ⟨ms, hm, em⟩ := Part.reexamine_tells e.seat ((p.delisted e cause).handedClose e
    ((p.chain (chainOf e.seat)).laneLive e.lane))
  have first : ((p.delisted e cause).handedClose e ((p.chain (chainOf e.seat)).laneLive e.lane)).link =
      (p.delisted e cause).link.notifyAll ns := by
    unfold Part.handedClose
    rw [en]
    simp
  rw [(Part.derive_frame _ _).2.1]
  split
  · exact ⟨ns, hn, first⟩
  · refine ⟨ns ++ ms, fun n m => ?_, by rw [em, first, Link.notifyAll_append]⟩
    rcases List.mem_append.1 m with m | m
    · exact hn n m
    · exact hm n m

/-! ### The closes of a take (R75) -/

/-- What one close settles for an entry stays settled: a FREE channel, a freed lane, a seat the director does not follow. -/
theorem Part.closeMic_keeps (x : Seat) (cause : Option CloseCause) (p : Part) (e : Speaker) :
    let q := p.closeMic x cause
    (p.mixer.channels.getD e.channel none = none → q.mixer.channels.getD e.channel none = none) ∧
    (p.director.active ≠ some e.seat → q.director.active ≠ some e.seat) ∧
    (p.director.candidate ≠ some e.seat → q.director.candidate ≠ some e.seat) ∧
    ((∀ l, (p.chain (chainOf e.seat)).lanes[e.lane]? = some l → l.assigned = none) →
      ∀ l, (q.chain (chainOf e.seat)).lanes[e.lane]? = some l → l.assigned = none) := by
  dsimp only
  unfold Part.closeMic
  split
  · rename_i d _
    refine ⟨fun h => ?_, fun h => ?_, fun h => ?_, fun h l => ?_⟩
    · rw [Part.closeWith_mixer, (Part.mixerClose_spec _ _ _ _ _).1]
      have same : ((p.delisted d cause).chainClose d.seat d.lane).mixer = p.mixer := by simp [Part.delisted]
      rw [same]
      simp only [List.getD_eq_getElem?_getD, List.getElem?_set] at h ⊢
      split
      · split <;> rfl
      · exact h
    · rw [Part.closeWith_director]
      (repeat' split) <;> simp_all
    · rw [Part.closeWith_director]
      (repeat' split) <;> simp_all
    · rw [Part.closeWith_lanes]
      split
      · rw [List.getElem?_modify]
        intro hl
        split at hl
        · obtain ⟨k, _, rfl⟩ := Option.map_eq_some_iff.1 hl
          rfl
        · exact h l (by simpa using hl)
      · exact h l
  · exact ⟨id, id, id, fun h => h⟩

theorem Part.closeMic_settles {x : Seat} {cause : Option CloseCause} {p : Part} {e : Speaker}
    (h : (p.floor.speakers.find? fun e => e.seat = x) = some e) :
    let q := p.closeMic x cause
    q.mixer.channels.getD e.channel none = none ∧ q.director.active ≠ some e.seat ∧ q.director.candidate ≠ some e.seat ∧
    ∀ l, (q.chain (chainOf e.seat)).lanes[e.lane]? = some l → l.assigned = none := by
  dsimp only
  rw [Part.closeMic_eq h]
  refine ⟨?_, ?_, ?_, fun l => ?_⟩
  · rw [Part.closeWith_mixer, (Part.mixerClose_spec _ _ _ _ _).1]
    simp only [List.getD_eq_getElem?_getD, List.getElem?_set]
    split
    · split <;> rfl
    · simp_all
  · rw [Part.closeWith_director]
    (repeat' split) <;> simp_all
  · rw [Part.closeWith_director]
    (repeat' split) <;> simp_all
  · rw [Part.closeWith_lanes, if_pos rfl, List.getElem?_modify]
    intro hl
    obtain ⟨k, _, rfl⟩ := Option.map_eq_some_iff.1 hl
    simp

/-- Every entry that a take closes leaves its channel FREE, its lane free and the director without its seat (R75, R103, R130). -/
theorem Part.closeSeats_settles (seats : List Seat) (cause : Option CloseCause) (p : Part) {e : Speaker} (m : e.seat ∈ seats)
    (h : (p.floor.speakers.find? fun d => d.seat = e.seat) = some e) :
    let q := p.closeSeats seats cause
    q.mixer.channels.getD e.channel none = none ∧ q.director.active ≠ some e.seat ∧ q.director.candidate ≠ some e.seat ∧
    ∀ l, (q.chain (chainOf e.seat)).lanes[e.lane]? = some l → l.assigned = none := by
  dsimp only
  unfold Part.closeSeats
  have stay (seats : List Seat) : ∀ (p : Part), (p.mixer.channels.getD e.channel none = none ∧ p.director.active ≠ some e.seat ∧
      p.director.candidate ≠ some e.seat ∧ ∀ l, (p.chain (chainOf e.seat)).lanes[e.lane]? = some l → l.assigned = none) →
      let q := seats.foldl (fun q s => q.closeMic s cause) p
      q.mixer.channels.getD e.channel none = none ∧ q.director.active ≠ some e.seat ∧ q.director.candidate ≠ some e.seat ∧
      ∀ l, (q.chain (chainOf e.seat)).lanes[e.lane]? = some l → l.assigned = none := by
    induction seats with
    | nil => exact fun _ h => h
    | cons x xs ih =>
      intro p h
      have k := Part.closeMic_keeps x cause p e
      exact ih _ ⟨k.1 h.1, k.2.1 h.2.1, k.2.2.1 h.2.2.1, k.2.2.2 h.2.2.2⟩
  induction seats generalizing p with
  | nil => cases m
  | cons x xs ih =>
    rw [List.foldl_cons]
    by_cases same : e.seat = x
    · exact stay xs _ (Part.closeMic_settles (same ▸ h))
    · refine ih _ ?_ ?_
      · rcases List.mem_cons.1 m with m | m
        · exact absurd m same
        · exact m
      · rw [Part.closeMic_floor]
        dsimp only
        rw [List.find?_filter]
        rw [← h]
        congr 1
        funext d
        by_cases k : d.seat = e.seat <;> simp [k, same]

end Sys2Proof.Machine
end

