-- ==== Sys2Proof/Laws/WorkBlocks.lean ====
section
/-!
SUPPORT. The work of the seat table, the mixer, the screen router and the camera director: one lemma per operation.
-/
namespace Sys2Proof.Machine

variable {b p : Part}

/-! ### Seat table -/

theorem Work.deriveRing {s : Seat} (h : Work b p) : Work b (p.deriveRing s) := by
  unfold Part.deriveRing
  dsimp only
  split
  · exact h
  · exact Work.queueIfPresent (Work.modSeat (fun r k => ⟨k.trim, k.failures, k.denialMs, k.name⟩) h)

theorem Work.derivePlate {s : Seat} (h : Work b p) : Work b (p.derivePlate s) := by
  have stored (name status : Text) : Work b (p.modSeat s fun r => { r with nameLine := name, statusLine := status }) :=
    Work.modSeat (fun r k => ⟨k.trim, k.failures, k.denialMs, k.name⟩) h
  unfold Part.derivePlate
  dsimp only
  (repeat' split)
  · exact h
  · exact Work.queueIfPresent (stored _ _)
  · exact stored _ _

theorem Work.derive {s : Seat} (h : Work b p) : Work b (p.derive s) := by
  unfold Part.derive
  exact Work.derivePlate (Work.deriveRing h)

theorem Work.deriveSeats {seats : List Seat} (h : Work b p) : Work b (p.deriveSeats seats) := by
  unfold Part.deriveSeats
  exact Work.foldl (fun _ _ k => Work.derive k) _ h

theorem Work.deriveAll (h : Work b p) : Work b p.deriveAll := by
  unfold Part.deriveAll
  exact Work.deriveSeats h

theorem Work.deriveQueued (h : Work b p) : Work b p.deriveQueued := by
  unfold Part.deriveQueued
  exact Work.deriveSeats h

theorem Work.deny {s : Seat} (h : Work b p) : Work b (p.deny s) := by
  unfold Part.deny
  exact Work.derive (Work.modSeat (fun r k => ⟨k.trim, k.failures, Nat.le_refl _, k.name⟩) h)

theorem Work.endDenial {s : Seat} (h : Work b p) : Work b (p.endDenial s) := by
  unfold Part.endDenial
  split
  · exact Work.derive (Work.modSeat (fun r k => ⟨k.trim, k.failures, k.denialMs, k.name⟩) h)
  · exact h

theorem Work.seatTableLink {s : Seat} {link : LinkState} (h : Work b p) : Work b (p.seatTableLink s link) := by
  have linked : Work b (p.modSeat s fun r => { r with link := link }) :=
    Work.modSeat (fun r k => ⟨k.trim, k.failures, k.denialMs, k.name⟩) h
  have released (q : Part) (w : Work b q) : Work b (Part.seatTableLink.released s q) := by
    unfold Part.seatTableLink.released
    exact Work.derive (Work.modSeat (fun r k => ⟨k.trim, k.failures, Nat.zero_le _, k.name⟩) w)
  unfold Part.seatTableLink
  dsimp only
  split
  · exact Work.queueItem linked
  · exact linked
  · exact released _ linked
  · exact released _ linked

theorem Work.setStanding {s : Seat} {standing : Standing} (h : Work b p) : Work b (p.setStanding s standing) := by
  unfold Part.setStanding
  exact Work.modSeat (fun r k => ⟨k.trim, k.failures, k.denialMs, k.name⟩) h

theorem Work.openStandings {k : Booking} (h : Work b p) : Work b (p.openStandings k) := by
  unfold Part.openStandings
  exact Work.deriveAll (Work.foldl (fun _ _ w => Work.setStanding w) _ h)

theorem Work.closeStandings (h : Work b p) : Work b p.closeStandings := by
  unfold Part.closeStandings
  refine Work.deriveAll (h.trans (.quietly rfl fun k => { k with seatCount := ?_, seats := ?_ }))
  · rw [List.length_map]; exact k.seatCount
  · intro r hr
    obtain ⟨x, hx, e⟩ := List.mem_map.1 hr
    subst e
    exact ⟨(k.seats x hx).trim, (k.seats x hx).failures, (k.seats x hx).denialMs, (k.seats x hx).name⟩

/-! ### Mixer -/

/-- A mixer with the channels of a safe one. -/
theorem Mixer.Safe.reduck {m n : Mixer} (h : m.Safe) (hc : n.channels = m.channels) (hd : n.ducks.length = m.ducks.length)
    (hl : n.loud.length = m.loud.length) (hk : n.clip = m.clip) : n.Safe :=
  ⟨hc ▸ h.channels, hd.trans h.ducks, hl.trans h.loud, hk ▸ h.clip, hc ▸ h.envelope, hc ▸ h.gain, by
    rw [Mixer.totalShare, hc]; exact h.unity⟩

theorem Work.recountSeat {s : Seat} (h : Work b p) : Work b (p.recountSeat s) := by
  have counted : Work b (p.modMixer fun m => { m with ducks := updateAt (fun _ => m.duckCount s) m.ducks s.val }) :=
    Work.modMixer (fun k => k.reduck rfl (by simp) rfl rfl) h
  unfold Part.recountSeat
  dsimp only
  split
  · exact counted
  · exact Work.queueIfPresent (Work.modMixer (fun k => k.reduck rfl rfl (by simp) rfl) counted)

theorem Work.recountChain {c : Chain} (h : Work b p) : Work b (p.recountChain c) := by
  unfold Part.recountChain
  exact Work.foldl (fun _ _ k => Work.recountSeat k) _ h

/-- The share of a channel record; a FREE one has none. -/
def shareOf (r : Option Channel) : Nat := (r.map Channel.share).getD 0

theorem Mixer.totalShare_eq (m : Mixer) : m.totalShare = (m.channels.map shareOf).sum := rfl

theorem sum_updateAt_le {xs : List (Option Channel)} {r : Option Channel} (h : shareOf r = 0) (i : Nat) :
    ((updateAt (fun _ => r) xs i).map shareOf).sum ≤ (xs.map shareOf).sum := by
  induction xs generalizing i with
  | nil => simp [updateAt]
  | cons x xs ih =>
    cases i with
    | zero => simp [updateAt, h]
    | succ i => simpa [updateAt] using ih i

/-- One channel record written, with no share of the total gain. -/
theorem Mixer.Safe.rechannel {m n : Mixer} {r : Option Channel} {ch : Nat} (h : m.Safe)
    (hc : n.channels = updateAt (fun _ => r) m.channels ch) (hr : ∀ c, r = some c → c.envelope ≤ 32767 ∧ c.gain ≤ c.share)
    (hs : shareOf r = 0) (hd : n.ducks = m.ducks) (hl : n.loud = m.loud) (hk : n.clip = m.clip) : n.Safe := by
  refine ⟨?_, hd ▸ h.ducks, hl ▸ h.loud, hk ▸ h.clip, ?_, ?_, ?_⟩
  · rw [hc, updateAt_length]; exact h.channels
  · intro c mem
    rw [hc] at mem
    rcases updateAt_mem mem with mem | ⟨_, _, e⟩
    · exact h.envelope c mem
    · exact (hr c e.symm).1
  · intro c mem
    rw [hc] at mem
    rcases updateAt_mem mem with mem | ⟨_, _, e⟩
    · exact h.gain c mem
    · exact (hr c e.symm).2
  · rw [Mixer.totalShare_eq, hc]
    exact le_trans (sum_updateAt_le hs ch) h.unity

theorem Work.mixerOpen {s : Seat} {ch : Nat} {kind : Kind} (h : Work b p) : Work b (p.mixerOpen s ch kind) := by
  unfold Part.mixerOpen
  exact Work.recountChain (Work.recountSeat (Work.modMixer
    (fun k => k.rechannel (r := some _) (ch := ch) rfl (by rintro _ ⟨⟩; simp) rfl rfl rfl rfl) h))

theorem Mixer.Safe.free {ch lane : Nat} {live : Bool} {m : Mixer} (h : m.Safe) : (m.free ch lane live).Safe := by
  unfold Mixer.free
  split
  · exact h
  · exact h.rechannel (r := none) (ch := ch) rfl (by simp) rfl rfl rfl rfl

theorem Work.mixerClose {s : Seat} {ch lane : Nat} {live : Bool} (h : Work b p) : Work b (p.mixerClose s ch lane live) := by
  unfold Part.mixerClose
  split
  · exact h
  · exact Work.recountChain (Work.recountSeat (Work.modMixer (fun k => k.free) h))

theorem Work.mixerSessionOpen {k : Booking} (h : Work b p) : Work b (p.mixerSessionOpen k) := by
  unfold Part.mixerSessionOpen
  exact Work.recountChain (Work.recountChain (Work.modMixer (fun k => k.reduck rfl rfl rfl rfl) h))

theorem Work.mixerSessionClose (h : Work b p) : Work b p.mixerSessionClose := by
  unfold Part.mixerSessionClose
  dsimp only
  generalize List.range 12 = channels
  have freed : Work b (channels.foldl (fun q ch => q.modMixer (Mixer.free ch 0 false)) p) :=
    Work.foldl (fun _ _ w => Work.modMixer (fun k => k.free) w) _ h
  exact Work.recountChain (Work.recountChain (Work.modMixer (fun k => k.reduck rfl rfl rfl rfl) freed))

/-! ### Screen router -/

/-- A screen router with the same sizes and the same queue. -/
theorem Screens.Safe.resize {v w : Screens} (h : v.Safe) (hs : w.screens.length = v.screens.length)
    (hp : w.plans.length = v.plans.length) (hq : w.queue = v.queue) : w.Safe :=
  ⟨hs.trans h.screens, hp.trans h.plans, hq ▸ h.targets⟩

theorem Work.recomputeScreen {i : Fin 8} (h : Work b p) : Work b (p.recomputeScreen i) := by
  unfold Part.recomputeScreen
  dsimp only
  split
  · exact h
  · exact Work.placeRecord (Work.modScreens (fun k => k.resize (by simp) rfl rfl) h)

theorem Work.recomputeScreens (h : Work b p) : Work b p.recomputeScreens := by
  unfold Part.recomputeScreens
  exact Work.foldl (fun _ _ k => Work.recomputeScreen k) _ h

@[simp] theorem Screens.setSlot_frame (n : Slot) (h : Option Share) (v : Screens) :
    (v.setSlot n h).screens = v.screens ∧ (v.setSlot n h).plans = v.plans ∧ (v.setSlot n h).queue = v.queue := by
  cases n <;> simp [Screens.setSlot]

@[simp] theorem Screens.setGrace_frame (n : Slot) (t : Option Nat) (v : Screens) :
    (v.setGrace n t).screens = v.screens ∧ (v.setGrace n t).plans = v.plans ∧ (v.setGrace n t).queue = v.queue := by
  cases n <;> simp [Screens.setGrace]

theorem Work.freeShare {n : Slot} {x : Share} {cause : ShareCause} (h : Work b p) : Work b (p.freeShare n x cause) := by
  unfold Part.freeShare
  exact Work.notify _ (Work.modScreens (fun k => k.resize (by simp) (by simp) (by simp)) h)

theorem Work.endShare {n : Slot} {cause : ShareCause} (h : Work b p) : Work b (p.endShare n cause) := by
  unfold Part.endShare
  split
  · exact h
  · exact Work.placeRecord (Work.recomputeScreens (Work.freeShare h))

theorem Work.takeSlot {n : Slot} {s : Seat} {source : Source} (h : Work b p) : Work b (p.takeSlot n s source) := by
  unfold Part.takeSlot
  exact Work.recomputeScreens (Work.notify _ (Work.placeRecord
    (Work.modScreens (fun k => k.resize (by simp) (by simp) (by simp)) h)))

theorem Work.grantShare {s : Seat} {source : Source} {x : Slot × Part} (h : Work b p) (e : p.grantShare s source = some x) :
    Work b x.2 := by
  unfold Part.grantShare at e
  split at e
  · cases e
    dsimp only
    exact Work.takeSlot h
  · split at e
    · contradiction
    · dsimp only at e
      split at e
      · cases e
        dsimp only
        exact Work.takeSlot (Work.freeShare h)
      · contradiction

theorem Work.shareToggle {s : Seat} (h : Work b p) : Work b (p.shareToggle s) := by
  unfold Part.shareToggle
  split
  · exact Work.endShare h
  · split
    · split
      · rename_i e; exact Work.grantShare h e
      · exact Work.deny h
    · exact Work.deny h

theorem Work.reexamine {s : Seat} (h : Work b p) : Work b (p.reexamine s) := by
  unfold Part.reexamine
  (repeat' split) <;> first | exact h | exact Work.endShare h

theorem Work.reexamineSeats {seats : List Seat} (h : Work b p) : Work b (p.reexamineSeats seats) := by
  unfold Part.reexamineSeats
  exact Work.foldl (fun _ _ k => Work.reexamine k) _ h

theorem Work.reexamineAll (h : Work b p) : Work b p.reexamineAll := by
  unfold Part.reexamineAll
  exact Work.reexamineSeats h

theorem Work.setGrace {n : Slot} {t : Option Nat} (h : Work b p) : Work b (p.modScreens (Screens.setGrace n t)) :=
  Work.modScreens (fun k => k.resize (by simp) (by simp) (by simp)) h

theorem Work.signalChanged {s : Seat} {present : Bool} (h : Work b p) : Work b (p.signalChanged s present) := by
  unfold Part.signalChanged
  (repeat' split) <;> first | exact h | exact Work.endShare h | exact Work.setGrace h

theorem Work.countGrace {n : Slot} (h : Work b p) : Work b (p.countGrace n) := by
  unfold Part.countGrace
  split
  · exact Work.setGrace h
  · exact h

theorem Work.graceExpiry {n : Slot} (h : Work b p) : Work b (p.graceExpiry n) := by
  unfold Part.graceExpiry
  split
  · exact Work.endShare h
  · exact h

theorem Screens.Safe.clearOverrides {v : Screens} (h : v.Safe) : v.clearOverrides.Safe :=
  h.resize (by simp [Screens.clearOverrides]) rfl rfl

theorem Work.screensSessionOpen {k : Booking} (h : Work b p) : Work b (p.screensSessionOpen k) := by
  unfold Part.screensSessionOpen
  exact Work.recomputeScreens (Work.modScreens (fun w => w.clearOverrides.resize rfl rfl rfl) h)

theorem Work.closeShare {n : Slot} (h : Work b p) : Work b (p.closeShare n) := by
  unfold Part.closeShare
  split
  · exact h
  · exact Work.freeShare h

theorem Work.screensSessionClose (h : Work b p) : Work b p.screensSessionClose := by
  unfold Part.screensSessionClose
  dsimp only
  exact Work.foldl (fun _ _ k => Work.placeRecord k) _
    (Work.recomputeScreens (Work.modScreens (fun w => w.clearOverrides.resize rfl rfl rfl) (Work.closeShare (Work.closeShare h))))

theorem Work.screensStandby (h : Work b p) : Work b p.screensStandby := by
  unfold Part.screensStandby
  exact Work.recomputeScreens (Work.modScreens (fun k => k.clearOverrides) h)

theorem Screens.Safe.beginRecord {v : Screens} (h : v.Safe) : v.beginRecord.Safe := by
  unfold Screens.beginRecord
  split
  · rename_i e
    have k := h.targets
    rw [e] at k
    exact ⟨h.screens, h.plans, (List.pairwise_cons.1 k).2⟩
  · exact h

/-! ### Camera director -/

theorem Work.setFollow {f : Follow} (h : Work b p) : Work b (p.setFollow f) := by
  unfold Part.setFollow
  split
  · exact h
  · exact Work.recomputeScreens (Work.modScreens (fun k => k.resize rfl rfl rfl) (Work.modDirector (fun k => ⟨k.current⟩) h))

theorem Work.setActive {a : Option Seat} (h : Work b p) : Work b (p.setActive a) := by
  unfold Part.setActive
  split
  · exact h
  · exact Work.recomputeScreens (Work.modScreens (fun k => k.resize rfl rfl rfl) (Work.modDirector (fun k => ⟨k.current⟩) h))

theorem Work.sendRecall {shot : Shot} (h : Work b p) : Work b (p.sendRecall shot) := by
  unfold Part.sendRecall
  exact Work.modDirector (fun k => ⟨(updateAt_length _ _ _).trans k.current⟩) (Work.placeRecord h)

theorem Work.dropRecall (h : Work b p) : Work b p.dropRecall := by
  unfold Part.dropRecall
  exact Work.modDirector (fun k => ⟨k.current⟩) h

theorem Work.aim {s : Seat} {shot : Shot} (h : Work b p) : Work b (p.aim s shot) := by
  unfold Part.aim
  dsimp only
  (repeat' split)
  · exact Work.modDirector (fun k => ⟨k.current⟩) h
  · exact Work.setFollow (Work.dropRecall h)
  · exact Work.setFollow (Work.sendRecall (Work.dropRecall h))
  · exact Work.modDirector (fun k => ⟨k.current⟩) (Work.sendRecall (Work.setFollow (Work.dropRecall h)))
  · exact Work.modDirector (fun k => ⟨k.current⟩) (Work.sendRecall (Work.dropRecall h))

theorem Work.becomeActive {s : Seat} (h : Work b p) : Work b (p.becomeActive s) := by
  unfold Part.becomeActive
  exact Work.notify _ (Work.aim (Work.modDirector (fun k => ⟨k.current⟩) (Work.setActive h)))

theorem Work.becomeNone {cause : ActiveCause} (h : Work b p) : Work b (p.becomeNone cause) := by
  unfold Part.becomeNone
  exact Work.notify _ (Work.setFollow (Work.dropRecall (Work.setActive h)))

theorem Work.settleEnded (h : Work b p) : Work b p.settleEnded := by
  unfold Part.settleEnded
  dsimp only
  (repeat' split)
  · exact h
  · exact h
  · exact Work.setFollow (Work.dropRecall h)
  · exact Work.aim (Work.dropRecall h)
  · exact Work.dropRecall h

theorem Work.switchDue (h : Work b p) : Work b p.switchDue := by
  unfold Part.switchDue
  (repeat' split)
  · exact Work.modDirector (fun k => ⟨k.current⟩) (Work.becomeActive h)
  · exact h
  · exact h

theorem Work.idleDue (h : Work b p) : Work b p.idleDue := by
  unfold Part.idleDue
  split
  · exact Work.modDirector (fun k => ⟨k.current⟩) (Work.becomeNone h)
  · exact h

theorem Work.directorClose {s : Seat} (h : Work b p) : Work b (p.directorClose s) := by
  unfold Part.directorClose
  (repeat' split)
  · exact Work.modDirector (fun k => ⟨k.current⟩) (Work.becomeNone h)
  · exact Work.modDirector (fun k => ⟨k.current⟩) h
  · exact h

theorem Work.directorSessionClose (h : Work b p) : Work b p.directorSessionClose := by
  unfold Part.directorSessionClose
  dsimp only
  split
  · exact Work.modDirector (fun k => ⟨k.current⟩) (Work.becomeNone h)
  · exact Work.modDirector (fun k => ⟨k.current⟩) (Work.setFollow (Work.dropRecall h))

theorem Work.directorStandby (h : Work b p) : Work b p.directorStandby := by
  unfold Part.directorStandby
  exact Work.setFollow (Work.dropRecall h)

theorem Director.count_current (chosen : Option Seat) (d : Director) : (d.count chosen).current = d.current := by
  unfold Director.count Director.countIdle Director.countHold Director.countSettle Director.clearCandidate
  (repeat' split) <;> rfl

end Sys2Proof.Machine
end

