-- ==== Sys2Proof/Laws/WorkFloor.lean ====
section
/-!
SUPPORT. The work of the floor controller, the priority mechanism and the speech timing logic: one lemma per operation.
-/
namespace Sys2Proof.Machine

variable {b p : Part}

/-! ### Floor controller -/

theorem Work.chainOpen {s : Seat} {lane : Nat} (h : Work b p) : Work b (p.chainOpen s lane) := by
  unfold Part.chainOpen
  exact Work.queueIfPresent (Work.modChain (fun k w => w.relane (updateAt_length _ _ _)) h)

theorem Work.chainClose {s : Seat} {lane : Nat} (h : Work b p) : Work b (p.chainClose s lane) := by
  unfold Part.chainClose
  exact Work.queueIfPresent (Work.modChain (fun k w => w.relane (updateAt_length _ _ _)) h)

theorem Work.openWith {e : Speaker} (h : Work b p) : Work b (p.openWith e) := by
  unfold Part.openWith
  dsimp only
  have handed := Work.derive (s := e.seat) (Work.reexamine (s := e.seat) (Work.mixerOpen (s := e.seat) (ch := e.channel)
    (kind := e.kind) (Work.chainOpen (s := e.seat) (lane := e.lane) (Work.notify
    (.micOpened e.seat e.kind e.grantNo e.channel e.lane e.remaining e.source) (Work.modFloor (f := Floor.opened e) h)))))
  split
  · exact Work.deriveQueued handed
  · exact handed

theorem Work.openMic {s : Seat} {kind : Kind} {source : Source} {freeze : Bool} {restored : Option (Option Nat × Bool)}
    (h : Work b p) : Work b (p.openMic s kind source freeze restored) := by
  unfold Part.openMic
  split
  · exact Work.openWith h
  · exact h

theorem Work.closeWith {e : Speaker} {cause : Option CloseCause} (h : Work b p) : Work b (p.closeWith e cause) := by
  have handed (q : Part) (live : Bool) (w : Work b q) :
      Work b (((q.chainClose e.seat e.lane).mixerClose e.seat e.channel e.lane live).directorClose e.seat) :=
    Work.directorClose (Work.mixerClose (Work.chainClose w))
  unfold Part.closeWith
  dsimp only
  refine Work.derive ?_
  (repeat' split) <;> with_reducible first
    | exact Work.reexamine (handed _ _ (Work.notify _ (Work.modFloor h)))
    | exact Work.reexamine (handed _ _ (Work.modFloor h))
    | exact handed _ _ (Work.notify _ (Work.modFloor h))
    | exact handed _ _ (Work.modFloor h)

theorem Work.closeMic {s : Seat} {cause : Option CloseCause} (h : Work b p) : Work b (p.closeMic s cause) := by
  unfold Part.closeMic
  split
  · exact Work.closeWith h
  · exact h

theorem Work.closeSeats {seats : List Seat} {cause : Option CloseCause} (h : Work b p) : Work b (p.closeSeats seats cause) := by
  unfold Part.closeSeats
  exact Work.foldl (fun _ _ k => Work.closeMic k) _ h

theorem Work.advanceWith {n : Nat} (h : Work b p) : Work b (p.advanceWith n) := by
  induction n generalizing p with
  | zero => exact h
  | succ n ih =>
    unfold Part.advanceWith
    (repeat' split) <;> first | exact h | exact ih (Work.openMic h)

theorem Work.autoAdvance (h : Work b p) : Work b p.autoAdvance := by
  unfold Part.autoAdvance
  split
  · exact Work.advanceWith h
  · exact h

theorem Work.endFloorEvent {before : List QueueEntry} (h : Work b p) : Work b (p.endFloorEvent before) := by
  unfold Part.endFloorEvent
  split
  · exact Work.notify _ (Work.modFloor h)
  · exact h

/-- The floor controller takes one event, whose own work is given. -/
theorem Work.floorEvent {work : Part → Part} (hw : ∀ q, Work b q → Work b (work q)) (h : Work b p) :
    Work b (p.floorEvent work) := by
  unfold Part.floorEvent
  exact Work.endFloorEvent (Work.autoAdvance (hw _ h))

theorem Work.appendSeat {s : Seat} {source : Source} (h : Work b p) : Work b (p.appendSeat s source) := by
  unfold Part.appendSeat
  exact Work.derive (Work.modFloor h)

theorem Work.appendOrFull {s : Seat} {source : Source} (h : Work b p) : Work b (p.appendOrFull s source).2 := by
  unfold Part.appendOrFull
  split
  · exact Work.notify _ h
  · exact Work.appendSeat h

theorem Work.replaceWith {e : Speaker} {s : Seat} {source : Source} {freeze : Bool} (h : Work b p) :
    Work b (p.replaceWith e s source freeze) := by
  unfold Part.replaceWith
  exact Work.openMic (Work.closeWith h)

theorem Work.requestDelegate {s : Seat} {source : Source} (h : Work b p) : Work b (p.requestDelegate s source).2 := by
  unfold Part.requestDelegate
  (repeat' split) <;> (try dsimp only) <;> with_reducible first
    | exact Work.openMic h
    | exact Work.appendOrFull h
    | exact Work.replaceWith h
    | exact h

theorem Work.requeuePreempted {e : Speaker} (h : Work b p) : Work b (p.requeuePreempted e) := by
  unfold Part.requeuePreempted
  split
  · exact Work.notify _ h
  · exact Work.deriveQueued (Work.modFloor h)

theorem Work.openChair {s : Seat} {source : Source} (h : Work b p) : Work b (p.openChair s source).2 := by
  unfold Part.openChair
  (repeat' split) <;> (try dsimp only) <;> with_reducible first
    | exact Work.openMic h
    | exact Work.openMic (Work.requeuePreempted (Work.closeWith h))
    | exact h

theorem Work.requestChair {s : Seat} {source : Source} (h : Work b p) : Work b (p.requestChair s source).2 := by
  unfold Part.requestChair
  (repeat' split) <;> (try dsimp only) <;> with_reducible first
    | exact Work.closeMic h
    | exact Work.openChair h
    | exact h

theorem Work.withdraw {s : Seat} (h : Work b p) : Work b (p.withdraw s) := by
  unfold Part.withdraw
  exact Work.deriveQueued (Work.derive (Work.modFloor h))

theorem Work.unhold {s : Seat} (h : Work b p) : Work b (p.unhold s) := by
  unfold Part.unhold
  exact Work.derive (Work.modFloor h)

theorem Work.denyIfDenied {s : Seat} {r : Verdict × Part} (h : Work b r.2) : Work b (Part.denyIfDenied s r) := by
  unfold Part.denyIfDenied
  split
  · exact Work.deny h
  · exact h

theorem Work.resolvePress {s : Seat} {pressNo : Word32} {source : Source} (h : Work b p) :
    Work b (p.resolvePress s pressNo source) := by
  unfold Part.resolvePress
  (repeat' split) <;> with_reducible first
    | exact Work.deny h
    | exact Work.denyIfDenied (Work.requestChair h)
    | exact Work.closeMic h
    | exact Work.withdraw h
    | exact Work.unhold h
    | exact Work.derive (Work.modFloor h)
    | exact Work.denyIfDenied (Work.appendOrFull h)
    | exact Work.denyIfDenied (Work.requestDelegate h)
    | exact h

theorem Work.resolveVoice {s : Seat} (h : Work b p) : Work b (p.resolveVoice s) := by
  unfold Part.resolveVoice
  split
  · exact Work.requestDelegate h
  · exact h

theorem Work.voiceReport {s : Seat} {voice : Bool} (h : Work b p) : Work b (p.voiceReport s voice) := by
  unfold Part.voiceReport
  dsimp only
  (repeat' split) <;> with_reducible first
    | exact Work.modFloor h
    | exact Work.resolveVoice (Work.modFloor h)
    | exact h

theorem Work.floorLost {s : Seat} (h : Work b p) : Work b (p.floorLost s) := by
  unfold Part.floorLost
  dsimp only
  split
  · exact Work.deriveQueued (Work.derive (Work.modFloor (Work.closeMic h)))
  · exact Work.derive (Work.modFloor (Work.closeMic h))

theorem Work.floorRetrain {c : Chain} (h : Work b p) : Work b (p.floorRetrain c) := by
  unfold Part.floorRetrain
  exact Work.modFloor (Work.closeSeats h)

theorem Work.floorStanding {s : Seat} {old new : Standing} (h : Work b p) : Work b (p.floorStanding s old new) := by
  unfold Part.floorStanding
  dsimp only
  (repeat' split) <;> with_reducible first
    | exact Work.deriveQueued (Work.derive (Work.modFloor (Work.modFloor h)))
    | exact Work.deriveQueued (Work.derive (Work.modFloor (Work.closeMic h)))
    | exact Work.derive (Work.modFloor (Work.modFloor h))
    | exact Work.derive (Work.modFloor (Work.closeMic h))
    | exact Work.closeMic h
    | exact h

theorem Work.floorSessionClose (h : Work b p) : Work b p.floorSessionClose := by
  unfold Part.floorSessionClose
  exact Work.deriveSeats (Work.modFloor (Work.closeSeats h))

/-! ### Priority -/

theorem Work.notifyPriority {action : PriorityAction} {holder : Option Holder} {seats : List Seat} (h : Work b p) :
    Work b (p.notifyPriority action holder seats) := by
  unfold Part.notifyPriority
  exact Work.notify _ h

theorem Work.deriveHolder {x : Holder} (h : Work b p) : Work b (p.deriveHolder x) := by
  unfold Part.deriveHolder
  split
  · exact Work.derive h
  · exact h

theorem Work.join {x : Holder} (h : Work b p) : Work b (p.join x) := by
  unfold Part.join
  exact Work.deriveHolder (Work.modFloor h)

theorem Work.leave {x : Holder} (h : Work b p) : Work b (p.leave x) := by
  unfold Part.leave
  exact Work.deriveHolder (Work.modFloor h)

theorem Work.leaveSaved {s : Seat} (h : Work b p) : Work b (p.leaveSaved s) := by
  unfold Part.leaveSaved
  split
  · exact Work.derive (Work.reexamine (Work.modFloor h))
  · exact h

theorem Work.floorReset (h : Work b p) : Work b p.floorReset := by
  unfold Part.floorReset
  dsimp only
  refine Work.reexamineAll (Work.deriveSeats ?_)
  split
  · exact Work.modFloor (Work.closeSeats h)
  · exact Work.notifyPriority (Work.modFloor (Work.closeSeats h))

theorem Work.discardBottom (h : Work b p) : Work b p.discardBottom := by
  unfold Part.discardBottom
  dsimp only
  (repeat' split) <;> with_reducible first
    | exact Work.deriveSeats (Work.reexamineSeats (Work.notifyPriority (Work.modFloor h)))
    | exact Work.deriveSeats (Work.reexamineSeats (Work.notifyPriority (Work.notify _ (Work.modFloor h))))
    | exact h

theorem Work.makeRoom (h : Work b p) : Work b p.makeRoom := by
  unfold Part.makeRoom
  (repeat' split) <;> with_reducible first
    | exact Work.discardBottom h
    | exact Work.floorReset h
    | exact h

theorem Work.chairMic {x : Holder} (h : Work b p) : Work b (p.chairMic x) := by
  unfold Part.chairMic
  (repeat' split) <;> with_reducible first
    | exact Work.openChair h
    | exact h

theorem Work.take {x : Holder} (h : Work b p) : Work b (p.take x) := by
  unfold Part.take
  exact Work.chairMic (Work.notifyPriority (Work.join (Work.closeSeats (Work.modFloor (Work.makeRoom h)))))

theorem Work.retake {x : Holder} (h : Work b p) : Work b (p.retake x) := by
  unfold Part.retake
  exact Work.chairMic (Work.notifyPriority (Work.join (Work.modFloor h)))

theorem Work.processHeld (h : Work b p) : Work b p.processHeld := by
  unfold Part.processHeld
  refine Work.foldl (fun q x k => ?_) _ h
  split
  · exact Work.derive (Work.resolvePress (Work.modFloor k))
  · exact k

theorem Work.restoreSeat {r : Restore} {e : Saved} (h : Work b r.part) : Work b (r.seat e).part := by
  unfold Restore.seat
  dsimp only
  (repeat' split)
  · exact Work.reexamine (Work.openMic h)
  · exact Work.reexamine (Work.derive h)
  · exact Work.reexamine (Work.deriveQueued (Work.derive (Work.modFloor h)))

theorem Work.restoreFrame {frame : ResumeFrame} (h : Work b p) : Work b (p.restoreFrame frame) := by
  have done (l : List Saved) (r : Restore) (k : Work b r.part) : Work b (l.foldl Restore.seat r).part := by
    induction l generalizing r with
    | nil => exact k
    | cons x xs ih => exact ih _ (Work.restoreSeat k)
  unfold Part.restoreFrame
  dsimp only
  split
  · exact done _ _ h
  · exact Work.notify _ (done _ _ h)

theorem Work.popWith {n : Nat} (h : Work b p) : Work b (p.popWith n) := by
  induction n generalizing p with
  | zero => exact h
  | succ n ih =>
    unfold Part.popWith
    split
    · exact h
    · have restored := Work.restoreFrame (frame := ‹ResumeFrame›) (Work.notifyPriority (action := .released)
        (holder := some (‹ResumeFrame›).holder) (seats := (‹ResumeFrame›).saved.map Saved.seat)
        (Work.modFloor (f := fun f => { f with stack := ‹List ResumeFrame› }) h))
      dsimp only
      (repeat' split)
      · exact Work.processHeld restored
      · exact ih (by assumption)
      · assumption

theorem Work.pop (h : Work b p) : Work b p.pop := by
  unfold Part.pop
  exact Work.popWith h

theorem Work.release {x : Holder} (h : Work b p) : Work b (p.release x) := by
  unfold Part.release
  dsimp only
  (repeat' split) <;> with_reducible first
    | exact Work.notifyPriority (Work.leave (Work.modFloor h))
    | exact Work.notifyPriority (Work.leave h)
    | exact Work.pop (Work.leave h)
    | exact h

theorem Work.takeOrRetake {x : Holder} (h : Work b p) : Work b (p.takeOrRetake x) := by
  unfold Part.takeOrRetake
  split
  · exact Work.retake h
  · exact Work.take h

theorem Work.chairAux {s : Seat} (h : Work b p) : Work b (p.chairAux s) := by
  unfold Part.chairAux
  split
  · exact Work.release h
  · exact Work.takeOrRetake h

theorem Work.lostSeat {s : Seat} (h : Work b p) : Work b (p.lostSeat s) := by
  unfold Part.lostSeat
  exact Work.release (Work.leaveSaved (Work.floorLost h))

theorem Work.changedStanding {s : Seat} {old new : Standing} (h : Work b p) : Work b (p.changedStanding s old new) := by
  unfold Part.changedStanding
  dsimp only
  split <;> with_reducible first
    | exact Work.leaveSaved (Work.floorStanding h)
    | exact Work.release (Work.floorStanding h)
    | exact Work.floorStanding h

theorem Work.clearPriority (h : Work b p) : Work b p.clearPriority := by
  unfold Part.clearPriority
  dsimp only
  refine Work.deriveSeats ?_
  split
  · exact Work.modFloor h
  · exact Work.notifyPriority (Work.modFloor h)

/-! ### Speech timing -/

theorem Work.markPresent (h : Work b p) : Work b p.markPresent := by
  unfold Part.markPresent
  exact Work.modSession h

theorem Work.tickEntry {s : Seat} (h : Work b p) : Work b (p.tickEntry s) := by
  unfold Part.tickEntry
  dsimp only
  (repeat' split) <;> with_reducible first
    | exact Work.derive (Work.notify _ (Work.modFloor (Work.modFloor (Work.modSession h))))
    | exact Work.derive (Work.modFloor (Work.modSession h))
    | exact h

theorem Work.expire {s : Seat} (h : Work b p) : Work b (p.expire s) := by
  unfold Part.expire
  (repeat' split) <;> with_reducible first
    | exact Work.closeMic h
    | exact h

theorem Work.tickSilence {s : Seat} (h : Work b p) : Work b (p.tickSilence s) := by
  unfold Part.tickSilence
  (repeat' split) <;> with_reducible first
    | exact Work.modFloor h
    | exact h

theorem Work.silenceClose {s : Seat} (h : Work b p) : Work b (p.silenceClose s) := by
  unfold Part.silenceClose
  split
  · exact Work.closeMic h
  · exact h

theorem Work.extendEntry {s : Seat} {time : Nat} (h : Work b p) : Work b (p.extendEntry s time) := by
  unfold Part.extendEntry
  exact Work.derive (Work.modFloor h)

end Sys2Proof.Machine
end

