-- ==== Sys2Proof/Laws/FloorFrame.lean ====
section
/-!
SUPPORT. The frame of the floor's work: no operation of the floor controller and of the priority mechanism changes what
`Part.floorFrame` leaves, but for the pending-denial flag of a denied press. One lemma per operation, in the form that composes:
`P p → P (operation p)` for any property `P` that the frame decides.
-/
namespace Sys2Proof.Machine

/-- A property of a part that its frame decides. -/
def FloorWork (P : Part → Prop) : Prop := ∀ p q : Part, q.floorFrame = p.floorFrame → P p → P q

/-- The frame of one part is such a property, and so is the frame without the pending-denial flags. -/
theorem FloorWork.ofFrame (b : Part) : FloorWork fun q => q.floorFrame = b.floorFrame := fun _ _ e h => e.trans h

theorem FloorWork.ofForgiven (b : Part) : FloorWork fun q => q.floorFrame.forgiven = b.floorFrame.forgiven :=
  fun _ _ e h => (congrArg Part.forgiven e).trans h

variable {P : Part → Prop} {p : Part}

theorem FloorWork.foldl {α : Type} {f : Part → α → Part} (_ : FloorWork P) (h : ∀ q x, P q → P (f q x)) (xs : List α) :
    ∀ {p : Part}, P p → P (xs.foldl f p) := by
  induction xs with
  | nil => exact id
  | cons x xs ih => exact fun hp => ih (h _ x hp)

/-! ### The named updates -/

theorem Link.notify_frame (n : Notice) (l : Link) :
    ({ l.notify n with inRequest := false, reply := none, notices := [], lost := 0, stats := .reset, highWater := 0 } : Link) =
      { l with inRequest := false, reply := none, notices := [], lost := 0, stats := .reset, highWater := 0 } := by
  unfold Link.notify
  (repeat' split) <;> rfl

theorem FloorWork.notify (w : FloorWork P) (n : Notice) (h : P p) : P (p.notify n) := by
  refine w p _ ?_ h
  unfold Part.floorFrame
  rw [Part.notify_link, Link.notify_frame]
  rfl

theorem map_updateAt {α β : Type} {f : α → α} {g : α → β} (h : ∀ x, g (f x) = g x) (xs : List α) (i : Nat) :
    (updateAt f xs i).map g = xs.map g := by
  induction xs generalizing i with
  | nil => rfl
  | cons x xs ih => cases i <;> simp [updateAt, h, ih]

theorem FloorWork.modSeat (w : FloorWork P) {s : Seat} {f : SeatRec → SeatRec} (e : ∀ r, (f r).unlit = r.unlit) (h : P p) :
    P (p.modSeat s f) := by
  refine w p _ ?_ h
  unfold Part.floorFrame
  rw [Part.modSeat_seats, map_updateAt e]
  rfl

theorem FloorWork.modChain (w : FloorWork P) {c : Chain} {f : ChainCtl → ChainCtl} (e : ∀ k, (f k).unlisted = k.unlisted)
    (h : P p) : P (p.modChain c f) := by
  refine w p _ ?_ h
  cases c <;> simp only [Part.floorFrame, Part.modChain, e]

theorem FloorWork.modFloor (w : FloorWork P) {f : Floor → Floor} (e : (f p.floor).preset = p.floor.preset) (h : P p) :
    P (p.modFloor f) := by
  refine w p _ ?_ h
  simp only [Part.floorFrame, Part.modFloor, e]

/-- A mixer without the records that follow the speaker list. -/
def Mixer.unheard (m : Mixer) : Mixer :=
  { m with channels := [], holder := none, ducks := [], loud := [], changes := 0, closed := [] }

theorem FloorWork.modMixer (w : FloorWork P) {f : Mixer → Mixer} (e : (f p.mixer).unheard = p.mixer.unheard) (h : P p) :
    P (p.modMixer f) := by
  refine w p _ ?_ h
  have k : (f p.mixer).unheard = p.mixer.unheard := e
  unfold Mixer.unheard at k
  unfold Part.floorFrame
  rw [Part.modMixer_mixer, k]
  rfl

/-- A camera director without what follows the speaker list. -/
def Director.unaimed (d : Director) : Director :=
  { d with active := none, candidate := none, hold := 0, idle := 0, follow := .wide, aimed := none }

theorem FloorWork.modDirector (w : FloorWork P) {f : Director → Director} (e : (f p.director).unaimed = p.director.unaimed)
    (h : P p) : P (p.modDirector f) := by
  refine w p _ ?_ h
  unfold Director.unaimed at e
  unfold Part.floorFrame
  rw [Part.modDirector_director, e]
  rfl

/-- A screen router without its shares and its screens' sources. -/
def Screens.unshown (v : Screens) : Screens :=
  { v with
    screens := v.screens.map fun s => { s with source := .blank }
    slot1 := none, slot2 := none, older := none, grace1 := none, grace2 := none
    queue := [], follow := .wide, active := none }

theorem FloorWork.modScreens (w : FloorWork P) {f : Screens → Screens} (e : (f p.screens).unshown = p.screens.unshown)
    (h : P p) : P (p.modScreens f) := by
  refine w p _ ?_ h
  unfold Screens.unshown at e
  unfold Part.floorFrame
  rw [Part.modScreens_screens, e]
  rfl

/-! ### Exchange lists and the screen link queue -/

theorem ChainCtl.keep_unlisted (s : Seat) (payload : Payload) (c : ChainCtl) : (c.keep s payload).unlisted = c.unlisted := by
  unfold ChainCtl.keep
  split <;> rfl

theorem ChainCtl.staleRefreshWith_unlisted (n : Nat) (c : ChainCtl) : (c.staleRefreshWith n).unlisted = c.unlisted := by
  induction n generalizing c with
  | zero => rfl
  | succ n ih =>
    unfold ChainCtl.staleRefreshWith
    (repeat' split)
    · rfl
    · rw [ih, ChainCtl.keep_unlisted]; rfl
    · rfl

theorem ChainCtl.markStale_unlisted (s : Seat) (c : ChainCtl) : (c.markStale s).unlisted = c.unlisted := by
  unfold ChainCtl.markStale ChainCtl.staleRefresh
  split
  · rfl
  · rw [ChainCtl.staleRefreshWith_unlisted]; rfl

theorem ChainCtl.queueItem_unlisted (s : Seat) (payload : Payload) (c : ChainCtl) :
    (c.queueItem s payload).unlisted = c.unlisted := by
  unfold ChainCtl.queueItem
  dsimp only
  (repeat' split)
  · exact (ChainCtl.keep_unlisted s payload c)
  · exact (ChainCtl.keep_unlisted s payload c)
  · rw [ChainCtl.keep_unlisted, ChainCtl.markStale_unlisted]; rfl
  · exact ChainCtl.markStale_unlisted s c

theorem FloorWork.queueItem (w : FloorWork P) {s : Seat} {payload : Payload} (h : P p) : P (p.queueItem s payload) :=
  w.modChain (ChainCtl.queueItem_unlisted s payload) h

theorem FloorWork.queueIfPresent (w : FloorWork P) {s : Seat} {payload : Payload} (h : P p) :
    P (p.queueIfPresent s payload) := by
  unfold Part.queueIfPresent
  split
  · exact w.queueItem h
  · exact h

theorem FloorWork.placeRecord (w : FloorWork P) {r : LinkRecord} (h : P p) : P (p.placeRecord r) := w.modScreens rfl h

/-! ### The other blocks -/

theorem FloorWork.deriveRing (w : FloorWork P) {s : Seat} (h : P p) : P (p.deriveRing s) := by
  unfold Part.deriveRing
  dsimp only
  split
  · exact h
  · exact w.queueIfPresent (w.modSeat (fun _ => rfl) h)

theorem FloorWork.derivePlate (w : FloorWork P) {s : Seat} (h : P p) : P (p.derivePlate s) := by
  have stored (name status : Text) : P (p.modSeat s fun r => { r with nameLine := name, statusLine := status }) :=
    w.modSeat (fun _ => rfl) h
  unfold Part.derivePlate
  dsimp only
  (repeat' split)
  · exact h
  · exact w.queueIfPresent (stored _ _)
  · exact stored _ _

theorem FloorWork.derive (w : FloorWork P) {s : Seat} (h : P p) : P (p.derive s) := by
  unfold Part.derive
  exact w.derivePlate (w.deriveRing h)

theorem FloorWork.deriveSeats (w : FloorWork P) {seats : List Seat} (h : P p) : P (p.deriveSeats seats) := by
  unfold Part.deriveSeats
  exact w.foldl (fun _ _ k => w.derive k) _ h

theorem FloorWork.deriveQueued (w : FloorWork P) (h : P p) : P p.deriveQueued := by
  unfold Part.deriveQueued
  exact w.deriveSeats h

theorem FloorWork.recountSeat (w : FloorWork P) {s : Seat} (h : P p) : P (p.recountSeat s) := by
  have counted : P (p.modMixer fun m => { m with ducks := updateAt (fun _ => m.duckCount s) m.ducks s.val }) := w.modMixer rfl h
  unfold Part.recountSeat
  dsimp only
  split
  · exact counted
  · exact w.queueIfPresent (w.modMixer rfl counted)

theorem FloorWork.recountChain (w : FloorWork P) {c : Chain} (h : P p) : P (p.recountChain c) := by
  unfold Part.recountChain
  exact w.foldl (fun _ _ k => w.recountSeat k) _ h

theorem FloorWork.mixerOpen (w : FloorWork P) {s : Seat} {ch : Nat} {kind : Kind} (h : P p) : P (p.mixerOpen s ch kind) := by
  unfold Part.mixerOpen
  exact w.recountChain (w.recountSeat (w.modMixer rfl h))

theorem Mixer.free_unheard (ch lane : Nat) (live : Bool) (m : Mixer) : (m.free ch lane live).unheard = m.unheard := by
  unfold Mixer.free
  split <;> rfl

theorem FloorWork.mixerClose (w : FloorWork P) {s : Seat} {ch lane : Nat} {live : Bool} (h : P p) :
    P (p.mixerClose s ch lane live) := by
  unfold Part.mixerClose
  split
  · exact h
  · exact w.recountChain (w.recountSeat (w.modMixer (Mixer.free_unheard _ _ _ _) h))

theorem FloorWork.recomputeScreen (w : FloorWork P) {i : Fin 8} (h : P p) : P (p.recomputeScreen i) := by
  unfold Part.recomputeScreen
  dsimp only
  split
  · exact h
  · refine w.placeRecord (w.modScreens ?_ h)
    have e := map_updateAt (f := fun s : Screen => { s with source := p.decideSource i })
      (g := fun s : Screen => { s with source := ScreenSource.blank }) (fun _ => rfl) p.screens.screens i.val
    simp only [Screens.unshown, e]

theorem FloorWork.recomputeScreens (w : FloorWork P) (h : P p) : P p.recomputeScreens := by
  unfold Part.recomputeScreens
  exact w.foldl (fun _ _ k => w.recomputeScreen k) _ h

theorem FloorWork.freeShare (w : FloorWork P) {n : Slot} {x : Share} {cause : ShareCause} (h : P p) :
    P (p.freeShare n x cause) := by
  unfold Part.freeShare
  refine w.notify _ (w.modScreens ?_ h)
  cases n <;> rfl

theorem FloorWork.endShare (w : FloorWork P) {n : Slot} {cause : ShareCause} (h : P p) : P (p.endShare n cause) := by
  unfold Part.endShare
  split
  · exact h
  · exact w.placeRecord (w.recomputeScreens (w.freeShare h))

theorem FloorWork.reexamine (w : FloorWork P) {s : Seat} (h : P p) : P (p.reexamine s) := by
  unfold Part.reexamine
  (repeat' split) <;> first | exact h | exact w.endShare h

theorem FloorWork.reexamineSeats (w : FloorWork P) {seats : List Seat} (h : P p) : P (p.reexamineSeats seats) := by
  unfold Part.reexamineSeats
  exact w.foldl (fun _ _ k => w.reexamine k) _ h

theorem FloorWork.reexamineAll (w : FloorWork P) (h : P p) : P p.reexamineAll := by
  unfold Part.reexamineAll
  exact w.reexamineSeats h

theorem FloorWork.setFollow (w : FloorWork P) {f : Follow} (h : P p) : P (p.setFollow f) := by
  unfold Part.setFollow
  split
  · exact h
  · exact w.recomputeScreens (w.modScreens rfl (w.modDirector rfl h))

theorem FloorWork.setActive (w : FloorWork P) {a : Option Seat} (h : P p) : P (p.setActive a) := by
  unfold Part.setActive
  split
  · exact h
  · exact w.recomputeScreens (w.modScreens rfl (w.modDirector rfl h))

theorem FloorWork.dropRecall (w : FloorWork P) (h : P p) : P p.dropRecall := by
  unfold Part.dropRecall
  exact w.modDirector rfl h

theorem FloorWork.becomeNone (w : FloorWork P) {cause : ActiveCause} (h : P p) : P (p.becomeNone cause) := by
  unfold Part.becomeNone
  exact w.notify _ (w.setFollow (w.dropRecall (w.setActive h)))

theorem FloorWork.directorClose (w : FloorWork P) {s : Seat} (h : P p) : P (p.directorClose s) := by
  unfold Part.directorClose
  (repeat' split)
  · exact w.modDirector rfl (w.becomeNone h)
  · exact w.modDirector rfl h
  · exact h

/-! ### Floor controller -/

/-- Assigning or freeing a lane leaves its transmitting set (R170). -/
theorem ChainCtl.assign_unlisted (c : ChainCtl) (lane : Nat) (seat : Option Seat) :
    ChainCtl.unlisted { c with lanes := updateAt (fun l : Lane => { l with assigned := seat }) c.lanes lane } = c.unlisted := by
  unfold ChainCtl.unlisted
  dsimp only
  rw [map_updateAt (f := fun l : Lane => { l with assigned := seat }) (fun _ => rfl)]

theorem FloorWork.chainOpen (w : FloorWork P) {s : Seat} {lane : Nat} (h : P p) : P (p.chainOpen s lane) := by
  unfold Part.chainOpen
  exact w.queueIfPresent (w.modChain (fun c => c.assign_unlisted lane _) h)

theorem FloorWork.chainClose (w : FloorWork P) {s : Seat} {lane : Nat} (h : P p) : P (p.chainClose s lane) := by
  unfold Part.chainClose
  exact w.queueIfPresent (w.modChain (fun c => c.assign_unlisted lane _) h)

theorem FloorWork.openWith (w : FloorWork P) {e : Speaker} (h : P p) : P (p.openWith e) := by
  unfold Part.openWith
  dsimp only
  have handed := w.derive (s := e.seat) (w.reexamine (s := e.seat) (w.mixerOpen (s := e.seat) (ch := e.channel)
    (kind := e.kind) (w.chainOpen (s := e.seat) (lane := e.lane) (w.notify
    (.micOpened e.seat e.kind e.grantNo e.channel e.lane e.remaining e.source) (w.modFloor rfl (f := Floor.opened e) h)))))
  split
  · exact w.deriveQueued handed
  · exact handed

theorem FloorWork.openMic (w : FloorWork P) {s : Seat} {kind : Kind} {source : Source} {freeze : Bool} {restored : Option (Option Nat × Bool)}
    (h : P p) : P (p.openMic s kind source freeze restored) := by
  unfold Part.openMic
  split
  · exact w.openWith h
  · exact h

theorem FloorWork.closeWith (w : FloorWork P) {e : Speaker} {cause : Option CloseCause} (h : P p) : P (p.closeWith e cause) := by
  have handed (q : Part) (live : Bool) (k : P q) :
      P (((q.chainClose e.seat e.lane).mixerClose e.seat e.channel e.lane live).directorClose e.seat) :=
    w.directorClose (w.mixerClose (w.chainClose k))
  unfold Part.closeWith
  dsimp only
  refine w.derive ?_
  (repeat' split) <;> with_reducible first
    | exact w.reexamine (handed _ _ (w.notify _ (w.modFloor rfl h)))
    | exact w.reexamine (handed _ _ (w.modFloor rfl h))
    | exact handed _ _ (w.notify _ (w.modFloor rfl h))
    | exact handed _ _ (w.modFloor rfl h)

theorem FloorWork.closeMic (w : FloorWork P) {s : Seat} {cause : Option CloseCause} (h : P p) : P (p.closeMic s cause) := by
  unfold Part.closeMic
  split
  · exact w.closeWith h
  · exact h

theorem FloorWork.closeSeats (w : FloorWork P) {seats : List Seat} {cause : Option CloseCause} (h : P p) : P (p.closeSeats seats cause) := by
  unfold Part.closeSeats
  exact w.foldl (fun _ _ k => w.closeMic k) _ h

theorem FloorWork.advanceWith (w : FloorWork P) {n : Nat} (h : P p) : P (p.advanceWith n) := by
  induction n generalizing p with
  | zero => exact h
  | succ n ih =>
    unfold Part.advanceWith
    (repeat' split) <;> first | exact h | exact ih (w.openMic h)

theorem FloorWork.autoAdvance (w : FloorWork P) (h : P p) : P p.autoAdvance := by
  unfold Part.autoAdvance
  split
  · exact w.advanceWith h
  · exact h

theorem FloorWork.endFloorEvent (w : FloorWork P) {before : List QueueEntry} (h : P p) : P (p.endFloorEvent before) := by
  unfold Part.endFloorEvent
  split
  · exact w.notify _ (w.modFloor rfl h)
  · exact h

theorem FloorWork.floorEvent (w : FloorWork P) {work : Part → Part} (hw : ∀ q, P q → P (work q)) (h : P p) :
    P (p.floorEvent work) := by
  unfold Part.floorEvent
  exact w.endFloorEvent (w.autoAdvance (hw _ h))

theorem FloorWork.appendSeat (w : FloorWork P) {s : Seat} {source : Source} (h : P p) : P (p.appendSeat s source) := by
  unfold Part.appendSeat
  exact w.derive (w.modFloor rfl h)

theorem FloorWork.appendOrFull (w : FloorWork P) {s : Seat} {source : Source} (h : P p) : P (p.appendOrFull s source).2 := by
  unfold Part.appendOrFull
  split
  · exact w.notify _ h
  · exact w.appendSeat h

theorem FloorWork.replaceWith (w : FloorWork P) {e : Speaker} {s : Seat} {source : Source} {freeze : Bool} (h : P p) :
    P (p.replaceWith e s source freeze) := by
  unfold Part.replaceWith
  exact w.openMic (w.closeWith h)

theorem FloorWork.requestDelegate (w : FloorWork P) {s : Seat} {source : Source} (h : P p) : P (p.requestDelegate s source).2 := by
  unfold Part.requestDelegate
  (repeat' split) <;> (try dsimp only) <;> with_reducible first
    | exact w.openMic h
    | exact w.appendOrFull h
    | exact w.replaceWith h
    | exact h

theorem FloorWork.requeuePreempted (w : FloorWork P) {e : Speaker} (h : P p) : P (p.requeuePreempted e) := by
  unfold Part.requeuePreempted
  split
  · exact w.notify _ h
  · exact w.deriveQueued (w.modFloor rfl h)

theorem FloorWork.openChair (w : FloorWork P) {s : Seat} {source : Source} (h : P p) : P (p.openChair s source).2 := by
  unfold Part.openChair
  (repeat' split) <;> (try dsimp only) <;> with_reducible first
    | exact w.openMic h
    | exact w.openMic (w.requeuePreempted (w.closeWith h))
    | exact h

theorem FloorWork.requestChair (w : FloorWork P) {s : Seat} {source : Source} (h : P p) : P (p.requestChair s source).2 := by
  unfold Part.requestChair
  (repeat' split) <;> (try dsimp only) <;> with_reducible first
    | exact w.closeMic h
    | exact w.openChair h
    | exact h

theorem FloorWork.withdraw (w : FloorWork P) {s : Seat} (h : P p) : P (p.withdraw s) := by
  unfold Part.withdraw
  exact w.deriveQueued (w.derive (w.modFloor rfl h))

theorem FloorWork.unhold (w : FloorWork P) {s : Seat} (h : P p) : P (p.unhold s) := by
  unfold Part.unhold
  exact w.derive (w.modFloor rfl h)

theorem FloorWork.denyIfDenied (w : FloorWork P) (hd : ∀ s q, P q → P (q.deny s)) {s : Seat} {r : Verdict × Part} (h : P r.2) : P (Part.denyIfDenied s r) := by
  unfold Part.denyIfDenied
  split
  · exact hd _ _ h
  · exact h

theorem FloorWork.resolvePress (w : FloorWork P) (hd : ∀ s q, P q → P (q.deny s)) {s : Seat} {pressNo : Word32} {source : Source} (h : P p) :
    P (p.resolvePress s pressNo source) := by
  unfold Part.resolvePress
  (repeat' split) <;> with_reducible first
    | exact hd _ _ h
    | exact w.denyIfDenied hd (w.requestChair h)
    | exact w.closeMic h
    | exact w.withdraw h
    | exact w.unhold h
    | exact w.derive (w.modFloor rfl h)
    | exact w.denyIfDenied hd (w.appendOrFull h)
    | exact w.denyIfDenied hd (w.requestDelegate h)
    | exact h

theorem FloorWork.notifyPriority (w : FloorWork P) {action : PriorityAction} {holder : Option Holder} {seats : List Seat} (h : P p) :
    P (p.notifyPriority action holder seats) := by
  unfold Part.notifyPriority
  exact w.notify _ h

theorem FloorWork.deriveHolder (w : FloorWork P) {x : Holder} (h : P p) : P (p.deriveHolder x) := by
  unfold Part.deriveHolder
  split
  · exact w.derive h
  · exact h

theorem FloorWork.join (w : FloorWork P) {x : Holder} (h : P p) : P (p.join x) := by
  unfold Part.join
  exact w.deriveHolder (w.modFloor rfl h)

theorem FloorWork.leave (w : FloorWork P) {x : Holder} (h : P p) : P (p.leave x) := by
  unfold Part.leave
  exact w.deriveHolder (w.modFloor rfl h)

theorem FloorWork.floorReset (w : FloorWork P) (h : P p) : P p.floorReset := by
  unfold Part.floorReset
  dsimp only
  refine w.reexamineAll (w.deriveSeats ?_)
  split
  · exact w.modFloor rfl (w.closeSeats h)
  · exact w.notifyPriority (w.modFloor rfl (w.closeSeats h))

theorem FloorWork.discardBottom (w : FloorWork P) (h : P p) : P p.discardBottom := by
  unfold Part.discardBottom
  dsimp only
  (repeat' split) <;> with_reducible first
    | exact w.deriveSeats (w.reexamineSeats (w.notifyPriority (w.modFloor rfl h)))
    | exact w.deriveSeats (w.reexamineSeats (w.notifyPriority (w.notify _ (w.modFloor rfl h))))
    | exact h

theorem FloorWork.makeRoom (w : FloorWork P) (h : P p) : P p.makeRoom := by
  unfold Part.makeRoom
  (repeat' split) <;> with_reducible first
    | exact w.discardBottom h
    | exact w.floorReset h
    | exact h

theorem FloorWork.chairMic (w : FloorWork P) {x : Holder} (h : P p) : P (p.chairMic x) := by
  unfold Part.chairMic
  (repeat' split) <;> with_reducible first
    | exact w.openChair h
    | exact h

theorem FloorWork.take (w : FloorWork P) {x : Holder} (h : P p) : P (p.take x) := by
  unfold Part.take
  exact w.chairMic (w.notifyPriority (w.join (w.closeSeats (w.modFloor rfl (w.makeRoom h)))))

theorem FloorWork.retake (w : FloorWork P) {x : Holder} (h : P p) : P (p.retake x) := by
  unfold Part.retake
  exact w.chairMic (w.notifyPriority (w.join (w.modFloor rfl h)))

theorem FloorWork.processHeld (w : FloorWork P) (hd : ∀ s q, P q → P (q.deny s)) (h : P p) : P p.processHeld := by
  unfold Part.processHeld
  refine w.foldl (fun q x k => ?_) _ h
  split
  · exact w.derive (w.resolvePress hd (w.modFloor rfl k))
  · exact k

theorem FloorWork.restoreSeat (w : FloorWork P) {r : Restore} {e : Saved} (h : P r.part) : P (r.seat e).part := by
  unfold Restore.seat
  dsimp only
  (repeat' split)
  · exact w.reexamine (w.openMic h)
  · exact w.reexamine (w.derive h)
  · exact w.reexamine (w.deriveQueued (w.derive (w.modFloor rfl h)))

theorem FloorWork.restoreFrame (w : FloorWork P) {frame : ResumeFrame} (h : P p) : P (p.restoreFrame frame) := by
  have done (l : List Saved) (r : Restore) (k : P r.part) : P (l.foldl Restore.seat r).part := by
    induction l generalizing r with
    | nil => exact k
    | cons x xs ih => exact ih _ (w.restoreSeat k)
  unfold Part.restoreFrame
  dsimp only
  split
  · exact done _ _ h
  · exact w.notify _ (done _ _ h)

theorem FloorWork.popWith (w : FloorWork P) (hd : ∀ s q, P q → P (q.deny s)) {n : Nat} (h : P p) : P (p.popWith n) := by
  induction n generalizing p with
  | zero => exact h
  | succ n ih =>
    unfold Part.popWith
    split
    · exact h
    · have restored := w.restoreFrame (frame := ‹ResumeFrame›) (w.notifyPriority (action := .released)
        (holder := some (‹ResumeFrame›).holder) (seats := (‹ResumeFrame›).saved.map Saved.seat)
        (w.modFloor rfl (f := fun f => { f with stack := ‹List ResumeFrame› }) h))
      dsimp only
      (repeat' split)
      · exact w.processHeld hd restored
      · exact ih (by assumption)
      · assumption

theorem FloorWork.pop (w : FloorWork P) (hd : ∀ s q, P q → P (q.deny s)) (h : P p) : P p.pop := by
  unfold Part.pop
  exact w.popWith hd h

theorem FloorWork.release (w : FloorWork P) (hd : ∀ s q, P q → P (q.deny s)) {x : Holder} (h : P p) : P (p.release x) := by
  unfold Part.release
  dsimp only
  (repeat' split) <;> with_reducible first
    | exact w.notifyPriority (w.leave (w.modFloor rfl h))
    | exact w.notifyPriority (w.leave h)
    | exact w.pop hd (w.leave h)
    | exact h

theorem FloorWork.takeOrRetake (w : FloorWork P) {x : Holder} (h : P p) : P (p.takeOrRetake x) := by
  unfold Part.takeOrRetake
  split
  · exact w.retake h
  · exact w.take h

theorem FloorWork.extendEntry (w : FloorWork P) {s : Seat} {time : Nat} (h : P p) : P (p.extendEntry s time) := by
  unfold Part.extendEntry
  exact w.derive (w.modFloor rfl h)

end Sys2Proof.Machine
end

