-- ==== Sys2Proof/Laws/ChainFrame.lean ====
section
/-!
SUPPORT. What stays of a chain's record: through the work of the floor, through seats made ABSENT (R163), and through a session's
opening and closing, which make the session title pending (R181).
-/
namespace Sys2Proof.Machine

/-- A property of a chain's record that holds whatever its list and its lanes' assignments are is kept by the work of the floor. -/
theorem FloorWork.ofChain {P : ChainCtl → Prop} (hP : ∀ a b : ChainCtl, b.unlisted = a.unlisted → P a → P b) (c : Chain) :
    FloorWork fun q => P (q.chain c) := by
  intro a b e h
  refine hP _ _ ?_ h
  cases c
  · exact congrArg Part.chainA e
  · exact congrArg Part.chainB e

/-! ### Seats made ABSENT (R163, R165, R173) -/

theorem ChainCtl.removeItems_unlisted (gone : Item → Bool) (c : ChainCtl) : (c.removeItems gone).unlisted = c.unlisted := by
  unfold ChainCtl.removeItems
  split
  · unfold ChainCtl.staleRefresh
    rw [ChainCtl.staleRefreshWith_unlisted]
    rfl
  · rfl

/-- What making a seat ABSENT keeps of a chain's record. -/
theorem Part.becomeAbsent_chain {P : ChainCtl → Prop} (hP : ∀ a b : ChainCtl, b.unlisted = a.unlisted → P a → P b)
    (drops : ∀ (k : ChainCtl) x, P k → P (k.dropSeat x)) (writes : ∀ (k : ChainCtl) n f, P k → P (k.modSeat n f)) (x : Seat)
    {p : Part} {c : Chain} (h : P (p.chain c)) : P ((p.becomeAbsent x).chain c) := by
  have w := FloorWork.ofChain hP c
  have mc (q : Part) (d : Chain) (g : ChainCtl → ChainCtl) (hg : ∀ k, P k → P (g k)) (h : P (q.chain c)) :
      P ((q.modChain d g).chain c) := by
    rw [Part.chain_modChain]
    split
    · exact hg _ h
    · exact h
  have ms (q : Part) (s : Seat) (g : SeatRec → SeatRec) (h : P (q.chain c)) : P ((q.modSeat s g).chain c) := by
    cases c <;> exact h
  have deny : ∀ s q, P (q.chain c) → P ((Part.deny s q).chain c) := fun s q h => w.derive (ms _ _ _ h)
  unfold Part.becomeAbsent Part.modChainSeat
  dsimp only
  refine w.reexamine (w.floorEvent (fun q hq => ?_) ?_)
  · unfold Part.lostSeat Part.floorLost Part.leaveSaved
    dsimp only
    have fl (q : Part) (g : Floor → Floor) (h : P (q.chain c)) : P ((q.modFloor g).chain c) := by
      cases c <;> exact h
    have a : P ((Part.floorLost x q).chain c) := by
      unfold Part.floorLost
      dsimp only
      have := w.derive (s := x) (fl _ (fun f => ((f.dequeue x).dropHeld x).setOnset x 0)
        (w.closeMic (s := x) (cause := some .seatLost) hq))
      split
      · exact w.deriveQueued this
      · exact this
    refine w.release deny ?_
    change P ((Part.leaveSaved x (Part.floorLost x q)).chain c)
    unfold Part.leaveSaved
    split
    · exact w.derive (w.reexamine (fl _ _ a))
    · exact a
  · unfold Part.seatTableLink
    dsimp only
    exact w.derive (ms _ _ _ (ms _ _ _ (mc _ _ _ (fun k => writes k _ _) (mc _ _ _ (fun k => drops k _) h))))

/-- What making seats ABSENT leaves of a chain's record `k` that transmits on no lane (R163, R173). -/
structure ChainCtl.Muted (k a : ChainCtl) : Prop where
  state : a.state = k.state
  cause : a.cause = k.cause
  attempt : a.attempt = k.attempt
  pairs : a.pairs = k.pairs
  degraded : a.degraded = k.degraded
  overlength : a.overlength = k.overlength
  found : a.found = k.found
  lanes : ∀ l ∈ a.lanes, l.transmitting = []

theorem ChainCtl.Muted.alike {k a b : ChainCtl} (e : b.unlisted = a.unlisted) (h : k.Muted a) : k.Muted b where
  state := (congrArg ChainCtl.state e : b.unlisted.state = a.unlisted.state).trans h.state
  cause := (congrArg ChainCtl.cause e : b.unlisted.cause = a.unlisted.cause).trans h.cause
  attempt := (congrArg ChainCtl.attempt e : b.unlisted.attempt = a.unlisted.attempt).trans h.attempt
  pairs := (congrArg ChainCtl.pairs e : b.unlisted.pairs = a.unlisted.pairs).trans h.pairs
  degraded := (congrArg ChainCtl.degraded e : b.unlisted.degraded = a.unlisted.degraded).trans h.degraded
  overlength := (congrArg ChainCtl.overlength e : b.unlisted.overlength = a.unlisted.overlength).trans h.overlength
  found := (congrArg ChainCtl.found e : b.unlisted.found = a.unlisted.found).trans h.found
  lanes := fun l m => by
    have same : b.lanes.map (fun l : Lane => { l with assigned := none }) = a.lanes.map fun l => { l with assigned := none } :=
      congrArg ChainCtl.lanes e
    obtain ⟨d, hd, hk⟩ := List.mem_map.1 (same ▸ List.mem_map_of_mem (f := fun l : Lane => { l with assigned := none }) m)
    have sent : ({ d with assigned := none } : Lane).transmitting = ({ l with assigned := none } : Lane).transmitting :=
      congrArg Lane.transmitting hk
    exact sent ▸ h.lanes d hd

theorem ChainCtl.Muted.dropSeat {k a : ChainCtl} (x : Seat) (h : k.Muted a) : k.Muted (a.dropSeat x) := by
  unfold ChainCtl.dropSeat
  refine ChainCtl.Muted.alike (ChainCtl.removeItems_unlisted _ _) { h with lanes := fun l m => ?_ }
  obtain ⟨d, hd, rfl⟩ := List.mem_map.1 (show l ∈ a.lanes.map fun l => { l with transmitting := l.transmitting.erase x } from m)
  simp [h.lanes d hd]

theorem Part.becomeAbsentAll_muted (seats : List Seat) {k : ChainCtl} {p : Part} {c : Chain} (h : k.Muted (p.chain c)) :
    k.Muted ((p.becomeAbsentAll seats).chain c) := by
  unfold Part.becomeAbsentAll
  induction seats generalizing p with
  | nil => exact h
  | cons x xs ih =>
    exact ih (Part.becomeAbsent_chain (P := k.Muted) (fun _ _ => .alike) (fun _ x => .dropSeat x)
      (fun _ _ _ h => { h with lanes := h.lanes }) x h)

/-- A chain that becomes FAILED (R163, R172): its record with the transmitting sets empty, its seats made ABSENT in seat order, and
CHAIN_STATE naming them. -/
theorem Part.failedAttempt_failed {p : Part} {c : Chain} (h : (p.chain c).settings.attempts ≤ (p.chain c).attempt) :
    let failed := p.modChain c fun k =>
      { k.emptyTransmitting with state := .failed, pairs := none, enumerated := [], exchange := none }
    let gone := failed.becomeAbsentAll (p.reachable c)
    p.failedAttempt c = gone.notifyChain c (p.reachable c) ∧ (failed.chain c).Muted (gone.chain c) := by
  intro failed gone
  refine ⟨?_, ?_⟩
  · unfold Part.failedAttempt
    dsimp only
    rw [if_neg (by omega)]
  · refine Part.becomeAbsentAll_muted _ ⟨rfl, rfl, rfl, rfl, rfl, rfl, rfl, fun l m => ?_⟩
    rw [show failed.chain c = _ from Part.chain_modChain p c c _, if_pos rfl] at m
    obtain ⟨d, _, rfl⟩ := List.mem_map.1 m
    rfl

/-! ### The session title (R181) -/

/-- A broadcast becomes pending on an ACTIVE chain with the session title (R181). -/
theorem Part.pendBroadcast_spec (p : Part) (d c : Chain) :
    ((p.pendBroadcast d).chain c).broadcast =
      (if c = d ∧ (p.chain c).state = .active then some p.sessionTitle else (p.chain c).broadcast) ∧
    ((p.pendBroadcast d).chain c).state = (p.chain c).state ∧ (p.pendBroadcast d).sessionTitle = p.sessionTitle := by
  unfold Part.pendBroadcast
  rw [Part.chain_modChain]
  refine ⟨?_, ?_, by cases d <;> rfl⟩ <;> by_cases h : c = d <;> by_cases k : (p.chain c).state = .active <;> simp [h] <;>
    subst h <;> simp [k]

theorem Part.pendBroadcasts_spec (p : Part) (c : Chain) : (((p.pendBroadcast .A).pendBroadcast .B).chain c).broadcast =
    if (p.chain c).state = .active then some p.sessionTitle else (p.chain c).broadcast := by
  rw [(Part.pendBroadcast_spec _ .B c).1, (Part.pendBroadcast_spec p .A c).1, (Part.pendBroadcast_spec p .A c).2.1,
    (Part.pendBroadcast_spec p .A c).2.2]
  cases c <;> simp

theorem FloorWork.deriveAll {P : Part → Prop} (w : FloorWork P) {p : Part} (h : P p) : P p.deriveAll := by
  unfold Part.deriveAll
  exact w.deriveSeats h

/-- Both chains keep their states and their pending broadcasts. -/
def Aired (p q : Part) : Prop := ∀ c, (q.chain c).state = (p.chain c).state ∧ (q.chain c).broadcast = (p.chain c).broadcast

theorem Aired.work (p : Part) : FloorWork (Aired p) := by
  intro a b e h c
  rw [← (h c).1, ← (h c).2]
  cases c
  · exact ⟨congrArg (fun q => q.chainA.state) e, congrArg (fun q => q.chainA.broadcast) e⟩
  · exact ⟨congrArg (fun q => q.chainB.state) e, congrArg (fun q => q.chainB.broadcast) e⟩

theorem Aired.same {p q r : Part} (h : Aired p q) (a : r.chainA = q.chainA) (b : r.chainB = q.chainB) :
    Aired p r := fun c => by
  rw [Part.chain_congr a b c]; exact h c

theorem Aired.rate {p q : Part} (h : Aired p q) (rate : PollRate) : Aired p (q.setRate rate) := by
  intro c; rw [← (h c).1, ← (h c).2]; cases c <;> exact ⟨rfl, rfl⟩

theorem Aired.wake {p q : Part} (h : Aired p q) : Aired p q.wakeEvent := by
  unfold Part.wakeEvent
  split
  · refine Aired.rate ((Aired.work p).recomputeScreens ?_) _
    have k := (Aired.work p).deriveAll (h.same (r := ((q.modSched fun d => { d with standby := .awake }).notify
      (.standbyChanged .awake)).modSched Scheduler.restart) rfl rfl)
    exact k.same (by simp) (by simp)
  · exact h.same rfl rfl

theorem Aired.endWarningTest {p q : Part} (h : Aired p q) : Aired p q.endWarningTest := by
  unfold Part.endWarningTest
  (repeat' split)
  · exact (Aired.work p).deriveAll (h.same rfl rfl)
  · exact (Aired.work p).deriveAll h
  · exact (Aired.work p).deriveAll (h.same rfl rfl)
  · exact h
  · exact h

theorem Aired.standings {p q : Part} (h : Aired p q) (b : Booking) (l : List Seat) (s : Part) :
    Aired p (l.foldl (fun q x => q.setStanding x (s.standingFor b x)) q) := by
  induction l generalizing q with
  | nil => exact h
  | cons x xs ih => exact ih (h.same (by simp) (by simp))

/-- Opening a session makes its title pending on the ACTIVE chains (R181). -/
theorem Part.openSession_broadcast (p : Part) (b : Booking) (c : Chain) :
    ((p.openSession b).chain c).broadcast =
    if (p.chain c).state = .active then some (p.openSession b).sessionTitle else (p.chain c).broadcast := by
  have h0 : Aired p p := fun c => ⟨rfl, rfl⟩
  unfold Part.openSession
  dsimp only
  have hw : Aired p (if p.inStandby then p.wakeEvent else p) := by split; exact h0.wake; exact h0
  generalize (if p.inStandby then p.wakeEvent else p) = w at hw
  have hn : Aired p ((w.fillSession b).notify (.sessionOpened b.id b.origin b.title b.start b.finish b.privacy b.plan)) :=
    hw.same (by simp [Part.fillSession]) (by simp [Part.fillSession])
  have hs : Aired p ((((w.fillSession b).notify
      (.sessionOpened b.id b.origin b.title b.start b.finish b.privacy b.plan)).endWarningTest).openStandings b) := by
    unfold Part.openStandings
    exact (Aired.work p).deriveAll (Aired.standings (Aired.endWarningTest hn) _ _ _)
  generalize Part.openStandings b _ = o at hs ⊢
  have hk := hs.same (r := Part.modFloor (fun f => { f with preset := b.floor }) o) (by simp) (by simp)
  generalize Part.modFloor (fun f => { f with preset := b.floor }) o = q at hk ⊢
  have k : Aired p (((q.mixerSessionOpen b)).screensSessionOpen b) := by
    refine Aired.same (q := q.mixerSessionOpen b) ?_ (by simp) (by simp)
    unfold Part.mixerSessionOpen
    exact (Aired.work p).recountChain ((Aired.work p).recountChain (hk.same (by simp) (by simp)))
  rw [Part.pendBroadcasts_spec, (k c).1, (k c).2, (Part.pendBroadcast_spec _ .B c).2.2, (Part.pendBroadcast_spec _ .A c).2.2]

/-- The booking that opens alone is ACTIVE, and its title is the session's (R25, R181). -/
theorem openedTitle {bookings : List Booking} {b : Booking}
    (once : ∀ x ∈ bookings, (x.id = b.id → x = b) ∧ (x.id ≠ b.id → x.state = .pending)) (m : b ∈ bookings) :
    (((bookings.map fun x => if x.id = b.id then { x with state := .active } else x).find? fun x => x.state = .active).map
      Booking.title).getD [] = b.title := by
  induction bookings with
  | nil => cases m
  | cons x xs ih =>
    rw [List.map_cons, List.find?_cons]
    by_cases k : x.id = b.id
    · obtain rfl := (once x (by simp)).1 k
      simp
    · simp only [k, if_false, (once x (by simp)).2 k, reduceCtorEq, decide_false]
      refine ih (fun y hy => once y (by simp [hy])) ?_
      rcases List.mem_cons.1 m with m | m
      · exact absurd (by rw [m]) k
      · exact m

/-- Closing a session makes the empty title pending on the ACTIVE chains (R181). -/
theorem Part.closeSession_broadcast {p : Part} {d : Session} (cause : SessionCause) (c : Chain) (h : p.sched.session = some d) :
    ((p.closeSession cause).chain c).broadcast =
    if (p.chain c).state = .active then some [] else (p.chain c).broadcast := by
  have h0 : Aired p p := fun c => ⟨rfl, rfl⟩
  unfold Part.closeSession
  rw [h]
  dsimp only
  generalize hf : ((p.emptySession d cause).closeStandings.floorEvent Part.floorSessionClose) = f
  have k1 : Aired p f := by
    subst hf
    refine (Aired.work p).floorEvent (fun q hq => ?_) ?_
    · unfold Part.floorSessionClose
      have k : Aired p (q.closeSeats q.floor.speakerSeats (some .sessionEnd)) := (Aired.work p).closeSeats hq
      exact (Aired.work p).deriveSeats (k.same (by simp) (by simp))
    · unfold Part.closeStandings
      exact (Aired.work p).deriveAll (h0.same (by simp [Part.emptySession]) (by simp [Part.emptySession]))
  generalize hq : ((f.clearPriority.mixerSessionClose).directorSessionClose).screensSessionClose = q
  have k2 : Aired p q := by
    subst hq
    refine Aired.same (q := (f.clearPriority.mixerSessionClose).directorSessionClose) ?_ (by simp) (by simp)
    refine Aired.same (q := f.clearPriority.mixerSessionClose) ?_ (by simp) (by simp)
    have k3 : Aired p f.clearPriority := by
      unfold Part.clearPriority
      dsimp only
      refine (Aired.work p).deriveSeats ?_
      have k3 : Aired p (f.modFloor fun g => { g with stack := [], holders := [] }) := k1.same (by simp) (by simp)
      split
      · exact k3
      · exact (Aired.work p).notifyPriority k3
    generalize f.clearPriority = g at k3
    unfold Part.mixerSessionClose
    generalize List.range 12 = l
    have freed (l : List Nat) : ∀ q, Aired p q → Aired p (l.foldl (fun q ch => q.modMixer (Mixer.free ch 0 false)) q) := by
      induction l with
      | nil => exact fun _ h => h
      | cons x xs ih => exact fun _ h => ih _ (h.same (by simp) (by simp))
    exact (Aired.work p).recountChain ((Aired.work p).recountChain ((freed l g k3).same (by simp) (by simp)))
  rw [Part.pendBroadcasts_spec, (k2 c).1, (k2 c).2]
  have : q.sessionTitle = [] := by
    have : q.sched = (p.emptySession d cause).sched := by
      rw [← hq]
      have a : ((((f.clearPriority).mixerSessionClose).directorSessionClose).screensSessionClose).sched = f.sched := by simp
      rw [a, ← hf]
      have w : FloorWork fun q => q.sched = (p.emptySession d cause).sched := fun a b e h =>
        (congrArg Part.sched e : b.floorFrame.sched = a.floorFrame.sched).trans h
      refine w.floorEvent (fun q hq => ?_) (by simp)
      unfold Part.floorSessionClose
      refine w.deriveSeats ?_
      have k := w.closeSeats (seats := q.floor.speakerSeats) (cause := some .sessionEnd) hq
      exact k
    unfold Part.sessionTitle Part.isOpen
    rw [this]
    rfl
  rw [this]

end Sys2Proof.Machine
end

