-- ==== Sys2Proof/Laws/FloorRoom.lean ====
section
/-!
SUPPORT. The floor keeps its invariant under the work of the room scheduler, of a press event, of the chain controllers, of the
exchanges and of everything that falls due: one lemma per operation, in the form `p.floor.Safe → (operation p).floor.Safe`.
-/
namespace Sys2Proof.Machine

variable {p : Part}

/-- Work done for each member of a list. -/
theorem foldl_safe {α : Type} {f : Part → α → Part} (h : ∀ q x, q.floor.Safe → (f q x).floor.Safe) (xs : List α) :
    ∀ {p : Part}, p.floor.Safe → (xs.foldl f p).floor.Safe := by
  induction xs with
  | nil => exact id
  | cons x xs ih => exact fun hp => ih (h _ x hp)

/-- Work that leaves the floor as it is. -/
theorem Floor.Safe.of_eq {f g : Floor} (h : f.Safe) (e : g = f) : g.Safe := e ▸ h

/-! ### Room scheduler -/

theorem openSession_safe {b : Booking} (h : p.floor.Safe) : (p.openSession b).floor.Safe := by
  have awake : (if p.inStandby then p.wakeEvent else p).floor.Safe := by split <;> simpa using h
  unfold Part.openSession
  dsimp only
  simp only [Part.pendBroadcast_frame, Part.screensSessionOpen_frame, Part.mixerSessionOpen_frame, Part.modFloor_floor,
    Part.openStandings_frame, Part.endWarningTest_frame, Part.notify_floor, Part.fillSession_frame]
  exact awake.alike rfl rfl rfl rfl rfl rfl

theorem closeSession_safe {cause : SessionCause} (h : p.floor.Safe) : (p.closeSession cause).floor.Safe := by
  unfold Part.closeSession
  split
  · exact h
  · dsimp only
    simp only [Part.pendBroadcast_frame, Part.screensSessionClose_frame, Part.directorSessionClose_frame,
      Part.mixerSessionClose_frame]
    refine clearPriority_safe (floorEvent_safe (floorSessionClose_safe ?_))
    simpa using h

theorem bookingWork_safe (h : p.floor.Safe) : p.bookingWork.floor.Safe := by
  have ended : p.endTest.floor.Safe := by
    unfold Part.endTest
    (repeat' split) <;> with_reducible first
      | exact closeSession_safe h
      | exact h
  have started : p.endTest.dropMissed.startTest.floor.Safe := by
    have k : p.endTest.dropMissed.floor.Safe := by simpa using ended
    unfold Part.startTest
    (repeat' split) <;> with_reducible first
      | exact openSession_safe k
      | exact k
  have tested : p.endTest.dropMissed.startTest.noShowTest.floor.Safe := by
    unfold Part.noShowTest
    (repeat' split) <;> with_reducible first
      | exact closeSession_safe started
      | exact started
  unfold Part.bookingWork
  simpa using tested

theorem minuteWork_safe (h : p.floor.Safe) : p.minuteWork.floor.Safe := by
  unfold Part.minuteWork
  split
  · exact bookingWork_safe h
  · exact h

theorem attemptAdhoc_safe {s : Seat} (h : p.floor.Safe) : (p.attemptAdhoc s).floor.Safe := by
  unfold Part.attemptAdhoc
  dsimp only
  (repeat' split)
  · simpa using h
  · exact openSession_safe h
  · exact h

theorem schedulerPress_safe {s : Seat} {button : Button} (h : p.floor.Safe) : (p.schedulerPress s button).floor.Safe := by
  have awake : p.wakeEvent.floor.Safe := by simpa using h
  unfold Part.schedulerPress
  dsimp only
  (repeat' split)
  · exact awake
  · simpa using attemptAdhoc_safe awake
  · exact attemptAdhoc_safe awake

theorem routePress_safe {s : Seat} {button : Button} {number : Word32} (h : p.floor.Safe) :
    (p.routePress s button number).floor.Safe := by
  unfold Part.routePress
  dsimp only
  (repeat' split)
  · exact floorEvent_safe (resolvePress_safe h)
  · exact floorEvent_safe (resolvePress_safe h)
  · exact floorEvent_safe (chairAux_safe h)
  · simpa using h
  · exact h
  · exact h

theorem takePress_safe {s : Seat} {button : Button} (h : p.floor.Safe) : (p.takePress s button).floor.Safe := by
  unfold Part.takePress
  dsimp only
  split
  · exact routePress_safe (schedulerPress_safe h)
  · exact h

theorem takePresses_safe {s : Seat} {button : Button} (n : Nat) (h : p.floor.Safe) :
    (p.takePresses s button n).floor.Safe := by
  induction n generalizing p with
  | zero => exact h
  | succ n ih => exact ih (takePress_safe h)

/-! ### Chain controllers -/

theorem becomePresent_safe {s : Seat} (h : p.floor.Safe) : (p.becomePresent s).floor.Safe := by
  unfold Part.becomePresent
  simp only [Part.queueItem_frame, Part.reexamine_frame]
  refine floorEvent_safe ?_
  simpa using h

theorem becomeSilent_safe {s : Seat} (h : p.floor.Safe) : (p.becomeSilent s).floor.Safe := by
  unfold Part.becomeSilent
  simp only [Part.reexamine_frame]
  refine floorEvent_safe (lostSeat_safe ?_)
  simpa using h

theorem becomeAbsent_safe {s : Seat} (h : p.floor.Safe) : (p.becomeAbsent s).floor.Safe := by
  unfold Part.becomeAbsent
  simp only [Part.reexamine_frame]
  refine floorEvent_safe (lostSeat_safe ?_)
  simpa using h

theorem becomeAbsentAll_safe {seats : List Seat} (h : p.floor.Safe) : (p.becomeAbsentAll seats).floor.Safe := by
  unfold Part.becomeAbsentAll
  exact foldl_safe (fun _ _ k => becomeAbsent_safe k) _ h

theorem train_safe {c : Chain} {cause : ChainCause} (h : p.floor.Safe) : (p.train c cause).floor.Safe := by
  unfold Part.train
  simp only [Part.notifyChain_frame]
  refine floorEvent_safe (floorRetrain_safe ?_)
  simpa using h

theorem retrain_safe {c : Chain} {cause : ChainCause} (h : p.floor.Safe) : (p.retrain c cause).floor.Safe := by
  unfold Part.retrain
  dsimp only
  refine train_safe (foldl_safe (fun q s k => ?_) _ ?_)
  · simpa using k
  · simpa using h

theorem switchOff_safe {c : Chain} (h : p.floor.Safe) : (p.switchOff c).floor.Safe := by
  unfold Part.switchOff
  dsimp only
  simp only [Part.notifyChain_frame]
  refine floorEvent_safe ?_
  have k : ((p.modChain c ChainCtl.abandon).becomeAbsentAll (p.reachable c)).floor.Safe :=
    becomeAbsentAll_safe (by simpa using h)
  simpa using k

theorem failedAttempt_safe {c : Chain} (h : p.floor.Safe) : (p.failedAttempt c).floor.Safe := by
  unfold Part.failedAttempt
  dsimp only
  split
  · simpa using h
  · simp only [Part.notifyChain_frame]
    exact becomeAbsentAll_safe (by simpa using h)

theorem endAttempt_safe {c : Chain} (h : p.floor.Safe) : (p.endAttempt c).floor.Safe := by
  unfold Part.endAttempt
  dsimp only
  split
  · simpa using h
  · exact failedAttempt_safe h

theorem attemptTimeout_safe {c : Chain} (h : p.floor.Safe) : (p.attemptTimeout c).floor.Safe := by
  unfold Part.attemptTimeout
  dsimp only
  split
  · exact endAttempt_safe h
  · exact h

theorem pairLocked_safe {c : Chain} {pair : Pair} (h : p.floor.Safe) : (p.pairLocked c pair).floor.Safe := by
  unfold Part.pairLocked
  dsimp only
  (repeat' split)
  · exact endAttempt_safe (by simpa using h)
  · simpa using h
  · exact h

theorem lockLost_safe {c : Chain} {pair : Pair} (h : p.floor.Safe) : (p.lockLost c pair).floor.Safe := by
  unfold Part.lockLost
  dsimp only
  (repeat' split)
  · simpa using h
  · exact failedAttempt_safe h
  · exact retrain_safe h
  · exact h
  · exact h
  · exact h

theorem settleFound_safe {s : Seat} {u : FoundUnit} (h : p.floor.Safe) : (p.settleFound s u).floor.Safe := by
  unfold Part.settleFound
  dsimp only
  (repeat' split)
  · simpa using h
  · simpa using h
  · exact becomePresent_safe (by simpa using h)
  · exact becomePresent_safe (by simpa using h)

theorem settle_safe {c : Chain} {overlength : Bool} (h : p.floor.Safe) : (p.settle c overlength).floor.Safe := by
  unfold Part.settle
  dsimp only
  simp only [Part.pendBroadcast_frame, Part.notifyChain_frame]
  refine floorEvent_safe ?_
  simp only [Part.modChain_floor]
  exact becomeAbsentAll_safe (foldl_safe (fun q x k => settleFound_safe k) _ h)

theorem enumerated_safe {c : Chain} {n : Nat} {answer : UnitAnswer} (h : p.floor.Safe) :
    (p.enumerated c n answer).floor.Safe := by
  unfold Part.enumerated
  dsimp only
  (repeat' split)
  · exact settle_safe (by simpa using h)
  · exact settle_safe (by simpa using h)
  · simpa using h

theorem setChain_safe {c : Chain} {settings : ChainSettings} (h : p.floor.Safe) : (p.setChain c settings).floor.Safe := by
  unfold Part.setChain
  dsimp only
  (repeat' split)
  · exact switchOff_safe (by simpa using h)
  · exact train_safe (by simpa using h)
  · simpa using h

theorem restartChain_safe {c : Chain} (h : p.floor.Safe) : (p.restartChain c).floor.Safe := by
  unfold Part.restartChain
  split
  · exact retrain_safe h
  · exact train_safe h

/-! ### Exchanges -/

theorem countRun_safe {c : Chain} (h : p.floor.Safe) : (p.countRun c).floor.Safe := by
  unfold Part.countRun
  dsimp only
  split
  · exact retrain_safe (by simpa using h)
  · simpa using h

theorem seatFailed_safe {c : Chain} {s : Seat} (h : p.floor.Safe) : (p.seatFailed c s).floor.Safe := by
  unfold Part.seatFailed
  dsimp only
  (repeat' split)
  · exact countRun_safe (becomeSilent_safe (by simpa using h))
  · exact countRun_safe h
  · exact h
  · exact h
  · exact h

theorem exchangeFailed_safe {c : Chain} {sent : Sent} (h : p.floor.Safe) : (p.exchangeFailed c sent).floor.Safe := by
  unfold Part.exchangeFailed
  dsimp only
  split
  · exact settle_safe (by simpa using h)
  · exact seatFailed_safe (by simpa using h)
  · exact seatFailed_safe (by simpa using h)
  · exact seatFailed_safe (by simpa using h)

theorem attemptFailed_safe {c : Chain} (h : p.floor.Safe) : (p.attemptFailed c).floor.Safe := by
  unfold Part.attemptFailed
  split
  · simpa using h
  · exact exchangeFailed_safe h
  · exact h
  · exact h
  · exact h

theorem seatSucceeded_safe {c : Chain} {s : Seat} (h : p.floor.Safe) : (p.seatSucceeded c s).floor.Safe := by
  unfold Part.seatSucceeded
  dsimp only
  split
  · exact becomePresent_safe (by simpa using h)
  · simpa using h

theorem pollReport_safe {s : Seat} {answer : UnitAnswer} (h : p.floor.Safe) : (p.pollReport s answer).floor.Safe := by
  have heard : ((p.modSeat s (SeatRec.report answer)).floorEvent (Part.voiceReport s answer.voice)).floor.Safe :=
    floorEvent_safe (voiceReport_safe (by simpa using h))
  unfold Part.pollReport
  dsimp only
  split
  · exact heard
  · simpa using heard

theorem pollSucceeded_safe {c : Chain} {s : Seat} {answer : UnitAnswer} (h : p.floor.Safe) :
    (p.pollSucceeded c s answer).floor.Safe := by
  unfold Part.pollSucceeded
  dsimp only
  simp only [Part.reportFault_frame]
  exact pollReport_safe (seatSucceeded_safe (by simpa using h))

theorem exchangeSucceeded_safe {c : Chain} {sent : Sent} {answer : UnitAnswer} (h : p.floor.Safe) :
    (p.exchangeSucceeded c sent answer).floor.Safe := by
  unfold Part.exchangeSucceeded
  dsimp only
  split
  · exact enumerated_safe (by simpa using h)
  · exact pollSucceeded_safe (by simpa using h)
  · exact seatSucceeded_safe (by simpa using h)
  · exact seatSucceeded_safe (by simpa using h)

theorem attemptAnswered_safe {c : Chain} {checkGood : Bool} {answer : UnitAnswer} (h : p.floor.Safe) :
    (p.attemptAnswered c checkGood answer).floor.Safe := by
  unfold Part.attemptAnswered
  (repeat' split)
  · exact exchangeSucceeded_safe h
  · exact attemptFailed_safe h
  · exact h
  · exact h
  · exact h

/-! ### Time -/

theorem runJob_safe {j : TickJob} (h : p.floor.Safe) : (p.runJob j).floor.Safe := by
  unfold Part.runJob
  dsimp only
  split
  · split
    · exact tickEntry_safe h
    · exact tickEntry_safe h
  · exact expire_safe h
  · simpa using h
  · split
    · exact tickSilence_safe h
    · exact tickSilence_safe h
  · exact silenceClose_safe h
  · exact endFloorEvent_safe (autoAdvance_safe h)
  · split
    · exact h.of_eq (by simp [Part.pushJob])
    · simpa using h
  · simpa using h
  · split
    · exact h.of_eq (by simp [Part.pushJob])
    · simpa using h
  · simpa using h

theorem runJobsWith_safe {stop : Bool} (n : Nat) (h : p.floor.Safe) : (p.runJobsWith stop n).floor.Safe := by
  induction n generalizing p with
  | zero => exact h
  | succ n ih =>
    unfold Part.runJobsWith
    (repeat' split)
    · exact h
    · exact h
    · exact ih (runJob_safe h)

theorem runJobs_safe {stop : Bool} (h : p.floor.Safe) : (p.runJobs stop).floor.Safe := runJobsWith_safe _ h

theorem startTick_safe {moved : Bool} (h : p.floor.Safe) : (p.startTick moved).floor.Safe := by
  unfold Part.startTick
  dsimp only
  split
  · exact h
  · simpa using h

theorem takeOwed_safe {o : Owed} (h : p.floor.Safe) : (p.takeOwed o).floor.Safe := by
  unfold Part.takeOwed
  split
  · simpa using h
  · simpa using h
  · simpa using h
  · simpa using h
  · exact attemptTimeout_safe h
  · exact h
  · exact runJobs_safe (startTick_safe h)
  · exact minuteWork_safe h
  · exact closeSession_safe h

theorem catchUp_safe (h : p.floor.Safe) : p.catchUp.floor.Safe := by
  unfold Part.catchUp
  exact foldl_safe (fun _ _ k => takeOwed_safe k) _ (runJobs_safe h)

/-- A command of a running part, whose own work is given. -/
theorem whenRunning_safe {f : Part → Part} (hf : ∀ q : Part, q.floor.Safe → (f q).floor.Safe) (h : p.floor.Safe) :
    (Part.whenRunning f p).floor.Safe := by
  unfold Part.whenRunning
  split
  · exact hf _ (catchUp_safe h)
  · exact h

theorem takeFirst_safe {o : Owed} (h : p.floor.Safe) : (Part.takeFirst o p).floor.Safe := by
  unfold Part.takeFirst
  (repeat' split)
  · exact takeOwed_safe h
  · exact catchUp_safe h
  · exact h

theorem takeJob_safe {j : TickJob} (h : p.floor.Safe) : (Part.takeJob j p).floor.Safe := by
  unfold Part.takeJob
  (repeat' split)
  · exact runJobs_safe (runJob_safe h)
  · exact catchUp_safe h
  · exact h

theorem secondTick_safe (h : p.floor.Safe) : p.secondTick.floor.Safe := by
  unfold Part.secondTick
  (repeat' split)
  · exact runJobs_safe (startTick_safe h)
  · exact catchUp_safe h
  · exact h

theorem takeBoundary_safe {o : Owed} (h : p.floor.Safe) : (Part.takeBoundary o p).floor.Safe := by
  unfold Part.takeBoundary
  split
  · split
    · split
      · refine takeOwed_safe ?_
        split
        · exact h
        · exact h
      · exact catchUp_safe h
    · split
      · exact takeOwed_safe h
      · exact catchUp_safe h
    · exact catchUp_safe h
  · exact h

/-- A request whose owning block keeps the floor's invariant. -/
theorem request_safe {f : Frame} {owner : List Byte → Part → Answer}
    (ho : ∀ payload q, q.floor.Safe → (owner payload q).part.floor.Safe) (h : p.floor.Safe) :
    (Part.request f owner p).floor.Safe := by
  have processed (q : Part) (k : q.floor.Safe) : (q.process f owner).floor.Safe := by
    have answered := ho f.payload (q.modLink fun l => { l with inRequest := true }) k
    unfold Part.process
    dsimp only
    split
    · simpa using answered
    · exact answered
  refine whenRunning_safe (fun q k => ?_) h
  (repeat' split)
  · exact processed _ k
  · exact processed _ k
  · exact k
  · exact k

end Sys2Proof.Machine
end

