-- ==== Sys2Proof/Laws/Requests.lean ====
section
/-!
SUPPORT. How a command runs at a quiet part and how a request runs at a ready one, and what the readers of payload fields give on
the bytes that the writers give.
-/
namespace Sys2Proof.Machine

/-! ### A quiet part -/

theorem Part.runJobs_none {p : Part} (stopAtStep : Bool) (h : p.tickJobs = []) : p.runJobs stopAtStep = p := by
  unfold Part.runJobs
  rw [h]
  rfl

theorem Part.Quiet.catchUp {p : Part} (h : p.Quiet) : p.catchUp = p := by
  unfold Part.catchUp
  simp only [Part.runJobs_none false h.jobs, h.owed, List.foldl_nil]
  rw [← h.owed]

/-- A command at a quiet part does its own work alone. -/
theorem Part.Quiet.whenRunning {p : Part} (h : p.Quiet) (f : Part → Part) : Part.whenRunning f p = f p := by
  unfold Part.whenRunning
  rw [if_pos h.running, h.catchUp]

/-- A step that has fallen due and is first in line is taken alone. -/
theorem Part.takeFirst_first {p : Part} {o : Owed} {rest : List Owed} (running : p.power = .running) (jobs : p.tickJobs = [])
    (h : p.owed = o :: rest) : Part.takeFirst o p = ({ p with owed := rest }).takeOwed o := by
  unfold Part.takeFirst
  simp [running, jobs, h]

/-- A step within a second tick that is first in line is taken, and the tick goes on. -/
theorem Part.takeJob_first {p : Part} {j : TickJob} {rest : List TickJob} (running : p.power = .running)
    (h : p.tickJobs = j :: rest) : Part.takeJob j p = (({ p with tickJobs := rest }).runJob j).runJobs true := by
  unfold Part.takeJob
  simp [running, h]

/-! ### A request at a ready part -/

/-- The work of an answer, with the wake event of R41 when the request is one. -/
theorem Part.Ready.request {p : Part} (h : p.Ready) (f : Frame) (owner : List Byte → Part → Answer) :
    Part.request f owner p =
      (if (owner f.payload p.taken).wake then (owner f.payload p.taken).part.wakeEvent else (owner f.payload p.taken).part).modLink
        fun l =>
          { l with
            inRequest := false
            reply := some ⟨replyFrame f (owner f.payload p.taken).status (owner f.payload p.taken).fields,
              (owner f.payload p.taken).wake, (owner f.payload p.taken).resets⟩ } := by
  unfold Part.request
  rw [h.toQuiet.whenRunning, if_pos h.free, h.buffer]
  rfl

/-- A request that its owning block turns away. -/
theorem request_refuses {s : State} {f : Frame} {owner : List Byte → Part → Answer} {status : Status} (h : s.part.Ready)
    (e : owner f.payload s.part.taken = refuse status s.part.taken) :
    onPart (Part.request f owner) s = s.refuses (replyKind f.kind) f.tag status.code := by
  unfold onPart
  rw [h.request, e]
  rfl

/-- A request that its owning block answers OK. -/
theorem request_accepts {s : State} {f : Frame} {owner : List Byte → Part → Answer} {fields : List Byte} {p : Part}
    (h : s.part.Ready) (e : owner f.payload s.part.taken = ok fields p) :
    onPart (Part.request f owner) s = s.accepts (replyKind f.kind) f.tag fields p := by
  unfold onPart
  rw [h.request, e]
  rfl

/-- A request of R41's list that its owning block answers OK. -/
theorem request_acceptsWaking {s : State} {f : Frame} {owner : List Byte → Part → Answer} {fields : List Byte} {p : Part}
    (h : s.part.Ready) (e : owner f.payload s.part.taken = okWake fields p) :
    onPart (Part.request f owner) s = s.acceptsWaking (replyKind f.kind) f.tag fields p := by
  unfold onPart
  rw [h.request, e]
  rfl

/-! ### Reading what was written -/

theorem readByte_cons (b : Byte) (rest : List Byte) : readByte (b :: rest) = .ok (b.toNat, rest) := rfl

theorem toNat_ofNat_byte {n : Nat} (h : n < 256) : (BitVec.ofNat 8 n).toNat = n := by
  rw [BitVec.toNat_ofNat]
  exact Nat.mod_eq_of_lt h

/-- Reading one field after another. -/
theorem Reader.bind_ok {α β : Type} {read : Reader α} {next : α → Reader β} {bytes rest : List Byte} {a : α}
    (h : read bytes = .ok (a, rest)) : (read >>= next) bytes = next a rest := by
  show Except.bind (read bytes) (fun x => next x.1 x.2) = _
  rw [h]
  rfl

theorem Reader.bind_error {α β : Type} {read : Reader α} {next : α → Reader β} {bytes : List Byte} {e : Status}
    (h : read bytes = .error e) : (read >>= next) bytes = .error e := by
  show Except.bind (read bytes) (fun x => next x.1 x.2) = _
  rw [h]
  rfl

theorem Reader.pure_run {α : Type} (a : α) (bytes : List Byte) : (pure a : Reader α) bytes = .ok (a, bytes) := rfl

theorem readByte_u8 {n : Nat} (h : n < 256) (rest : List Byte) : readByte (u8 n ++ rest) = .ok (n, rest) := by
  unfold u8
  rw [List.singleton_append, readByte_cons, toNat_ofNat_byte h]

theorem readByte_flag (b : Bool) (rest : List Byte) : readByte (flagBytes b ++ rest) = .ok ((if b then 0 else 1), rest) :=
  readByte_u8 (by cases b <;> decide) rest

theorem readWord_u16 {n : Nat} (h : n < 65536) (rest : List Byte) : readWord (u16 n ++ rest) = .ok (n, rest) := by
  unfold readWord u16
  rw [List.append_assoc, Reader.bind_ok (readByte_u8 (by omega) _)]
  have low : readByte (u8 n ++ rest) = .ok (n % 256, rest) := by
    unfold u8
    rw [List.singleton_append, readByte_cons, BitVec.toNat_ofNat]
  rw [Reader.bind_ok low, Reader.pure_run]
  congr 2
  omega

theorem readWord_u16_mod (n : Nat) (rest : List Byte) : readWord (u16 n ++ rest) = .ok (n % 65536, rest) := by
  have e : u16 n = u16 (n % 65536) := by
    unfold u16 u8
    congr 2 <;> apply BitVec.eq_of_toNat_eq <;> simp only [BitVec.toNat_ofNat] <;> omega
  rw [e]
  exact readWord_u16 (by omega) rest

theorem readQuad_u32 {n : Nat} (h : n < 2 ^ 32) (rest : List Byte) : readQuad (u32 n ++ rest) = .ok (n, rest) := by
  unfold readQuad u32
  rw [List.append_assoc, Reader.bind_ok (readWord_u16 (by omega) _), Reader.bind_ok (readWord_u16_mod n rest), Reader.pure_run]
  congr 2
  omega

/-! The same lemmas where a field is read first, with bytes after it or none. -/

theorem bindByte {α : Type} {next : Nat → Reader α} {n : Nat} (h : n < 256) (rest : List Byte) :
    (readByte >>= next) (u8 n ++ rest) = next n rest := Reader.bind_ok (readByte_u8 h rest)

theorem bindByte_last {α : Type} {next : Nat → Reader α} {n : Nat} (h : n < 256) :
    (readByte >>= next) (u8 n) = next n [] := Reader.bind_ok (readByte_u8 h [])

theorem bindFlag {α : Type} {next : Nat → Reader α} (b : Bool) (rest : List Byte) :
    (readByte >>= next) (flagBytes b ++ rest) = next (if b then 0 else 1) rest := Reader.bind_ok (readByte_flag b rest)

theorem bindFlag_last {α : Type} {next : Nat → Reader α} (b : Bool) :
    (readByte >>= next) (flagBytes b) = next (if b then 0 else 1) [] := by
  rw [← List.append_nil (flagBytes b)]
  exact bindFlag b []

theorem bindWord {α : Type} {next : Nat → Reader α} {n : Nat} (h : n < 65536) (rest : List Byte) :
    (readWord >>= next) (u16 n ++ rest) = next n rest := Reader.bind_ok (readWord_u16 h rest)

theorem bindWord_last {α : Type} {next : Nat → Reader α} {n : Nat} (h : n < 65536) :
    (readWord >>= next) (u16 n) = next n [] := by
  rw [← List.append_nil (u16 n)]
  exact bindWord h []

theorem readByte_last {n : Nat} (h : n < 256) : readByte (u8 n) = .ok (n, []) := readByte_u8 h []

theorem readWord_last {n : Nat} (h : n < 65536) : readWord (u16 n) = .ok (n, []) := by
  rw [← List.append_nil (u16 n)]
  exact readWord_u16 h []

theorem seat_lt (s : Seat) : s.val < 256 := by omega

/-- A payload of exactly the bytes that a reader reads. -/
theorem readThen_ok {α : Type} {read : Reader α} {payload : List Byte} {p : Part} {work : α → Answer} {a : α}
    (h : read payload = .ok (a, [])) : readThen read payload p work = work a := by
  unfold readThen readAll
  rw [h]

theorem readThen_more {α : Type} {read : Reader α} {payload : List Byte} {p : Part} {work : α → Answer} {a : α} {b : Byte}
    {rest : List Byte} (h : read payload = .ok (a, b :: rest)) : readThen read payload p work = refuse .badLength p := by
  unfold readThen readAll
  rw [h]

theorem readThen_error {α : Type} {read : Reader α} {payload : List Byte} {p : Part} {work : α → Answer} {e : Status}
    (h : read payload = .error e) : readThen read payload p work = refuse e p := by
  unfold readThen readAll
  rw [h]

theorem readNothing_nil : readNothing [] = .ok ((), []) := rfl

theorem readOpt_none {α : Type} (read : Reader α) (rest : List Byte) : readOpt read (u8 0 ++ rest) = .ok (none, rest) := rfl

theorem readOpt_some {α : Type} {read : Reader α} {bytes rest : List Byte} {a : α} (h : read bytes = .ok (a, rest)) :
    readOpt read (u8 1 ++ bytes) = .ok (some a, rest) := by
  unfold readOpt
  have e : readPresence (u8 1 ++ bytes) = .ok (true, bytes) := rfl
  rw [Reader.bind_ok e, if_pos rfl, Reader.bind_ok h, Reader.pure_run]

theorem readMany_flatMap {α β : Type} {read : Reader β} {write : α → List Byte} {value : α → β}
    (xs : List α) (h : ∀ a ∈ xs, ∀ rest, read (write a ++ rest) = .ok (value a, rest)) (rest : List Byte) :
    readMany read xs.length (xs.flatMap write ++ rest) = .ok (xs.map value, rest) := by
  induction xs with
  | nil => rfl
  | cons a xs ih =>
    rw [List.flatMap_cons, List.append_assoc, List.length_cons]
    unfold readMany
    rw [Reader.bind_ok (h a List.mem_cons_self _), Reader.bind_ok (ih fun b m => h b (List.mem_cons_of_mem _ m)), Reader.pure_run]
    rfl

/-- A list of bytes is read as it was written. -/
theorem readList_list {α : Type} {write : α → Nat} {xs : List α} (short : xs.length < 256) (h : ∀ a ∈ xs, write a < 256)
    (rest : List Byte) : readList (listBytes (fun a => u8 (write a)) xs ++ rest) = .ok (xs.map write, rest) := by
  unfold readList listBytes
  rw [List.append_assoc, Reader.bind_ok (readByte_u8 short _)]
  exact readMany_flatMap xs (fun a m rest => readByte_u8 (h a m) rest) rest

/-- A text is read as it was written. -/
theorem readText_text {t : Text} (short : t.length < 256) (rest : List Byte) : readText (textBytes t ++ rest) = .ok (t, rest) := by
  unfold readText textBytes
  rw [List.append_assoc, Reader.bind_ok (readByte_u8 short _)]
  have h := readMany_flatMap (read := readByte) (write := fun b : Byte => [b]) (value := BitVec.toNat) t
    (fun b _ rest => readByte_cons b rest) rest
  rw [List.flatMap_singleton'] at h
  rw [Reader.bind_ok h, Reader.pure_run, List.map_map]
  congr 2
  conv => rhs; rw [← List.map_id t]
  exact List.map_congr_left fun b _ => BitVec.eq_of_toNat_eq (toNat_ofNat_byte b.isLt)

/-! ### Readers of a fixed length -/

/-- A reader that reads exactly `n` bytes whatever they are, and answers BAD_LENGTH when there are fewer. -/
def FixedLength {α : Type} (read : Reader α) (n : Nat) : Prop :=
  ∀ bytes : List Byte, (bytes.length < n → read bytes = .error .badLength) ∧
    (n ≤ bytes.length → ∃ a, read bytes = .ok (a, bytes.drop n))

theorem FixedLength.pure {α : Type} (a : α) : FixedLength (Pure.pure a : Reader α) 0 :=
  fun bytes => ⟨fun h => absurd h (Nat.not_lt_zero _), fun _ => ⟨a, by rw [Reader.pure_run]; rfl⟩⟩

theorem FixedLength.bind {α β : Type} {read : Reader α} {next : α → Reader β} {m n : Nat} (h : FixedLength read m)
    (k : ∀ a, FixedLength (next a) n) : FixedLength (read >>= next) (m + n) := by
  intro bytes
  refine ⟨fun short => ?_, fun long => ?_⟩
  · by_cases e : bytes.length < m
    · exact Reader.bind_error ((h bytes).1 e)
    · obtain ⟨a, ha⟩ := (h bytes).2 (by omega)
      rw [Reader.bind_ok ha]
      exact (k a _).1 (by rw [List.length_drop]; omega)
  · obtain ⟨a, ha⟩ := (h bytes).2 (by omega)
    obtain ⟨b, hb⟩ := (k a (bytes.drop m)).2 (by rw [List.length_drop]; omega)
    exact ⟨b, by rw [Reader.bind_ok ha, hb, List.drop_drop]⟩

theorem FixedLength.byte : FixedLength readByte 1 := by
  intro bytes
  cases bytes with
  | nil => exact ⟨fun _ => rfl, fun h => absurd h (by decide)⟩
  | cons b rest => exact ⟨fun h => absurd h (by simp), fun _ => ⟨_, rfl⟩⟩

theorem FixedLength.word : FixedLength readWord 2 := .bind .byte fun _ => .bind .byte fun _ => .pure _

theorem FixedLength.quad : FixedLength readQuad 4 := .bind .word fun _ => .bind .word fun _ => .pure _

theorem FixedLength.floor : FixedLength readFloor 13 := by
  unfold readFloor
  exact .bind .byte fun _ => .bind .byte fun _ => .bind .byte fun _ => .bind .byte fun _ => .bind .byte fun _ =>
    .bind .byte fun _ => .bind .word fun _ => .bind .byte fun _ => .bind .byte fun _ => .bind .byte fun _ =>
    .bind .byte fun _ => .bind .byte fun _ => .pure _

theorem FixedLength.mix : FixedLength readMix 7 := by
  unfold readMix
  exact .bind .word fun _ => .bind .byte fun _ => .bind .byte fun _ => .bind .byte fun _ => .bind .byte fun _ =>
    .bind .byte fun _ => .pure _

/-- A request of fixed length whose payload has another length (R193). -/
theorem readThen_badLength {α : Type} {read : Reader α} {n : Nat} (h : FixedLength read n) {payload : List Byte}
    (e : payload.length ≠ n) (p : Part) (work : α → Answer) : readThen read payload p work = refuse .badLength p := by
  by_cases short : payload.length < n
  · exact readThen_error ((h payload).1 short)
  · obtain ⟨a, ha⟩ := (h payload).2 (by omega)
    cases r : payload.drop n with
    | nil => exact absurd (congrArg List.length r) (by simp; omega)
    | cons b rest => exact readThen_more (ha.trans (by rw [r]))

end Sys2Proof.Machine
end

