-- ==== Sys2Proof/Laws/Payloads.lean ====
section
/-!
SUPPORT. The payloads of requests whose length varies (R193, stage 2): a reader takes exactly the bytes of a payload that is whole,
and answers BAD_LENGTH on every beginning of it; where its reading stops at an undefined value, it answers BAD_ARG.
-/
namespace Sys2Proof.Machine

/-! ### Readers that take exactly some bytes -/

/-- A reader takes exactly these bytes, whatever follows them, and answers BAD_LENGTH when the payload ends within them. -/
structure Reads {α : Type} (read : Reader α) (bytes : List Byte) : Prop where
  whole : ∀ rest, ∃ a, read (bytes ++ rest) = .ok (a, rest)
  short : ∀ start, start <+: bytes → start ≠ bytes → read start = .error .badLength

/-- A beginning of two parts is a beginning of the first that leaves some of it out, or goes into the second. -/
theorem prefix_append_cases {α : Type} {start xs ys : List α} (h : start <+: xs ++ ys) (ne : start ≠ xs ++ ys) :
    (start <+: xs ∧ start ≠ xs) ∨ ∃ t, start = xs ++ t ∧ t <+: ys ∧ t ≠ ys := by
  obtain ⟨u, e⟩ := h
  rcases List.append_eq_append_iff.1 e with ⟨v, rfl, -⟩ | ⟨v, rfl, rfl⟩
  · by_cases k : v = []
    · exact .inr ⟨[], by simp [k], List.nil_prefix, fun k' => ne (by simp [k, ← k'])⟩
    · exact .inl ⟨List.prefix_append _ _, fun e => k (by simpa using e)⟩
  · exact .inr ⟨v, rfl, List.prefix_append _ _, fun k => ne (by rw [← k])⟩

theorem Reads.pure {α : Type} (a : α) : Reads (Pure.pure a : Reader α) [] :=
  ⟨fun _ => ⟨a, rfl⟩, fun _ h ne => absurd (List.prefix_nil.1 h) ne⟩

/-- Reading one field after another, where the second is read according to the first. -/
theorem Reads.bindTo {α β : Type} {read : Reader α} {next : α → Reader β} {bytes more : List Byte} (h : Reads read bytes)
    (k : ∀ a rest, read (bytes ++ rest) = .ok (a, rest) → Reads (next a) more) : Reads (read >>= next) (bytes ++ more) := by
  refine ⟨fun rest => ?_, fun start pre ne => ?_⟩
  · obtain ⟨a, ha⟩ := h.whole (more ++ rest)
    obtain ⟨b, hb⟩ := (k a _ ha).whole rest
    exact ⟨b, by rw [List.append_assoc, Reader.bind_ok ha, hb]⟩
  · rcases prefix_append_cases pre ne with ⟨p, e⟩ | ⟨t, rfl, p, e⟩
    · exact Reader.bind_error (h.short _ p e)
    · obtain ⟨a, ha⟩ := h.whole t
      rw [Reader.bind_ok ha]
      exact (k a _ ha).short _ p e

theorem Reads.bind {α β : Type} {read : Reader α} {next : α → Reader β} {bytes more : List Byte} (h : Reads read bytes)
    (k : ∀ a, Reads (next a) more) : Reads (read >>= next) (bytes ++ more) := h.bindTo fun a _ _ => k a

/-- The last field. -/
theorem Reads.last {α β : Type} {read : Reader α} {value : α → β} {bytes : List Byte} (h : Reads read bytes) :
    Reads (read >>= fun a => Pure.pure (value a)) bytes := by
  rw [← List.append_nil bytes]
  exact h.bind fun _ => .pure _

theorem FixedLength.reads {α : Type} {read : Reader α} {n : Nat} (h : FixedLength read n) {bytes : List Byte}
    (e : bytes.length = n) : Reads read bytes := by
  subst e
  refine ⟨fun rest => ?_, fun start pre ne => (h start).1 ?_⟩
  · obtain ⟨a, ha⟩ := (h (bytes ++ rest)).2 (by simp)
    exact ⟨a, by rw [ha, List.drop_left]⟩
  · exact Nat.lt_of_le_of_ne pre.length_le fun k => ne (pre.eq_of_length k)

/-- A byte, read before fields that depend on its value. -/
theorem Reads.byte {β : Type} {next : Nat → Reader β} (b : Byte) {more : List Byte} (k : Reads (next b.toNat) more) :
    Reads (readByte >>= next) (b :: more) :=
  (FixedLength.byte.reads (bytes := [b]) rfl).bindTo fun a rest e => by
    rw [List.singleton_append, readByte_cons] at e
    cases e
    exact k

theorem FixedLength.many {α : Type} {read : Reader α} (h : FixedLength read 1) (n : Nat) : FixedLength (readMany read n) n := by
  induction n with
  | zero => exact .pure _
  | succ n ih =>
    have more : FixedLength (read >>= fun a => readMany read n >>= fun rest => Pure.pure (a :: rest)) (1 + (n + 0)) :=
      .bind h fun _ => .bind ih fun _ => .pure _
    rw [Nat.add_zero, Nat.add_comm] at more
    exact more

theorem toNat_length {t : List Byte} (h : t.length < 256) : (BitVec.ofNat 8 t.length).toNat = t.length := toNat_ofNat_byte h

theorem Reads.list {t : List Byte} (h : t.length < 256) : Reads readList (textBytes t) := by
  refine Reads.byte _ ?_
  rw [toNat_length h]
  exact (FixedLength.many .byte _).reads rfl

theorem Reads.text {t : List Byte} (h : t.length < 256) : Reads readText (textBytes t) := by
  refine Reads.byte _ ?_
  rw [toNat_length h]
  exact ((FixedLength.many .byte _).reads rfl).last

/-- A presence byte with a defined value. -/
theorem Reads.presence {β : Type} {next : Bool → Reader β} (b : Bool) {more : List Byte} (k : Reads (next b) more) :
    Reads (readPresence >>= next) ((if b then 1 else 0) :: more) := by
  have h : Reads readPresence [if b then 1 else 0] :=
    Reads.byte _ (by cases b <;> exact .pure _)
  refine h.bindTo fun a rest e => ?_
  have f : readPresence ([if b then 1 else 0] ++ rest) = .ok (b, rest) := by cases b <;> rfl
  rw [f] at e
  cases e
  exact k

theorem Reads.opt {α β : Type} {read : Reader β} {write : α → List Byte} (h : ∀ a, Reads read (write a)) (x : Option α) :
    Reads (readOpt read) (optBytes write x) := by
  cases x with
  | none => exact Reads.presence false (.pure _)
  | some a => exact Reads.presence true (h a).last

theorem Reads.many {α : Type} {read : Reader α} {xs : List (List Byte)} (h : ∀ x ∈ xs, Reads read x) :
    Reads (readMany read xs.length) xs.flatten := by
  induction xs with
  | nil => exact .pure _
  | cons x xs ih => exact (h x List.mem_cons_self).bind fun _ => (ih fun y m => h y (List.mem_cons_of_mem _ m)).last

theorem Reads.one {bytes : List Byte} (h : bytes.length = 1) : Reads readByte bytes := FixedLength.byte.reads h

theorem ModeRead.reads {m : List Byte} (h : ModeRead m) : Reads readMode m := by
  cases h with
  | fixed s => exact Reads.byte 0 (Reads.one (bytes := [s]) rfl).last
  | followSpeaker =>
    refine Reads.byte 1 (Reads.bind (more := []) (Reads.opt (fun b : Byte => Reads.one (bytes := [b]) rfl) none) fun a => ?_)
    cases a <;> exact .pure _
  | followZone z =>
    refine Reads.byte 1 (Reads.bind (more := []) (Reads.opt (fun b : Byte => Reads.one (bytes := [b]) rfl) (some z)) fun a => ?_)
    cases a <;> exact .pure _
  | followShare n s => exact Reads.byte 2 (Reads.byte n (Reads.one (bytes := [s]) rfl).last)
  | auto => exact Reads.byte 3 (.pure _)

/-! ### Whole payloads -/

theorem Reads.addBooking {front title roster chairs back : List Byte} (hf : front.length = 8) (ht : title.length < 256)
    (hr : roster.length < 256) (hc : chairs.length < 256) (hb : back.length = 24) :
    Reads readBooking (front ++ textBytes title ++ textBytes roster ++ textBytes chairs ++ back) := by
  obtain ⟨a, b, c, d, e, f, g, i, rfl⟩ : ∃ a b c d e f g i, front = [a, b, c, d, e, f, g, i] := by
    match front, hf with
    | [a, b, c, d, e, f, g, i], _ => exact ⟨a, b, c, d, e, f, g, i, rfl⟩
  simp only [List.append_assoc]
  have minute : FixedLength readRoomMinute 4 := .bind .word fun _ => .bind .word fun _ => .pure _
  exact Reads.bind (bytes := [a, b]) (FixedLength.word.reads rfl) fun _ =>
    Reads.bind (bytes := [c, d, e, f]) (minute.reads rfl) fun _ =>
    Reads.bind (bytes := [g, i]) (FixedLength.word.reads rfl) fun _ =>
    (Reads.text ht).bind fun _ => (Reads.list hr).bind fun _ => (Reads.list hc).bind fun _ =>
    (FixedLength.bind .floor fun _ => .bind .mix fun _ => .bind .byte fun _ => .bind .byte fun _ => .bind .byte fun _ =>
      .bind .byte fun _ => .pure _).reads hb

theorem Reads.setSeat (seat role trim : Byte) (camera : Option (Byte × Byte)) (input : Option Byte) :
    Reads readSeatSettings
      ([seat, role, trim] ++ optBytes (fun c : Byte × Byte => [c.1, c.2]) camera ++ optBytes (fun i : Byte => [i]) input) :=
  Reads.byte _ (Reads.byte _ (Reads.byte _ (Reads.bind
    (Reads.opt (fun c => Reads.byte _ (Reads.one (bytes := [c.2]) rfl).last) camera)
    fun _ => (Reads.opt (fun _ => Reads.one rfl) input).last)))

theorem Reads.setZone (zone : Byte) (definition : Option (Byte × Byte × Byte)) :
    Reads readZone (zone :: optBytes (fun d : Byte × Byte × Byte => [d.1, d.2.1, d.2.2]) definition) :=
  Reads.byte _ (Reads.opt (fun d => Reads.byte _ (Reads.byte _ (Reads.one (bytes := [d.2.2]) rfl).last)) definition).last

theorem Reads.setName (seat : Byte) {name : List Byte} (h : name.length < 256) : Reads readName (seat :: textBytes name) :=
  Reads.byte _ (Reads.text h).last

theorem Reads.getFloor {part : Byte} (h : part.toNat ≤ 4) : Reads readFloorPart [part] := by
  refine Reads.byte _ ?_
  generalize part.toNat = n at h
  match n with
  | 0 => exact .pure _
  | 1 => exact .pure _
  | 2 => exact .pure _
  | 3 => exact .pure _
  | 4 => exact .pure _
  | n + 5 => omega

theorem Reads.setPlan (plan : Byte) {modes : List (List Byte)} (count : modes.length = 8) (h : ∀ m ∈ modes, ModeRead m) :
    Reads readPlanPart (0 :: plan :: modes.flatten) := by
  refine Reads.byte 0 (Reads.byte _ ?_)
  have k := Reads.many (read := readMode) fun m hm => (h m hm).reads
  rw [count] at k
  exact k.last

theorem Reads.setSetup {settings : List Byte} (h : settings.length = 11) : Reads readPlanPart (1 :: settings) :=
  Reads.byte 1 (FixedLength.reads
    (.bind (.many .byte 8) fun _ => .bind .byte fun _ => .bind .byte fun _ => .bind .byte fun _ => .pure _) h)

theorem Reads.clearScreen (screen : Byte) : Reads readOverride [screen, 0] :=
  Reads.byte _ (Reads.last (Reads.presence false (.pure _)))

theorem Reads.setScreen (screen : Byte) {mode : List Byte} (h : ModeRead mode) : Reads readOverride (screen :: 1 :: mode) :=
  Reads.byte _ (Reads.last (Reads.presence true h.reads.last))

/-! ### Payloads that are cut, or go on (R193) -/

/-- A payload that ends before its fields are complete, or has bytes left over after them. -/
theorem Reads.badLength {α : Type} {read : Reader α} {whole payload : List Byte} (h : Reads read whole) (ne : payload ≠ whole)
    (cut : payload <+: whole ∨ whole <+: payload) (p : Part) (work : α → Answer) :
    readThen read payload p work = refuse .badLength p := by
  rcases cut with c | ⟨rest, rfl⟩
  · exact readThen_error (h.short _ c ne)
  · obtain ⟨a, ha⟩ := h.whole rest
    cases rest with
    | nil => exact absurd (List.append_nil _) ne
    | cons b rest => exact readThen_more ha

/-! ### Payloads whose reading stops (R193) -/

/-- The reading stops at these bytes, whatever follows what was read before them. -/
theorem Reads.thenStops {α β : Type} {read : Reader α} {next : α → Reader β} {bytes rest : List Byte} (h : Reads read bytes)
    (k : ∀ a, next a rest = .error .badArg) : (read >>= next) (bytes ++ rest) = .error .badArg := by
  obtain ⟨a, ha⟩ := h.whole rest
  rw [Reader.bind_ok ha, k]

theorem bindCons {α : Type} {next : Nat → Reader α} (b : Byte) (rest : List Byte) :
    (readByte >>= next) (b :: rest) = next b.toNat rest := Reader.bind_ok (readByte_cons b rest)

theorem readPresence_stops {presence : Byte} (h : 1 < presence.toNat) (rest : List Byte) :
    readPresence (presence :: rest) = .error .badArg := by
  unfold readPresence
  rw [bindCons]
  generalize presence.toNat = n at h
  match n with
  | n + 2 => rfl

theorem readOpt_stops {α : Type} (read : Reader α) {presence : Byte} (h : 1 < presence.toNat) (rest : List Byte) :
    readOpt read (presence :: rest) = .error .badArg := Reader.bind_error (readPresence_stops h rest)

theorem ModeStops.stops {bytes : List Byte} (h : ModeStops bytes) : readMode bytes = .error .badArg := by
  cases h with
  | selector mode rest h =>
    unfold readMode
    rw [bindCons]
    generalize mode.toNat = n at h
    match n with
    | n + 4 => rfl
  | zone presence rest h => exact (bindCons 1 _).trans (Reader.bind_error (readOpt_stops _ h rest))

/-- The reading of modes stops at one of them. -/
theorem readMany_stops {α : Type} {read : Reader α} {xs : List (List Byte)} {rest : List Byte} {n : Nat} (short : xs.length < n)
    (h : ∀ x ∈ xs, Reads read x) (stop : read rest = .error .badArg) :
    readMany read n (xs.flatten ++ rest) = .error .badArg := by
  induction xs generalizing n with
  | nil =>
    obtain ⟨n, rfl⟩ : ∃ k, n = k + 1 := ⟨n - 1, by omega⟩
    exact Reader.bind_error stop
  | cons x xs ih =>
    rw [List.length_cons] at short
    obtain ⟨n, rfl⟩ : ∃ k, n = k + 1 := ⟨n - 1, by omega⟩
    rw [List.flatten_cons, List.append_assoc]
    exact (h x List.mem_cons_self).thenStops fun a =>
      Reader.bind_error (ih (by omega) fun y m => h y (List.mem_cons_of_mem _ m))

theorem readSeatSettings_stopsAtCamera (seat role trim : Byte) {presence : Byte} (h : 1 < presence.toNat) (rest : List Byte) :
    readSeatSettings (seat :: role :: trim :: presence :: rest) = .error .badArg := by
  exact (bindCons seat _).trans ((bindCons role _).trans ((bindCons trim _).trans (Reader.bind_error (readOpt_stops _ h rest))))

theorem readSeatSettings_stopsAtInput (seat role trim : Byte) (camera : Option (Byte × Byte)) {presence : Byte}
    (h : 1 < presence.toNat) (rest : List Byte) :
    readSeatSettings ([seat, role, trim] ++ optBytes (fun c : Byte × Byte => [c.1, c.2]) camera ++ presence :: rest) =
      .error .badArg := by
  rw [List.append_assoc]
  refine (bindCons seat _).trans ((bindCons role _).trans ((bindCons trim _).trans ?_))
  exact (Reads.opt (fun c : Byte × Byte => Reads.byte _ (Reads.one (bytes := [c.2]) rfl).last) camera).thenStops fun a =>
    Reader.bind_error (readOpt_stops _ h rest)

theorem readZone_stops (zone : Byte) {presence : Byte} (h : 1 < presence.toNat) (rest : List Byte) :
    readZone (zone :: presence :: rest) = .error .badArg :=
  (bindCons zone _).trans (Reader.bind_error (readOpt_stops _ h rest))

theorem readFloorPart_stops {part : Byte} (h : 4 < part.toNat) (rest : List Byte) :
    readFloorPart (part :: rest) = .error .badArg := by
  unfold readFloorPart
  rw [bindCons]
  generalize part.toNat = n at h
  match n with
  | n + 5 => rfl

theorem readPlanPart_stops {part : Byte} (h : 1 < part.toNat) (rest : List Byte) : readPlanPart (part :: rest) = .error .badArg := by
  unfold readPlanPart
  rw [bindCons]
  generalize part.toNat = n at h
  match n with
  | n + 2 => rfl

theorem readPlanPart_stopsAtMode (plan : Byte) {modes : List (List Byte)} {rest : List Byte} (short : modes.length < 8)
    (h : ∀ m ∈ modes, ModeRead m) (stop : ModeStops rest) :
    readPlanPart (0 :: plan :: modes.flatten ++ rest) = .error .badArg :=
  (bindCons 0 _).trans ((bindCons plan _).trans
    (Reader.bind_error (readMany_stops short (fun m hm => (h m hm).reads) stop.stops)))

theorem readOverride_stops (screen : Byte) {presence : Byte} (h : 1 < presence.toNat) (rest : List Byte) :
    readOverride (screen :: presence :: rest) = .error .badArg :=
  (bindCons screen _).trans (Reader.bind_error (readOpt_stops _ h rest))

theorem readOverride_stopsAtMode (screen : Byte) {rest : List Byte} (stop : ModeStops rest) :
    readOverride (screen :: 1 :: rest) = .error .badArg :=
  (bindCons screen _).trans (Reader.bind_error
    ((Reader.bind_ok (show readPresence (1 :: rest) = .ok (true, rest) from rfl)).trans (Reader.bind_error stop.stops)))

end Sys2Proof.Machine
end

