-- ==== Sys2Proof/Laws/WorkRoom.lean ====
section
/-!
SUPPORT. The work of the room scheduler, of a press event, of the chain controllers and of the exchanges: one lemma per operation.
Where an operation keeps the bound of the booking table only under a condition, its lemma names it.
-/
namespace Sys2Proof.Machine

variable {b p : Part}

/-! ### Room scheduler -/

/-- A scheduler with the clock of a safe one and no more bookings. -/
theorem Scheduler.Safe.rebook {d e : Scheduler} (h : d.Safe) (hc : e.clock = d.clock) (hn : e.completions = d.completions)
    (hb : e.bookings.length ≤ 16) : e.Safe :=
  ⟨hc ▸ h.day, hc ▸ h.minute, hc ▸ h.second, hn ▸ h.completions, hb⟩

theorem Scheduler.restart_frame (d : Scheduler) :
    d.restart.clock = d.clock ∧ d.restart.completions = d.completions ∧ d.restart.bookings = d.bookings := by
  unfold Scheduler.restart
  split <;> exact ⟨rfl, rfl, rfl⟩

theorem Scheduler.Safe.restart {d : Scheduler} (h : d.Safe) : d.restart.Safe := by
  obtain ⟨hc, hn, hb⟩ := d.restart_frame
  exact h.rebook hc hn (hb ▸ h.bookings)

theorem Work.moveClock (h : Work b p) : Work b p.moveClock := by
  unfold Part.moveClock
  refine Work.modSched (fun k => ?_) h
  have hd := k.day
  have hm := k.minute
  have hs := k.second
  refine ⟨?_, ?_, ?_, k.completions, k.bookings⟩ <;>
    (simp only [Time.next]; (repeat' split) <;> simp only <;> omega)

theorem Work.pendBroadcast {c : Chain} (h : Work b p) : Work b (p.pendBroadcast c) := by
  unfold Part.pendBroadcast
  refine Work.modChain (fun k w => ?_) h
  split
  · exact ⟨w.items, w.once, w.retries, w.pointer, w.seats, w.since, w.lanes⟩
  · exact w

theorem Work.setRate {rate : PollRate} (h : Work b p) : Work b (p.setRate rate) := by
  unfold Part.setRate
  exact Work.modChain (fun k w => ⟨w.items, w.once, w.retries, w.pointer, w.seats, w.since, w.lanes⟩)
    (Work.modChain (fun k w => ⟨w.items, w.once, w.retries, w.pointer, w.seats, w.since, w.lanes⟩) h)

theorem Mixer.Safe.forceOutput {m : Mixer} (k : m.Safe) (f : Bool) : Mixer.Safe { m with outputForced := f } :=
  ⟨k.channels, k.ducks, k.loud, k.clip, k.envelope, k.gain, k.unity⟩

theorem Work.enterStandby (h : Work b p) : Work b p.enterStandby := by
  unfold Part.enterStandby
  refine Work.setRate (Work.screensStandby (Work.directorStandby (Work.modMixer (fun k => ?_) (Work.deriveAll
    (Work.notify _ (Work.modSched (fun k => ?_) h))))))
  · exact k.forceOutput true
  · exact ⟨k.day, k.minute, k.second, k.completions, k.bookings⟩

theorem Work.wakeEvent (h : Work b p) : Work b p.wakeEvent := by
  unfold Part.wakeEvent
  split
  · refine Work.setRate (Work.recomputeScreens (Work.modMixer (fun k => ?_) (Work.deriveAll
      (Work.modSched (fun k => k.restart) (Work.notify _ (Work.modSched (fun k => ?_) h))))))
    · exact k.forceOutput false
    · exact ⟨k.day, k.minute, k.second, k.completions, k.bookings⟩
  · exact Work.modSched (fun k => k.restart) h

theorem Work.standbyExpiry (h : Work b p) : Work b p.standbyExpiry := by
  unfold Part.standbyExpiry
  (repeat' split) <;> with_reducible first
    | exact Work.modSched (fun k => k.restart) h
    | exact Work.enterStandby h
    | exact h

theorem Work.tickStandby (h : Work b p) : Work b p.tickStandby := by
  unfold Part.tickStandby
  split
  · exact Work.modSched (fun k => k.rebook rfl rfl k.bookings) h
  · exact h

theorem Work.setWarned {w : Bool} (h : Work b p) : Work b (p.setWarned w) := by
  unfold Part.setWarned
  exact Work.modSession h

theorem Work.endWarningTest (h : Work b p) : Work b p.endWarningTest := by
  unfold Part.endWarningTest
  (repeat' split) <;> with_reducible first
    | exact Work.deriveAll (Work.setWarned h)
    | exact Work.deriveAll (Work.notify _ (Work.setWarned h))
    | exact Work.deriveAll h
    | exact h

theorem Work.checkIn (h : Work b p) : Work b p.checkIn := by
  unfold Part.checkIn
  exact Work.modSession h

theorem Work.fillSession {k : Booking} (h : Work b p) : Work b (p.fillSession k) := by
  unfold Part.fillSession
  exact Work.modSched (fun w => w.rebook rfl rfl (by simpa using w.bookings)) h

theorem Work.openSession {k : Booking} (h : Work b p) : Work b (p.openSession k) := by
  unfold Part.openSession
  dsimp only
  refine Work.pendBroadcast (Work.pendBroadcast (Work.screensSessionOpen (Work.mixerSessionOpen (Work.modFloor
    (Work.openStandings (Work.endWarningTest (Work.notify _ (Work.fillSession ?_))))))))
  split
  · exact Work.wakeEvent h
  · exact h

theorem Work.emptySession {d : Session} {cause : SessionCause} (h : Work b p) : Work b (p.emptySession d cause) := by
  unfold Part.emptySession
  exact Work.modSched (fun k => Scheduler.Safe.restart (k.rebook rfl rfl k.bookings)) (Work.notify _
    (Work.modSched (fun k => k.rebook rfl rfl (le_trans (List.length_filter_le _ _) k.bookings)) h))

theorem Work.closeSession {cause : SessionCause} (h : Work b p) : Work b (p.closeSession cause) := by
  unfold Part.closeSession
  split
  · exact h
  · exact Work.pendBroadcast (Work.pendBroadcast (Work.screensSessionClose (Work.directorSessionClose (Work.mixerSessionClose
      (Work.clearPriority (Work.floorEvent (fun _ k => Work.floorSessionClose k) (Work.closeStandings
      (Work.emptySession h))))))))

theorem Work.endTest (h : Work b p) : Work b p.endTest := by
  unfold Part.endTest
  (repeat' split) <;> with_reducible first
    | exact Work.closeSession h
    | exact h

theorem Work.dropMissed (h : Work b p) : Work b p.dropMissed := by
  unfold Part.dropMissed
  dsimp only
  exact Work.foldl (fun _ _ k => Work.notify _ k) _
    (Work.modSched (fun k => k.rebook rfl rfl (le_trans (List.length_filter_le _ _) k.bookings)) h)

theorem Work.startTest (h : Work b p) : Work b p.startTest := by
  unfold Part.startTest
  (repeat' split) <;> with_reducible first
    | exact Work.openSession h
    | exact h

theorem Work.noShowTest (h : Work b p) : Work b p.noShowTest := by
  unfold Part.noShowTest
  (repeat' split) <;> with_reducible first
    | exact Work.closeSession h
    | exact h

theorem Work.bookingWork (h : Work b p) : Work b p.bookingWork := by
  unfold Part.bookingWork
  exact Work.endWarningTest (Work.noShowTest (Work.startTest (Work.dropMissed (Work.endTest h))))

theorem Work.minuteWork (h : Work b p) : Work b p.minuteWork := by
  unfold Part.minuteWork
  split
  · exact Work.bookingWork h
  · exact h

theorem Work.attemptAdhoc {s : Seat} (h : Work b p) : Work b (p.attemptAdhoc s) := by
  unfold Part.attemptAdhoc
  dsimp only
  (repeat' split)
  · exact Work.deny h
  · rename_i room
    refine Work.openSession (Work.notify _ (Work.modSched (fun k => k.rebook rfl rfl ?_) h))
    simp only [Bool.or_eq_true, decide_eq_true_eq, not_or, not_le] at room
    simp only [List.length_cons]
    omega
  · exact h

theorem Work.schedulerPress {s : Seat} {button : Button} (h : Work b p) : Work b (p.schedulerPress s button) := by
  unfold Part.schedulerPress
  dsimp only
  (repeat' split) <;> with_reducible first
    | exact Work.checkIn (Work.attemptAdhoc (Work.wakeEvent h))
    | exact Work.attemptAdhoc (Work.wakeEvent h)
    | exact Work.wakeEvent h

theorem Work.routePress {s : Seat} {button : Button} {number : Word32} (h : Work b p) :
    Work b (p.routePress s button number) := by
  unfold Part.routePress
  dsimp only
  (repeat' split) <;> with_reducible first
    | exact Work.floorEvent (fun _ k => Work.resolvePress k) h
    | exact Work.floorEvent (fun _ k => Work.chairAux k) h
    | exact Work.shareToggle h
    | exact h

theorem Work.takePress {s : Seat} {button : Button} (h : Work b p) : Work b (p.takePress s button) := by
  unfold Part.takePress
  dsimp only
  split
  · refine Work.routePress (Work.schedulerPress ?_)
    exact h.trans (.quietly rfl fun k => { k with })
  · exact h

/-! ### Chain controllers -/

theorem ChainCtl.Safe.dropSeat {s : Seat} {c : ChainCtl} (h : c.Safe) : (c.dropSeat s).Safe := by
  unfold ChainCtl.dropSeat
  have k : (c.stopTransmitting s).Safe := h.stopTransmitting
  exact ChainCtl.Safe.removeItems ⟨k.items, k.once, k.retries, k.pointer, k.seats, k.since, k.lanes⟩

theorem ChainCtl.Safe.modSeat {n : Nat} {f : ChainSeat → ChainSeat} {c : ChainCtl} (h : c.Safe)
    (hf : ∀ k, k.sincePoll ≤ 100 → (f k).sincePoll ≤ 100) : (c.modSeat n f).Safe := by
  refine ⟨h.items, h.once, h.retries, h.pointer, (updateAt_length _ _ _).trans h.seats, fun k hk => ?_, h.lanes⟩
  rcases updateAt_mem hk with hk | ⟨x, hx, e⟩
  · exact h.since k hk
  · exact e ▸ hf x (h.since x hx)

theorem Work.modChainSeat {s : Seat} {f : ChainSeat → ChainSeat} (hf : ∀ k, k.sincePoll ≤ 100 → (f k).sincePoll ≤ 100)
    (h : Work b p) : Work b (p.modChainSeat s f) := by
  unfold Part.modChainSeat
  exact Work.modChain (fun k w => w.modSeat hf) h

theorem Work.becomePresent {s : Seat} (h : Work b p) : Work b (p.becomePresent s) := by
  unfold Part.becomePresent
  exact Work.queueItem (Work.reexamine (Work.queueItem (Work.floorEvent (fun _ k => k) (Work.seatTableLink
    (Work.modChainSeat (fun _ _ => le_refl _) h)))))

theorem Work.becomeHeld {s : Seat} (h : Work b p) : Work b (p.becomeHeld s) := by
  unfold Part.becomeHeld
  exact Work.reexamine (Work.seatTableLink h)

theorem Work.becomeSilent {s : Seat} (h : Work b p) : Work b (p.becomeSilent s) := by
  unfold Part.becomeSilent
  exact Work.reexamine (Work.floorEvent (fun _ k => Work.lostSeat k) (Work.seatTableLink
    (Work.modChainSeat (fun _ _ => le_refl _) (Work.modChain (fun _ w => w.dropSeat) h))))

theorem Work.becomeAbsent {s : Seat} (h : Work b p) : Work b (p.becomeAbsent s) := by
  unfold Part.becomeAbsent
  exact Work.reexamine (Work.floorEvent (fun _ k => Work.lostSeat k) (Work.seatTableLink
    (Work.modChainSeat (fun _ k => k) (Work.modChain (fun _ w => w.dropSeat) h))))

theorem Work.becomeAbsentAll {seats : List Seat} (h : Work b p) : Work b (p.becomeAbsentAll seats) := by
  unfold Part.becomeAbsentAll
  exact Work.foldl (fun _ _ k => Work.becomeAbsent k) _ h

theorem Work.notifySeat {s : Seat} {event : SeatEvent} {link : LinkState} (h : Work b p) : Work b (p.notifySeat s event link) := by
  unfold Part.notifySeat
  exact Work.notify _ h

theorem Work.notifyChain {c : Chain} {seats : List Seat} (h : Work b p) : Work b (p.notifyChain c seats) := by
  unfold Part.notifyChain
  exact Work.notify _ h

/-- A chain controller with the lists and counts of a safe one. -/
theorem ChainCtl.Safe.alike {c d : ChainCtl} (h : c.Safe) (hi : d.items = c.items) (hr : d.retryCounter = c.retryCounter)
    (hp : d.pointer = c.pointer) (hs : d.seats = c.seats) (hl : d.lanes = c.lanes) : d.Safe :=
  ⟨hi ▸ h.items, hi ▸ h.once, hr ▸ h.retries, hp ▸ h.pointer, hs ▸ h.seats, hs ▸ h.since, hl ▸ h.lanes⟩

theorem ChainCtl.Safe.beginTraining {cause : ChainCause} {c : ChainCtl} (h : c.Safe) : (c.beginTraining cause).Safe := by
  refine ⟨h.items, h.once, h.retries, Nat.zero_lt_succ _, ?_, fun k hk => ?_, h.lanes⟩
  · exact (List.length_map _).trans h.seats
  · obtain ⟨x, hx, e⟩ := List.mem_map.1 hk
    exact e ▸ h.since x hx

theorem ChainCtl.Safe.abandon {c : ChainCtl} (h : c.Safe) : c.abandon.Safe :=
  ⟨Nat.zero_le _, List.Pairwise.nil, h.retries, h.pointer, h.seats, h.since, (h.emptyTransmitting).lanes⟩

theorem Work.train {c : Chain} {cause : ChainCause} (h : Work b p) : Work b (p.train c cause) := by
  unfold Part.train
  exact Work.notifyChain (Work.floorEvent (fun _ k => Work.floorRetrain k) (Work.modChain (fun _ w => w.beginTraining) h))

theorem Work.retrain {c : Chain} {cause : ChainCause} (h : Work b p) : Work b (p.retrain c cause) := by
  unfold Part.retrain
  dsimp only
  exact Work.train (Work.foldl (fun _ _ k => Work.becomeHeld k) _ (Work.modChain (fun _ w => w.abandon) h))

theorem Work.switchOff {c : Chain} (h : Work b p) : Work b (p.switchOff c) := by
  unfold Part.switchOff
  dsimp only
  exact Work.notifyChain (Work.floorEvent (fun _ k => k) (Work.modChain (fun _ w => w.alike rfl rfl rfl rfl rfl)
    (Work.becomeAbsentAll (Work.modChain (fun _ w => w.abandon) h))))

theorem Work.failedAttempt {c : Chain} (h : Work b p) : Work b (p.failedAttempt c) := by
  unfold Part.failedAttempt
  dsimp only
  split
  · exact Work.modChain (fun _ w => w.alike rfl rfl rfl rfl rfl) h
  · exact Work.notifyChain (Work.becomeAbsentAll (Work.modChain
      (fun _ w => (w.emptyTransmitting).alike rfl rfl rfl rfl rfl) h))

theorem ChainCtl.Safe.beginEnumeration {n : Nat} {c : ChainCtl} (h : c.Safe) : (c.beginEnumeration n).Safe :=
  h.alike rfl rfl rfl rfl rfl

theorem ChainCtl.Safe.trained {c : ChainCtl} (h : c.Safe) : c.trained.Safe := h.alike rfl rfl rfl rfl rfl

theorem Work.endAttempt {c : Chain} (h : Work b p) : Work b (p.endAttempt c) := by
  unfold Part.endAttempt
  dsimp only
  split
  · exact Work.modChain (fun _ w => w.trained) h
  · exact Work.failedAttempt h

theorem Work.attemptTimeout {c : Chain} (h : Work b p) : Work b (p.attemptTimeout c) := by
  unfold Part.attemptTimeout
  dsimp only
  split
  · exact Work.endAttempt h
  · exact h

theorem Work.pairLocked {c : Chain} {pair : Pair} (h : Work b p) : Work b (p.pairLocked c pair) := by
  unfold Part.pairLocked
  dsimp only
  (repeat' split)
  · exact Work.endAttempt (Work.modChain (fun _ w => w.alike rfl rfl rfl rfl rfl) h)
  · exact Work.modChain (fun _ w => w.alike rfl rfl rfl rfl rfl) h
  · exact h

theorem Work.lockLost {c : Chain} {pair : Pair} (h : Work b p) : Work b (p.lockLost c pair) := by
  unfold Part.lockLost
  dsimp only
  (repeat' split)
  · exact Work.modChain (fun _ w => w.alike rfl rfl rfl rfl rfl) h
  · exact Work.failedAttempt h
  · exact Work.retrain h
  · exact h
  · exact h
  · exact h

theorem Work.settleFound {s : Seat} {u : FoundUnit} (h : Work b p) : Work b (p.settleFound s u) := by
  have recorded : Work b (p.modSeat s fun r => { r with unitType := some u.unitType, serial := some u.serial, failures := 0 }) :=
    Work.modSeat (fun r k => ⟨k.trim, Nat.zero_le _, k.denialMs, k.name⟩) h
  unfold Part.settleFound
  dsimp only
  (repeat' split) <;> with_reducible first
    | exact Work.notifySeat recorded
    | exact Work.becomePresent (Work.notifySeat recorded)
    | exact Work.becomePresent recorded
    | exact recorded

theorem Work.settle {c : Chain} {overlength : Bool} (h : Work b p) : Work b (p.settle c overlength) := by
  unfold Part.settle
  dsimp only
  exact Work.pendBroadcast (Work.notifyChain (Work.floorEvent (fun _ k => k) (Work.modChain
    (fun _ w => w.alike rfl rfl rfl rfl rfl) (Work.becomeAbsentAll (Work.foldl (fun _ _ k => Work.settleFound k) _ h)))))

theorem Work.enumerated {c : Chain} {n : Nat} {answer : UnitAnswer} (h : Work b p) : Work b (p.enumerated c n answer) := by
  have recorded : Work b (p.modChain c fun k => { k with enumerated := k.enumerated ++ [⟨answer.unitType, answer.serial⟩] }) :=
    Work.modChain (fun _ w => w.alike rfl rfl rfl rfl rfl) h
  unfold Part.enumerated
  dsimp only
  (repeat' split)
  · exact Work.settle recorded
  · exact Work.settle recorded
  · exact Work.modChain (fun _ w => w.beginEnumeration) recorded

theorem Work.setChain {c : Chain} {settings : ChainSettings} (h : Work b p) : Work b (p.setChain c settings) := by
  have set : Work b (p.modChain c fun k => { k with settings := settings }) :=
    Work.modChain (fun _ w => w.alike rfl rfl rfl rfl rfl) h
  unfold Part.setChain
  dsimp only
  (repeat' split)
  · exact Work.switchOff set
  · exact Work.train set
  · exact set

theorem Work.restartChain {c : Chain} (h : Work b p) : Work b (p.restartChain c) := by
  unfold Part.restartChain
  split
  · exact Work.retrain h
  · exact Work.train h

/-! ### Exchanges -/

theorem ChainCtl.Safe.beginAddressed {sent : Sent} {beats : List Text} {n : Nat} {c : ChainCtl} (h : c.Safe) :
    (c.beginAddressed sent beats n).Safe :=
  h.alike rfl rfl rfl rfl rfl

theorem Work.beginItem {c : Chain} {i : Item} (h : Work b p) : Work b (p.beginItem c i) := by
  unfold Part.beginItem
  split
  · unfold Part.beginRefresh
    dsimp only
    exact Work.modChain (fun _ w => (w.beginAddressed).removeItems) h
  all_goals exact Work.modChain (fun _ w => w.beginAddressed) h

theorem Work.beginPoll {c : Chain} {s : Seat} (h : Work b p) : Work b (p.beginPoll c s) := by
  unfold Part.beginPoll
  dsimp only
  exact Work.modChain (fun _ w => (w.beginAddressed).modSeat fun _ _ => Nat.zero_le _) h

theorem Work.begin {c : Chain} {choice : Choice} (h : Work b p) : Work b (p.begin c choice) := by
  unfold Part.begin
  split
  · exact Work.beginItem h
  · exact Work.modChain (fun _ w => w.alike rfl rfl rfl rfl rfl) h
  · exact Work.beginPoll h

theorem Work.chooseNext {c : Chain} (h : Work b p) : Work b (p.chooseNext c) := by
  unfold Part.chooseNext
  (repeat' split) <;> with_reducible first
    | exact Work.begin h
    | exact h

theorem Work.endExchange {c : Chain} (h : Work b p) : Work b (p.endExchange c) := by
  unfold Part.endExchange
  exact Work.modChain (fun _ w => w.alike rfl rfl rfl rfl rfl) h

theorem Work.turnaroundEnded {c : Chain} (h : Work b p) : Work b (p.turnaroundEnded c) := by
  unfold Part.turnaroundEnded
  split
  · exact Work.chooseNext (Work.modChain (fun _ w => w.alike rfl rfl rfl rfl rfl) h)
  · exact h

theorem ChainCtl.Safe.broadcastSent {c : ChainCtl} (h : c.Safe) : c.broadcastSent.Safe := by
  unfold ChainCtl.broadcastSent
  split
  · exact h.alike rfl rfl rfl rfl rfl
  · exact h

/-- Items rewritten without a change of seat or kind. -/
theorem ChainCtl.Safe.modItem {s : Seat} {k : ItemKind} {f : Item → Item} {c : ChainCtl} (h : c.Safe)
    (hs : ∀ i, (f i).seat = i.seat) (hp : ∀ i, (f i).payload = i.payload) : (c.modItem s k f).Safe := by
  refine ⟨(List.length_map _).trans_le h.items, List.pairwise_map.2 (h.once.imp ?_), h.retries, h.pointer, h.seats, h.since,
    h.lanes⟩
  intro x y hxy
  split <;> split <;> simpa [hs, hp] using hxy

theorem Work.countRun {c : Chain} (h : Work b p) : Work b (p.countRun c) := by
  have counted : Work b (p.modChain c fun k => { k with failureRun := k.failureRun + 1 }) :=
    Work.modChain (fun _ w => w.alike rfl rfl rfl rfl rfl) h
  unfold Part.countRun
  dsimp only
  split
  · exact Work.retrain counted
  · exact counted

theorem countUpTo_le {bound n : Nat} (h : n ≤ bound) : countUpTo bound n ≤ bound := by
  unfold countUpTo
  split <;> omega

theorem Work.seatFailed {c : Chain} {s : Seat} (h : Work b p) : Work b (p.seatFailed c s) := by
  have counted : Work b (p.modSeat s fun r => { r with failures := countUpTo 15 r.failures }) :=
    Work.modSeat (fun r k => ⟨k.trim, countUpTo_le k.failures, k.denialMs, k.name⟩) h
  unfold Part.seatFailed
  dsimp only
  (repeat' split) <;> with_reducible first
    | exact Work.countRun (Work.becomeSilent (Work.notifySeat counted))
    | exact Work.countRun counted
    | exact counted
    | exact h

theorem Work.polled {c : Chain} {s : Seat} (h : Work b p) : Work b (p.modChain c (ChainCtl.polled s)) :=
  Work.modChain (fun _ w => ⟨w.items, w.once, w.retries, Nat.mod_lt _ (by decide), w.seats, w.since, w.lanes⟩) h

theorem Work.exchangeFailed {c : Chain} {sent : Sent} (h : Work b p) : Work b (p.exchangeFailed c sent) := by
  have ended : Work b (p.endExchange c) := Work.endExchange h
  unfold Part.exchangeFailed
  dsimp only
  split
  · exact Work.settle ended
  · exact Work.seatFailed (Work.polled ended)
  · exact Work.seatFailed (Work.modChain (fun _ w => w.modItem (fun _ => rfl) fun _ => rfl) ended)
  · exact Work.seatFailed (Work.modChain (fun _ w => w.modItem (fun _ => rfl) fun _ => rfl) ended)

theorem Work.attemptFailed {c : Chain} (h : Work b p) : Work b (p.attemptFailed c) := by
  unfold Part.attemptFailed
  split
  · exact Work.modChain (fun _ w => ⟨w.items, w.once, Nat.mod_lt _ (by decide), w.pointer, w.seats, w.since, w.lanes⟩) h
  · exact Work.exchangeFailed h
  · exact h
  · exact h
  · exact h

theorem ChainCtl.Safe.itemSent {s : Seat} {kind : ItemKind} {c : ChainCtl} (h : c.Safe) : (c.itemSent s kind).Safe := by
  unfold ChainCtl.itemSent
  split
  · exact h.modItem (fun _ => rfl) fun _ => rfl
  · exact h.removeItems

theorem ChainCtl.Safe.micAcknowledged {s : Seat} {payload : Payload} {c : ChainCtl} (h : c.Safe) :
    (c.micAcknowledged s payload).Safe := by
  unfold ChainCtl.micAcknowledged
  split <;> first
    | exact h.micTaken
    | exact h

theorem Work.seatSucceeded {c : Chain} {s : Seat} (h : Work b p) : Work b (p.seatSucceeded c s) := by
  have cleared : Work b ((p.modChain c fun k => { k with failureRun := 0 }).modSeat s fun r => { r with failures := 0 }) :=
    Work.modSeat (fun r k => ⟨k.trim, Nat.zero_le _, k.denialMs, k.name⟩) (Work.modChain (fun _ w => w.alike rfl rfl rfl rfl rfl) h)
  unfold Part.seatSucceeded
  dsimp only
  split
  · exact Work.becomePresent (Work.notifySeat cleared)
  · exact cleared

theorem Work.reportFault {s : Seat} {fault : Bool} (h : Work b p) : Work b (p.reportFault s fault) := by
  unfold Part.reportFault
  split
  · exact h
  · exact Work.notifySeat (Work.modChainSeat (fun _ k => k) h)

theorem Work.pollReport {s : Seat} {answer : UnitAnswer} (h : Work b p) : Work b (p.pollReport s answer) := by
  have heard : Work b ((p.modSeat s (SeatRec.report answer)).floorEvent (Part.voiceReport s answer.voice)) :=
    Work.floorEvent (fun _ k => Work.voiceReport k) (Work.modSeat (fun r k => ⟨k.trim, k.failures, k.denialMs, k.name⟩) h)
  have queued (q : Part) (w : Work b q) (presses : List Press) : Work b { q with presses := presses } :=
    w.trans (.quietly rfl fun k => { k with })
  unfold Part.pollReport
  dsimp only
  split
  · exact queued _ heard _
  · exact queued _ (Work.signalChanged heard) _

theorem Work.pollSucceeded {c : Chain} {s : Seat} {answer : UnitAnswer} (h : Work b p) : Work b (p.pollSucceeded c s answer) := by
  unfold Part.pollSucceeded
  exact Work.reportFault (Work.pollReport (Work.seatSucceeded (Work.polled (Work.modChainSeat (fun _ k => k) h))))

theorem Work.exchangeSucceeded {c : Chain} {sent : Sent} {answer : UnitAnswer} (h : Work b p) :
    Work b (p.exchangeSucceeded c sent answer) := by
  have ended : Work b (p.endExchange c) := Work.endExchange h
  unfold Part.exchangeSucceeded
  dsimp only
  split
  · exact Work.enumerated ended
  · exact Work.pollSucceeded ended
  · exact Work.seatSucceeded (Work.modChain (fun _ w => w.micAcknowledged.itemSent) ended)
  · exact Work.seatSucceeded (Work.modChain (fun _ w => w.micTaken.itemSent) ended)

theorem Work.attemptAnswered {c : Chain} {checkGood : Bool} {answer : UnitAnswer} (h : Work b p) :
    Work b (p.attemptAnswered c checkGood answer) := by
  unfold Part.attemptAnswered
  (repeat' split) <;> with_reducible first
    | exact Work.exchangeSucceeded h
    | exact Work.attemptFailed h
    | exact h

end Sys2Proof.Machine
end

