-- ==== Sys2Proof/Laws/TimeSafe.lean ====
section
/-!
SUPPORT. The part keeps its whole invariant: the link interface's operations, the mixer's work at a block completion, everything
that falls due, and a request whose owning block does its work.
-/
namespace Sys2Proof.Machine

variable {p : Part}

/-- The invariant of the part: that of the link interface, of the floor and of the other blocks. -/
structure Part.AllSafe (p : Part) : Prop where
  link : p.link.Safe
  floor : p.floor.Safe
  blocks : p.BlocksSafe

/-! ### The link interface -/

/-- A link with other contents within the same bounds, and with statistics that have counted. -/
theorem Link.Safe.alike {l m : Link} (h : l.Safe) (rx : m.rx.fits) (buffer : m.buffer.length ≤ Config.bufferSize)
    (notices : m.notices.length ≤ l.notices.length) (lost : m.lost ≤ 255) (mask : m.mask = l.mask)
    (stats : ∀ n ∈ m.stats.counters, n ≤ 65535) (high : m.highWater = l.highWater) : m.Safe :=
  ⟨rx, buffer, notices.trans h.notices, lost, mask ▸ h.started, mask ▸ h.kinds, stats, high ▸ h.highWater⟩

theorem countStat_le {n : Nat} (h : n ≤ 65535) : countStat n ≤ 65535 := countUpTo_le h

/-- Statistics of which each one is as before or has counted once. -/
theorem Stats.counted {k m : Stats} (h : ∀ n ∈ k.counters, n ≤ 65535)
    (e : List.Forall₂ (fun x y => y = x ∨ y = countStat x) k.counters m.counters) : ∀ n ∈ m.counters, n ≤ 65535 := by
  generalize k.counters = xs at h e
  generalize m.counters = ys at e
  induction e with
  | nil => exact h
  | cons q _ ih =>
    intro n mn
    rcases List.mem_cons.1 mn with rfl | mn
    · rcases q with q | q
      · exact q ▸ h _ List.mem_cons_self
      · exact q ▸ countStat_le (h _ List.mem_cons_self)
    · exact ih (fun n mn => h n (List.mem_cons_of_mem _ mn)) n mn

theorem Link.notify_safe {l : Link} (h : l.Safe) (n : Notice) : (l.notify n).Safe := by
  unfold Link.notify
  (repeat' split)
  · rename_i room
    refine ⟨h.rx, h.buffer, ?_, h.lost, h.started, h.kinds, h.stats, ?_⟩
    · simp only [List.length_append, List.length_singleton]
      omega
    · have := h.highWater
      simp only
      omega
  · refine ⟨h.rx, h.buffer, h.notices, countUpTo_le h.lost, h.started, h.kinds, ?_, h.highWater⟩
    exact Stats.counted h.stats (by simp [Stats.counters, countStat])
  · exact h

theorem Link.notifyAll_safe (ns : List Notice) {l : Link} (h : l.Safe) : (l.notifyAll ns).Safe := by
  induction ns generalizing l with
  | nil => exact h
  | cons n ns ih => exact ih (Link.notify_safe h n)

theorem Link.offer_safe {l : Link} (h : l.Safe) (f : Frame) : (l.offer f).Safe := by
  unfold Link.offer Link.modStats
  split
  · refine h.alike h.rx ?_ (le_refl _) h.lost rfl (Stats.counted h.stats (by simp [Stats.counters])) rfl
    simp only [List.length_append, List.length_singleton]
    omega
  · exact h.alike h.rx h.buffer (le_refl _) h.lost rfl (Stats.counted h.stats (by simp [Stats.counters])) rfl

theorem Link.takeCharacter_safe {l : Link} (h : l.Safe) (char : Byte) : (l.takeCharacter char).Safe := by
  unfold Link.takeCharacter
  split
  · split
    · exact h.alike trivial h.buffer (le_refl _) h.lost rfl h.stats rfl
    · exact h.alike h.rx h.buffer (le_refl _) h.lost rfl (Stats.counted h.stats (by simp [Stats.counters, Link.modStats])) rfl
  · split
    · rename_i short
      exact h.alike ⟨short, by simp⟩ h.buffer (le_refl _) h.lost rfl h.stats rfl
    · exact h.alike trivial h.buffer (le_refl _) h.lost rfl (Stats.counted h.stats (by simp [Stats.counters, Link.modStats])) rfl
  · rename_i n got body
    have fits := h.rx
    rw [body] at fits
    dsimp only
    split
    · rename_i more
      exact h.alike ⟨fits.1, more⟩ h.buffer (le_refl _) h.lost rfl h.stats rfl
    · have hunting : Link.Safe { l with rx := .hunt } := h.alike trivial h.buffer (le_refl _) h.lost rfl h.stats rfl
      unfold Link.complete
      dsimp only
      split
      · exact Link.offer_safe hunting _
      · exact hunting.alike trivial h.buffer (le_refl _) h.lost rfl
          (Stats.counted h.stats (by simp [Stats.counters, Link.modStats])) rfl

theorem Link.receive_safe {l : Link} (h : l.Safe) (char : Byte) (stopGood : Bool) : (l.receive char stopGood).Safe := by
  have heard : Link.Safe { l with rxIdle := 0 } := h.alike h.rx h.buffer (le_refl _) h.lost rfl h.stats rfl
  unfold Link.receive
  dsimp only
  split
  · exact Link.takeCharacter_safe heard char
  · unfold Link.dropCharacter
    split
    · exact heard.alike h.rx h.buffer (le_refl _) h.lost rfl (Stats.counted h.stats (by simp [Stats.counters, Link.modStats])) rfl
    · exact heard.alike trivial h.buffer (le_refl _) h.lost rfl (Stats.counted h.stats (by simp [Stats.counters, Link.modStats])) rfl
    · exact heard.alike trivial h.buffer (le_refl _) h.lost rfl (Stats.counted h.stats (by simp [Stats.counters, Link.modStats])) rfl

theorem Link.timeout_safe {l : Link} (h : l.Safe) : l.timeout.Safe := by
  unfold Link.timeout
  split
  · exact h.alike trivial h.buffer (le_refl _) h.lost rfl (Stats.counted h.stats (by simp [Stats.counters, Link.modStats])) rfl
  · exact h

theorem Link.countIdle_safe {l : Link} (h : l.Safe) : l.countIdle.Safe := by
  unfold Link.countIdle
  split
  · exact h.alike h.rx h.buffer (le_refl _) h.lost rfl h.stats rfl
  · exact h

theorem Link.transmitNotice_safe {l : Link} (h : l.Safe) : l.transmitNotice.Safe := by
  unfold Link.transmitNotice
  split
  · rename_i n rest waiting
    split
    · exact h
    · refine h.alike h.rx h.buffer ?_ (Nat.zero_le _) rfl h.stats rfl
      rw [waiting]
      exact Nat.le_succ _
  · exact h

theorem Link.transmit_safe {l : Link} (h : l.Safe) : l.transmit.Safe := by
  unfold Link.transmit
  (repeat' split)
  · exact Link.transmitNotice_safe h
  · exact h.alike h.rx h.buffer (le_refl _) h.lost rfl h.stats rfl
  · exact Link.transmitNotice_safe h
  · exact h

theorem Link.replySent_safe {l : Link} (h : l.Safe) : l.replySent.Safe :=
  h.alike h.rx h.buffer (List.length_map _).le h.lost rfl
    (Stats.counted h.stats (by simp [Stats.counters, Link.modStats, Link.replySent])) rfl

theorem Link.noticeSent_safe {l : Link} (h : l.Safe) : l.noticeSent.Safe :=
  h.alike h.rx h.buffer (le_refl _) h.lost rfl
    (Stats.counted h.stats (by simp [Stats.counters, Link.modStats, Link.noticeSent])) rfl

/-! ### The part -/

/-- Work of the blocks that keeps the floor's invariant. -/
theorem Part.AllSafe.work {q : Part} (h : p.AllSafe) (w : Work p q) (floor : q.floor.Safe) : q.AllSafe := by
  obtain ⟨ns, e⟩ := w.notes
  exact ⟨e ▸ Link.notifyAll_safe ns h.link, floor, w.safe h.blocks⟩

theorem Part.AllSafe.modLink {f : Link → Link} (h : p.AllSafe) (hf : (f p.link).Safe) : (p.modLink f).AllSafe :=
  ⟨hf, h.floor, { h.blocks with }⟩

/-- A part with another record of what has fallen due, or of presses waiting. -/
theorem Part.AllSafe.requeue {q : Part} (h : p.AllSafe) (link : q.link = p.link) (floor : q.floor = p.floor)
    (blocks : p.BlocksSafe → q.BlocksSafe) : q.AllSafe :=
  ⟨link ▸ h.link, floor ▸ h.floor, blocks h.blocks⟩

/-! ### A block completion -/

theorem envelopeStep_le {attack release envelope mean : Nat} (he : envelope ≤ 32767) (hm : mean ≤ 32767) :
    envelopeStep attack release envelope mean ≤ 32767 := by
  unfold envelopeStep
  split
  · have : (mean - envelope) / 2 ^ attack ≤ mean - envelope := Nat.div_le_self _ _
    omega
  · exact (Nat.sub_le _ _).trans he

/-- The measured channels of a completion: no envelope above the range, and no trim above 16. -/
theorem Part.measure_fits {audio : List LaneAudio} {changedAt : List Nat} {ch : Nat} {c : Channel} (h : p.BlocksSafe)
    (e : c.envelope ≤ 32767) :
    (p.measure audio changedAt ch c).envelope ≤ 32767 ∧ (p.measure audio changedAt ch c).trim ≤ 16 := by
  refine ⟨envelopeStep_le e (min_le_left _ _), ?_⟩
  show (p.seat c.seat).trim ≤ 16
  have m : c.seat.val < p.seats.length := by
    rw [h.seatCount]
    exact c.seat.isLt
  unfold Part.seat
  rw [List.getD_eq_getElem _ _ m]
  exact (h.seats _ (List.getElem_mem m)).trim

/-- The sum of a list of quotients by one divisor is at most the quotient of the sum. -/
theorem sum_div_le {α : Type} (f : α → Nat) (d : Nat) (xs : List α) :
    (xs.map fun x => f x / d).sum ≤ (xs.map f).sum / d := by
  induction xs with
  | nil => simp
  | cons x xs ih =>
    simp only [List.map_cons, List.sum_cons]
    exact (Nat.add_le_add_left ih _).trans Nat.div_add_div_le_add_div

/-- Numbers that differ in a list of numbered things: only one of them is the number given. -/
theorem sum_one_le {α : Type} (n v : Nat) (xs : List (Nat × α)) (once : (xs.map Prod.fst).Nodup) :
    (xs.map fun x => if n = x.1 then v else 0).sum ≤ v := by
  induction xs with
  | nil => simp
  | cons x xs ih =>
    simp only [List.map_cons, List.nodup_cons] at once
    simp only [List.map_cons, List.sum_cons]
    split
    · rename_i q
      have none : (xs.map fun y => if n = y.1 then v else 0) = xs.map fun _ => 0 := by
        refine List.map_congr_left fun y my => if_neg fun k => once.1 ?_
        exact List.mem_map.2 ⟨y, my, k.symm.trans q⟩
      rw [none]
      simp
    · rw [Nat.zero_add]
      exact ih once.2

/-- The share gains of any channels with different numbers add up to at most unity (R109, R110). -/
theorem shareGain_unity (gate : Nat) (holder : Option Nat) (channels : List (Nat × Channel))
    (once : (channels.map Prod.fst).Nodup) :
    (channels.map fun x => shareGain gate holder channels x.1 x.2).sum ≤ 32768 := by
  unfold shareGain
  by_cases above : channels.any (fun x => gate ≤ x.2.envelope) = true
  · simp only [if_pos above]
    refine (sum_div_le (fun x : Nat × Channel => 32768 * x.2.weight) _ channels).trans ?_
    rw [List.sum_map_mul_left]
    exact Nat.div_le_of_le_mul (Nat.mul_comm _ _).le
  · simp only [if_neg above]
    cases holder with
    | some n => exact sum_one_le n 32768 channels once
    | none =>
      simp only [List.map_const', List.sum_replicate, smul_eq_mul]
      rw [Nat.mul_comm]
      exact Nat.div_mul_le_self _ _

/-- The OPEN records of a list of channel records, with their numbers. -/
abbrev openOf (xs : List (Option Channel × Nat)) : List (Nat × Channel) :=
  xs.filterMap fun (r, ch) => r.map fun c => (ch, c)

theorem openOf_once {xs : List (Option Channel × Nat)} (once : (xs.map Prod.snd).Nodup) : ((openOf xs).map Prod.fst).Nodup := by
  refine once.sublist ?_
  induction xs with
  | nil => exact List.Sublist.refl _
  | cons x xs ih =>
    rw [List.map_cons, List.nodup_cons] at once
    obtain ⟨r, ch⟩ := x
    cases r with
    | none => exact (ih once.2).cons _
    | some c => exact (ih once.2).cons_cons _

theorem openOf_sum (g : Nat → Channel → Channel) (xs : List (Option Channel × Nat)) :
    (xs.map fun x => shareOf (x.1.map (g x.2))).sum = ((openOf xs).map fun x => (g x.1 x.2).share).sum := by
  induction xs with
  | nil => rfl
  | cons x xs ih =>
    obtain ⟨r, ch⟩ := x
    cases r with
    | none => simpa [shareOf] using ih
    | some c => simpa [shareOf] using ih

theorem zipIdx_numbers {α : Type} (xs : List α) : (xs.zipIdx.map Prod.snd).Nodup := by
  rw [List.zipIdx_map_snd]
  exact List.nodup_range'

/-- The gains of the next block, computed from measured channels (R109 to R112). -/
theorem Mixer.Safe.install {m : Mixer} (count : m.channels.length = 12) (ducks : m.ducks.length = 64) (loud : m.loud.length = 64)
    (clip : m.clip ≤ 65535) (fits : ∀ c, some c ∈ m.channels → c.envelope ≤ 32767 ∧ c.trim ≤ 16) : m.install.Safe := by
  have made : ∀ c, some c ∈ m.install.channels → ∃ d ch, some d ∈ m.channels ∧ c.envelope = d.envelope ∧
      c.gain = c.share * d.trim / 16 ∧ c.share = shareGain m.params.gate m.holder m.openChannels ch d := by
    intro c mc
    obtain ⟨⟨r, ch⟩, mr, e⟩ := List.mem_map.1 mc
    cases r with
    | none => cases e
    | some d =>
      have md : some d ∈ m.channels := (List.mem_zipIdx' mr).2 ▸ List.getElem_mem _
      simp only [Option.map_some, Option.some.injEq] at e
      subst e
      exact ⟨d, ch, md, rfl, rfl, rfl⟩
  refine ⟨?_, ducks, loud, clip, ?_, ?_, ?_⟩
  · simpa [Mixer.install] using count
  · intro c mc
    obtain ⟨d, _, md, e, _⟩ := made c mc
    exact e ▸ (fits d md).1
  · intro c mc
    obtain ⟨d, _, md, _, e, _⟩ := made c mc
    have trim := (fits d md).2
    rw [e]
    have : c.share * d.trim ≤ c.share * 16 := Nat.mul_le_mul_left _ trim
    omega
  · rw [Mixer.totalShare_eq]
    have total := shareGain_unity m.params.gate m.holder m.openChannels (openOf_once (zipIdx_numbers _))
    have shares := openOf_sum (fun ch c => { c with share := shareGain m.params.gate m.holder m.openChannels ch c }) m.channels.zipIdx
    replace total := shares.le.trans total
    unfold Mixer.install
    dsimp only
    rw [List.map_map]
    refine le_of_eq_of_le (congrArg List.sum (List.map_congr_left fun x _ => ?_)) total
    obtain ⟨r, ch⟩ := x
    cases r <;> rfl

theorem Work.mixBlock {b : Part} {audio : List LaneAudio} {changedAt : List Nat} (h : Work b p) :
    Work b (p.mixBlock audio changedAt) := by
  refine h.trans (.quietly rfl fun k => { k with mixer := ?_ })
  refine Mixer.Safe.install ?_ k.mixer.ducks k.mixer.loud ?_ ?_
  · simpa using k.mixer.channels
  · show (if _ then countUpTo 65535 p.mixer.clip else p.mixer.clip) ≤ 65535
    split
    · exact countUpTo_le k.mixer.clip
    · exact k.mixer.clip
  · intro c mc
    obtain ⟨⟨r, ch⟩, mr, e⟩ := List.mem_map.1 mc
    cases r with
    | none => cases e
    | some d =>
      simp only [Option.map_some, Option.some.injEq] at e
      subst e
      have md : some d ∈ p.mixer.channels := (List.mem_zipIdx' mr).2 ▸ List.getElem_mem _
      exact Part.measure_fits k (k.mixer.envelope d md)

theorem ChainCtl.Safe.countMs {c : ChainCtl} (h : c.Safe) : c.countMs.Safe := by
  refine ⟨h.items, h.once, h.retries, h.pointer, ?_, ?_, h.lanes⟩
  · simpa [ChainCtl.countMs] using h.seats
  · intro k mk
    obtain ⟨x, mx, rfl⟩ := List.mem_map.1 mk
    exact countUpTo_le (h.since x mx)

theorem Part.AllSafe.completeBlock {audio : List LaneAudio} {changedAt : List Nat} (h : p.AllSafe) :
    (p.completeBlock audio changedAt).AllSafe := by
  have mixed : (p.mixBlock audio changedAt).AllSafe := h.work (Work.mixBlock (.refl p)) h.floor
  unfold Part.completeBlock
  dsimp only
  refine ⟨Link.countIdle_safe mixed.link, mixed.floor, ?_, ?_, mixed.blocks.zones, ?_, mixed.blocks.mixer, ?_,
    mixed.blocks.screens, mixed.blocks.chainA.countMs, mixed.blocks.chainB.countMs⟩
  · exact (List.length_map _).trans mixed.blocks.seatCount
  · intro r mr
    obtain ⟨x, mx, rfl⟩ := List.mem_map.1 mr
    have k := mixed.blocks.seats x mx
    unfold SeatRec.countDenial
    split
    · exact ⟨k.trim, k.failures, (Nat.sub_le _ _).trans k.denialMs, k.name⟩
    · exact k
  · have k := mixed.blocks.sched
    exact ⟨k.day, k.minute, k.second, Nat.mod_lt _ (by decide), k.bookings⟩
  · exact ⟨(congrArg List.length (Director.count_current _ _)).trans mixed.blocks.director.current⟩

/-! ### What falls due -/

theorem Part.AllSafe.pushJob {j : TickJob} (h : p.AllSafe) : (p.pushJob j).AllSafe := h.requeue rfl rfl fun k => { k with }

theorem Part.AllSafe.runJob {j : TickJob} (h : p.AllSafe) : (p.runJob j).AllSafe := by
  have entry (s : Seat) : (p.tickEntry s).AllSafe := h.work (Work.tickEntry (.refl p)) (tickEntry_safe h.floor)
  have silence (s : Seat) : (p.tickSilence s).AllSafe := h.work (Work.tickSilence (.refl p)) (tickSilence_safe h.floor)
  have grace (n : Slot) : (p.countGrace n).AllSafe := h.work (Work.countGrace (.refl p)) (h.floor.of_eq (by simp))
  have standby : p.tickStandby.AllSafe := h.work (Work.tickStandby (.refl p)) (h.floor.of_eq (by simp))
  unfold Part.runJob
  dsimp only
  split
  · split
    · exact (entry _).pushJob
    · exact entry _
  · exact h.work (Work.expire (.refl p)) (expire_safe h.floor)
  · exact h.work (Work.markPresent (.refl p)) (h.floor.of_eq (by simp))
  · split
    · exact (silence _).pushJob
    · exact silence _
  · exact h.work (Work.silenceClose (.refl p)) (silenceClose_safe h.floor)
  · exact h.work (Work.endFloorEvent (Work.autoAdvance (.refl p))) (endFloorEvent_safe (autoAdvance_safe h.floor))
  · split
    · exact (grace _).pushJob
    · exact grace _
  · exact h.work (Work.graceExpiry (.refl p)) (h.floor.of_eq (by simp))
  · split
    · exact standby.pushJob
    · exact standby
  · exact h.work (Work.standbyExpiry (.refl p)) (h.floor.of_eq (by simp))

theorem Part.AllSafe.runJobs {stop : Bool} (h : p.AllSafe) : (p.runJobs stop).AllSafe := by
  unfold Part.runJobs
  generalize 2 * p.tickJobs.length = n
  induction n generalizing p with
  | zero => exact h
  | succ n ih =>
    unfold Part.runJobsWith
    (repeat' split)
    · exact h
    · exact h
    · exact ih (Part.AllSafe.runJob (h.requeue rfl rfl fun k => { k with }))

theorem Part.AllSafe.startTick {moved : Bool} (h : p.AllSafe) : (p.startTick moved).AllSafe := by
  have shown : (if moved then p else p.moveClock).AllSafe := by
    split
    · exact h
    · exact h.work (Work.moveClock (.refl p)) (h.floor.of_eq (by simp))
  exact shown.requeue rfl rfl fun k => { k with }

theorem Part.AllSafe.takeOwed {o : Owed} (h : p.AllSafe) : (p.takeOwed o).AllSafe := by
  unfold Part.takeOwed
  split
  · exact h.work (Work.endDenial (.refl p)) (h.floor.of_eq (by simp))
  · exact h.work (Work.settleEnded (.refl p)) (h.floor.of_eq (by simp))
  · exact h.work (Work.switchDue (.refl p)) (h.floor.of_eq (by simp))
  · exact h.work (Work.idleDue (.refl p)) (h.floor.of_eq (by simp))
  · exact h.work (Work.attemptTimeout (.refl p)) (attemptTimeout_safe h.floor)
  · exact h.modLink (Link.timeout_safe h.link)
  · exact h.startTick.runJobs
  · exact h.work (Work.minuteWork (.refl p)) (minuteWork_safe h.floor)
  · exact h.work (Work.closeSession (.refl p)) (closeSession_safe h.floor)

theorem Part.AllSafe.catchUp (h : p.AllSafe) : p.catchUp.AllSafe := by
  have taken (os : List Owed) (q : Part) (k : q.AllSafe) : (os.foldl Part.takeOwed q).AllSafe := by
    induction os generalizing q with
    | nil => exact k
    | cons o os ih => exact ih _ k.takeOwed
  unfold Part.catchUp
  exact taken _ _ (h.runJobs.requeue rfl rfl fun k => { k with })

/-- A command of a running part, whose own work is given. -/
theorem Part.AllSafe.whenRunning {f : Part → Part} (hf : ∀ q : Part, q.AllSafe → (f q).AllSafe) (h : p.AllSafe) :
    (Part.whenRunning f p).AllSafe := by
  unfold Part.whenRunning
  split
  · exact hf _ h.catchUp
  · exact h

theorem Part.AllSafe.takeFirst {o : Owed} (h : p.AllSafe) : (Part.takeFirst o p).AllSafe := by
  unfold Part.takeFirst
  (repeat' split)
  · exact Part.AllSafe.takeOwed (h.requeue rfl rfl fun k => { k with })
  · exact h.catchUp
  · exact h

theorem Part.AllSafe.takeJob {j : TickJob} (h : p.AllSafe) : (Part.takeJob j p).AllSafe := by
  unfold Part.takeJob
  (repeat' split)
  · have popped : Part.AllSafe { p with tickJobs := p.tickJobs.tail } := h.requeue rfl rfl fun k => { k with }
    exact popped.runJob.runJobs
  · exact h.catchUp
  · exact h

theorem Part.AllSafe.secondTick (h : p.AllSafe) : p.secondTick.AllSafe := by
  unfold Part.secondTick
  (repeat' split)
  · have popped (os : List Owed) : Part.AllSafe { p with owed := os } := h.requeue rfl rfl fun k => { k with }
    exact (popped _).startTick.runJobs
  · exact h.catchUp
  · exact h

theorem Part.AllSafe.takeBoundary {o : Owed} (h : p.AllSafe) : (Part.takeBoundary o p).AllSafe := by
  have owed (os : List Owed) : Part.AllSafe { p with owed := os } := h.requeue rfl rfl fun k => { k with }
  unfold Part.takeBoundary
  split
  · split
    · split
      · refine Part.AllSafe.takeOwed ?_
        split
        · exact owed _
        · exact (owed _).work (Work.moveClock (.refl _)) (h.floor.of_eq (by simp))
      · exact h.catchUp
    · split
      · exact (owed _).takeOwed
      · exact h.catchUp
    · exact h.catchUp
  · exact h

/-! ### A request -/

/-- A request whose owning block keeps the invariant. -/
theorem Part.AllSafe.request {f : Frame} {owner : List Byte → Part → Answer}
    (ho : ∀ payload q, q.AllSafe → (owner payload q).part.AllSafe) (h : p.AllSafe) : (Part.request f owner p).AllSafe := by
  have begun (q : Part) (k : q.AllSafe) : (q.modLink fun l => { l with inRequest := true }).AllSafe :=
    k.modLink (k.link.alike k.link.rx k.link.buffer (le_refl _) k.link.lost rfl k.link.stats rfl)
  have ended (q : Part) (r : Reply) (k : q.AllSafe) :
      (q.modLink fun l => { l with inRequest := false, reply := some r }).AllSafe :=
    k.modLink (k.link.alike k.link.rx k.link.buffer (le_refl _) k.link.lost rfl k.link.stats rfl)
  have processed (q : Part) (k : q.AllSafe) : (q.process f owner).AllSafe := by
    have answered := ho f.payload _ (begun q k)
    unfold Part.process
    dsimp only
    split
    · exact ended _ _ (answered.work (Work.wakeEvent (.refl _)) (answered.floor.of_eq (by simp)))
    · exact ended _ _ answered
  refine Part.AllSafe.whenRunning (fun q k => ?_) h
  (repeat' split)
  · refine processed _ (k.modLink (k.link.alike k.link.rx k.link.buffer (le_refl _) k.link.lost rfl
      (Stats.counted k.link.stats ?_) rfl))
    simp [Stats.counters, Link.modStats]
  · rename_i g rest buffer _
    refine processed _ (k.modLink (k.link.alike k.link.rx ?_ (le_refl _) k.link.lost rfl k.link.stats rfl))
    have := k.link.buffer
    rw [buffer] at this
    exact (Nat.le_succ _).trans this
  · exact k.modLink (Link.offer_safe k.link f)
  · exact k.modLink (Link.offer_safe k.link f)

end Sys2Proof.Machine
end

