-- ==== Sys2Proof/Laws/RequestSafe.lean ====
section
/-!
SUPPORT. The part keeps its invariant under the work of every owning block on a request: one lemma per request whose work changes
something.
-/
namespace Sys2Proof.Machine

variable {p : Part}

/-- An answer after which the part keeps its invariant. -/
abbrev Answer.Safe (a : Answer) : Prop := a.part.AllSafe

theorem ok_safe {fields : List Byte} {q : Part} (h : q.AllSafe) : (ok fields q).Safe := h

theorem okWake_safe {fields : List Byte} {q : Part} (h : q.AllSafe) : (okWake fields q).Safe := h

theorem readThen_safe {α : Type} {read : Reader α} {payload : List Byte} {work : α → Answer} (h : p.AllSafe)
    (hw : ∀ a, readAll read payload = .ok a → (work a).Safe) : (readThen read payload p work).Safe := by
  unfold readThen
  split
  · exact hw _ ‹_›
  · exact h

theorem checkThen_safe {α : Type} {value : Option α} {work : α → Answer} (h : p.AllSafe) (hw : ∀ a, value = some a → (work a).Safe) :
    (checkThen value p work).Safe := by
  unfold checkThen
  split
  · exact hw _ rfl
  · exact h

theorem seatInSession_safe {payload : List Byte} {work : Seat → Answer} (h : p.AllSafe) (hw : ∀ s, (work s).Safe) :
    (seatInSession payload p work).Safe := by
  unfold seatInSession
  refine readThen_safe h fun _ _ => checkThen_safe h fun _ _ => ?_
  split
  · exact hw _
  · exact h

theorem inSession_safe {payload : List Byte} {work : Answer} (h : p.AllSafe) (hw : work.Safe) :
    (inSession payload p work).Safe := by
  unfold inSession
  refine readThen_safe h fun _ _ => ?_
  split
  · exact hw
  · exact h

/-! ### What the readers admit -/

theorem within_some {low high n m : Nat} (h : within low high n = some m) : low ≤ m ∧ m ≤ high := by
  unfold within at h
  split at h
  · simp_all
  · cases h

/-- A value that a reader gives with `return` after reading. -/
theorem readAll_some {α : Type} {read : Reader α} {payload : List Byte} {a : α} (h : readAll read payload = .ok a) :
    read payload = .ok (a, []) := by
  unfold readAll at h
  split at h
  · cases h
    assumption
  · cases h
  · cases h

/-- A property of everything that a reader can give. -/
def Reader.Gives {α : Type} (read : Reader α) (P : α → Prop) : Prop := ∀ bytes a rest, read bytes = .ok (a, rest) → P a

theorem Reader.Gives.bind {α β : Type} {read : Reader α} {next : α → Reader β} {P : β → Prop} (h : ∀ a, (next a).Gives P) :
    (read >>= next).Gives P := by
  intro bytes b rest e
  change Except.bind (read bytes) (fun x => next x.1 x.2) = _ at e
  cases q : read bytes with
  | error _ => rw [q] at e; cases e
  | ok x => rw [q] at e; exact h _ _ _ _ e

theorem Reader.Gives.bindOf {α β : Type} {read : Reader α} {next : α → Reader β} {P : β → Prop} {Q : α → Prop}
    (k : read.Gives Q) (h : ∀ a, Q a → (next a).Gives P) : (read >>= next).Gives P := by
  intro bytes b rest e
  change Except.bind (read bytes) (fun x => next x.1 x.2) = _ at e
  cases q : read bytes with
  | error _ => rw [q] at e; cases e
  | ok x => rw [q] at e; exact h _ (k _ _ _ q) _ _ _ e

theorem Reader.Gives.pure {α : Type} {a : α} {P : α → Prop} (h : P a) : (Pure.pure a : Reader α).Gives P := by
  intro bytes b rest e
  change Except.ok (a, bytes) = _ at e
  cases e
  exact h

theorem Reader.Gives.throw {α : Type} {e : Status} {P : α → Prop} : (throw e : Reader α).Gives P := by
  intro bytes b rest h
  change Except.error e = _ at h
  cases h

theorem Reader.Gives.all {α : Type} {read : Reader α} {P : α → Prop} (h : read.Gives P) {payload : List Byte} {a : α}
    (e : readAll read payload = .ok a) : P a := h _ _ _ (readAll_some e)

/-- A property of every value that an optional result can hold. -/
abbrev Whenever {α : Type} (P : α → Prop) (o : Option α) : Prop := ∀ a, o = some a → P a

theorem readSeatSettings_trim : readSeatSettings.Gives (Whenever fun x => x.2.trim ≤ 16) := by
  unfold readSeatSettings
  refine .bind fun _ => .bind fun _ => .bind fun _ => .bind fun _ => .bind fun _ => .pure fun x e => ?_
  simp only [bind, Option.bind_eq_some_iff] at e
  obtain ⟨_, _, _, _, n, trim, _, _, _, _, e⟩ := e
  cases e
  exact (within_some trim).2

theorem readName_length : readName.Gives (Whenever fun x => x.2.length ≤ 24) := by
  unfold readName
  refine .bind fun _ => .bind fun _ => .pure fun x e => ?_
  simp only [bind, Option.bind_eq_some_iff] at e
  obtain ⟨_, _, _, name, e⟩ := e
  cases e
  unfold text? at name
  split at name
  · cases name
    simp_all
  · cases name

theorem every_length {α β : Type} {check : α → Option β} {xs : List α} {ys : List β} (h : every check xs = some ys) :
    ys.length = xs.length := by
  induction xs generalizing ys with
  | nil => cases h; rfl
  | cons x xs ih =>
    unfold every at h
    simp only [bind, Option.bind_eq_some_iff] at h
    obtain ⟨_, _, more, k, e⟩ := h
    cases e
    simp [ih k]

theorem readMany_length {α : Type} (read : Reader α) (n : Nat) : (readMany read n).Gives fun xs => xs.length = n := by
  induction n with
  | zero => exact .pure rfl
  | succ n ih =>
    unfold readMany
    exact .bind fun _ => .bindOf ih fun rest k => .pure (by simp [k])

/-- Screen classes come for eight screens. -/
def PlanPart.Whole : PlanPart → Prop
  | .plan _ _ => True
  | .setup classes _ _ _ => classes.length = 8

theorem readPlanPart_whole : readPlanPart.Gives (Whenever PlanPart.Whole) := by
  unfold readPlanPart
  refine .bind fun n => ?_
  split
  · refine .bind fun _ => .bind fun _ => .pure fun x e => ?_
    simp only [bind, Option.bind_eq_some_iff] at e
    obtain ⟨_, _, _, _, e⟩ := e
    cases e
    trivial
  · refine .bindOf (readMany_length readByte 8) fun _ k => .bind fun _ => .bind fun _ => .bind fun _ => .pure fun x e => ?_
    simp only [bind, Option.bind_eq_some_iff] at e
    obtain ⟨classes, whole, _, _, _, _, _, _, e⟩ := e
    cases e
    exact (every_length whole).trans k
  · exact .throw

/-! ### The link interface -/

theorem answerGetStats_safe (payload : List Byte) (h : p.AllSafe) : (answerGetStats payload p).Safe := by
  refine readThen_safe h fun _ _ => checkThen_safe h fun clear _ => ?_
  show (if clear then _ else p : Part).AllSafe
  split
  · refine h.modLink ⟨h.link.rx, h.link.buffer, h.link.notices, h.link.lost, h.link.started, h.link.kinds, ?_, Nat.zero_le _⟩
    exact (by decide : ∀ n ∈ Stats.reset.counters, n ≤ 65535)
  · exact h

theorem answerSetNotices_safe (payload : List Byte) (h : p.AllSafe) : (answerSetNotices payload p).Safe := by
  refine readThen_safe h fun mask _ => ?_
  split
  · rename_i low
    refine okWake_safe (h.modLink ⟨h.link.rx, h.link.buffer, h.link.notices, h.link.lost, ?_, ?_, h.link.stats, h.link.highWater⟩)
    · simp
    · show (BitVec.ofNat 32 mask ||| 1).toNat < 0x40000
      rw [BitVec.toNat_or, BitVec.toNat_ofNat, Nat.mod_eq_of_lt (by omega)]
      exact Nat.or_lt_two_pow (n := 18) low (by decide)
  · exact h

/-! ### The room scheduler -/

theorem Work.setClock {b : Part} {t : Time} (day : t.day ≤ 65535) (minute : t.minute ≤ 1439) (second : t.second ≤ 59)
    (h : Work b p) : Work b (p.setClock t) :=
  Work.modSched (fun k => ⟨day, minute, second, Nat.zero_lt_succ _, k.bookings⟩) h

theorem answerSetClock_safe (payload : List Byte) (h : p.AllSafe) : (answerSetClock payload p).Safe := by
  refine readThen_safe h fun t _ => checkThen_safe h fun u e => ?_
  unfold time? at e
  split at e
  · rename_i fits
    cases e
    simp only [Bool.and_eq_true, decide_eq_true_eq] at fits
    exact h.work (Work.bookingWork (Work.setClock fits.1.1 fits.1.2 fits.2 (.refl p))) (bookingWork_safe h.floor)
  · cases e

theorem insertBooking_length (b : Booking) (bs : List Booking) : (insertBooking b bs).length = bs.length + 1 := by
  induction bs with
  | nil => rfl
  | cons x bs ih =>
    unfold insertBooking
    split
    · rfl
    · simp [ih]

theorem answerAddBooking_safe (payload : List Byte) (h : p.AllSafe) : (answerAddBooking payload p).Safe := by
  refine readThen_safe h fun _ _ => checkThen_safe h fun b _ => ?_
  split
  · split
    · exact h
    · rename_i room
      have short : p.sched.bookings.length < 16 := by
        unfold Part.bookingRefused at room
        (repeat' split at room) <;> first
          | contradiction
          | exact Nat.lt_of_not_le ‹_›
      have stored : (p.modSched fun d => { d with bookings := insertBooking b d.bookings }).AllSafe := by
        refine h.work (Work.modSched (fun k => k.rebook rfl rfl ?_) (.refl p)) h.floor
        rw [insertBooking_length]
        exact short
      show (p.storeBooking b).AllSafe
      unfold Part.storeBooking
      dsimp only
      split
      · exact stored.work (Work.openSession (.refl _)) (openSession_safe stored.floor)
      · exact stored
  · exact h

theorem answerRemoveBooking_safe (payload : List Byte) (h : p.AllSafe) : (answerRemoveBooking payload p).Safe := by
  refine readThen_safe h fun id _ => ?_
  split
  · exact h
  · split
    · exact okWake_safe (h.work (Work.modSched (fun k => k.rebook rfl rfl (le_trans (List.length_filter_le _ _) k.bookings))
        (.refl p)) h.floor)
    · exact h.work (Work.closeSession (.refl p)) (closeSession_safe h.floor)

theorem answerExtendBooking_safe (payload : List Byte) (h : p.AllSafe) : (answerExtendBooking payload p).Safe := by
  refine readThen_safe h fun x _ => ?_
  obtain ⟨id, minutes⟩ := x
  refine checkThen_safe h fun m _ => ?_
  split
  · split
    · rename_i b _ _
      show (p.extendBooking b (p.extension b m)).AllSafe
      unfold Part.extendBooking
      split
      · exact h
      · exact h.work (Work.endWarningTest (Work.modSched (fun k => k.rebook rfl rfl (by simpa using k.bookings)) (.refl p)))
          (h.floor.of_eq (by simp))
    · exact h
  · exact h

theorem answerCheckIn_safe (payload : List Byte) (h : p.AllSafe) : (answerCheckIn payload p).Safe := by
  refine readThen_safe h fun _ _ => ?_
  split
  · exact h
  · split
    · exact h
    · exact ok_safe (h.work (Work.checkIn (.refl p)) (h.floor.of_eq (by simp)))

theorem answerEndSession_safe (payload : List Byte) (h : p.AllSafe) : (answerEndSession payload p).Safe := by
  refine readThen_safe h fun _ _ => ?_
  split
  · exact h.work (Work.closeSession (.refl p)) (closeSession_safe h.floor)
  · exact h

theorem answerSetRoomDefaults_safe (payload : List Byte) (h : p.AllSafe) : (answerSetRoomDefaults payload p).Safe :=
  readThen_safe h fun _ _ => checkThen_safe h fun _ _ =>
    okWake_safe (h.work (Work.modSched (fun k => k.rebook rfl rfl k.bookings) (.refl p)) h.floor)

theorem answerSetStandby_safe (payload : List Byte) (h : p.AllSafe) : (answerSetStandby payload p).Safe := by
  have delayed (n : Nat) : (p.setDelay n).AllSafe :=
    h.work (Work.modSched (fun k => Scheduler.Safe.restart (k.rebook rfl rfl k.bookings)) (.refl p)) h.floor
  refine readThen_safe h fun x _ => ?_
  obtain ⟨delay, enter⟩ := x
  refine checkThen_safe h fun n _ => checkThen_safe h fun e _ => ?_
  (repeat' split)
  · exact h
  · exact delayed _
  · exact ok_safe ((delayed n).work (Work.enterStandby (.refl _)) ((delayed n).floor.of_eq (by simp)))
  · exact delayed _

/-! ### The seat table -/

theorem answerSetSeat_safe (payload : List Byte) (h : p.AllSafe) : (answerSetSeat payload p).Safe := by
  refine readThen_safe h fun x read => checkThen_safe h fun y e => ?_
  have trim := readSeatSettings_trim.all read y e
  exact h.work (Work.reexamine (Work.modSeat (fun r k => ⟨trim, k.failures, k.denialMs, k.name⟩) (.refl p)))
    (h.floor.of_eq (by simp [okWake, Part.setSeat]))

theorem answerSetZone_safe (payload : List Byte) (h : p.AllSafe) : (answerSetZone payload p).Safe :=
  readThen_safe h fun _ _ => checkThen_safe h fun _ _ =>
    h.requeue rfl rfl fun k => { k with zones := (updateAt_length _ _ _).trans k.zones }

theorem answerSetStanding_safe (payload : List Byte) (h : p.AllSafe) : (answerSetStanding payload p).Safe := by
  refine readThen_safe h fun x _ => checkThen_safe h fun y _ => ?_
  obtain ⟨s, standing⟩ := y
  dsimp only
  (repeat' split)
  · exact h
  · exact h
  · exact h
  · refine h.work (Work.derive (Work.reexamine (Work.floorEvent (fun _ k => Work.changedStanding k) (Work.setStanding (.refl p))))) ?_
    show (p.changeStanding s standing).floor.Safe
    unfold Part.changeStanding
    simp only [Part.derive_frame, Part.reexamine_frame]
    exact floorEvent_safe (changedStanding_safe (h.floor.of_eq (by simp)))

theorem answerSetName_safe (payload : List Byte) (h : p.AllSafe) : (answerSetName payload p).Safe := by
  refine readThen_safe h fun x read => checkThen_safe h fun y e => ?_
  have short := readName_length.all read y e
  exact h.work (Work.derivePlate (Work.modSeat (fun r k => ⟨k.trim, k.failures, k.denialMs, short⟩) (.refl p)))
    (h.floor.of_eq (by simp [okWake, Part.setName]))

/-! ### The floor -/

/-- A floor event whose own work is given. -/
theorem Part.AllSafe.floorEvent {work : Part → Part} (hw : ∀ q, Work p q → Work p (work q)) (hf : (work p).floor.Safe)
    (h : p.AllSafe) : (p.floorEvent work).AllSafe :=
  h.work (Work.floorEvent hw (.refl p)) (floorEvent_safe hf)

theorem Work.grantSeat {b : Part} {s : Seat} (h : Work b p) : Work b (p.grantSeat s).2.2 := by
  unfold Part.grantSeat
  dsimp only
  (repeat' split) <;> dsimp only <;> with_reducible first
    | exact Work.openChair h
    | exact Work.openMic h
    | exact Work.appendSeat h
    | exact Work.replaceWith h
    | exact h

theorem answerGrant_safe (payload : List Byte) (h : p.AllSafe) : (answerGrant payload p).Safe := by
  refine seatInSession_safe h fun s => ?_
  dsimp only
  split
  · exact h
  split
  · exact h
  rename_i quiet
  split
  · exact ok_safe (h.floorEvent (work := fun q => (q.grantSeat s).2.2) (fun _ k => Work.grantSeat k)
      (grantSeat_safe h.floor fun k => quiet (Part.speaking_iff.2 k)))
  · exact h

theorem answerClose_safe (payload : List Byte) (h : p.AllSafe) : (answerClose payload p).Safe := by
  refine seatInSession_safe h fun s => ?_
  split
  · exact ok_safe (h.floorEvent (fun _ k => Work.closeMic k) (closeMic_safe h.floor))
  · exact h

theorem answerEnqueue_safe (payload : List Byte) (h : p.AllSafe) : (answerEnqueue payload p).Safe := by
  refine seatInSession_safe h fun s => ?_
  (repeat' split)
  · exact h
  · exact h
  · exact h
  · rename_i already room
    simp only [Bool.or_eq_true, not_or] at already
    exact ok_safe (h.floorEvent (fun _ k => Work.appendSeat k) (appendSeat_safe h.floor
      (fun k => already.1 (Part.speaking_iff.2 k)) (Bool.eq_false_iff.2 already.2) (Bool.eq_false_iff.2 room)))

theorem answerDequeue_safe (payload : List Byte) (h : p.AllSafe) : (answerDequeue payload p).Safe := by
  refine seatInSession_safe h fun s => ?_
  (repeat' split)
  · exact ok_safe (h.floorEvent (fun _ k => Work.withdraw k) (withdraw_safe h.floor))
  · exact h.floorEvent (fun _ k => Work.unhold k) (unhold_safe h.floor)
  · exact h

theorem answerMoveRequest_safe (payload : List Byte) (h : p.AllSafe) : (answerMoveRequest payload p).Safe := by
  refine readThen_safe h fun x _ => ?_
  obtain ⟨a, b⟩ := x
  refine checkThen_safe h fun y _ => ?_
  obtain ⟨s, n⟩ := y
  dsimp only
  (repeat' split)
  · exact h
  · exact ok_safe (h.floorEvent (fun _ k => Work.deriveQueued (Work.modFloor k)) (move_safe h.floor))
  · exact h

theorem answerSetFloor_safe (payload : List Byte) (h : p.AllSafe) : (answerSetFloor payload p).Safe := by
  refine readThen_safe h fun _ _ => checkThen_safe h fun f _ => ?_
  split
  · exact okWake_safe (h.floorEvent (fun _ k => Work.closeSeats (Work.modFloor k)) (setFloor_safe h.floor))
  · exact h

theorem answerPriorityTake_safe (payload : List Byte) (h : p.AllSafe) : (answerPriorityTake payload p).Safe := by
  refine inSession_safe h ?_
  split
  · exact h
  · exact ok_safe (h.floorEvent (fun _ k => Work.takeOrRetake k) (takeOrRetake_safe h.floor))

theorem answerPriorityRelease_safe (payload : List Byte) (h : p.AllSafe) : (answerPriorityRelease payload p).Safe := by
  refine inSession_safe h ?_
  split
  · exact ok_safe (h.floorEvent (fun _ k => Work.release k) (release_safe h.floor))
  · exact h

theorem answerFloorReset_safe (payload : List Byte) (h : p.AllSafe) : (answerFloorReset payload p).Safe :=
  inSession_safe h (ok_safe (h.floorEvent (fun _ k => Work.floorReset k) (floorReset_safe h.floor)))

theorem answerExtendSpeech_safe (payload : List Byte) (h : p.AllSafe) : (answerExtendSpeech payload p).Safe := by
  refine readThen_safe h fun x _ => ?_
  obtain ⟨a, b⟩ := x
  refine checkThen_safe h fun y _ => ?_
  obtain ⟨s, n⟩ := y
  dsimp only
  (repeat' split)
  · exact h
  · exact h
  · exact h
  · exact ok_safe (h.floorEvent (fun _ k => Work.extendEntry k) (extendEntry_safe h.floor))

theorem Part.AllSafe.takePress {s : Seat} {button : Button} (h : p.AllSafe) : (p.takePress s button).AllSafe :=
  h.work (Work.takePress (.refl p)) (takePress_safe h.floor)

theorem answerSeatPress_safe (payload : List Byte) (h : p.AllSafe) : (answerSeatPress payload p).Safe := by
  have presses (s : Seat) (button : Button) (n : Nat) (q : Part) (k : q.AllSafe) : (q.takePresses s button n).AllSafe := by
    induction n generalizing q with
    | zero => exact k
    | succ n ih => exact ih _ k.takePress
  refine readThen_safe h fun x _ => ?_
  obtain ⟨a, b, c⟩ := x
  refine checkThen_safe h fun y _ => ?_
  obtain ⟨s, button, n⟩ := y
  dsimp only
  split
  · exact presses _ _ _ _ h
  · exact h

/-! ### The mixer, the camera director and the screen router -/

theorem answerSetMix_safe (payload : List Byte) (h : p.AllSafe) : (answerSetMix payload p).Safe := by
  refine readThen_safe h fun _ _ => checkThen_safe h fun m _ => ?_
  split
  · have set : Work p (p.modMixer fun k => { k with params := m }) :=
      Work.modMixer (fun k => ⟨k.channels, k.ducks, k.loud, k.clip, k.envelope, k.gain, k.unity⟩) (.refl p)
    refine okWake_safe ?_
    unfold Part.setMix
    exact h.work (Work.recountChain (Work.recountChain set)) (h.floor.of_eq (by simp))
  · exact h

theorem answerGetMixStatus_safe (payload : List Byte) (h : p.AllSafe) : (answerGetMixStatus payload p).Safe := by
  refine readThen_safe h fun _ _ => checkThen_safe h fun clear _ => ?_
  show (if clear then _ else p : Part).AllSafe
  split
  · refine h.work (Work.modMixer (fun k => ?_) (.refl p)) h.floor
    exact ⟨k.channels, k.ducks, k.loud, Nat.zero_le _, k.envelope, k.gain, k.unity⟩
  · exact h

theorem answerMuteRoom_safe (payload : List Byte) (h : p.AllSafe) : (answerMuteRoom payload p).Safe :=
  readThen_safe h fun _ _ => checkThen_safe h fun _ _ => okWake_safe (h.work (Work.modMixer (fun k =>
    ⟨k.channels, k.ducks, k.loud, k.clip, k.envelope, k.gain, k.unity⟩) (.refl p)) h.floor)

theorem answerSetCamera_safe (payload : List Byte) (h : p.AllSafe) : (answerSetCamera payload p).Safe := by
  refine readThen_safe h fun _ _ => checkThen_safe h fun c _ =>
    okWake_safe (h.work (Work.modDirector (fun k => ⟨?_⟩) (.refl p)) h.floor)
  unfold Director.setCamera
  dsimp only
  split
  · exact (List.length_map _).trans k.current
  · exact k.current

theorem answerSetScreenPlan_safe (payload : List Byte) (h : p.AllSafe) : (answerSetScreenPlan payload p).Safe := by
  refine readThen_safe h fun x read => checkThen_safe h fun y e => ?_
  have whole := readPlanPart_whole.all read y e
  split
  · rename_i n modes
    have stored : Work p (p.modScreens fun v => { v with plans := updateAt (fun _ => modes) v.plans n.val }) :=
      Work.modScreens (fun k => ⟨k.screens, (updateAt_length _ _ _).trans k.plans, k.targets⟩) (.refl p)
    show (p.setPlan n modes).AllSafe
    unfold Part.setPlan
    dsimp only
    split
    · exact h.work (Work.recomputeScreens stored) (h.floor.of_eq (by simp))
    · exact h.work stored h.floor
  · rename_i classes policy floor grace
    have eight : classes.length = 8 := whole
    show (p.setSetup classes policy floor grace).AllSafe
    unfold Part.setSetup
    dsimp only
    have stored : Work p (p.modScreens fun v =>
        { v with
          screens := List.zipWith (fun s c => { s with cls := c }) v.screens classes
          policy := policy
          requiresFloor := floor
          graceTime := grace }) :=
      Work.modScreens (fun k => ⟨by simp [List.length_zipWith, k.screens, eight], k.plans, k.targets⟩) (.refl p)
    (repeat' split)
    · exact h.work (Work.reexamineAll stored) (h.floor.of_eq (by simp))
    · exact h.work (Work.reexamineAll (Work.recomputeScreens stored)) (h.floor.of_eq (by simp))
    · exact h.work stored h.floor
    · exact h.work (Work.recomputeScreens stored) (h.floor.of_eq (by simp))

theorem answerSetScreen_safe (payload : List Byte) (h : p.AllSafe) : (answerSetScreen payload p).Safe :=
  readThen_safe h fun _ _ => checkThen_safe h fun y _ => by
    refine okWake_safe ?_
    unfold Part.setOverride
    split
    · exact h
    exact h.work (Work.recomputeScreens (Work.modScreens
      (fun k => ⟨(updateAt_length _ _ _).trans k.screens, k.plans, k.targets⟩) (.refl p))) (h.floor.of_eq (by simp))

theorem answerShareStart_safe (payload : List Byte) (h : p.AllSafe) : (answerShareStart payload p).Safe := by
  refine readThen_safe h fun _ _ => checkThen_safe h fun s _ => ?_
  (repeat' split)
  · exact h
  · exact h
  · exact h
  · rename_i n q granted
    exact h.work (Work.grantShare (.refl p) granted) (h.floor.of_eq (Part.grantShare_frame _ _ _ _ granted).2.2.2.2.2.2.1)
  · exact h

theorem answerShareStop_safe (payload : List Byte) (h : p.AllSafe) : (answerShareStop payload p).Safe := by
  refine readThen_safe h fun _ _ => checkThen_safe h fun n _ => ?_
  (repeat' split)
  · exact h
  · exact ok_safe (h.work (Work.endShare (.refl p)) (h.floor.of_eq (by simp)))
  · exact h

theorem answerScreenRefresh_safe (payload : List Byte) (h : p.AllSafe) : (answerScreenRefresh payload p).Safe := by
  have placed (is : List (Fin 8)) (q : Part) (k : q.AllSafe) :
      (is.foldl (fun q i => q.placeRecord (.route i (p.screens.sourceOf i))) q).AllSafe := by
    induction is generalizing q with
    | nil => exact k
    | cons i is ih => exact ih _ (k.work (Work.placeRecord (.refl q)) k.floor)
  refine readThen_safe h fun _ _ => ?_
  have routed := placed (List.finRange 8) p h
  exact routed.work (Work.placeRecord (Work.placeRecord (.refl _))) routed.floor

/-! ### The chain controllers -/

theorem answerSetChain_safe (payload : List Byte) (h : p.AllSafe) : (answerSetChain payload p).Safe := by
  refine readThen_safe h fun _ _ => checkThen_safe h fun y _ => ?_
  exact h.work (Work.setChain (.refl p)) (setChain_safe h.floor)

theorem answerGetChain_safe (payload : List Byte) (h : p.AllSafe) : (answerGetChain payload p).Safe := by
  refine readThen_safe h fun x _ => ?_
  obtain ⟨a, b⟩ := x
  refine checkThen_safe h fun y _ => ?_
  obtain ⟨c, clear⟩ := y
  show (if clear then _ else p : Part).AllSafe
  split
  · exact h.work (Work.modChain (fun _ w => w.alike rfl rfl rfl rfl rfl) (.refl p)) (h.floor.of_eq (by simp))
  · exact h

theorem answerChainRestart_safe (payload : List Byte) (h : p.AllSafe) : (answerChainRestart payload p).Safe := by
  refine readThen_safe h fun _ _ => checkThen_safe h fun c _ => ?_
  split
  · exact h
  · exact h.work (Work.restartChain (.refl p)) (restartChain_safe h.floor)

end Sys2Proof.Machine
end

