-- ==== Sys2Proof/Laws/Samples.lean ====
section
/-!
SUPPORT. The samples of a completed block, position by position: what a lane received, an OPEN channel's input (R104, R170), and the
channel sum with the channels closed within the block (R103, R113).
-/
namespace Sys2Proof.Machine

/-- The sample at a position that a lane received, 0 where none is given (R104). -/
def receivedSample (audio : List LaneAudio) (c : Chain) (lane k : Nat) : Int :=
  match audio.find? fun a => a.chain = c && a.lane = lane with
  | some a => (a.samples.getD k 0).toInt
  | none => 0

theorem laneSamples_eq (audio : List LaneAudio) (c : Chain) (lane : Nat) :
    laneSamples audio c lane = (List.range 16).map (receivedSample audio c lane) := by
  unfold laneSamples
  refine List.map_congr_left fun k _ => ?_
  unfold receivedSample
  split <;> rename_i h <;> rw [h] <;> rfl

theorem silenceBefore_eq (n : Nat) (f : Nat → Int) :
    silenceBefore n ((List.range 16).map f) = (List.range 16).map fun k => if n ≤ k then f k else 0 := by
  unfold silenceBefore
  apply List.ext_getElem
  · simp; omega
  · intro k h1 h2
    have : k < 16 := by simpa using h2
    simp only [List.getElem_append, List.length_replicate, List.length_map, List.length_range, List.getElem_replicate,
      List.getElem_drop, List.getElem_map, List.getElem_range]
    split <;> split <;> first | omega | (congr 1; omega)

theorem silenceFrom_eq (n : Nat) (f : Nat → Int) :
    silenceFrom n ((List.range 16).map f) = (List.range 16).map fun k => if k < n then f k else 0 := by
  unfold silenceFrom
  apply List.ext_getElem
  · simp; omega
  · intro k h1 h2
    have : k < 16 := by simpa using h2
    simp only [List.getElem_append, List.length_take, List.length_map, List.length_range, List.getElem_replicate,
      List.getElem_take, List.getElem_map, List.getElem_range]
    split <;> split <;> first | rfl | omega

theorem gained_eq (gain : Nat) (f : Nat → Int) :
    gained gain ((List.range 16).map f) = (List.range 16).map fun k => f k * gain / 32768 := by
  unfold gained
  rw [List.map_map]
  refine List.map_congr_left fun k _ => ?_
  exact Int.fdiv_eq_ediv_of_nonneg _ (by decide)

theorem addSamples_eq (f g : Nat → Int) :
    addSamples ((List.range 16).map f) ((List.range 16).map g) = (List.range 16).map fun k => f k + g k := by
  unfold addSamples
  rw [List.zipWith_map, List.zipWith_self]

/-- Samples added one after another are added position by position. -/
theorem foldl_addSamples {α : Type} (xs : List α) (term : α → Nat → Int) (f : Nat → Int) (step : List Int → α → List Int)
    (h : ∀ g x, step ((List.range 16).map g) x = (List.range 16).map fun k => g k + term x k) :
    xs.foldl step ((List.range 16).map f) = (List.range 16).map fun k => f k + (xs.map fun x => term x k).sum := by
  induction xs generalizing f with
  | nil => simp
  | cons x xs ih => simp only [List.foldl_cons, h, ih, List.map_cons, List.sum_cons, add_assoc]

theorem ChainCtl.laneLive_iff (c : ChainCtl) (lane : Nat) :
    c.laneLive lane = true ↔ c.state = .active ∧ ∃ x, c.lanes[lane]? = some ⟨some x, [x]⟩ := by
  unfold ChainCtl.laneLive
  split
  · rename_i x t h
    simp only [h, Bool.and_eq_true, decide_eq_true_eq, Option.some.injEq, Lane.mk.injEq]
    constructor
    · rintro ⟨a, rfl⟩; exact ⟨a, x, rfl, rfl⟩
    · rintro ⟨a, y, rfl, e⟩; exact ⟨a, e⟩
  · rename_i h
    constructor
    · intro k; cases k
    · rintro ⟨_, x, e⟩; exact absurd e (h _ _)

/-- The sample at a position of an OPEN channel's input (R104, R170). -/
def Part.inputSample (p : Part) (audio : List LaneAudio) (changedAt : List Nat) (ch : Nat) (r : Channel) (k : Nat) : Int :=
  match p.floor.speakers.find? fun e => e.channel = ch with
  | some e =>
    let opened : Nat := match r.openedAt with
      | some i => changedAt.getD i 16
      | none => 0
    if (p.chain (chainOf r.seat)).laneLive e.lane = true ∧ opened ≤ k then receivedSample audio (chainOf r.seat) e.lane k else 0
  | none => 0

theorem Part.channelInput_eq (p : Part) (audio : List LaneAudio) (changedAt : List Nat) (ch : Nat) (r : Channel) :
    p.channelInput audio changedAt ch r = (List.range 16).map (p.inputSample audio changedAt ch r) := by
  have zero : List.replicate 16 (0 : Int) = (List.range 16).map fun _ => 0 := by decide
  unfold Part.channelInput Part.inputSample
  split <;> rename_i e h <;> simp only [h]
  · exact zero
  · simp only [zero, laneSamples_eq]
    rcases r.openedAt with _ | i <;> by_cases live : (p.chain (chainOf r.seat)).laneLive e.lane = true <;>
      simp only [live, if_true, if_false, silenceBefore_eq, changePosition, true_and, false_and, Nat.zero_le, ite_self,
        Bool.false_eq_true]

theorem Part.channelSum_eq (p : Part) (audio : List LaneAudio) (changedAt : List Nat) :
    p.channelSum audio changedAt =
      (List.range 16).map fun k =>
        (p.mixer.channels.zipIdx.map fun x => match x.1 with
          | some r => p.inputSample audio changedAt x.2 r k * r.gain / 32768
          | none => 0).sum +
        (p.mixer.closed.map fun r =>
          if r.live = true ∧ k < changedAt.getD r.closedAt 16 then receivedSample audio r.chain r.lane k * r.gain / 32768
          else 0).sum := by
  have zero : List.replicate 16 (0 : Int) = (List.range 16).map fun _ => 0 := by decide
  unfold Part.channelSum
  rw [zero, foldl_addSamples _ (fun x k => match x.1 with
          | some r => p.inputSample audio changedAt x.2 r k * r.gain / 32768
          | none => 0)]
  · rw [foldl_addSamples _ (fun r k =>
          if r.live = true ∧ k < changedAt.getD r.closedAt 16 then receivedSample audio r.chain r.lane k * r.gain / 32768
          else 0)]
    · simp
    · intro g r
      rcases r with ⟨c, lane, live, gain, at_⟩
      cases live
      · simp
      · simp only [if_true, laneSamples_eq, silenceFrom_eq, gained_eq, addSamples_eq, changePosition, true_and]
        refine List.map_congr_left fun k _ => ?_
        split <;> simp
  · rintro g ⟨_ | r, ch⟩
    · simp
    · simp only [Part.channelInput_eq, gained_eq, addSamples_eq]

end Sys2Proof.Machine
end

