-- ==== Sys2Proof/Laws/Ticks.lean ====
section
/-!
SUPPORT. A second tick, job by job (R18): how the jobs left are run, and what a job does at an entry, a silence count, the end of the
floor's event, a grace timer and the standby timer.
-/
namespace Sys2Proof.Machine

/-! ### Running the jobs left -/

/-- A job leaves the jobs left as they are, or puts one step in front of them. -/
theorem Part.runJob_tickJobs (j : TickJob) (p : Part) :
    (p.runJob j).tickJobs = p.tickJobs ∨ ∃ k, k.isStep = true ∧ (p.runJob j).tickJobs = k :: p.tickJobs := by
  cases j <;> simp only [Part.runJob]
  case entry s =>
    split
    · exact .inr ⟨.expiry s, rfl, by simp [Part.pushJob]⟩
    · exact .inl (by simp)
  case voice s =>
    split
    · exact .inr ⟨.silence s, rfl, by simp [Part.pushJob]⟩
    · exact .inl (by simp)
  case grace n =>
    split
    · exact .inr ⟨.graceEnd n, rfl, by simp [Part.pushJob]⟩
    · exact .inl (by simp)
  case standby =>
    split
    · exact .inr ⟨.standbyEnd, rfl, by simp [Part.pushJob]⟩
    · exact .inl (by simp)
  all_goals exact .inl (by simp)

theorem Part.runJobsWith_step {p : Part} {j : TickJob} {rest : List TickJob} (h : p.tickJobs = j :: rest)
    (step : j.isStep = true) (n : Nat) : p.runJobsWith true n = p := by
  cases n with
  | zero => rfl
  | succ n => simp [Part.runJobsWith, h, step]

/-- Enough fuel runs the jobs left to the end, or to the first step. -/
theorem Part.runJobsWith_enough (n : Nat) (p : Part) (h : p.tickJobs.length ≤ n) : p.runJobsWith true n = p.runJobs true := by
  unfold Part.runJobs
  suffices key : ∀ (k m n : Nat) (p : Part), p.tickJobs.length ≤ k → p.tickJobs.length ≤ m → p.tickJobs.length ≤ n →
      p.runJobsWith true m = p.runJobsWith true n by
    exact key _ _ _ p (Nat.le_refl _) h (by omega)
  intro k
  induction k with
  | zero =>
    intro m n p hk _ _
    have e : p.tickJobs = [] := by simpa using hk
    cases m <;> cases n <;> simp [Part.runJobsWith, e]
  | succ k ih =>
    intro m n p hk hm hn
    match e : p.tickJobs with
    | [] => cases m <;> cases n <;> simp [Part.runJobsWith, e]
    | j :: rest =>
      rw [e] at hk hm hn
      simp only [List.length_cons] at hk hm hn
      obtain ⟨m, rfl⟩ : ∃ k, m = k + 1 := ⟨m - 1, by omega⟩
      obtain ⟨n, rfl⟩ : ∃ k, n = k + 1 := ⟨n - 1, by omega⟩
      unfold Part.runJobsWith
      rw [e]
      dsimp only
      split
      · rfl
      · rcases Part.runJob_tickJobs j { p with tickJobs := rest } with f | ⟨i, step, f⟩
        · have f : (({ p with tickJobs := rest } : Part).runJob j).tickJobs = rest := f
          exact ih _ _ _ (by rw [f]; omega) (by rw [f]; omega) (by rw [f]; omega)
        · rw [Part.runJobsWith_step f step, Part.runJobsWith_step f step]

/-- A step with a command of its own waits; any other job is run, and the tick goes on. -/
theorem Part.runJobs_cons {p : Part} {j : TickJob} {rest : List TickJob} (h : p.tickJobs = j :: rest) :
    p.runJobs true = if j.isStep then p else (({ p with tickJobs := rest }).runJob j).runJobs true := by
  split
  · exact Part.runJobsWith_step h ‹_› _
  · rename_i step
    rw [← Part.runJobsWith_enough (p.tickJobs.length + 1) p (by omega), h]
    show p.runJobsWith true (rest.length + 1 + 1) = _
    unfold Part.runJobsWith
    rw [h]
    dsimp only
    rw [if_neg (by simpa using step)]
    rcases Part.runJob_tickJobs j { p with tickJobs := rest } with f | ⟨i, s, f⟩
    · exact Part.runJobsWith_enough _ _ (by rw [f]; simp)
    · rw [Part.runJobsWith_step f s, Part.runJobs, Part.runJobsWith_step f s]

theorem Part.secondTick_due {p : Part} {moved : Bool} {rest : List Owed} (running : p.power = .running) (jobs : p.tickJobs = [])
    (h : p.owed = .tick moved :: rest) : p.secondTick = (({ p with owed := rest }).startTick moved).runJobs true := by
  unfold Part.secondTick
  simp [running, jobs, h]

/-! ### What a job does -/

/-- A seat that does not speak has nothing to count. -/
theorem Part.runJob_silentSeat {p : Part} {x : Seat} (h : p.speaker? x = none) :
    p.runJob (.entry x) = p ∧ p.runJob (.voice x) = p := by
  constructor <;> simp [Part.runJob, Part.tickEntry, Part.atZero, Part.tickSilence, Part.silenceDue, h]

/-- The entry of a seat after every entry of that seat has been rewritten. -/
theorem Part.speaker_modSpeaker {p : Part} {x : Seat} {e : Speaker} (h : p.speaker? x = some e) (g : Speaker → Speaker)
    (seat : (g e).seat = x) : (p.modFloor (Floor.modSpeaker x g)).speaker? x = some (g e) := by
  unfold Part.speaker? at h ⊢
  show (p.floor.speakers.map fun e => if e.seat = x then g e else e).find? _ = _
  revert h
  generalize p.floor.speakers = es
  induction es with
  | nil => simp
  | cons d es ih =>
    by_cases k : d.seat = x
    · simp only [List.find?_cons, List.map_cons, k, decide_true, if_true]
      rintro ⟨⟩
      simp [seat]
    · simp only [List.find?_cons, List.map_cons, k, decide_false, if_false]
      exact ih

theorem Part.speaker_congr {p q : Part} (h : q.floor = p.floor) (x : Seat) : q.speaker? x = p.speaker? x := by
  unfold Part.speaker?
  rw [h]

/-- What a second leaves of a seat's entry: one second less, and the warned flag when the warning is due (R89, R90). -/
theorem Part.speaker_tickEntry {p : Part} {x : Seat} {e : Speaker} (h : p.speaker? x = some e) :
    (p.tickEntry x).speaker? x =
      some { e.countSecond with warned := e.warned || e.countSecond.warnDue p.floor.preset.warnLead } := by
  have seat := (Part.speaker?_some h).2
  have stored : ((p.modSession (Session.credit x)).modFloor (Floor.modSpeaker x fun _ => e.countSecond)).speaker? x =
      some e.countSecond := Part.speaker_modSpeaker (p := p.modSession (Session.credit x)) (e := e) h (fun _ => e.countSecond) seat
  unfold Part.tickEntry
  rw [h]
  dsimp only
  split
  · rename_i due
    rw [due, Bool.or_true]
    refine (Part.speaker_congr (by simp) x).trans
      ((Part.speaker_modSpeaker stored (fun x => { x with warned := true }) seat))
  · rename_i due
    rw [Bool.eq_false_iff.2 due, Bool.or_false]
    exact (Part.speaker_congr (by simp) x).trans stored

theorem Part.runJob_entry {p : Part} {x : Seat} {e : Speaker} (h : p.speaker? x = some e) :
    p.runJob (.entry x) =
      if e.remaining = some 0 ∨ e.remaining = some 1 then { p.tickEntry x with tickJobs := .expiry x :: p.tickJobs }
      else p.tickEntry x := by
  have zero : (p.tickEntry x).atZero x = decide (e.remaining = some 0 ∨ e.remaining = some 1) := by
    unfold Part.atZero
    rw [Part.speaker_tickEntry h]
    rcases k : e.remaining with _ | _ | _ | n <;> simp [Speaker.countSecond, k]
  simp only [Part.runJob, zero, decide_eq_true_eq]
  split <;> simp [Part.pushJob]

theorem Part.voiceHeld_iff {p : Part} {e : Speaker} :
    p.voiceHeld e = true ↔
      e.kind = .delegate ∧ (e.source = .voice ∨ (e.source = .auto ∧ p.floor.preset.mode = .voice)) := by
  simp [Part.voiceHeld]

/-- A silence count that does not count stays, and closes nothing (R57, log 44). -/
theorem Part.runJob_voiceStays {p : Part} {x : Seat} {e : Speaker} (h : p.speaker? x = some e)
    (stays : ¬(p.voiceHeld e = true ∧ (p.seat x).voice = false)) : p.runJob (.voice x) = p := by
  have no : (p.voiceHeld e && !(p.seat x).voice) = false := by
    rw [Bool.eq_false_iff]
    simpa using stays
  have counted : p.tickSilence x = p := by simp [Part.tickSilence, h, no]
  simp only [Part.runJob, counted]
  simp [Part.silenceDue, h, no]

/-- A silence count that counts rises, and brings the close at the voice hold (R57). -/
theorem Part.runJob_voiceCounts {p : Part} {x : Seat} {e : Speaker} (h : p.speaker? x = some e) (held : p.voiceHeld e = true)
    (quiet : (p.seat x).voice = false) :
    let counted := p.modFloor (Floor.modSpeaker x fun e => { e with silence := countUpTo 30 e.silence })
    p.runJob (.voice x) =
      if p.floor.preset.voiceHold ≤ countUpTo 30 e.silence then { counted with tickJobs := .silence x :: p.tickJobs }
      else counted := by
  intro counted
  have c : p.tickSilence x = counted := by simp [Part.tickSilence, h, held, quiet, counted]
  have seat : e.seat = x := (Part.speaker?_some h).2
  have s : counted.speaker? x = some { e with silence := countUpTo 30 e.silence } :=
    Part.speaker_modSpeaker h (fun e => { e with silence := countUpTo 30 e.silence }) seat
  have d : counted.silenceDue x = decide (p.floor.preset.voiceHold ≤ countUpTo 30 e.silence) := by
    unfold Part.silenceDue
    rw [s]
    have v : counted.voiceHeld { e with silence := countUpTo 30 e.silence } = true := held
    have q : (counted.seat x).voice = false := quiet
    simp only [Option.any_some, v, q]
    rfl
  simp only [Part.runJob, c, d, decide_eq_true_eq]
  rfl

theorem Part.runJob_floorEnd (p : Part) (before : List QueueEntry) :
    p.runJob (.floorEnd before) =
      if p.autoAdvance.floor.queue ≠ before ∨ p.autoAdvance.floor.headPlaced = true then
        { p.autoAdvance with
          floor := { p.autoAdvance.floor with headPlaced := false }
          link := p.autoAdvance.link.notify (.queueChanged (p.autoAdvance.floor.queue.map QueueEntry.seat)) }
      else p.autoAdvance := by
  simp only [Part.runJob, Part.endFloorEvent, Bool.or_eq_true, decide_eq_true_eq]
  rfl

theorem Part.runJob_grace (p : Part) (n : Slot) :
    p.runJob (.grace n) =
      match p.screens.grace n with
      | none => p
      | some t =>
        if t ≤ 1 then { p.modScreens (Screens.setGrace n (some (t - 1))) with tickJobs := .graceEnd n :: p.tickJobs }
        else p.modScreens (Screens.setGrace n (some (t - 1))) := by
  rcases h : p.screens.grace n with _ | t
  · simp [Part.runJob, Part.countGrace, h]
  · have g : (p.modScreens (Screens.setGrace n (some (t - 1)))).screens.grace n = some (t - 1) := by cases n <;> rfl
    simp only [Part.runJob, Part.countGrace, h, g]
    rcases t with _ | _ | t <;> simp [Part.pushJob, Part.modScreens]

theorem Part.runJob_standby (p : Part) :
    p.runJob .standby =
      if p.standbyCounts then
        if p.sched.timer = some 0 ∨ p.sched.timer = some 1 then
          { p.modSched fun d => { d with timer := d.timer.map fun t => t - 1 } with tickJobs := .standbyEnd :: p.tickJobs }
        else p.modSched fun d => { d with timer := d.timer.map fun t => t - 1 }
      else p := by
  by_cases h : p.standbyCounts = true
  · rw [if_pos h]
    have c : p.tickStandby = p.modSched fun d => { d with timer := d.timer.map fun t => t - 1 } := by
      simp [Part.tickStandby, h]
    have k : (p.modSched fun d => { d with timer := d.timer.map fun t => t - 1 }).standbyCounts = true := h
    simp only [Part.runJob, c, Part.standbyDue, k, Bool.true_and, decide_eq_true_eq]
    rcases t : p.sched.timer with _ | _ | _ | n <;> simp [Part.pushJob, Part.modSched, t]
  · have c : p.tickStandby = p := by simp [Part.tickStandby, h]
    simp [Part.runJob, c, Part.standbyDue, h]

end Sys2Proof.Machine
end

