-- ==== Sys2Proof/Tests/Slice0.lean ====
section
/-!
SUPPORT. Tests of the model: ill-formed commands, the bytes of frames, the spec's worked figures, one step of a command on a small
part, and for every statement with hypotheses a part and operands that meet them.
-/
set_option Elab.async false

namespace Sys2Proof.Tests
open Sys2Proof.Machine

/-! ## Well-formed commands -/

/-- A block of silence on a lane. -/
def quietLane (c : Chain) (lane : Nat) : LaneAudio := ⟨c, lane, List.replicate 16 0⟩

theorem test_longPayloadRefused : (Instr.ping 0 (List.replicate 251 0)).wf = false := by decide +kernel
theorem test_longestPayloadAccepted : (Instr.ping 0 (List.replicate 250 0)).wf = true := by decide +kernel
theorem test_catalogueKindIsNotUnknown : (Instr.unknownKindRequest 0x3E 0 []).wf = false := by decide +kernel
theorem test_longUnknownPayloadRefused : (Instr.unknownKindRequest 0x3F 0 (List.replicate 251 0)).wf = false := by decide +kernel
theorem test_unknownKindAccepted : (Instr.unknownKindRequest 0x3F 0 []).wf = true := by decide +kernel
theorem test_laneEightRefused : (Instr.blockCompletion [quietLane .A 8] []).wf = false := by decide +kernel
theorem test_fifteenSamplesRefused :
    (Instr.blockCompletion [⟨.A, 0, List.replicate 15 0⟩] []).wf = false := by decide +kernel
theorem test_laneTwiceRefused : (Instr.blockCompletion [quietLane .A 0, quietLane .A 0] []).wf = false := by decide +kernel
theorem test_laneOfBothChainsAccepted :
    (Instr.blockCompletion [quietLane .A 0, quietLane .B 0] []).wf = true := by decide +kernel
theorem test_fallingPositionsRefused : (Instr.blockCompletion [] [4, 3]).wf = false := by decide +kernel
theorem test_positionSeventeenRefused : (Instr.blockCompletion [] [0, 17]).wf = false := by decide +kernel
theorem test_risingPositionsAccepted : (Instr.blockCompletion [] [0, 3, 3, 16]).wf = true := by decide +kernel

/-! ## Frames -/

/-- The characters "123456789", for which the check of R190 is 0x29B1. -/
def digits : List Byte := [0x31, 0x32, 0x33, 0x34, 0x35, 0x36, 0x37, 0x38, 0x39]

theorem test_check : crc16 digits = 0x29B1 := by decide +kernel
theorem test_checkOfNothing : crc16 [] = 0xFFFF := by decide +kernel
theorem test_frameWithoutPayload : (frameBytes ⟨0x02, 0x11, []⟩).take 4 = [0xA5, 0x00, 0x02, 0x11] := by decide +kernel
theorem test_framePayloadAndCheck : (frameBytes ⟨0x21, 0x07, [63]⟩).length = 7 := by decide +kernel
theorem test_closeFrame : commandOfFrame ⟨0x21, 0x07, [63]⟩ = .close 0x07 [63] := by decide +kernel
theorem test_unknownFrame : commandOfFrame ⟨0x3F, 0x07, [1]⟩ = .unknownKindRequest 0x3F 0x07 [1] := by decide +kernel
theorem test_highByteFirst : u32 0x01020304 = [1, 2, 3, 4] := by decide +kernel

/-! ## Small parts -/

/-- The part in a state of the machine. -/
def on (p : Part) : State := ⟨p, [], 0⟩

/-- The part after one command. -/
def after (c : Instr) (p : Part) : Part :=
  match exec c (on p) with
  | .next t => t.part
  | .fault _ => p
  | .refused _ => p

/-- The status and the fields of the reply that waits. -/
def replied (p : Part) : Option (Byte × List Byte) := p.link.reply.map fun r => (r.frame.kind, r.frame.payload)

/-- The notices in the queue. -/
def told (p : Part) : List Notice := p.link.notices.map QueuedNotice.notice

/-- The part right after a power-on reset with both straps low. -/
def fresh : Part := .reset .powerOn 0

/-- Seat 0 a delegate with a presenter unit that delivers a signal, seat 1 a delegate, seat 2 a chair, seat 3 a listener, seat 4 a
delegate that is SILENT, seat 32 a delegate; the other seats are ABSENT. -/
def seats : List SeatRec :=
  let here : SeatRec := { SeatRec.reset with link := .present, unitType := some .basic, serial := some 1 }
  [{ here with standing := .delegate, unitType := some .presenter, input := some 16, signal := true },
    { here with standing := .delegate, voice := true }, { here with standing := .chair }, { here with standing := .listener },
    { here with standing := .delegate, link := .silent }] ++ List.replicate 27 .reset ++
    { here with standing := .delegate } :: List.replicate 31 .reset

/-- An ACTIVE chain with its two lane pairs in force. -/
def active : ChainCtl := { ChainCtl.reset with state := .active, pairs := some 2, found := 5, overlength := false }

/-- A booking from 08:00 to 09:00 of day 0. -/
def morning : Booking :=
  ⟨7, 480, 60, [0x41], [0], [2], .reset, .reset, 1, .normal, 0, 5, .roomController, .active⟩

/-- The record of a session opened at 08:00. -/
def session : Session := ⟨7, ⟨0, 480, 0⟩, false, false, none, List.replicate 64 ⟨0, false⟩⟩

/-- A session at 08:30 with its booking, the seats above and both chains ACTIVE. -/
def meeting : Part :=
  { fresh with
    seats := seats
    chainA := active
    chainB := active
    sched := { Scheduler.reset with
      clock := ⟨0, 510, 0⟩, valid := true, bookings := [morning], session := some session, timer := none } }

/-- An entry of the speaker list. -/
def entry (s : Seat) (kind : Kind) (channel lane : Nat) (remaining : Option Nat) : Speaker :=
  ⟨s, kind, 1, channel, lane, remaining, false, false, .button, 0⟩

/-- The meeting with these entries in the speaker list and an OPEN channel record for each. -/
def speaking (es : List Speaker) : Part :=
  { meeting with
    floor := { Floor.reset with speakers := es, grantSeq := 1 }
    mixer := { Mixer.reset with
      channels := (List.range 12).map fun ch =>
        (es.find? fun e => e.channel = ch).map fun e => (⟨e.seat, 0, 0, 16, 1, 0, none⟩ : Channel) } }

/-- The meeting while seat 0 speaks with 30 seconds left. -/
def oneSpeaks : Part := speaking [entry 0 .delegate 0 0 (some 30)]

/-- The meeting while seat 1 waits in the queue and seat 32 among the held presses. -/
def oneWaits : Part :=
  { meeting with floor := { Floor.reset with queue := [⟨1, 1, .button⟩], held := [⟨32, 1⟩], enqueueSeq := 1 } }

/-- The meeting while these shares are held. -/
def sharing (slot1 slot2 : Option Share) (older : Option Slot) : Part :=
  { meeting with screens := { Screens.reset with slot1 := slot1, slot2 := slot2, older := older, requiresFloor := false } }

/-- Shares of two other presenters. -/
def share1 : Share := ⟨40, 1, 1, .button⟩

/-- The share in the second slot. -/
def share2 : Share := ⟨41, 2, 2, .button⟩

theorem test_freshIsReady : fresh.Ready := ⟨⟨rfl, rfl, rfl⟩, rfl, rfl⟩
theorem test_meetingIsReady : meeting.Ready := ⟨⟨rfl, rfl, rfl⟩, rfl, rfl⟩
theorem test_oneSpeaksIsReady : oneSpeaks.Ready := ⟨⟨rfl, rfl, rfl⟩, rfl, rfl⟩
theorem test_oneWaitsIsReady : oneWaits.Ready := ⟨⟨rfl, rfl, rfl⟩, rfl, rfl⟩

/-! ## One command on a small part -/

theorem test_ping : replied (after (.ping 9 [1, 2]) fresh) = some (0x81, [0, 1, 2]) := by decide +kernel
theorem test_getInfo : replied (after (.getInfo 9 []) fresh) = some (0x82, [0, 0x64, 0x08, 1, 0, 0, 4, 32]) := by decide +kernel
theorem test_unknownKind : replied (after (.unknownKindRequest 0x3F 9 []) fresh) = some (0xBF, [2]) := by decide +kernel
theorem test_unknownKindAbove : replied (after (.unknownKindRequest 0x80 9 []) fresh) = some (0xFF, [2]) := by decide +kernel
theorem test_badLength : replied (after (.close 9 []) meeting) = some (0xA1, [1]) := by decide +kernel
theorem test_noSession : replied (after (.close 9 [0]) fresh) = some (0xA1, [8]) := by decide +kernel
theorem test_grantOpens :
    (after (.grant 9 [0]) meeting).floor.speakers.map (fun e => (e.seat, e.channel, e.lane)) = [(0, 0, 0)] := by decide +kernel
theorem test_grantTells :
    told (after (.grant 9 [0]) meeting) =
      [.started .powerOn 1 0x6408 0, .micOpened 0 .delegate 1 0 0 none .controller] := by decide +kernel
theorem test_grantLights : ((after (.grant 9 [0]) meeting).seat 0).ring = .speak := by decide +kernel
theorem test_closeCloses : (after (.close 9 [0]) oneSpeaks).floor.speakers = [] := by decide +kernel
theorem test_closeAdvances :
    ((after (.close 9 [0]) { oneSpeaks with floor := { oneSpeaks.floor with queue := [⟨1, 1, .button⟩] } }).floor.speakers.map
      Speaker.seat) = [1] := by decide +kernel
/-- A preset with a limit of one speaker and without auto-advance. -/
def limited : FloorPreset := { FloorPreset.reset with limit := 1, autoAdvance := false }

theorem test_enqueue :
    (after (.enqueue 9 [1]) { meeting with floor := { Floor.reset with preset := limited } }).floor.queue.map QueueEntry.seat =
      [1] := by decide +kernel
theorem test_takeEmptiesTheFloor : (after (.priorityTake 9 []) oneSpeaks).floor.speakers = [] := by decide +kernel
theorem test_takeSavesTheFloor :
    (after (.priorityTake 9 []) oneSpeaks).floor.stack.map (fun r => (r.holder, r.saved.map Saved.seat)) =
      [(.controller, [0])] := by decide +kernel
theorem test_extendSpeech : replied (after (.extendSpeech 9 [0, 0, 30]) oneSpeaks) = some (0xAA, [0, 0, 30, 0, 60]) := by
  decide +kernel
theorem test_shareStarts : (after (.shareStart 9 [0])
    { meeting with screens := { Screens.reset with requiresFloor := false } }).screens.slot1 = some ⟨0, 16, 1, .controller⟩ := by
  decide +kernel
theorem test_endSession : (after (.endSession 9 []) oneSpeaks).sched.session = none := by decide +kernel
theorem test_endSessionClearsTheFloor : (after (.endSession 9 []) oneSpeaks).floor.speakers = [] := by decide +kernel
/-- The morning's booking, not yet open. -/
def waiting : Scheduler := { Scheduler.reset with bookings := [{ morning with state := .pending }] }

theorem test_setClockCoversTheOpening :
    told (after (.setClock 9 [0, 0, 1, 0xE0, 0]) { fresh with sched := waiting }) =
      [.started .powerOn 1 0x6408 0, .sessionOpened 7 .roomController [0x41] 480 540 .normal 1] := by decide +kernel
theorem test_lockedPairsEnumerate :
    (after (.pairLock .A .lane2)
      { fresh with chainA := { ChainCtl.reset with training := ⟨2, true, true, false, 3⟩ } }).chainA.state = .enumerating := by
  decide +kernel
theorem test_resetNDuringRun : (after .resetNLow oneSpeaks).power = .held .pin := by decide +kernel
theorem test_resetEnds :
    after (.resetEnd 2) { fresh with power := .held .pin } = Part.reset .pin 2 := by decide +kernel

/-! ## Figures of the spec -/

/-- R131: seats 5, 20, 45 and 63 in the three stripe modes. -/
theorem test_stripes :
    [Stripe.block, .pairs, .interleave].map (fun m =>
      [5, 20, 45, 63].map fun s => (({ fresh with director := { Director.reset with stripe := m } }).shotFor s).camera.val) =
      [[0, 1, 2, 3], [1, 0, 3, 3], [1, 0, 1, 3]] := by decide +kernel
/-- R13: 247 seconds are 4:07. -/
theorem test_minutesSeconds : minutesSeconds 247 = [0x34, 0x3A, 0x30, 0x37] := by decide +kernel
/-- R113: a sample of -1 at gain 16384 stays -1. -/
theorem test_gainRoundsDown : gained 16384 [-1] = [-1] := by decide +kernel

/-! ## Parts and operands that meet the hypotheses of the statements

One theorem per statement with hypotheses, in the order of the statements. `test_freshIsReady` and its like give the readiness that
most of them assume; the theorems here give the other hypotheses, clause by clause. -/

/-- The fresh part with another receiver state. -/
def receiving (rx : Receiver) (idle : Nat) : Part := { fresh with link := { fresh.link with rx := rx, rxIdle := idle } }

/-- The fresh part with these notices, this reply waiting and this frame being sent. -/
def sending (tx : Option Sending) (reply : Option Reply) (notices : List QueuedNotice) : Part :=
  { fresh with link := { fresh.link with tx := tx, reply := reply, notices := notices } }

/-- A notice. -/
def notice : Notice := .standbyChanged .awake

/-- A reply. -/
def answer (resets : Bool) : Reply := ⟨⟨0x84, 1, [0]⟩, false, resets⟩

/-- A part on which one step has fallen due. -/
def owing (o : Owed) (p : Part) : Part := { p with owed := [o] }

/-- A part at which one job of a second tick is left. -/
def within (j : TickJob) (p : Part) : Part := { p with tickJobs := [j] }

theorem witness_StepRunsFrontCommand : (on fresh).pending = [] := rfl

theorem witness_EveryCommandAnswersNext :
    ({ fresh with power := .held .request } : Part).power = .held .request ∧ Instr.rxTimeout ≠ .powerOn ∧
    Instr.rxTimeout ≠ .resetNLow ∧ ∀ straps, Instr.rxTimeout ≠ .resetEnd straps :=
  ⟨rfl, by decide, by decide, by decide⟩

theorem witness_CatchUpLeavesNothingDue : fresh.owed = [] ∧ fresh.tickJobs = [] := ⟨rfl, rfl⟩

theorem witness_MalformedRequestsAnswered :
    fresh.Ready ∧ isRequestKind 0x7F = false ∧ isRequestKind 0x80 = false ∧ isRequestKind 0x00 = false ∧
    ((Instr.wake 1 [0]).wf = true ∧ (Instr.wake 1 [0]).frame? = some ⟨0x13, 1, [0]⟩ ∧ requestLength 0x13 = some 0 ∧ [(0 : Byte)].length ≠ 0) ∧
    249 < (List.replicate 250 (0 : Byte)).length :=
  ⟨test_freshIsReady, by decide +kernel⟩

/-- Payloads that are cut, that go on, and whose reading stops (statement MalformedRequestsAnswered). -/
theorem witness_PayloadsReadAndStopped :
    (PayloadRead 0x0A (List.replicate 8 0 ++ textBytes [] ++ textBytes [1] ++ textBytes [] ++ List.replicate 24 0) ∧
      PayloadRead 0x16 ([5, 0, 16] ++ optBytes (fun c : Byte × Byte => [c.1, c.2]) (some (3, 64)) ++
        optBytes (fun i : Byte => [i]) none) ∧
      PayloadRead 0x18 (0 :: optBytes (fun d : Byte × Byte × Byte => [d.1, d.2.1, d.2.2]) none) ∧
      PayloadRead 0x1A (5 :: textBytes [0x41]) ∧ PayloadRead 0x25 [4] ∧
      PayloadRead 0x35 (0 :: 3 :: (List.replicate 8 [3]).flatten) ∧ PayloadRead 0x35 (1 :: List.replicate 11 0) ∧
      PayloadRead 0x36 [7, 0] ∧ PayloadRead 0x36 [7, 1, 2, 1, 0]) ∧
    ((Instr.setName 1 [5, 1]).wf = true ∧ (Instr.setName 1 [5, 1]).frame? = some ⟨0x1A, 1, [5, 1]⟩ ∧
      [(5 : Byte), 1] <+: 5 :: textBytes [0x41] ∧ [7, 0] <+: [(7 : Byte), 0, 0]) ∧
    (PayloadStops 0x16 [5, 0, 16, 2] ∧ PayloadStops 0x18 [0, 2] ∧ PayloadStops 0x25 [5] ∧ PayloadStops 0x35 [2] ∧
      PayloadStops 0x35 [0, 3, 4] ∧ PayloadStops 0x36 [7, 2] ∧ PayloadStops 0x36 [7, 1, 1, 2] ∧
      (Instr.getFloor 1 [5]).wf = true ∧ (Instr.getFloor 1 [5]).frame? = some ⟨0x25, 1, [5]⟩) :=
  ⟨⟨.addBooking _ _ _ _ _ rfl (by decide) (by decide) (by decide) rfl, .setSeat _ _ _ _ _, .setZone _ _,
      .setName _ _ (by decide), .getFloor _ (by decide),
      .setPlan _ _ rfl (fun m h => by rw [List.eq_of_mem_replicate h]; exact .auto), .setSetup _ rfl, .clearScreen _,
      .setScreen _ _ (.followShare _ _)⟩, by decide +kernel,
    .camera _ _ _ _ _ (by decide), .zone _ _ _ (by decide), .floorPart _ _ (by decide), .planPart _ _ (by decide),
    .planMode _ [] _ (by decide) nofun (.selector _ _ (by decide)), .screen _ _ _ (by decide),
    .screenMode _ _ (.zone _ _ (by decide)), rfl, rfl⟩

theorem witness_RefusalChangesNothing :
    fresh.Ready ∧ (Instr.close 1 [0]).frame? = some ⟨0x21, 1, [0]⟩ ∧
    exec (.close 1 [0]) (on fresh) = .next (on (after (.close 1 [0]) fresh)) ∧
    (after (.close 1 [0]) fresh).link.reply = some ⟨⟨0xA1, 1, 8 :: []⟩, false, false⟩ ∧ (8 : Byte) ≠ 0 :=
  ⟨test_freshIsReady, rfl, rfl, by decide +kernel⟩

theorem witness_FrameSpellsItsRequest :
    (Instr.close 1 [0]).wf = true ∧ (Instr.close 1 [0]).frame? = some ⟨0x21, 1, [0]⟩ ∧
    (Instr.unknownKindRequest 0x3F 1 [0]).wf = true ∧
    (Instr.unknownKindRequest 0x3F 1 [0]).frame? = some ⟨0x3F, 1, [0]⟩ := by decide +kernel

theorem witness_SentFrameIsReceived :
    (List.replicate 250 (0 : Byte)).length ≤ 250 ∧ (fresh.link).rx = .hunt ∧
    (List.replicate 3 (⟨0x13, 0, []⟩ : Frame)).length < 4 := by decide +kernel

theorem witness_ReceiverTakesCharacters :
    (receiving .hunt 0).Quiet ∧ (receiving .length 0).Quiet ∧
    (receiving (.body 1 [0x01, 0x22, 0x33, 0x44]) 0).Quiet ∧
    ((0xA4 : Byte) ≠ 0xA5 ∧ (250 : Byte).toNat ≤ 250 ∧ 250 < (251 : Byte).toNat) ∧
    (([] : List Byte).length + 1 < (0 : Byte).toNat + 4 ∧ ([1, 2] : List Byte).length + 1 < (0 : Byte).toNat + 4) ∧
    (receiving (.body 1 [0x01, 0x22, 0x33, 0x44]) 0).link.rx = .body 1 (0x01 :: 0x22 :: [0x33] ++ [0x44]) ∧
    (receiving .length 0).link.rx ≠ .hunt ∧
    (owing .receiveTimeout (receiving .length 5)).power = .running ∧
    (owing .receiveTimeout (receiving .length 5)).owed = .receiveTimeout :: [] ∧
    5 ≤ (owing .receiveTimeout (receiving .length 5)).link.rxIdle :=
  ⟨⟨rfl, rfl, rfl⟩, ⟨rfl, rfl, rfl⟩, ⟨rfl, rfl, rfl⟩, by decide +kernel⟩

theorem witness_RequestBuffer :
    (Instr.wake 1 []).wf = true ∧ (Instr.wake 1 []).frame? = some ⟨0x13, 1, []⟩ ∧
    (sending none (some (answer false)) []).Quiet ∧ (sending none (some (answer false)) []).link.free = false ∧
    ({ fresh with link := { fresh.link with buffer := [⟨0x13, 1, []⟩] } } : Part).Quiet ∧
    ({ fresh with link := { fresh.link with buffer := [⟨0x13, 1, []⟩] } } : Part).link.free = true :=
  ⟨by decide +kernel, rfl, ⟨rfl, rfl, rfl⟩, rfl, ⟨rfl, rfl, rfl⟩, rfl⟩

theorem witness_TransmitterSendsFrames :
    ((sending none (some (answer false)) []).Quiet ∧ (sending none (some (answer false)) []).link.reply = some (answer false)) ∧
    ((sending none none [⟨notice, false⟩]).Quiet ∧ (sending none none [⟨notice, false⟩]).link.notices = ⟨notice, false⟩ :: []) ∧
    ((sending none none [⟨notice, true⟩]).Quiet ∧ (sending none none [⟨notice, true⟩]).link.notices = ⟨notice, true⟩ :: []) ∧
    ((sending (some (.reply (answer false) [])) none []).Quiet ∧
      (sending (some (.reply (answer false) [])) none []).link.tx = some (.reply (answer false) []) ∧
      (answer false).resets = false) ∧
    (sending (some (.notice notice [])) none []).Quiet ∧
    (sending (some (.notice notice [])) none []).link.tx = some (.notice notice []) ∧
    (let p := sending none (some (answer false)) [⟨notice, true⟩]
     p.Quiet ∧ p.link.reply = some (answer false) ∧ p.link.notices = ⟨notice, true⟩ :: [] ∧ notice.kind ≠ 0x40) ∧
    (let first : Notice := .started .powerOn 1 0x6408 0
     let p := sending none (some (answer false)) [⟨first, false⟩]
     p.Quiet ∧ p.link.reply = some (answer false) ∧ p.link.notices = ⟨first, false⟩ :: [] ∧ first.kind = 0x40) :=
  ⟨⟨⟨rfl, rfl, rfl⟩, rfl⟩, ⟨⟨rfl, rfl, rfl⟩, rfl⟩, ⟨⟨rfl, rfl, rfl⟩, rfl⟩, ⟨⟨rfl, rfl, rfl⟩, rfl, rfl⟩, ⟨rfl, rfl, rfl⟩, rfl,
    ⟨⟨rfl, rfl, rfl⟩, rfl, rfl, by decide⟩, ⟨⟨rfl, rfl, rfl⟩, rfl, rfl, rfl⟩⟩

/-- STARTED is the first frame after a reset, also when a request has been answered meanwhile (R200). -/
theorem test_startedGoesFirst :
    let p := after .transmitFrameStart (after (.ping 9 []) (after (.resetEnd 0) (after .powerOn meeting)))
    (p.link.tx = some (.notice (.started .powerOn 1 0x6408 0) (frameBytes ⟨0x40, 0, [0, 0, 1, 0x64, 0x08, 0]⟩))) ∧
      replied p = some (0x81, [0]) := by decide +kernel

theorem witness_NoticeQueue :
    (fresh.link.enabled notice = true ∧ (List.replicate 31 (⟨notice, false⟩ : QueuedNotice)).length < 32 ∧
      32 ≤ (List.replicate 32 (⟨notice, false⟩ : QueuedNotice)).length) ∧
    ({ fresh.link with mask := 1 } : Link).enabled notice = false ∧
    (sending none none [⟨notice, false⟩]).link.tx = none ∧ (sending none none [⟨notice, false⟩]).link.reply = none := by
  decide +kernel

theorem witness_PingAndInfo : fresh.Ready ∧ (List.replicate 249 (0 : Byte)).length ≤ 249 := ⟨test_freshIsReady, by decide +kernel⟩

theorem witness_StatsAndMask :
    fresh.Ready ∧ (1 < 2 ∧ 255 < 256) ∧ (0 < 2 ^ 18 ∧ 2 ^ 18 - 1 < 2 ^ 18 ∧ ¬2 ^ 18 < 2 ^ 18 ∧ 2 ^ 32 - 1 < 2 ^ 32) :=
  ⟨test_freshIsReady, by decide⟩

theorem witness_ResetEvents :
    fresh.Ready ∧ (sending (some (.reply (answer true) [])) none []).Quiet ∧ (answer true).resets = true ∧
    fresh.power = .running ∧ ({ fresh with power := .held .powerOn } : Part).power = .held .powerOn ∧
    ({ fresh with power := .held .pin } : Part).power = .held .pin ∧
    ({ fresh with power := .held .request } : Part).power = .held .request :=
  ⟨test_freshIsReady, ⟨rfl, rfl, rfl⟩, rfl, rfl, rfl, rfl, rfl⟩

theorem witness_ZoneDefinition :
    fresh.Ready ∧ ({ fresh with zones := [some ⟨32, 47, 2⟩] } : Part).zones.getD 0 none = some ⟨32, 47, 2⟩ ∧
    fresh.zones.getD 7 none = none ∧ (7 < 256 ∧ 8 < 256 ∧ 63 < 256 ∧ 4 < 256) :=
  ⟨test_freshIsReady, by decide +kernel⟩

/-- R7 at the boundary of a zone: seats 32 and 46 belong to the zone 32-47 of stride 2, seats 33, 47 and 48 do not. -/
theorem test_zone : ((List.range 64).filter fun s => (⟨32, 47, 2⟩ : Zone).has (Fin.ofNat 64 s)) =
    [32, 34, 36, 38, 40, 42, 44, 46] := by decide +kernel

theorem witness_SeatSettingsReplaced :
    fresh.Ready ∧ (63 < 256 ∧ 1 < 256 ∧ 16 < 256) ∧ (∀ c ∈ some ((3 : Nat), (64 : Nat)), c.1 < 256 ∧ c.2 < 256) ∧
    ∀ i ∈ some (16 : Nat), i < 256 :=
  ⟨test_freshIsReady, by decide, by decide, by decide⟩

theorem witness_NameReplaced :
    fresh.Ready ∧ (63 : Nat) ≤ 63 ∧ Text.fits (List.replicate 24 0x7E) ∧ ¬((0 : Nat) ≤ 63 ∧ Text.fits (List.replicate 25 0x20)) ∧
    ¬((64 : Nat) ≤ 63 ∧ Text.fits []) :=
  ⟨test_freshIsReady, by decide, ⟨by decide, by decide⟩, fun h => absurd h.2.1 (by decide), fun h => absurd h.1 (by decide)⟩

theorem witness_StandingChanged :
    fresh.Ready ∧ (63 < 64 ∧ 255 < 256) ∧ fresh.isOpen = false ∧ meeting.Ready ∧ meeting.isOpen = true ∧
    ({ meeting with seats := List.replicate 4 { SeatRec.reset with standing := .chair } } : Part).isOpen = true ∧
    4 ≤ ((List.replicate 4 { SeatRec.reset with standing := .chair }).filter fun r => r.standing = .chair).length ∧
    (meeting.seat 0).standing = .delegate ∧ (meeting.seat 63).standing = .out ∧
    (meeting.seats.filter fun r => r.standing = .chair).length < 4 ∧
    (meeting.floor.stack.any fun r => r.saved.any fun e => e.seat = 0) = false ∧
    (oneSpeaks.floor.speakers.find? fun e => e.seat = 0) = some (entry 0 .delegate 0 0 (some 30)) ∧
    oneSpeaks.link.mask.getLsbD 7 = true ∧ oneSpeaks.link.notices.length < 32 ∧ Standing.out ≠ .chair :=
  ⟨test_freshIsReady, by decide, rfl, test_meetingIsReady, by decide +kernel⟩

theorem witness_IndicatorsDerived :
    meeting.seats.length = 64 ∧ fresh.seats.length = 64 ∧ fresh.ringOf 5 = (fresh.seat 5).ring ∧
    fresh.nameLineOf 5 = (fresh.seat 5).nameLine ∧ fresh.statusLineOf 5 = (fresh.seat 5).statusLine ∧
    (fresh.seat 5).link ≠ .present ∧ fresh.sched.standby = .awake ∧
    (oneSpeaks.floor.speakers.find? fun e => e.seat = 0).bind Speaker.remaining = some 30 ∧
    (oneWaits.floor.queue.findIdx? fun e => e.seat = 1) = some 0 ∧
    ({ session with warned := true } : Session).warned = true ∧ session.warned = false ∧
    ((meeting.seat 0).link = .present ∧ meeting.ringOf 0 ≠ (meeting.seat 0).ring) ∧
    (oneSpeaks.statusLineOf 0 ≠ (oneSpeaks.seat 0).statusLine ∧ (oneSpeaks.seat 0).unitType = some .presenter) ∧
    (oneWaits.statusLineOf 1 ≠ (oneWaits.seat 1).statusLine ∧ (oneWaits.seat 1).link = .present ∧
      (oneWaits.seat 1).unitType ≠ some .nameplate ∧ (oneWaits.seat 1).unitType ≠ some .presenter) := by decide +kernel

theorem witness_PressesRouted :
    ((meeting.seat 4).link ≠ .present ∧ (meeting.seat 0).link = .present) ∧
    ((let p := sharing none none none
     let unit := p.seat 0
     p.isOpen = true ∧ unit.link = .present ∧ unit.unitType = some .presenter ∧ unit.input.isSome = true ∧ unit.signal = true ∧
       unit.standing = .delegate ∧ p.screens.requiresFloor = false ∧ p.screens.slot1 = none ∧ p.screens.slot2 = none ∧
       (p.seat 1).unitType ≠ some .presenter) ∧
    (share1.seat ≠ 0 ∧ share2.seat ≠ 0 ∧ (sharing (some share1) none none).screens.slot1 ≠ none ∧
      (sharing (some share1) none none).screens.slot2 = none) ∧
    (let v := (sharing (some share1) (some share2) (some .one)).screens
     v.slot1 = some share1 ∧ v.slot2 = some share2 ∧ v.policy = .takeover ∧ v.older = some .one) ∧
    (sharing (some share1) (some share2) (some .two)).screens.older = some .two ∧
    ((sharing (some ⟨0, 16, 1, .button⟩) none none).screens.slot1 = some ⟨0, 16, 1, .button⟩ ∧
      (sharing (some share1) (some ⟨0, 16, 1, .button⟩) none).screens.slot2 = some ⟨0, 16, 1, .button⟩)) ∧
    meeting.Ready ∧
    (({ meeting with presses := [⟨0, .speak⟩] } : Part).Quiet ∧
      (({ meeting with presses := [⟨0, .speak⟩] } : Part).presses.find? fun n => n.seat = 0) = some ⟨0, .speak⟩) ∧
    (63 < 64 ∨ 1 < 1 ∨ 1 = 0 ∨ 3 < 1) ∧ (63 < 0 ∨ 1 < 2 ∨ 1 = 0 ∨ 3 < 1) ∧ (63 < 0 ∨ 1 < 0 ∨ 4 = 0 ∨ 3 < 4) ∧
    fresh.isOpen = false ∧
    (meeting.isOpen = true ∧ (meeting.seat 3).standing = .listener ∧ (meeting.seat 63).standing = .out ∧
      (meeting.seat 2).standing = .chair ∧ meeting.speaking 2 = false ∧
      (speaking [entry 2 .chair 0 0 none]).speaking 2 = true) ∧
    (oneSpeaks.speaking 0 = true ∧ (oneSpeaks.seat 0).standing = .delegate) ∧
    (oneWaits.speaking 1 = false ∧ oneWaits.isQueued 1 = true) ∧
    (oneWaits.speaking 32 = false ∧ oneWaits.isQueued 32 = false ∧ oneWaits.isHeldPress 32 = true) ∧
    (meeting.speaking 0 = false ∧ meeting.isQueued 0 = false ∧ meeting.isHeldPress 0 = false ∧ meeting.floor.stack = [] ∧
      meeting.floor.preset.mode = .queued ∧ { FloorPreset.reset with mode := .direct }.mode ≠ .queued) ∧
    [(⟨.controller, false, []⟩ : ResumeFrame)] ≠ [] ∧
    (oneSpeaks.floor.speakers.find? fun e => e.seat = 0) = some (entry 0 .delegate 0 0 (some 30)) ∧
    (meeting.floor.speakers.find? fun e => e.seat = 0) = none ∧
    ([0, 1, 2].map fun n => (meeting.floor.onsets.set 0 n).getD 0 0) = [0, 1, 2] :=
  ⟨by decide +kernel, by decide +kernel, test_meetingIsReady, ⟨⟨rfl, rfl, rfl⟩, by decide +kernel⟩, by decide +kernel⟩

theorem witness_ClockSet :
    fresh.Ready ∧ (65535 < 65536 ∧ 1439 < 65536 ∧ 59 < 256 ∧ 60 < 256) ∧
    meeting.activeBooking = some morning ∧ meeting.now < morning.start + morning.duration ∧
    ({ meeting with sched := { meeting.sched with clock := ⟨0, 540, 0⟩ } } : Part).activeBooking = some morning ∧
    morning.start + morning.duration ≤ ({ meeting with sched := { meeting.sched with clock := ⟨0, 540, 0⟩ } } : Part).now ∧
    fresh.sched.session = none ∧ meeting.sched.session = some session ∧
    (let p := { fresh with sched := { meeting.sched with session := none, bookings := [{ morning with state := .pending }] } }
     p.sched.session = none ∧ p.sched.bookings = { morning with state := .pending } :: [] ∧ morning.start ≤ p.now ∧
       p.now < morning.start + morning.duration) ∧
    (fresh.activeBooking = none ∧ fresh.sched.bookings = [] ∧ morning.state = .active ∧ fresh.now < morning.start) ∧
    (let ending (warned : Bool) (minute : Nat) : Part := { meeting with
       sched := { meeting.sched with clock := ⟨0, minute, 0⟩, session := some { session with warned := warned } } }
     (ending true 534).activeBooking = some morning ∧ morning.warning < 540 - (ending true 534).now ∧
       540 - (ending true 535).now ≤ morning.warning ∧ 0 < morning.warning ∧
       540 ≤ (ending false 535).now + morning.warning ∧ (ending false 534).now + morning.warning < 540 ∧
       (ending false 534).sched.session = some session) :=
  ⟨test_freshIsReady, by decide +kernel⟩

/-- A floor preset within Table 2-1, at its bounds. -/
theorem test_floorPresetFits : FloorPreset.reset.Fits ∧
    ({ FloorPreset.reset with limit := 8, speechLimit := 3600, warnLead := 120, voiceHold := 30, chairBias := 4 } :
      FloorPreset).Fits ∧ ¬({ FloorPreset.reset with limit := 9 } : FloorPreset).Fits :=
  ⟨⟨by decide, by decide, by decide, by decide, by decide⟩, ⟨by decide, by decide, by decide, by decide, by decide⟩,
    fun h => absurd h.limit (by decide)⟩

/-- A mixing preset within Table 2-1, at its bounds. -/
theorem test_mixPresetFits : MixPreset.reset.Fits ∧ (⟨32767, 3, 10, 255, 255, 3⟩ : MixPreset).Fits ∧
    ¬(⟨32768, 3, 10, 255, 255, 3⟩ : MixPreset).Fits :=
  ⟨⟨by decide, by decide, by decide, by decide, by decide, by decide⟩,
    ⟨by decide, by decide, by decide, by decide, by decide, by decide⟩, fun h => absurd h.gate (by decide)⟩

/-- A booking that passes line 1 of R21. -/
def afternoon : Booking := { morning with id := 8, start := 800, roster := [], state := .pending }

/-- A room clock at 08:30 with 16 bookings on the next day. -/
def packed : Part :=
  { fresh with
    sched := { Scheduler.reset with
      clock := ⟨0, 510, 0⟩
      valid := true
      bookings := (List.range 16).map fun k => { afternoon with id := 100 + k, start := 1440 + 60 * k } } }

/-- Bytes that spell no floor preset: the mode is out of range. -/
theorem test_floorBytesOutOfRange (f : FloorPreset) : floorBytes f ≠ List.replicate 13 255 := by
  intro h
  have first : BitVec.ofNat 8 f.mode.ctorIdx = 255 := by simpa [floorBytes, u8, List.replicate] using congrArg List.head? h
  revert first
  cases f.mode <;> decide

/-- Bytes that spell no mixing preset: the duck distance is out of range. -/
theorem test_mixBytesOutOfRange (m : MixPreset) (fits : m.Fits) : mixBytes m ≠ List.replicate 7 255 := by
  intro h
  have last : BitVec.ofNat 8 m.duck = 255 := by
    have := congrArg (fun l => l[6]?) h
    simpa [mixBytes, u16, u8, List.replicate] using this
  have := congrArg BitVec.toNat last
  have := fits.duck
  simp at *
  omega

theorem witness_BookingAdded :
    fresh.Ready ∧ afternoon.Fits ∧ meeting.Ready ∧
    (¬(∃ z ∈ afternoon.roster, meeting.zones.getD z.val none = none) ∧ ¬(∃ x ∈ meeting.sched.bookings, x.id = afternoon.id)) ∧
    (∃ z ∈ [(0 : Fin 8)], meeting.zones.getD z.val none = none) ∧ (∃ x ∈ meeting.sched.bookings, x.id = 7) ∧
    (∃ x ∈ meeting.sched.bookings, 500 < x.start + x.duration ∧ x.start < 500 + 30) ∧ 400 + 30 ≤ meeting.now ∧
    (meeting.activeBooking = some morning ∧ 400 < morning.start ∧
      ¬∃ x ∈ meeting.sched.bookings, 400 < x.start + x.duration ∧ x.start < 400 + 30) ∧
    (packed.Ready ∧ 16 ≤ packed.sched.bookings.length ∧ ¬(∃ x ∈ packed.sched.bookings, x.id = afternoon.id) ∧
      ¬(∃ x ∈ packed.sched.bookings, 800 < x.start + x.duration ∧ x.start < 800 + 60) ∧ packed.activeBooking.isNone = true ∧
      ¬afternoon.start + afternoon.duration ≤ packed.now ∧ afternoon.start = 800 ∧ afternoon.duration = 60) ∧
    ((floorBytes .reset).length = 13 ∧ (mixBytes .reset).length = 7 ∧ (List.replicate 5 0).length < 256) ∧
    (∀ f : FloorPreset, f.Fits → floorBytes f ≠ List.replicate 13 255) ∧
    (∀ m : MixPreset, m.Fits → mixBytes m ≠ List.replicate 7 255) ∧
    (1439 < 1440 ∧ 4 < 5 ∧ 720 < 721 ∧ Config.lastRoomMinute < 65535 * 1440 + 1435 + 5 ∧ 7 < 8 ∧ 63 < 64 ∧ 3 < 4 ∧ 1 < 2 ∧
      30 < 31 ∧ 15 < 16) :=
  ⟨test_freshIsReady,
    ⟨by decide, by decide, by decide, ⟨by decide, by decide⟩, by decide, by decide, test_floorPresetFits.1,
      test_mixPresetFits.1, by decide, by decide, rfl, rfl⟩, test_meetingIsReady, by decide +kernel, by decide +kernel,
    by decide +kernel, by decide +kernel, by decide +kernel, by decide +kernel, ⟨⟨⟨rfl, rfl, rfl⟩, rfl, rfl⟩, by decide +kernel⟩,
    by decide +kernel, fun f _ => test_floorBytesOutOfRange f, test_mixBytesOutOfRange, by decide +kernel⟩

theorem witness_BookingRemoved :
    fresh.Ready ∧ (65535 < 65536) ∧ (∀ b ∈ fresh.sched.bookings, b.id ≠ 0) ∧ meeting.Ready ∧
    (meeting.sched.bookings.find? fun x => x.id = 7) = some morning ∧ morning.state = .active ∧ meeting.isOpen = true ∧
    ([afternoon].find? fun x => x.id = 8) = some afternoon ∧ afternoon.state = .pending :=
  ⟨test_freshIsReady, by decide, by decide +kernel, test_meetingIsReady, by decide +kernel⟩

theorem witness_BookingExtended :
    meeting.Ready ∧ (0 = 0 ∨ 240 < 241) ∧ (1 ≤ 240 ∧ 240 ≤ 240) ∧ (∀ b ∈ fresh.activeBooking, b.id ≠ 7 ∨ fresh.isOpen = false) ∧
    meeting.activeBooking = some morning ∧ morning.id = 7 ∧ meeting.isOpen = true :=
  ⟨test_meetingIsReady, by decide, by decide, by decide +kernel, by decide +kernel⟩

theorem witness_SessionRequests :
    fresh.Ready ∧ fresh.sched.session = none ∧ meeting.Ready ∧ meeting.sched.session = some session ∧
    session.checkedIn = false ∧ ({ session with checkedIn := true } : Session).checkedIn = true :=
  ⟨test_freshIsReady, rfl, test_meetingIsReady, rfl, rfl, rfl⟩

/-- Bytes that spell no room defaults: the mode of the floor preset is out of range. -/
theorem test_defaultsBytesOutOfRange (k : RoomDefaults) : k.payload ≠ List.replicate 25 255 := by
  intro h
  refine test_floorBytesOutOfRange k.floor ?_
  have := congrArg (List.take 13) h
  simpa [RoomDefaults.payload, floorBytes, flagBytes, u8, u16, List.replicate] using this

theorem witness_RoomSettingsReplaced :
    fresh.Ready ∧ RoomDefaults.reset.Fits ∧ ¬({ RoomDefaults.reset with adhocMinimum := 31 } : RoomDefaults).Fits ∧
    (240 < 241 ∧ 240 ≤ 240 ∧ 255 < 256 ∧ 1 < 2) ∧ meeting.isOpen = true ∧ fresh.isOpen = false ∧
    (List.replicate 25 (255 : Byte)).length = 25 ∧ (∀ k : RoomDefaults, k.Fits → k.payload ≠ List.replicate 25 255) :=
  ⟨test_freshIsReady, ⟨test_floorPresetFits.1, test_mixPresetFits.1, by decide, by decide, by decide⟩,
    fun h => absurd h.minimum.2.1 (by decide), by decide, rfl, rfl, rfl, fun k _ => test_defaultsBytesOutOfRange k⟩

theorem witness_StandbyEntryAndWake :
    fresh.sched.standby = .awake ∧ ({ fresh with sched := { fresh.sched with standby :=
      .standby } } : Part).sched.standby = .standby ∧
    fresh.sched.session = none ∧
    (let p := within .standbyEnd { fresh with sched := { fresh.sched with timer := some 0 } }
     p.power = .running ∧ p.tickJobs = [.standbyEnd] ∧ p.sched.standby = .awake ∧ p.sched.session = none ∧ 0 < p.sched.delay ∧
       p.sched.timer = some 0 ∧ ¬(p.sched.valid = true ∨ p.presses ≠ [] ∨ p.link.wakePending = true)) ∧
    (let p := { fresh with sched := { waiting with valid := true, clock := ⟨0, 465, 0⟩ } }
     p.sched.valid = true ∧ (p.sched.bookings.find? fun b => b.state = .pending) = some { morning with state := .pending } ∧
       morning.start ≤ p.now + 15 ∧ ¬morning.start ≤ p.now + 14) ∧
    fresh.seats.length = 64 ∧ fresh.screens.screens[(7 : Fin 8).val]? = some ⟨.internal, none, .signage⟩ := by decide +kernel

theorem witness_SessionOpens :
    fresh.seats.length = 64 ∧ fresh.sched.session = none ∧ (2 ∈ morning.chairs ∧ 3 ∉ morning.chairs) ∧
    (let p := { fresh with zones := [some ⟨32, 47, 2⟩] }
     p.zones.getD (0 : Fin 8).val none = some ⟨32, 47, 2⟩ ∧ (32 : Seat) ≤ 46 ∧ (46 : Seat) ≤ 47 ∧ 2 ∣ 46 - 32 ∧ ¬2 ∣ 47 - 32 ∧
       (p.seat 46).role = .member ∧ ({ SeatRec.reset with role := .observer } : SeatRec).role = .observer) ∧
    (let later : Booking := { afternoon with id := 9 }
     (∀ x ∈ [afternoon, later], (x.id = afternoon.id → x = afternoon) ∧ (x.id ≠ afternoon.id → x.state = .pending)) ∧
       afternoon ∈ [afternoon, later]) ∧ (meeting.chain .A).state = .active ∧ (fresh.chain .A).state ≠ .active ∧
    fresh.screens.screens[(7 : Fin 8).val]? = some ⟨.internal, none, .signage⟩ := by decide +kernel

/-- The title of a booking that opens becomes the pending broadcast of an ACTIVE chain alone (R181). -/
theorem test_openingTellsTitle :
    let p := { fresh with sched := waiting, chainA := active }.openSession { morning with state := .pending }
    p.chainA.broadcast = some [0x41] ∧ p.chainB.broadcast = none := by decide +kernel
theorem test_closingTellsNoTitle : (after (.endSession 9 []) oneSpeaks).chainA.broadcast = some [] := by decide +kernel

theorem witness_SessionCloses :
    (meeting.chain .A).state = .active ∧ meeting.sched.session = some session ∧ meeting.mixer.channels.length = 12 ∧ meeting.mixer.ducks.length = 64 ∧
    meeting.mixer.loud.length = 64 := by decide +kernel

theorem witness_ClockTicks :
    (1439 ≤ 1439 ∧ 59 ≤ 59 ∧ 65535 ≤ 65535) ∧
    ((owing (.tick false) meeting).power = .running ∧ (owing (.tick false) meeting).tickJobs = [] ∧
      (owing (.tick false) meeting).owed = .tick false :: []) ∧
    (owing .boundary meeting).owed = .boundary :: [] ∧ (owing .wrap meeting).owed = .wrap :: [] ∧ fresh.isOpen = false ∧
    (Scheduler.reset.completions = 0 ∧ ({ Scheduler.reset with completions := 999 } : Scheduler).completions ≠ 0 ∧
      ({ Scheduler.reset with clock := ⟨65535, 1439, 59⟩ } : Scheduler).clock = ⟨65535, 1439, 59⟩ ∧
      ({ Scheduler.reset with clock := ⟨0, 0, 59⟩ } : Scheduler).clock.second = 59) := by decide +kernel

theorem witness_ReadingRequests :
    fresh.Ready ∧ fresh.taken.sched.session = none ∧ meeting.Ready ∧ meeting.taken.sched.session = some session ∧
    meeting.taken.activeBooking = some morning ∧ (4 < 5 ∧ 255 < 256) ∧ (63 < 64 ∧ 1 < 2 ∧ 3 < 4) :=
  ⟨test_freshIsReady, rfl, test_meetingIsReady, rfl, by decide +kernel⟩

/-- The meeting with a speaker limit of 1 that seat 32 uses up, in a mode and with an overflow policy. -/
def full (mode : Mode) (overflow : Overflow) : Part :=
  { speaking [entry 32 .delegate 0 0 none] with
    floor := { Floor.reset with
      speakers := [entry 32 .delegate 0 0 none], preset := { FloorPreset.reset with limit := 1, mode := mode, overflow :=
        overflow } } }

theorem test_fullIsReady (mode : Mode) (overflow : Overflow) : (full mode overflow).Ready := ⟨⟨rfl, rfl, rfl⟩, rfl, rfl⟩

theorem witness_GrantAnswered :
    meeting.Ready ∧ fresh.Ready ∧ (63 < 64 ∧ 255 < 256) ∧
    (let p := meeting.taken
     p.isOpen = true ∧ ((p.seat 0).link = .present ∧ (p.seat 0).standing = .delegate) ∧ p.speaking 0 = false ∧
       p.floor.delegates < p.floor.preset.limit ∧ (p.freeLane (chainOf 0)).isSome = true ∧
       (p.seat 2).standing = .chair ∧ (p.seat 4).link ≠ .present ∧ (p.seat 3).standing = .listener) ∧
    oneSpeaks.taken.speaking 0 = true ∧
    (¬((full .direct .queue).taken.floor.delegates < (full .direct .queue).taken.floor.preset.limit) ∧
      (full .queued .queue).floor.preset.mode = .queued ∧ (full .direct .queue).floor.preset.mode ≠ .queued ∧
      (full .direct .queue).taken.isQueued 0 = false ∧ (full .direct .queue).taken.floor.queue.length < 32 ∧
      (full .direct .replaceOldest).taken.replaced 0 = some (entry 32 .delegate 0 0 none) ∧
      (full .direct .deny).floor.preset.overflow = .deny) ∧
    (let p := { full .direct .replaceOldest with
       floor := { (full .direct .replaceOldest).floor with queue := [⟨0, 1, .button⟩] } }
     p.isQueued 0 = true ∧ ¬p.floor.delegates < p.floor.preset.limit) ∧
    (let lanes (n : Nat) := { speaking [entry 0 .delegate 0 0 none, entry 2 .chair 1 1 none, entry 1 .delegate 2 2 none] with
       chainA := { active with pairs := some n } }
     ((lanes 2).floor.speakers.map Speaker.seat).Nodup ∧ ((lanes 2).freeLane .A).isSome = true ∧
       ((lanes 0).freeLane .A).isSome = false ∧ chainOf 5 = .A ∧
       (lanes 0).floor.speakers = [entry 0 .delegate 0 0 none, entry 2 .chair 1 1 none] ++ entry 1 .delegate 2 2 none :: [] ∧
       (lanes 0).floor.speakers = [] ++ entry 0 .delegate 0 0 none :: [entry 2 .chair 1 1 none, entry 1 .delegate 2 2 none] ∧
       (entry 1 .delegate 2 2 none).kind = .delegate ∧ chainOf 1 = .A ∧
       (∀ e ∈ [entry 2 .chair 1 1 none], e.kind ≠ .delegate)) ∧
    (let p := oneWaits
     p.floor.queue.length ≤ 32 ∧ (p.isOpen = true ∧ p.floor.preset.autoAdvance = true ∧ p.floor.stack = [] ∧
       p.floor.delegates < p.floor.preset.limit) ∧ p.floor.queue = [] ++ ⟨1, 1, .button⟩ :: [] ∧
       p.freeLane (chainOf 1) ≠ none ∧ fresh.isOpen = false ∧ fresh.floor.queue = []) :=
  ⟨test_meetingIsReady, test_freshIsReady, by decide, by decide +kernel⟩

theorem witness_CloseAnswered :
    fresh.taken.isOpen = false ∧ oneSpeaks.taken.isOpen = true ∧ oneSpeaks.taken.speaking 63 = false ∧
    oneSpeaks.taken.speaking 0 = true ∧ oneSpeaks.Ready ∧ (63 < 64 ∧ 255 < 256) :=
  ⟨rfl, rfl, by decide +kernel, by decide +kernel, test_oneSpeaksIsReady, by decide⟩

theorem witness_EnqueueAnswered :
    meeting.Ready ∧ fresh.taken.isOpen = false ∧
    (let p := meeting.taken
     p.isOpen = true ∧ (p.seat 2).standing ≠ .delegate ∧ ((p.seat 0).link = .present ∧ (p.seat 0).standing = .delegate) ∧
       ¬(p.speaking 0 = true ∨ p.isQueued 0 = true) ∧ p.floor.queue.length < 32) ∧
    oneWaits.taken.isQueued 1 = true ∧ 32 ≤ (List.replicate 32 (⟨1, 1, .button⟩ : QueueEntry)).length :=
  ⟨test_meetingIsReady, rfl, by decide +kernel⟩

theorem witness_QueueEditsAnswered :
    oneWaits.Ready ∧ fresh.taken.isOpen = false ∧
    (let p := oneWaits.taken
     p.isOpen = true ∧ (p.isQueued 0 = false ∧ p.isHeldPress 0 = false) ∧ p.isQueued 1 = true ∧
       (p.isQueued 32 = false ∧ p.isHeldPress 32 = true) ∧
       (p.floor.queue.find? fun e => e.seat = 1) = some ⟨1, 1, .button⟩) ∧
    exec (.dequeue 9 [1]) (on oneWaits) = .next (on (after (.dequeue 9 [1]) oneWaits)) ∧
    (63 < 64 ∨ 1 = 0) ∧ (63 < 0 ∨ 0 = 0) ∧ (1 ≤ 255 ∧ 255 ≤ 255) :=
  ⟨test_oneWaitsIsReady, rfl, by decide +kernel, rfl, by decide⟩

theorem witness_FloorPresetReplaced :
    fresh.Ready ∧ meeting.Ready ∧ FloorPreset.reset.Fits ∧ fresh.isOpen = false ∧ meeting.isOpen = true ∧
    ¬({ FloorPreset.reset with limit := 9 } : FloorPreset).Fits ∧ (9 < 256 ∧ 0 < 65536) ∧
    (List.replicate 13 (255 : Byte)).length = 13 ∧ (∀ f : FloorPreset, f.Fits → floorBytes f ≠ List.replicate 13 255) :=
  ⟨test_freshIsReady, test_meetingIsReady, test_floorPresetFits.1, rfl, rfl, test_floorPresetFits.2.2, by decide, rfl,
    fun f _ => test_floorBytesOutOfRange f⟩

/-- The meeting with priority held by the room controller, in a newest frame or under the frame of a chair. -/
def held (stack : List ResumeFrame) (holders : List (Holder × Condition)) : Part :=
  { meeting with floor := { Floor.reset with stack := stack, holders := holders } }

theorem witness_PriorityRequests :
    fresh.taken.isOpen = false ∧ meeting.Ready ∧ meeting.taken.isOpen = true ∧
    ¬((meeting.taken.floor.holders.any fun h => h.1 = .controller) = true) ∧
    ¬((meeting.taken.floor.stack.any fun r => r.holder = .controller && r.released) = true) ∧
    ((held [] [(.controller, .unframed)]).floor.holders.any fun h => h.1 = .controller) = true ∧
    ((held [⟨.seat 2, false, []⟩, ⟨.controller, true,
      []⟩] []).floor.stack.any fun r => r.holder = .controller && r.released) = true ∧
    (held [⟨.controller, false, []⟩, ⟨.seat 2, false, []⟩, ⟨.seat 5, false, []⟩] []).floor.stack.length < 4 ∧
    (let frames : List ResumeFrame := [⟨.controller, false, []⟩, ⟨.seat 5, false, []⟩, ⟨.seat 6, false, []⟩]
     let bottom : ResumeFrame := ⟨.seat 7, true, []⟩
     (held (frames ++ [bottom]) []).floor.stack = frames ++ [bottom] ∧
       frames.length = 3 ∧ 4 ≤ (frames ++ [bottom]).length ∧
       FloorPreset.reset.stackPolicy = .discardOldest ∧
       ({ FloorPreset.reset with stackPolicy := .clearFloor } : FloorPreset).stackPolicy = .clearFloor) ∧
    (let p := held [⟨.seat 2, false, []⟩, ⟨.controller, false, []⟩] [(.controller, .framed), (.seat 2, .framed), (.seat 5, .unframed)]
     (p.floor.holders.find? fun h => h.1 = .controller) = some (.controller, .framed) ∧
       ¬(p.floor.stack.head?.any fun r => r.holder = .controller) = true ∧
       (p.floor.holders.find? fun h => h.1 = .seat 2) = some (.seat 2, .framed) ∧
       (p.floor.stack.head?.any fun r => r.holder = .seat 2) = true ∧
       (p.floor.holders.find? fun h => h.1 = .seat 5) = some (.seat 5, .unframed) ∧
       (p.floor.holders.find? fun h => h.1 = .seat 6) = none ∧
       p.floor.stack = ⟨.seat 2, false, []⟩ :: [⟨.controller, false, []⟩] ∧
       (held [⟨.seat 2, false, []⟩] []).floor.stack = ⟨.seat 2, false, []⟩ :: []) ∧
    ((meeting.seat 0).link = .present ∧ meeting.floor.delegates < meeting.floor.preset.limit ∧
      (meeting.freeLane (chainOf 0)).isSome = true) ∧
    ((oneSpeaks.floor.speakers.map Speaker.seat).Nodup ∧ entry 0 .delegate 0 0 (some 30) ∈ oneSpeaks.makeRoom.floor.speakers ∧
      (entry 0 .delegate 0 0 (some 30)).kind = .delegate) ∧
    ((meeting.seat 4).link ≠ .present ∧ meeting.isQueued 4 = false ∧ meeting.floor.queue.length < 32 ∧
      32 ≤ (List.replicate 32 (⟨1, 1, .button⟩ : QueueEntry)).length) :=
  ⟨rfl, test_meetingIsReady, rfl, by decide +kernel⟩

theorem witness_SpeechExtended :
    oneSpeaks.Ready ∧ (63 < 64 ∨ 1 = 0 ∨ 600 < 1) ∧ (63 < 0 ∨ 0 = 0 ∨ 600 < 0) ∧ (63 < 0 ∨ 601 = 0 ∨ 600 < 601) ∧
    (1 ≤ 600 ∧ 600 ≤ 600) ∧ fresh.taken.isOpen = false ∧ oneSpeaks.taken.isOpen = true ∧
    (oneSpeaks.taken.floor.speakers.find? fun e => e.seat = 1) = none ∧
    (oneSpeaks.taken.floor.speakers.find? fun e => e.seat = 0) = some (entry 0 .delegate 0 0 (some 30)) ∧
    ((full .queued .queue).taken.floor.speakers.find? fun e => e.seat = 32) = some (entry 32 .delegate 0 0 none) ∧
    (entry 32 .delegate 0 0 none).remaining = none :=
  ⟨test_oneSpeaksIsReady, by decide, by decide, by decide, by decide, rfl, rfl, by decide +kernel⟩

theorem witness_FloorRequestsFrame :
    oneSpeaks.Ready ∧ exec (.priorityTake 9 []) (on oneSpeaks) = .next (on (after (.priorityTake 9 []) oneSpeaks)) :=
  ⟨test_oneSpeaksIsReady, rfl⟩

theorem witness_MicrophoneOpens :
    meeting.freeLane (chainOf 0) = some 0 ∧ meeting.freeChannel = some 0 ∧ oneSpeaks.freeLane (chainOf 1) = some 1 ∧
    oneSpeaks.freeChannel = some 1 ∧ meeting.link.mask.getLsbD 6 = true ∧ meeting.link.notices.length < 32 := by decide +kernel

theorem witness_MicrophoneCloses :
    (oneSpeaks.floor.speakers.find? fun e => e.seat = 0) = some (entry 0 .delegate 0 0 (some 30)) ∧
    oneSpeaks.mixer.channels.getD 0 none ≠ none ∧
    ({ Director.reset with active := some 0 } : Director).active = some 0 ∧ Director.reset.active ≠ some 0 ∧
    ({ Director.reset with candidate := some 0 } : Director).candidate = some 0 ∧ Director.reset.candidate ≠ some 0 ∧
    meeting.mixer.channels.getD 0 none = none ∧ (some CloseCause.self = some .self ∧ CloseCause.self ≠ .sessionEnd) ∧
    oneSpeaks.link.mask.getLsbD 7 = true ∧ oneSpeaks.link.notices.length < 32 := by decide +kernel

/-- A take frees the channel and the lane, and clears a candidate it closes (R75, R103, R130). -/
theorem test_takeFreesChannelAndLane :
    let p := after (.priorityTake 9 []) { oneSpeaks with
      chainA := { active with lanes := ⟨some 0, [0]⟩ :: active.lanes.tail }, director := { Director.reset with candidate := some 0, hold := 7 } }
    p.mixer.channels.getD 0 none = none ∧ p.chainA.lanes.head? = some ⟨none, [0]⟩ ∧
      p.director.candidate = none ∧ p.director.hold = 0 := by decide +kernel

/-- The meeting while seat 1 speaks in VOICE mode and has been silent for a time. -/
def voiced (silence : Nat) : Part :=
  speaking [{ entry 1 .delegate 0 0 none with source := .voice, silence := silence }]

theorem witness_TimerStepsTaken :
    meeting.seats.length = 64 ∧
    (let p := owing (.denial 5) (fresh.modSeat 5 fun r => { r with denial := true, denialMs := 0 })
     p.power = .running ∧ p.tickJobs = [] ∧ p.owed = .denial 5 :: [] ∧ (p.seat 5).denial = true ∧ (p.seat 5).denialMs = 0) ∧
    (let p := within (.expiry 0) (speaking [entry 0 .delegate 0 0 (some 0)])
     p.power = .running ∧ p.tickJobs = .expiry 0 :: [] ∧
       (p.floor.speakers.find? fun e => e.seat = 0) = some (entry 0 .delegate 0 0 (some 0))) ∧
    (let p := within (.silence 1) ((voiced 5).modSeat 1 fun r => { r with voice := false })
     p.power = .running ∧ p.tickJobs = .silence 1 :: [] ∧
       (p.floor.speakers.find? fun e => e.seat = 1) = some { entry 1 .delegate 0 0 none with source := .voice, silence := 5 } ∧
       (p.seat 1).voice = false ∧ p.floor.preset.voiceHold ≤ 5) ∧
    (let p := within (.graceEnd .one)
       { meeting with screens := { Screens.reset with slot1 := some ⟨0, 16, 1, .controller⟩, grace1 := some 0 } }
     p.power = .running ∧ p.tickJobs = .graceEnd .one :: [] ∧ p.screens.grace .one = some 0) ∧
    meeting.tickJobs = [] ∧ (oneSpeaks.power = .running ∧ oneSpeaks.tickJobs = [] ∧ oneSpeaks.owed = []) := by decide +kernel

theorem witness_SpeechSecondCounted :
    (oneSpeaks.floor.speakers.find? fun e => e.seat = 0) = some (entry 0 .delegate 0 0 (some 30)) ∧
    (entry 0 .delegate 0 0 (some 30)).warned = false ∧ 0 < oneSpeaks.floor.preset.warnLead ∧
    30 - 1 ≤ oneSpeaks.floor.preset.warnLead ∧ ¬31 ≤ oneSpeaks.floor.preset.warnLead ∧
    oneSpeaks.link.mask.getLsbD 12 = true ∧ oneSpeaks.link.notices.length < 32 ∧
    oneSpeaks.sched.session = some session ∧ session.attendance.length = 64 ∧ oneSpeaks.seats.length = 64 ∧
    oneSpeaks.isOpen = true ∧ fresh.isOpen = false ∧ fresh.sched.session = none := by decide +kernel

/-- The jobs of a second tick (statement SpeechSecondCounted): each comes first in line, counts, stays as it is, or makes a step due. -/
theorem witness_TickJobs :
    ((owing (.tick true) oneSpeaks).owed = .tick true :: [] ∧ (within (.expiry 0) oneSpeaks).tickJobs = .expiry 0 :: [] ∧
      (within (.entry 0) oneSpeaks).tickJobs = .entry 0 :: [] ∧ (oneSpeaks.floor.speakers.find? fun e => e.seat = 5) = none) ∧
    ((entry 0 .delegate 0 0 (some 1)).remaining = some 1 ∧ (entry 0 .delegate 0 0 (some 30)).remaining ≠ some 1) ∧
    (let p := (voiced 5).modSeat 1 fun r => { r with voice := false }
     (p.floor.speakers.find? fun e => e.seat = 1) = some { entry 1 .delegate 0 0 none with source := .voice, silence := 5 } ∧
       (p.seat 1).voice = false ∧ p.floor.preset.voiceHold ≤ 6 ∧ ¬p.floor.preset.voiceHold ≤ 1) ∧
    ((voiced 5).seat 1).voice = true ∧
    (Screens.reset.grace .one = none ∧ ({ Screens.reset with grace2 := some 1 } : Screens).grace .two = some 1) ∧
    (fresh.sched.standby = .awake ∧ fresh.sched.session = none ∧ 0 < fresh.sched.delay ∧ meeting.sched.session ≠ none ∧
      ({ Scheduler.reset with timer := some 1 } : Scheduler).timer = some 1) := by decide +kernel

theorem witness_BlockOutputsFormed :
    oneSpeaks.Quiet ∧ (oneSpeaks.floor.speakers.find? fun e => e.seat = 0) = some (entry 0 .delegate 0 0 (some 30)) ∧
    oneSpeaks.mixer.channels.getD 0 none = some ⟨0, 0, 0, 16, 1, 0, none⟩ := ⟨⟨rfl, rfl, rfl⟩, by decide +kernel⟩

/-- Seat 0 speaks on lane 0, which carries it alone, and its channel has half of unity. -/
def carried : Part :=
  { oneSpeaks with
    chainA := { active with lanes := ⟨some 0, [0]⟩ :: active.lanes.tail }
    mixer := { oneSpeaks.mixer with channels := oneSpeaks.mixer.channels.set 0 (some ⟨0, 0, 32768, 16, 1, 16384, none⟩) } }

theorem test_laneIsHeard :
    carried.channelSum [⟨.A, 0, List.replicate 16 (-1)⟩] [] = List.replicate 16 (-1) ∧
    carried.channelSum [⟨.A, 0, List.replicate 16 100⟩] [] = List.replicate 16 50 := by decide +kernel
theorem test_closedWithinBlock :
    (carried.closeMic 0 (some .self)).channelSum [⟨.A, 0, List.replicate 16 100⟩] [3] =
      List.replicate 3 50 ++ List.replicate 13 0 := by decide +kernel

/-- The meeting while seat 0 speaks loudly. -/
def loud : Part :=
  { oneSpeaks with mixer := { oneSpeaks.mixer with channels := oneSpeaks.mixer.channels.set 0 (some ⟨0, 1000, 0, 16, 1, 0, none⟩) } }

theorem witness_GainsComputed :
    oneSpeaks.Quiet ∧ oneSpeaks.mixer.channels[0]? = some (some ⟨0, 0, 0, 16, 1, 0, none⟩) ∧
    (after (.blockCompletion [] []) oneSpeaks).mixer.channels[0]? =
      some (some ⟨0, 0, 32768, 16, 1, 32768, none⟩) ∧
    (oneSpeaks.floor.speakers.find? fun e => e.channel = 0) = some (entry 0 .delegate 0 0 (some 30)) ∧
    (∀ e ∈ (after (.blockCompletion [] []) oneSpeaks).mixer.channels.filterMap id, e.envelope < oneSpeaks.mixer.params.gate) ∧
    ((after (.blockCompletion [] []) loud).mixer.channels[0]? = some (some ⟨0, 985, 32768, 16, 1, 32768, none⟩) ∧
      loud.mixer.params.gate ≤ 985 ∧ ((after (.blockCompletion [] []) loud).mixer.channels.filterMap id).length = 1) :=
  ⟨⟨rfl, rfl, rfl⟩, by decide +kernel⟩

theorem witness_MixRequests :
    fresh.Ready ∧ meeting.Ready ∧ (⟨32767, 3, 10, 255, 255, 3⟩ : MixPreset).Fits ∧ fresh.isOpen = false ∧ meeting.isOpen = true ∧
    ¬(⟨32768, 3, 10, 255, 255, 3⟩ : MixPreset).Fits ∧ (1 < 2 ∧ 255 < 256) ∧
    (fresh.mixer.ducks.length = 64 ∧ fresh.mixer.loud.length = 64 ∧ Chain.B ≠ .A ∧ chainOf 1 = chainOf 0 ∧
      oneSpeaks.mixer.channels.getD 0 none ≠ none) :=
  ⟨test_freshIsReady, test_meetingIsReady, test_mixPresetFits.2.1, rfl, rfl, test_mixPresetFits.2.2, by decide,
    by decide +kernel⟩

theorem witness_CameraSettingsReplaced :
    fresh.Ready ∧ (2 < 256 ∧ 3000 < 65536 ∧ 5000 < 65536 ∧ 60 < 256) ∧ (fresh.seat 5).shot = none ∧
    ({ SeatRec.reset with shot := some ⟨3, 64⟩ } : SeatRec).shot = some ⟨3, 64⟩ :=
  ⟨test_freshIsReady, by decide, rfl, rfl⟩

/-- The meeting with the camera director in this state. -/
def directed (d : Director) : Part := { meeting with director := d }

theorem witness_DirectorStepsTaken :
    (let p := owing .settle (directed { Director.reset with active := some 0, aimed := some ⟨⟨0, 1⟩, 0, 0⟩ })
     p.power = .running ∧ p.tickJobs = [] ∧ p.owed = .settle :: [] ∧ p.director.aimed = some ⟨⟨0, 1⟩, 0, 0⟩ ∧
       p.director.active = some 0) ∧
    (let p := owing .switch (directed { Director.reset with candidate := some 1, hold := 1000 })
     p.owed = .switch :: [] ∧ p.director.candidate = some 1 ∧ p.director.switchHold ≤ p.director.hold) ∧
    (let p := owing .idle (directed { Director.reset with active := some 0, idle := 5000 })
     p.power = .running ∧ p.tickJobs = [] ∧ p.owed = .idle :: [] ∧ p.director.active.isSome = true ∧
       p.director.idleTime * 1000 ≤ p.director.idle) ∧
    (Director.reset.active ≠ some 1 ∧ ({ Director.reset with candidate := some 1 } : Director).candidate = some 1 ∧
      Director.reset.candidate ≠ some 1) ∧
    (directed { Director.reset with current := [some 1, none, none, none] }).director.current.getD 0 none = some 1 ∧
    (∀ r ∈ Director.reset.aimed, r.shot ≠ ⟨0, 1⟩) ∧ Director.reset.settleTime ≠ 0 := by decide +kernel

theorem test_switchTells :
    told (after .activeSpeakerSwitch (owing .switch (directed { Director.reset with candidate := some 1, hold := 1000 }))) =
      told meeting ++ [.activeSpeaker (some 1) none .switch (some ⟨0, 2⟩) true .wide] := by decide +kernel
theorem test_switchRecalls :
    let p := after .activeSpeakerSwitch (owing .switch (directed { Director.reset with candidate := some 1, hold := 1000 }))
    p.director.aimed = some ⟨⟨0, 2⟩, 1, 1500⟩ ∧ .cameraRecall 0 2 ∈ p.screens.queue := by decide +kernel

theorem witness_DirectorCounts :
    (none : Option Seat) = none ∧ Director.reset.active ≠ some 1 ∧ Director.reset.candidate ≠ some 1 ∧
    ({ Director.reset with candidate := some 1 } : Director).candidate = some 1 ∧
    ({ Director.reset with active := some 1 } : Director).active = some 1 ∧ oneSpeaks.Quiet ∧
    ((after (.blockCompletion [] []) loud).mixer.channels[0]? = some (some ⟨0, 985, 32768, 16, 1, 32768, none⟩) ∧
      loud.mixer.params.gate ≤ 985) ∧
    ∀ c ∈ (after (.blockCompletion [] []) oneSpeaks).mixer.channels.filterMap id, c.envelope < oneSpeaks.mixer.params.gate :=
  ⟨by decide, by decide, by decide, by decide, by decide, ⟨rfl, rfl, rfl⟩, by decide +kernel, by decide +kernel⟩

theorem witness_ScreenSourceDecided : fresh.screens.screens[(7 : Fin 8).val]? = some ⟨.internal, none, .signage⟩ := by
  decide +kernel

theorem witness_ScreenSettingsReplaced :
    fresh.Ready ∧ (List.replicate 8 (ScreenMode.followShare .one .blank)).length = 8 ∧
    (∀ m ∈ List.replicate 8 (ScreenMode.followShare .one .blank), m.Fits) ∧
    (List.replicate 8 ScreenClass.external).length = 8 ∧ (10 ≤ 10 ∧ 1 < 2 ∧ 7 < 8 ∧ 255 < 256 ∧ 3 < 4 ∧ 10 < 11 ∧ 9 < 10) ∧
    (∀ m ∈ some ScreenMode.auto, m.Fits) ∧ ((List.replicate 7 ScreenMode.auto).length + 0 = 7 ∧ 7 < 8) ∧
    (some ScreenMode.auto ≠ none ∧ fresh.screens.screens[(7 : Fin 8).val]? = some ⟨.internal, none, .signage⟩) ∧
    ([⟨.internal, some ScreenMode.auto, .signage⟩] : List Screen)[(0 : Fin 8).val]? = some ⟨.internal, some .auto, .signage⟩ ∧
    fresh.screens.screens.length = 8 :=
  ⟨test_freshIsReady, rfl, fun m h => by rw [List.eq_of_mem_replicate h]; trivial, rfl, by decide, fun m h => by
    cases h; trivial, by decide, by decide +kernel⟩

/-- What the share of a seat meets at the lines of R151 (statement ScreenSettingsReplaced). -/
theorem witness_SharesReexamined :
    ((sharing (some share1) none none).screens.slot .one = some share1 ∧
      ((sharing (some share1) none none).seat 40).link = .absent) ∧
    (let p := sharing (some ⟨0, 16, 1, .button⟩) (some share2) none
     p.screens.slot1 = some ⟨0, 16, 1, .button⟩ ∧ (p.seat 0).link = .present ∧ (p.seat 0).standing = .delegate ∧
       (p.seat 0).input = some 16 ∧ (p.seat 0).unitType = some .presenter ∧ p.screens.requiresFloor = false ∧
       p.speaking 0 = false ∧ p.floor.stack = []) ∧
    ((sharing (some ⟨3, 16, 1, .button⟩) none none).seat 3).standing = .listener ∧
    ((sharing (some ⟨1, 16, 1, .button⟩) none none).seat 1).input ≠ some 16 ∧ Screens.reset.requiresFloor = true := by
  decide +kernel

theorem witness_SharesStartAndEnd :
    (sharing none none none).Ready ∧ fresh.taken.isOpen = false ∧ (63 < 64 ∧ 2 < 3) ∧
    (let p := (sharing none none none).taken
     let r := p.seat 0
     p.isOpen = true ∧ ¬((p.screens.slot1.any fun h => h.seat = 0) = true ∨ (p.screens.slot2.any fun h => h.seat = 0) = true) ∧
       r.link = .present ∧ r.unitType = some .presenter ∧ r.input.isSome = true ∧ r.signal = true ∧ r.standing = .delegate ∧
       p.screens.requiresFloor ≠ true ∧ p.screens.slot1 = none ∧ (p.seat 1).unitType ≠ some .presenter) ∧
    ((sharing (some share1) none none).taken.screens.slot1.any fun h => h.seat = 40) = true ∧
    ((sharing (some share1) none none).taken.screens.slot1.isSome = true ∧
      (sharing (some share1) none none).taken.screens.slot2 = none) ∧
    (let p := (sharing (some share1) (some share2) (some .one)).taken
     p.screens.slot1 = some share1 ∧ p.screens.slot2 = some share2 ∧ p.screens.policy = .takeover ∧ p.screens.older = some .one) ∧
    (sharing (some share1) none none).screens.slot .one = some share1 ∧
    (sharing (some share1) (some share2) (some .two)).taken.screens.older = some .two :=
  ⟨⟨⟨rfl, rfl, rfl⟩, rfl, rfl⟩, rfl, by decide, by decide +kernel⟩

theorem witness_ScreenLinkRecords :
    (∀ x ∈ [LinkRecord.route 0 .blank], (LinkRecord.route 1 .blank).sameTarget x = false) ∧
    (∃ x ∈ [LinkRecord.route 0 .blank], (LinkRecord.route 0 .wide).sameTarget x = true) ∧ fresh.screens.sending = none ∧
    fresh.screens.queue.head? = some (.route 0 .signage) ∧
    ({ Screens.reset with sending := some (.route 0 .blank) } : Screens).sending.isSome = true ∧
    ({ Screens.reset with queue := [] } : Screens).queue = [] := by decide +kernel

theorem witness_ChainRequests :
    fresh.Ready ∧ meeting.Ready ∧ (⟨true, 2, 8, 63, 3, 15⟩ : ChainSettings).Fits ∧ ¬(⟨true, 3, 8, 63, 3, 15⟩ : ChainSettings).Fits ∧
    (fresh.chain .A).settings.enabled = true ∧ (fresh.chain .A).state = .training ∧ (meeting.chain .A).state = .active ∧
    ({ ChainCtl.reset with state := .off } : ChainCtl).state = .off ∧ (1 < 2 ∧ 255 < 256 ∧ (1 < 0 ∨ 1 < 2)) ∧
    (meeting.seats.length = 64 ∧ (oneSpeaks.floor.speakers.find? fun e => e.seat = 0) = some (entry 0 .delegate 0 0 (some 30)) ∧
      oneSpeaks.link.mask.getLsbD 7 = true ∧ oneSpeaks.link.notices.length < 32) :=
  ⟨test_freshIsReady, test_meetingIsReady, ⟨by decide, by decide, by decide, by decide, by decide⟩,
    fun h => absurd h.pairs (by decide), rfl, rfl, rfl, rfl, by decide, by decide +kernel⟩

/-- The fresh part with chain A in this state. -/
def onChain (k : ChainCtl) : Part := { fresh with chainA := k }

/-- The last attempt of an enumeration fails: CHAIN_STATE names the seats made ABSENT, and no lane transmits (R163, R172). -/
theorem test_failedTells :
    let k : ChainCtl := { active with state := .enumerating, attempt := 3, lanes := ⟨some 1, [0]⟩ :: active.lanes.tail }
    let p := { meeting with chainA := k }.failedAttempt .A
    told p = told meeting ++ [.chainState .A .failed k.cause 3 none k.degraded k.overlength 5 [0, 1, 2, 3, 4]] ∧
      p.chainA.lanes.all fun l => l.transmitting = [] := by decide +kernel

theorem witness_TrainingSteps :
    (let k : ChainCtl := { ChainCtl.reset with training := ⟨2, true, true, false, 50⟩ }
     (onChain k).Quiet ∧ k.state = .training ∧ (k.training.setLock .lane2 true).allLocked = true ∧
       (ChainCtl.reset.training.setLock .lane2 true).allLocked = false ∧
       (owing (.training .A) (onChain k)).owed = .training .A :: [] ∧ 50 ≤ k.training.ms ∧
       (k.training.control = true ∧ k.training.lane1 = true) ∧ ChainCtl.reset.training.control = false) ∧
    (active.state = .active ∧ active.pairs = some 2) ∧
    ({ ChainCtl.reset with state := .enumerating } : ChainCtl).state = .enumerating ∧
    (ChainCtl.reset.attempt < ChainCtl.reset.settings.attempts ∧
      ChainCtl.reset.settings.attempts ≤ ({ ChainCtl.reset with attempt := 3 } : ChainCtl).attempt) ∧
    chainOf 31 = .A :=
  ⟨⟨⟨rfl, rfl, rfl⟩, by decide +kernel⟩, by decide +kernel⟩

/-- Chain A of the meeting with these items, this broadcast and this exchange. -/
def busy (items : List Item) (title : Option Text) (e : Option Exchange) : Part :=
  { meeting with chainA := { active with items := items, broadcast := title, exchange := e } }

/-- A unit's answer to a poll, with one SPEAK press and three AUX presses. -/
def report : UnitAnswer := ⟨.basic, 1, false, true, 1, false, 3, false, false, false⟩

theorem witness_ExchangesChosen :
    (busy [] none none).Quiet ∧ (busy [] none none).chainA.state = .active ∧ (busy [] none none).chainA.exchange = none ∧
    (busy [⟨0, .ring .off, 0, false⟩, ⟨1, .micClosed, 0, false⟩] none none).nextChoice .A =
      some (.item ⟨1, .micClosed, 0, false⟩) ∧
    (busy [⟨0, .ring .off, 0, false⟩] (some []) none).nextChoice .A = some (.broadcast []) ∧
    (busy [⟨0, .ring .off, 0, false⟩] none none).nextChoice .A = some (.item ⟨0, .ring .off, 0, false⟩) ∧
    (busy [] none none).nextChoice .A = some (.poll 0) ∧ (fresh.nextChoice .A).isNone = true ∧
    (chainOf 0 = .A ∧ (busy [] none none).pollDue 0 = true) ∧
    (busy [] (some [0x41]) (some (.broadcast [0x41] (titleBeats [0x41])))).chainA.exchange =
      some (.broadcast [0x41] (titleBeats [0x41])) ∧
    (busy [] none (some .turnaround)).chainA.exchange = some .turnaround ∧
    (Payload.micClosed ≠ .refresh ∧ (∀ i ∈ active.items, ¬(i.seat = 0 ∧ i.payload.kind = .ring)) ∧ active.items.length < 48) ∧
    (∃ i ∈ (busy [⟨0, .ring .off, 0, false⟩] none none).chainA.items, i.seat = 0 ∧ i.payload.kind = (Payload.ring .speak).kind) ∧
    (let k : ChainCtl := { active with items := List.replicate 48 ⟨5, .ring .off, 0, false⟩, stale := [5] }
     (∀ i ∈ k.items, ¬(i.seat = 0 ∧ i.payload.kind = .micState)) ∧ 48 ≤ k.items.length ∧
       k.items = [] ++ ⟨5, .ring .off, 0, false⟩ :: List.replicate 47 ⟨5, .ring .off, 0, false⟩ ∧
       k.inProgress 5 .ring = false ∧ 24 < k.items.length ∧ k.stale = 5 :: [] ∧ (∃ i ∈ k.items, i.seat = 5)) ∧
    (∃ i ∈ [(⟨5, .refresh, 0, false⟩ : Item)], i.seat = 5 ∧ i.payload.kind = .refresh) ∧ active.inProgress 5 .refresh = false ∧
    active.stale = [] :=
  ⟨⟨rfl, rfl, rfl⟩, by decide +kernel⟩

theorem witness_AttemptsResolved :
    (busy [⟨0, .ring .off, 0, false⟩] none (some (.addressed (.item 0 (.ring .off)) [] 2 128))).Quiet ∧
    (let p := busy [⟨0, .ring .off, 0, false⟩] none (some (.addressed (.item 0 (.ring .off)) [] 2 128))
     (p.chain .A).exchange = some (.addressed (.item 0 (.ring .off)) [] 2 128) ∧ 2 = 1 + 1 ∧ (p.seat 0).link = .present ∧
       chainOf 0 = .A ∧ p.seats.length = 64 ∧ ∀ i ∈ (p.chain .A).items, i.renewed = false) ∧
    ((busy [] none (some (.addressed (.poll 0 true) [] 0 128))).chain .A).exchange =
      some (.addressed (.poll 0 true) [] 0 128) ∧
    (let k : ChainCtl := { ChainCtl.reset with state := .enumerating, exchange := some (.addressed (.enumerate 30) [] 2 128) }
     ((onChain k).chain .A).exchange = some (.addressed (.enumerate 30) [] 2 128) ∧ report.endOfChain = false ∧ 30 < 31) ∧
    (countUpTo 15 (meeting.seat 0).failures < (meeting.chain .A).settings.silent ∧
      (meeting.chain .A).settings.silent ≤ countUpTo 15 2 ∧ (meeting.seat 4).link = .silent ∧ (meeting.seat 63).link = .absent ∧
      meeting.seats.length = 64 ∧ ({ report with endOfChain := true } : UnitAnswer).endOfChain = true ∧ 31 ≤ 31) ∧
    ((meeting.chain .A).seats.length = 32 ∧ report.fault = ((meeting.chain .A).seats.getD 0 ⟨false, false, 0⟩).fault ∧
      ({ report with fault := true } : UnitAnswer).fault ≠ ((meeting.chain .A).seats.getD 0 ⟨false, false, 0⟩).fault ∧
      (meeting.seat 0).signal ≠ report.signal ∧ (meeting.seat 1).signal = report.signal) ∧
    (let p := sharing (some ⟨0, 16, 1, .button⟩) (some share2) none
     p.screens.slot .one = some ⟨0, 16, 1, .button⟩ ∧ p.screens.slot .two = some share2 ∧ share2.seat = 41 ∧
       (∀ g ∈ p.screens.slot1, g.seat ≠ 41 ∧ g.seat ≠ 5) ∧ p.screens.grace .one = none ∧ p.screens.graceTime ≠ 0 ∧
       ({ p.screens with grace1 := some 2 } : Screens).grace .one = some 2 ∧
       ({ p.screens with graceTime := 0 } : Screens).graceTime = 0) ∧
    (oneWaits.isQueued 1 = true ∧ oneWaits.isQueued 0 = false ∧
      (∃ r ∈ [(⟨.controller, false, [⟨0, .button, none, false, false⟩]⟩ : ResumeFrame)], ∃ e ∈ r.saved, e.seat = 0)) ∧
    (∃ i ∈ [(⟨0, .ring .off, 0, true⟩ : Item)], (i.seat = 0 ∧ i.payload.kind = .ring) ∧ i.renewed = true) ∧
    (∀ i ∈ [(⟨0, .ring .off, 0, false⟩ : Item)], i.seat = 0 ∧ i.payload.kind = .ring → i.renewed = false) :=
  ⟨⟨rfl, rfl, rfl⟩, by decide +kernel⟩

/-- A seat that becomes SILENT loses its microphone, its list items and its levels (R168, R66, R2). -/
theorem test_silentSeatLosesFloor :
    let p := Part.becomeSilent 0 { oneSpeaks with chainA := { active with items := [⟨0, .ring .off, 0, false⟩] } }
    p.floor.speakers = [] ∧ p.chainA.items = [] ∧ (p.seat 0).link = .silent ∧ (p.seat 0).signal = false ∧
      told p = told meeting ++ [.micClosed 0 .delegate .seatLost 1 0 0 (some 30)] := by decide +kernel

/-- A poll's presses wait in order (R4, R187). -/
theorem test_pollPresses :
    (after (.attemptResponse .A true report) (busy [] none (some (.addressed (.poll 0 true) [] 2 128)))).presses =
      [⟨0, .speak⟩, ⟨0, .aux⟩, ⟨0, .aux⟩, ⟨0, .aux⟩] := by decide +kernel

/-- The invariant holds of the fresh part, and a step leads from it to a next state (statements ResetIsSafe, EveryStepStaysSafe). -/
theorem witness_EveryStepStaysSafe :
    fresh.floor.queue.length ≤ 32 ∧ fresh.mixer.totalShare ≤ 32768 ∧ step (on fresh) = .next (on fresh) := ⟨by decide,
      by decide +kernel, rfl⟩

end Sys2Proof.Tests
end

section
/-!
PROOFS. The values that a request of the seat table carries: which of them the reading accepts (R7, R10, R15, R16, R190).
-/
namespace Sys2Proof.Machine

/-! ### Values in and out of range -/

theorem below_of_lt {bound n : Nat} (h : n < bound) : below bound n = some ⟨n, h⟩ := dif_pos h

theorem below_of_le {bound n : Nat} (h : bound ≤ n) : below bound n = none := dif_neg (by omega)

theorem seat?_of_le {n : Nat} (h : n ≤ 63) : seat? n = some (Fin.ofNat 64 n) := by
  rw [seat?, below_of_lt (by omega)]
  exact congrArg some (Fin.ext (Nat.mod_eq_of_lt (by omega)).symm)

theorem seat?_of_gt {n : Nat} (h : 63 < n) : seat? n = none := below_of_le h

@[simp] theorem seat?_val (x : Seat) : seat? x.val = some x := below_of_lt x.isLt

theorem within_of_mem {low high n : Nat} (h : low ≤ n ∧ n ≤ high) : within low high n = some n := by
  simp [within, h]

theorem within_of_not_mem {low high n : Nat} (h : ¬(low ≤ n ∧ n ≤ high)) : within low high n = none := by
  simpa [within] using h

theorem flag?_of_gt {n : Nat} (h : 1 < n) : flag? n = none := List.getElem?_eq_none h

theorem text?_of_fits {t : Text} (h : Text.fits t) : text? t = some t := by
  obtain ⟨short, chars⟩ := h
  simpa [text?, short] using chars

theorem text?_of_not_fits {t : Text} (h : ¬Text.fits t) : text? t = none := by
  refine if_neg fun fits => h ?_
  simpa [Text.fits] using fits

/-! ### Checked values at the owning block -/

@[simp] theorem checkThen_some {α : Type} (a : α) (p : Part) (work : α → Answer) : checkThen (some a) p work = work a := rfl

@[simp] theorem checkThen_none {α : Type} (p : Part) (work : α → Answer) : checkThen none p work = refuse .badArg p := rfl

/-! ### Fields as they were written -/

theorem readThree_written {a b c : Nat} (ha : a < 256) (hb : b < 256) (hc : c < 256) :
    (do return (← readByte, ← readByte, ← readByte) : Reader (Nat × Nat × Nat)) (u8 a ++ u8 b ++ u8 c) =
      .ok ((a, b, c), []) := by
  rw [List.append_assoc, bindByte ha, bindByte hb, bindByte_last hc, Reader.pure_run]

/-- An optional field is read as it was written. -/
theorem readOpt_optBytes {α β : Type} {read : Reader β} {write : α → List Byte} {value : α → β} (x : Option α)
    (h : ∀ a ∈ x, ∀ rest, read (write a ++ rest) = .ok (value a, rest)) (rest : List Byte) :
    readOpt read (optBytes write x ++ rest) = .ok (x.map value, rest) := by
  cases x with
  | none => exact readOpt_none read rest
  | some a =>
    rw [optBytes, List.append_assoc]
    exact readOpt_some (h a rfl rest)

theorem updateAt_const {α : Type} (a : α) (xs : List α) (i : Nat) : updateAt (fun _ => a) xs i = xs.set i a := by
  induction xs generalizing i with
  | nil => rfl
  | cons x xs ih => cases i <;> simp [updateAt, ih]

end Sys2Proof.Machine
end

section
/-!
PROOFS. Zones (R7): membership, and SET_ZONE.
-/
namespace Sys2Proof.Machine

theorem Part.inZone_defined {p : Part} {z : Fin 8} {zone : Zone} (h : p.zones.getD z.val none = some zone) (x : Seat) :
    p.inZone z x = true ↔ zone.first ≤ x ∧ x ≤ zone.last ∧ zone.stride ∣ x.val - zone.first.val := by
  rw [Part.inZone, h]
  simp [Zone.has, Nat.dvd_iff_mod_eq_zero, and_assoc]

theorem Part.inZone_undefined {p : Part} {z : Fin 8} (h : p.zones.getD z.val none = none) (x : Seat) : p.inZone z x = false := by
  rw [Part.inZone, h]

theorem zone?_accepts {first last stride : Nat} (hf : first ≤ 63) (hl : last ≤ 63) (order : first ≤ last)
    (steps : stride = 1 ∨ stride = 2 ∨ stride = 4) :
    zone? (first, last, stride) = some ⟨Fin.ofNat 64 first, Fin.ofNat 64 last, stride⟩ := by
  have le : Fin.ofNat 64 first ≤ Fin.ofNat 64 last := by
    show first % 64 ≤ last % 64
    omega
  have fits : (decide (Fin.ofNat 64 first ≤ Fin.ofNat 64 last) && (stride = 1 || stride = 2 || stride = 4)) = true := by
    simpa only [Bool.and_eq_true, Bool.or_eq_true, decide_eq_true_eq, or_assoc] using And.intro le steps
  simp only [zone?, seat?_of_le hf, seat?_of_le hl, Option.bind_eq_bind, Option.bind_some, if_pos fits]

theorem zone?_refuses {first last stride : Nat}
    (h : ¬(first ≤ 63 ∧ last ≤ 63 ∧ first ≤ last ∧ (stride = 1 ∨ stride = 2 ∨ stride = 4))) :
    zone? (first, last, stride) = none := by
  rcases Nat.lt_or_ge 63 first with hf | hf
  · simp [zone?, seat?_of_gt hf]
  rcases Nat.lt_or_ge 63 last with hl | hl
  · simp [zone?, seat?_of_le hf, seat?_of_gt hl]
  have le : Fin.ofNat 64 first ≤ Fin.ofNat 64 last ↔ first ≤ last := by
    show first % 64 ≤ last % 64 ↔ _
    omega
  have bad : ¬(decide (Fin.ofNat 64 first ≤ Fin.ofNat 64 last) && (stride = 1 || stride = 2 || stride = 4)) = true := by
    simp only [Bool.and_eq_true, Bool.or_eq_true, decide_eq_true_eq, or_assoc, le]
    exact fun ok => h ⟨hf, hl, ok⟩
  simp only [zone?, seat?_of_le hf, seat?_of_le hl, Option.bind_eq_bind, Option.bind_some, if_neg bad]

theorem readZone_clear {z : Nat} (hz : z < 256) :
    readZone (u8 z ++ u8 0) = .ok ((below 8 z).map fun z => (z, none), []) := by
  unfold readZone
  rw [bindByte hz, ← List.append_nil (u8 0), Reader.bind_ok (readOpt_none _ []), Reader.pure_run]
  cases below 8 z <;> rfl

theorem readZone_define {z first last stride : Nat} (hz : z < 256) (hf : first < 256) (hl : last < 256) (hs : stride < 256) :
    readZone (u8 z ++ u8 1 ++ u8 first ++ u8 last ++ u8 stride) =
      .ok ((below 8 z).bind fun z => (zone? (first, last, stride)).map fun d => (z, some d), []) := by
  have fields := readThree_written hf hl hs
  rw [List.append_assoc] at fields
  unfold readZone
  simp only [List.append_assoc]
  rw [bindByte hz, Reader.bind_ok (readOpt_some fields), Reader.pure_run]
  cases below 8 z
  · rfl
  · cases h : zone? (first, last, stride) <;> simp [optional?, h]

/-- Settles O16: membership as R7 counts it, and SET_ZONE by its four refusals. -/
theorem zoneDefinition : Obligations.ZoneDefinition := by
  refine ⟨fun p z x => ⟨fun _ h => Part.inZone_defined h x, fun h => Part.inZone_undefined h x⟩, ?_⟩
  intro s tag z ready hz
  have asked (payload : List Byte) :
      exec (.setZone tag payload) s = onPart (Part.request ⟨0x18, tag, payload⟩ answerSetZone) s := rfl
  simp only [asked]
  refine ⟨?_, fun first last stride hf hl hs => ?_⟩
  · split
    · rename_i le
      refine request_acceptsWaking ready ((readThen_ok (readZone_clear hz)).trans ?_)
      simp [below_of_lt (show z < 8 by omega), updateAt_const]
      rfl
    · refine request_refuses (status := .badArg) ready ((readThen_ok (readZone_clear hz)).trans ?_)
      simp [below_of_le (show 8 ≤ z by omega)]
  · split
    · rename_i ok
      obtain ⟨le, hf', hl', order, steps⟩ := ok
      refine request_acceptsWaking ready ((readThen_ok (readZone_define hz hf hl hs)).trans ?_)
      simp [below_of_lt (show z < 8 by omega), zone?_accepts hf' hl' order steps, updateAt_const]
      rfl
    · rename_i bad
      refine request_refuses (status := .badArg) ready ((readThen_ok (readZone_define hz hf hl hs)).trans ?_)
      rcases Nat.lt_or_ge z 8 with lt | ge
      · rw [zone?_refuses fun ok => bad ⟨by omega, ok⟩]
        simp
      · simp [below_of_le ge]

end Sys2Proof.Machine
end

section
/-!
PROOFS. SET_SEAT (R15) and SET_NAME (R16): the fields as they are read, and the values that are accepted.
-/
namespace Sys2Proof.Machine

/-! ### SET_SEAT -/

/-- The values of SET_SEAT that R15 accepts. -/
def SeatSettings.inRange (x role trim : Nat) (camera : Option (Nat × Nat)) (input : Option Nat) : Prop :=
  x ≤ 63 ∧ role ≤ 1 ∧ trim ≤ 16 ∧ (∀ c ∈ camera, c.1 ≤ 3 ∧ 1 ≤ c.2 ∧ c.2 ≤ 64) ∧ ∀ i ∈ input, 1 ≤ i ∧ i ≤ 16

/-- What SET_SEAT's numbers say, before a value is checked: none where one is refused. -/
def seatSettings? (x role trim : Nat) (camera : Option (Nat × Nat)) (input : Option Nat) : Option (Seat × SeatSettings) := do
  let s ← seat? x
  let role ← [Role.member, .observer][role]?
  let trim ← within 0 16 trim
  let camera ← optional? shot? camera
  let input ← optional? (within 1 16) input
  return (s, ⟨role, trim, camera, input⟩)

theorem readSeatSettings_written {x role trim : Nat} {camera : Option (Nat × Nat)} {input : Option Nat} (hx : x < 256)
    (hr : role < 256) (ht : trim < 256) (hc : ∀ c ∈ camera, c.1 < 256 ∧ c.2 < 256) (hi : ∀ i ∈ input, i < 256) :
    readSeatSettings
        (u8 x ++ u8 role ++ u8 trim ++ optBytes (fun c : Nat × Nat => u8 c.1 ++ u8 c.2) camera ++ optBytes u8 input) =
      .ok (seatSettings? x role trim camera input, []) := by
  have readCamera := readOpt_optBytes (read := do return (← readByte, ← readByte)) (value := id) camera fun c m rest => by
    obtain ⟨first, second⟩ := hc c m
    rw [List.append_assoc, bindByte first, bindByte second, Reader.pure_run]
    rfl
  have readInput := readOpt_optBytes (read := readByte) (value := id) input fun i m rest => readByte_u8 (hi i m) rest
  unfold readSeatSettings
  simp only [List.append_assoc]
  rw [bindByte hx, bindByte hr, bindByte ht, Reader.bind_ok (readCamera _), ← List.append_nil (optBytes u8 input),
    Reader.bind_ok (readInput _), Reader.pure_run, Option.map_id, Option.map_id]
  rfl

theorem shot?_accepts {c : Nat × Nat} (h : c.1 ≤ 3 ∧ 1 ≤ c.2 ∧ c.2 ≤ 64) : shot? c = some ⟨Fin.ofNat 4 c.1, c.2⟩ := by
  obtain ⟨camera, preset⟩ := h
  have same : (⟨c.1, by omega⟩ : Fin 4) = Fin.ofNat 4 c.1 := Fin.ext (Nat.mod_eq_of_lt (by omega)).symm
  simp [shot?, below_of_lt (show c.1 < 4 by omega), within_of_mem preset, same]

theorem shot?_refuses {c : Nat × Nat} (h : ¬(c.1 ≤ 3 ∧ 1 ≤ c.2 ∧ c.2 ≤ 64)) : shot? c = none := by
  rcases Nat.lt_or_ge c.1 4 with lt | ge
  · simp [shot?, below_of_lt lt, within_of_not_mem fun preset => h ⟨by omega, preset⟩]
  · simp [shot?, below_of_le ge]

theorem optional?_accepts {α β : Type} {check : α → Option β} {value : α → β} {x : Option α}
    (h : ∀ a ∈ x, check a = some (value a)) : optional? check x = some (x.map value) := by
  cases x with
  | none => rfl
  | some a => rw [optional?, h a rfl]; rfl

theorem optional?_refuses {α β : Type} {check : α → Option β} {a : α} (h : check a = none) : optional? check (some a) = none := by
  rw [optional?, h]; rfl

theorem seatSettings?_accepts {x role trim : Nat} {camera : Option (Nat × Nat)} {input : Option Nat}
    (h : SeatSettings.inRange x role trim camera input) :
    seatSettings? x role trim camera input =
      some (Fin.ofNat 64 x,
        ⟨if role = 0 then .member else .observer, trim, camera.map fun c => ⟨Fin.ofNat 4 c.1, c.2⟩, input⟩) := by
  obtain ⟨hx, hr, ht, hc, hi⟩ := h
  have role : [Role.member, .observer][role]? = some (if role = 0 then .member else .observer) := by
    rcases Nat.le_one_iff_eq_zero_or_eq_one.1 hr with rfl | rfl <;> rfl
  have trim : within 0 16 trim = some trim := within_of_mem ⟨Nat.zero_le _, ht⟩
  have camera := optional?_accepts fun c m => shot?_accepts (hc c m)
  have input : optional? (within 1 16) input = some (input.map id) := optional?_accepts fun i m => within_of_mem (hi i m)
  simp only [seatSettings?, seat?_of_le hx, role, trim, camera, input, Option.map_id]
  rfl

theorem seatSettings?_refuses {x role trim : Nat} {camera : Option (Nat × Nat)} {input : Option Nat}
    (h : ¬SeatSettings.inRange x role trim camera input) : seatSettings? x role trim camera input = none := by
  unfold seatSettings?
  by_cases hx : x ≤ 63
  swap
  · rw [seat?_of_gt (by omega)]; rfl
  by_cases hr : role ≤ 1
  swap
  · rw [List.getElem?_eq_none (by simp; omega)]; cases seat? x <;> rfl
  by_cases ht : trim ≤ 16
  swap
  · rw [within_of_not_mem (by omega)]
    simp
  by_cases hc : ∀ c ∈ camera, c.1 ≤ 3 ∧ 1 ≤ c.2 ∧ c.2 ≤ 64
  swap
  · obtain ⟨c, m, bad⟩ : ∃ c ∈ camera, ¬(c.1 ≤ 3 ∧ 1 ≤ c.2 ∧ c.2 ≤ 64) := by simpa only [not_forall, exists_prop] using hc
    obtain rfl : camera = some c := m
    rw [optional?_refuses (shot?_refuses bad)]
    simp
  obtain ⟨i, m, bad⟩ : ∃ i ∈ input, ¬(1 ≤ i ∧ i ≤ 16) := by
    have bad : ¬∀ i ∈ input, 1 ≤ i ∧ i ≤ 16 := fun hi => h ⟨hx, hr, ht, hc, hi⟩
    simpa only [not_forall, exists_prop] using bad
  obtain rfl : input = some i := m
  rw [optional?_refuses (within_of_not_mem bad)]
  simp

/-- Settles O17: the reading accepts exactly the values in range, and the settings read replace the seat's. -/
theorem seatSettingsReplaced : Obligations.SeatSettingsReplaced := by
  intro s tag x role trim camera input ready hx hr ht hc hi payload
  have read : ∀ p work, readThen readSeatSettings payload p work = work (seatSettings? x role trim camera input) :=
    fun _ _ => readThen_ok (readSeatSettings_written hx hr ht hc hi)
  show onPart (Part.request ⟨0x16, tag, payload⟩ answerSetSeat) s = _
  split
  · rename_i fits
    refine request_acceptsWaking ready ((read _ _).trans ?_)
    rw [seatSettings?_accepts fits]
    rfl
  · rename_i bad
    refine request_refuses (status := .badArg) ready ((read _ _).trans ?_)
    rw [seatSettings?_refuses bad]
    rfl

/-! ### SET_NAME -/

theorem readName_written {x : Nat} {name : Text} (hx : x < 256) (short : name.length < 256) :
    readName (u8 x ++ textBytes name) = .ok ((seat? x).bind fun s => (text? name).map fun t => (s, t), []) := by
  unfold readName
  rw [bindByte hx, ← List.append_nil (textBytes name), Reader.bind_ok (readText_text short []), Reader.pure_run]
  cases seat? x <;> cases text? name <;> rfl

/-- Settles O18: the reading accepts exactly a seat of 0-63 with a name that fits, and the name read replaces the seat's. -/
theorem nameReplaced : Obligations.NameReplaced := by
  intro s tag x name ready hx short
  have read : ∀ p work, readThen readName (u8 x ++ textBytes name) p work =
      work ((seat? x).bind fun s => (text? name).map fun t => (s, t)) := fun _ _ => readThen_ok (readName_written hx short)
  have asked : exec (.setName tag (u8 x ++ textBytes name)) s =
    onPart (Part.request ⟨0x1A, tag, u8 x ++ textBytes name⟩ answerSetName) s := rfl
  rw [asked]
  refine ⟨fun seat fits => ?_, fun bad => ?_⟩
  · refine request_acceptsWaking ready ((read _ _).trans ?_)
    rw [seat?_of_le seat, text?_of_fits fits]
    rfl
  · refine request_refuses (status := .badArg) ready ((read _ _).trans ?_)
    rcases Nat.lt_or_ge 63 x with gt | le
    · rw [seat?_of_gt gt]
      rfl
    · rw [seat?_of_le le, text?_of_not_fits fun fits => bad ⟨le, fits⟩]
      rfl

end Sys2Proof.Machine
end

section
/-!
PROOFS. The ring and the nameplate of a seat (R12, R13), and what a derivation stores and sends (R14).
-/
namespace Sys2Proof.Machine

/-! ### What a derivation sends -/

/-- A seat that is not PRESENT is sent nothing (R14). -/
theorem Part.queueIfPresent_absent {p : Part} {x : Seat} (h : (p.seat x).link ≠ .present) (payload : Payload) :
    p.queueIfPresent x payload = p := if_neg h

/-- A write that keeps the link states keeps whether a seat is PRESENT. -/
theorem Part.modSeat_link_same (p : Part) (x : Seat) {f : SeatRec → SeatRec} (h : ∀ r, (f r).link = r.link) :
    ((p.modSeat x f).seat x).link = (p.seat x).link := by
  rw [Part.seat_modSeat]
  split
  · exact h _
  · rfl

theorem Part.deriveRing_same {p : Part} {x : Seat} (h : p.ringOf x = (p.seat x).ring) : p.deriveRing x = p := if_pos h

theorem Part.deriveRing_new {p : Part} {x : Seat} (h : p.ringOf x ≠ (p.seat x).ring) :
    p.deriveRing x = (p.modSeat x fun r => { r with ring := p.ringOf x }).queueIfPresent x (.ring (p.ringOf x)) := if_neg h

theorem Part.derivePlate_same {p : Part} {x : Seat} (name : p.nameLineOf x = (p.seat x).nameLine)
    (status : p.statusLineOf x = (p.seat x).statusLine) : p.derivePlate x = p := by
  unfold Part.derivePlate
  exact if_pos (by simp [name, status])

theorem Part.derivePlate_new {p : Part} {x : Seat}
    (h : ¬(p.nameLineOf x = (p.seat x).nameLine ∧ p.statusLineOf x = (p.seat x).statusLine)) :
    let stored := p.modSeat x fun r => { r with nameLine := p.nameLineOf x, statusLine := p.statusLineOf x }
    p.derivePlate x =
      if (p.seat x).hasNameplate then stored.queueIfPresent x (.nameplate (p.nameLineOf x) (p.statusLineOf x)) else stored := by
  unfold Part.derivePlate
  exact if_neg (by simpa using h)

theorem SeatRec.hasNameplate_iff (r : SeatRec) :
    r.hasNameplate = true ↔ r.unitType = some .nameplate ∨ r.unitType = some .presenter := by
  unfold SeatRec.hasNameplate
  rcases r.unitType with _ | (_ | _ | _) <;> simp

/-- A seat that is not PRESENT has nothing queued for it (R14). -/
theorem Part.derive_absent_chains {p : Part} {x : Seat} (h : (p.seat x).link ≠ .present) :
    ((p.deriveRing x).chainA = p.chainA ∧ (p.deriveRing x).chainB = p.chainB) ∧
    (p.derivePlate x).chainA = p.chainA ∧ (p.derivePlate x).chainB = p.chainB := by
  constructor
  · by_cases same : p.ringOf x = (p.seat x).ring
    · rw [Part.deriveRing_same same]
      exact ⟨rfl, rfl⟩
    · rw [Part.deriveRing_new same, Part.queueIfPresent_absent]
      · exact ⟨rfl, rfl⟩
      · rwa [Part.modSeat_link_same]
        exact fun _ => rfl
  · by_cases same : p.nameLineOf x = (p.seat x).nameLine ∧ p.statusLineOf x = (p.seat x).statusLine
    · rw [Part.derivePlate_same same.1 same.2]
      exact ⟨rfl, rfl⟩
    · rw [Part.derivePlate_new same, Part.queueIfPresent_absent]
      · split <;> exact ⟨rfl, rfl⟩
      · rwa [Part.modSeat_link_same]
        exact fun _ => rfl

/-- What is queued for a PRESENT seat whose record has just been written. -/
theorem Part.queueIfPresent_stored {p : Part} {x : Seat} {f : SeatRec → SeatRec} (keeps : ∀ r, (f r).link = r.link)
    (h : (p.seat x).link = .present) (payload : Payload) :
    ((p.modSeat x f).queueIfPresent x payload).chain (chainOf x) = (p.chain (chainOf x)).queueItem x payload := by
  rw [Part.chain_queueIfPresent, if_pos ⟨rfl, by rwa [Part.modSeat_link_same p x keeps]⟩, Part.modSeat_chain]

theorem Part.deriveRing_chain {p : Part} {x : Seat} (h : (p.seat x).link = .present) (new : p.ringOf x ≠ (p.seat x).ring) :
    (p.deriveRing x).chain (chainOf x) = (p.chain (chainOf x)).queueItem x (.ring (p.ringOf x)) := by
  rw [Part.deriveRing_new new]
  refine Part.queueIfPresent_stored ?_ h _
  exact fun _ => rfl

theorem Part.derivePlate_chain {p : Part} {x : Seat} (h : (p.seat x).link = .present)
    (new : ¬(p.nameLineOf x = (p.seat x).nameLine ∧ p.statusLineOf x = (p.seat x).statusLine)) :
    (p.derivePlate x).chain (chainOf x) =
      if (p.seat x).hasNameplate then
        (p.chain (chainOf x)).queueItem x (.nameplate (p.nameLineOf x) (p.statusLineOf x))
      else p.chain (chainOf x) := by
  rw [Part.derivePlate_new new]
  split
  · refine Part.queueIfPresent_stored ?_ h _
    exact fun _ => rfl
  · exact Part.modSeat_chain _ _ _ _

/-! ### Ring and status line -/

theorem Standing.speaks_iff (t : Standing) : t.speaks = true ↔ t = .delegate ∨ t = .chair := by
  cases t <;> simp [Standing.speaks]

/-- The lines of R12 in order, with the entry of the speaker list split into its two lines. -/
theorem Part.ringOf_lines (p : Part) (x : Seat) :
    p.ringOf x =
      if p.inStandby then .off
      else if (p.seat x).denial then .denied
      else if p.holds (.seat x) then .priority
      else if p.isSaved x then .frozen
      else if (p.speaker? x).any Speaker.warned then .warn
      else if (p.speaker? x).isSome then .speak
      else if p.isQueued x || p.isHeldPress x then .request
      else if p.isOpen = true ∧ ((p.seat x).standing = .delegate ∨ (p.seat x).standing = .chair) then .ready
      else .off := by
  unfold Part.ringOf
  rcases p.speaker? x with _ | e
  · simp [← Standing.speaks_iff]
  · simp

theorem Part.statusLineOf_standby {p : Part} (h : p.sched.standby = .standby) (x : Seat) : p.statusLineOf x = [] :=
  if_pos (by simp [Part.inStandby, h])

/-- The lines of R13 in order, while the room is AWAKE. -/
theorem Part.statusLineOf_awake {p : Part} (h : p.sched.standby = .awake) (x : Seat) :
    p.statusLineOf x =
      match (p.speaker? x).bind Speaker.remaining, p.queuePosition x with
      | some t, _ => minutesSeconds t
      | none, some n => decimal n ++ inLineText
      | none, none =>
        if (p.sched.session.map Session.warned).getD false then decimal p.minutesLeft ++ minLeftText else [] := by
  unfold Part.statusLineOf
  exact if_neg (by simp [Part.inStandby, h])

theorem digit_mod (n : Nat) : digit (n % 10) = digit n := by
  simp [digit]

/-- Settles O20: the lines of R12 and R13 one by one, and what a derivation stores and sends by R14. -/
theorem indicatorsDerived : Obligations.IndicatorsDerived := by
  refine ⟨fun p x => ?_, fun p x => ?_, fun p x len => ?_⟩
  · have lines := Part.ringOf_lines p x
    simp only [Part.inStandby, decide_eq_true_eq, Part.isOpen] at lines
    exact lines
  · intro time place
    have position : p.queuePosition x = place.map (· + 1) := rfl
    refine ⟨fun h => Part.statusLineOf_standby h x, fun awake => ?_⟩
    have lines := Part.statusLineOf_awake awake x
    rw [show (p.speaker? x).bind Speaker.remaining = time from rfl, position] at lines
    refine ⟨fun t ht => ?_, fun n none here => ?_, fun d none away session warned => ?_, fun none away quiet => ?_⟩
    · rw [lines, ht, digit_mod]
      rfl
    · rw [lines, none, here]
      rfl
    · rw [lines, none, away, session]
      simp [warned]
    · rw [lines, none, away]
      rcases session : p.sched.session with _ | d
      · rfl
      · simp [quiet d session]
  · obtain ⟨-, -, ring⟩ := Part.deriveRing_spec p x len
    obtain ⟨-, -, plate⟩ := Part.derivePlate_spec p x len
    refine ⟨(ring x).trans (if_pos rfl), (plate x).trans (if_pos rfl), Part.deriveRing_same, Part.derivePlate_same,
      fun absent => ?_, Part.deriveRing_chain, fun present new => ?_⟩
    · obtain ⟨⟨ringA, ringB⟩, plateA, plateB⟩ := Part.derive_absent_chains absent
      exact ⟨ringA, ringB, plateA, plateB⟩
    · have sent := Part.derivePlate_chain present new
      refine ⟨fun plate => ?_, fun no1 no2 => ?_⟩
      · rw [sent, if_pos ((SeatRec.hasNameplate_iff _).2 plate)]
      · rw [sent, if_neg fun has => ((SeatRec.hasNameplate_iff _).1 has).elim no1 no2]

end Sys2Proof.Machine
end

section
/-!
PROOFS. The reading requests (R17, R19, R24, R34, R64, R124, R159, R175): what each reads of its payload, and what it answers.
-/
namespace Sys2Proof.Machine

section
variable {s : State} (ready : s.part.Ready) (tag : Byte)
include ready

/-! ### Requests without fields -/

theorem exec_getClock :
    exec (.getClock tag []) s =
      s.accepts 0x89 tag (timeBytes s.part.taken.sched.clock ++ flagBytes s.part.taken.sched.valid) s.part.taken :=
  request_accepts (f := ⟨0x09, tag, []⟩) (owner := answerGetClock) ready (readThen_ok readNothing_nil)

theorem exec_getSession_idle (idle : s.part.taken.sched.session = none) :
    exec (.getSession tag []) s =
      s.accepts 0x8E tag (u8 0 ++ u8 s.part.taken.sched.standby.ctorIdx ++ flagBytes s.part.taken.sched.valid) s.part.taken := by
  refine request_accepts (f := ⟨0x0E, tag, []⟩) (owner := answerGetSession) ready ((readThen_ok readNothing_nil).trans ?_)
  simp [Part.isOpen, idle]

theorem exec_getSession_open {d : Session} {b : Booking} (session : s.part.taken.sched.session = some d)
    (active : s.part.taken.activeBooking = some b) :
    exec (.getSession tag []) s =
      s.accepts 0x8E tag
        (u8 1 ++ u8 s.part.taken.sched.standby.ctorIdx ++ flagBytes s.part.taken.sched.valid ++ s.part.taken.sessionReply d b)
        s.part.taken := by
  refine request_accepts (f := ⟨0x0E, tag, []⟩) (owner := answerGetSession) ready ((readThen_ok readNothing_nil).trans ?_)
  simp [Part.isOpen, session, active]

/-! ### Requests of one number -/

theorem exec_listBookings {first : Nat} (h : first < 256) :
    exec (.listBookings tag (u8 first)) s =
      if first ≤ 15 then
        s.accepts 0x8D tag
          (u8 s.part.taken.sched.bookings.length ++
            listBytes Booking.entry ((s.part.taken.sched.bookings.drop first).take 4)) s.part.taken
      else s.refuses 0x8D tag 0x03 := by
  show onPart (Part.request ⟨0x0D, tag, u8 first⟩ answerListBookings) s = _
  split
  · rename_i le
    refine request_accepts ready ((readThen_ok (readByte_last h)).trans ?_)
    rw [within_of_mem ⟨Nat.zero_le _, le⟩]
    rfl
  · rename_i gt
    refine request_refuses (status := .badArg) ready ((readThen_ok (readByte_last h)).trans ?_)
    rw [within_of_not_mem fun mem => gt mem.2]
    rfl

theorem exec_getSeat (x : Seat) :
    exec (.getSeat tag (seatBytes x)) s = s.accepts 0x97 tag ((s.part.taken.seat x).fields x) s.part.taken := by
  refine request_accepts (f := ⟨0x17, tag, seatBytes x⟩) (owner := answerGetSeat) ready
    ((readThen_ok (readByte_last (seat_lt x))).trans ?_)
  rw [seat?_val]
  rfl

theorem exec_getSeat_badSeat {n : Nat} (gt : 63 < n) (h : n < 256) :
    exec (.getSeat tag (u8 n)) s = s.refuses 0x97 tag 0x03 := by
  refine request_refuses (f := ⟨0x17, tag, u8 n⟩) (owner := answerGetSeat) (status := .badArg) ready
    ((readThen_ok (readByte_last h)).trans ?_)
  rw [seat?_of_gt gt]
  rfl

theorem exec_getFloor (part : FloorPart) :
    exec (.getFloor tag (u8 part.ctorIdx)) s = s.accepts 0xA5 tag (s.part.taken.floorReply part) s.part.taken := by
  have read : readFloorPart (u8 part.ctorIdx) = .ok (part, []) := by cases part <;> rfl
  exact request_accepts (f := ⟨0x25, tag, u8 part.ctorIdx⟩) (owner := answerGetFloor) ready (readThen_ok read)

theorem exec_getFloor_badPart {n : Nat} (gt : 4 < n) (h : n < 256) :
    exec (.getFloor tag (u8 n)) s = s.refuses 0xA5 tag 0x03 := by
  have stops : readFloorPart (u8 n) = .error .badArg := readFloorPart_stops (by rwa [toNat_ofNat_byte h]) []
  exact request_refuses (f := ⟨0x25, tag, u8 n⟩) (owner := answerGetFloor) (status := .badArg) ready (readThen_error stops)

theorem exec_getMixStatus_keep :
    exec (.getMixStatus tag [1]) s = s.accepts 0xB1 tag s.part.taken.mixReply s.part.taken :=
  request_accepts (f := ⟨0x31, tag, [1]⟩) (owner := answerGetMixStatus) ready rfl

theorem exec_getMixStatus_clear :
    exec (.getMixStatus tag [0]) s =
      s.accepts 0xB1 tag s.part.taken.mixReply { s.part.taken with mixer := { s.part.taken.mixer with clip := 0 } } :=
  request_accepts (f := ⟨0x31, tag, [0]⟩) (owner := answerGetMixStatus) ready rfl

theorem exec_getMixStatus_badChoice {n : Nat} (gt : 1 < n) (h : n < 256) :
    exec (.getMixStatus tag (u8 n)) s = s.refuses 0xB1 tag 0x03 := by
  refine request_refuses (f := ⟨0x31, tag, u8 n⟩) (owner := answerGetMixStatus) (status := .badArg) ready
    ((readThen_ok (readByte_last h)).trans ?_)
  rw [flag?_of_gt gt]
  rfl

theorem exec_getScreens (n : Fin 4) :
    exec (.getScreens tag (u8 n.val)) s = s.accepts 0xB9 tag (s.part.taken.screensReply n) s.part.taken := by
  refine request_accepts (f := ⟨0x39, tag, u8 n.val⟩) (owner := answerGetScreens) ready
    ((readThen_ok (readByte_last (by omega))).trans ?_)
  rw [below_of_lt n.isLt]
  rfl

theorem exec_getScreens_badPlan {n : Nat} (gt : 3 < n) (h : n < 256) :
    exec (.getScreens tag (u8 n)) s = s.refuses 0xB9 tag 0x03 := by
  refine request_refuses (f := ⟨0x39, tag, u8 n⟩) (owner := answerGetScreens) (status := .badArg) ready
    ((readThen_ok (readByte_last h)).trans ?_)
  rw [below_of_le (show 4 ≤ n from gt)]
  rfl

/-! ### GET_CHAIN -/

theorem exec_getChain_keep (c : Chain) :
    exec (.getChain tag (u8 c.ctorIdx ++ [1])) s = s.accepts 0xBD tag (s.part.taken.chainReply c) s.part.taken :=
  request_accepts (f := ⟨0x3D, tag, u8 c.ctorIdx ++ [1]⟩) (owner := answerGetChain) ready (by cases c <;> rfl)

theorem exec_getChain_clear (c : Chain) :
    exec (.getChain tag (u8 c.ctorIdx ++ [0])) s =
      s.accepts 0xBD tag (s.part.taken.chainReply c) (s.part.taken.modChain c fun k => { k with rollover := false }) :=
  request_accepts (f := ⟨0x3D, tag, u8 c.ctorIdx ++ [0]⟩) (owner := answerGetChain) ready (by cases c <;> rfl)

theorem exec_getChain_badValue {n choice : Nat} (hn : n < 256) (hc : choice < 256) (bad : 1 < n ∨ 1 < choice) :
    exec (.getChain tag (u8 n ++ u8 choice)) s = s.refuses 0xBD tag 0x03 := by
  have read : (do return (← readByte, ← readByte) : Reader (Nat × Nat)) (u8 n ++ u8 choice) = .ok ((n, choice), []) := by
    rw [bindByte hn, bindByte_last hc, Reader.pure_run]
  have none : (do return (← chain? n, ← flag? choice) : Option (Chain × Bool)) = none := by
    rcases bad with gt | gt
    · rw [show chain? n = none from List.getElem?_eq_none gt]
      rfl
    · rw [flag?_of_gt gt]
      cases chain? n <;> rfl
  refine request_refuses (f := ⟨0x3D, tag, u8 n ++ u8 choice⟩) (owner := answerGetChain) (status := .badArg) ready
    ((readThen_ok read).trans ?_)
  show checkThen (do return (← chain? n, ← flag? choice)) _ _ = _
  rw [none]
  rfl

end

/-- Settles O32, request by request. -/
theorem readingRequests : Obligations.ReadingRequests := by
  intro s tag ready p
  exact ⟨exec_getClock ready tag, fun _ h => exec_listBookings ready tag h, exec_getSession_idle ready tag,
    fun _ _ => exec_getSession_open ready tag, exec_getSeat ready tag, exec_getFloor ready tag,
    fun _ => exec_getFloor_badPart ready tag, exec_getMixStatus_keep ready tag, exec_getMixStatus_clear ready tag,
    exec_getScreens ready tag, fun _ => exec_getSeat_badSeat ready tag, fun _ => exec_getMixStatus_badChoice ready tag,
    fun _ => exec_getScreens_badPlan ready tag, fun _ _ => exec_getChain_badValue ready tag,
    fun c => ⟨exec_getChain_keep ready tag c, exec_getChain_clear ready tag c⟩⟩

end Sys2Proof.Machine
end

section
/-!
PROOFS. The steps that a timer makes due (R6, R57, R91, R152), and the milliseconds of a block completion (R6, R162, R171).
-/
namespace Sys2Proof.Machine

/-! ### Denials (R6) -/

/-- A denial writes the flag and the timer of its seat, and derives that seat again. -/
theorem Part.deny_seat (p : Part) (x : Seat) (len : p.seats.length = 64) :
    ((p.deny x).seat x).denial = true ∧ ((p.deny x).seat x).denialMs = 1000 ∧
    ∀ y, y ≠ x → (p.deny x).seat y = p.seat y := by
  have stored (y : Seat) : (p.modSeat x fun r => { r with denial := true, denialMs := 1000 }).seat y =
      if x = y then { p.seat y with denial := true, denialMs := 1000 } else p.seat y := by
    simp [Part.seat_modSeat, len]
  obtain ⟨-, -, derived⟩ := Part.derive_spec (p.modSeat x fun r => { r with denial := true, denialMs := 1000 }) x (by simpa using len)
  have own : (p.deny x).seat x = _ := (derived x).trans (if_pos rfl)
  rw [stored x, if_pos rfl] at own
  refine ⟨by rw [own]; rfl, by rw [own]; rfl, fun y ne => ?_⟩
  have other : (p.deny x).seat y = _ := (derived y).trans (if_neg ne)
  rw [other, stored y, if_neg (Ne.symm ne)]

/-- A denial that is due is cleared (R6). -/
theorem Part.endDenial_due {p : Part} {x : Seat} (denied : (p.seat x).denial = true) (due : (p.seat x).denialMs = 0) :
    p.endDenial x = (p.modSeat x fun r => { r with denial := false }).derive x := if_pos (by simp [denied, due])

/-! ### Steps within a second tick -/

/-- The expiry test of an entry that stands at 0 (R91). -/
theorem Part.expire_atZero {p : Part} {x : Seat} {e : Speaker} (found : p.speaker? x = some e) (zero : e.remaining = some 0) :
    p.expire x = if p.floor.preset.expiry = .close then p.closeMic x (some .timer) else p := by
  have atZero : p.atZero x = true := by simp [Part.atZero, found, zero]
  unfold Part.expire
  rw [if_pos atZero]
  cases p.floor.preset.expiry <;> rfl

/-- A silence count that has reached the voice hold closes the microphone (R57). -/
theorem Part.silenceClose_due {p : Part} {x : Seat} {e : Speaker} (found : p.speaker? x = some e) (held : p.voiceHeld e = true)
    (quiet : (p.seat x).voice = false) (due : p.floor.preset.voiceHold ≤ e.silence) :
    p.silenceClose x = p.closeMic x (some .voiceSilence) :=
  if_pos (by simp [Part.silenceDue, found, held, quiet, due])

/-- A grace timer that stands at 0 ends its share (R152). -/
theorem Part.graceExpiry_due {p : Part} {n : Slot} (zero : p.screens.grace n = some 0) :
    p.graceExpiry n = p.endShare n .signalLost := if_pos zero

/-! ### A block completion -/

theorem Part.completeBlock_seats (audio : List LaneAudio) (changedAt : List Nat) (p : Part) :
    (p.completeBlock audio changedAt).seats = p.seats.map SeatRec.countDenial := by
  simp [Part.completeBlock, Part.countMs]

theorem Part.completeBlock_chain (audio : List LaneAudio) (changedAt : List Nat) (p : Part) (c : Chain) :
    (p.completeBlock audio changedAt).chain c = (p.chain c).countMs := by
  cases c <;> simp [Part.completeBlock, Part.countMs, Part.chain]

/-- The steps that a completion makes due are read off the part that it leaves. -/
theorem Part.completeBlock_owed (audio : List LaneAudio) (changedAt : List Nat) (p : Part) :
    ∃ chosen, (p.completeBlock audio changedAt).owed = (p.completeBlock audio changedAt).due chosen := ⟨_, rfl⟩

theorem Part.completeBlock_seat (audio : List LaneAudio) (changedAt : List Nat) (p : Part) (x : Seat) :
    (p.completeBlock audio changedAt).seat x = (p.seat x).countDenial := by
  unfold Part.seat
  rw [Part.completeBlock_seats, List.getD_eq_getElem?_getD, List.getD_eq_getElem?_getD, List.getElem?_map]
  rcases p.seats[x.val]? with _ | r <;> rfl

theorem SeatRec.countDenial_eq (r : SeatRec) :
    r.countDenial = { r with denialMs := if r.denial = true then r.denialMs - 1 else r.denialMs } := by
  unfold SeatRec.countDenial
  split <;> rfl

/-- The director's due steps are its own (R126). -/
theorem Director.due_mem {chosen : Option Seat} {d : Director} {o : Owed} (h : o ∈ d.due chosen) :
    o = .settle ∨ o = .switch ∨ o = .idle := by
  simp only [Director.due, List.mem_append, List.mem_ite_nil_right, List.mem_singleton] at h
  tauto

/-- The room scheduler's due steps are the tick and what comes with it (R18). -/
theorem Scheduler.due_mem {d : Scheduler} {o : Owed} (h : o ∈ d.due) : o = .tick false ∨ o = .wrap ∨ o = .boundary := by
  unfold Scheduler.due at h
  split at h
  · exact absurd h List.not_mem_nil
  · split at h
    · exact (List.mem_pair.1 h).imp_right .inl
    · split at h
      · exact (List.mem_pair.1 h).imp_right .inr
      · exact .inl (List.mem_singleton.1 h)

theorem Part.mem_due (chosen : Option Seat) (p : Part) (o : Owed) :
    o ∈ p.due chosen ↔
      (∃ x, ((p.seat x).denial = true ∧ (p.seat x).denialMs = 0) ∧ .denial x = o) ∨ o ∈ p.director.due chosen ∨
      (p.chainA.attemptDue = true ∧ o = .training .A) ∨ (p.chainB.attemptDue = true ∧ o = .training .B) ∨
      ((p.link.rx.inFrame && 5 ≤ p.link.rxIdle) = true ∧ o = .receiveTimeout) ∨ o ∈ p.sched.due := by
  simp only [Part.due, List.mem_append, List.mem_map, List.mem_filter, List.mem_ite_nil_right, List.mem_singleton, allSeats,
    List.mem_finRange, true_and, Bool.and_eq_true, decide_eq_true_eq, or_assoc]

theorem Part.denial_mem_due (chosen : Option Seat) (p : Part) (x : Seat) :
    .denial x ∈ p.due chosen ↔ (p.seat x).denial = true ∧ (p.seat x).denialMs = 0 := by
  rw [Part.mem_due]
  refine ⟨?_, fun due => .inl ⟨x, due, rfl⟩⟩
  rintro (⟨y, due, same⟩ | director | ⟨-, other⟩ | ⟨-, other⟩ | ⟨-, other⟩ | sched)
  · cases same
    exact due
  · rcases Director.due_mem director with other | other | other <;> cases other
  · cases other
  · cases other
  · cases other
  · rcases Scheduler.due_mem sched with other | other | other <;> cases other

theorem Part.training_mem_due (chosen : Option Seat) (p : Part) (c : Chain) :
    .training c ∈ p.due chosen ↔ (p.chain c).attemptDue = true := by
  rw [Part.mem_due]
  constructor
  · rintro (⟨y, -, other⟩ | director | ⟨due, same⟩ | ⟨due, same⟩ | ⟨-, other⟩ | sched)
    · cases other
    · rcases Director.due_mem director with other | other | other <;> cases other
    · cases same
      exact due
    · cases same
      exact due
    · cases other
    · rcases Scheduler.due_mem sched with other | other | other <;> cases other
  · intro due
    cases c
    · exact .inr (.inr (.inl ⟨due, rfl⟩))
    · exact .inr (.inr (.inr (.inl ⟨due, rfl⟩)))

theorem ChainCtl.attemptDue_iff (k : ChainCtl) : k.attemptDue = true ↔ k.state = .training ∧ 50 ≤ k.training.ms := by
  simp [ChainCtl.attemptDue]

/-- Settles O43: each due step is first in line and is taken alone, and a completion's counts are read off its equations. -/
theorem timerStepsTaken : Obligations.TimerStepsTaken := by
  refine ⟨fun p x len => Part.deny_seat p x len, fun _ => rfl, ?_, ?_, ?_, ?_, ?_, fun p none => Part.runJobs_none true none⟩
  · intro s x rest running jobs owed denied due
    show onPart (Part.takeFirst (.denial x)) s = _
    unfold onPart
    rw [Part.takeFirst_first running jobs owed]
    exact congrArg s.to (Part.endDenial_due (p := { s.part with owed := rest }) denied due)
  · intro s x e rest running jobs found zero p
    show onPart (Part.takeJob (.expiry x)) s = _
    unfold onPart
    rw [Part.takeJob_first running jobs]
    exact congrArg (fun q : Part => s.to (q.runJobs true)) (Part.expire_atZero (p := p) found zero)
  · intro s x e rest running jobs found delegate held quiet due
    show onPart (Part.takeJob (.silence x)) s = _
    unfold onPart
    rw [Part.takeJob_first running jobs]
    exact congrArg (fun q : Part => s.to (q.runJobs true)) (Part.silenceClose_due (p := { s.part with tickJobs := rest }) found
      (Part.voiceHeld_iff.2 ⟨delegate, held⟩) quiet due)
  · intro s n rest running jobs zero
    show onPart (Part.takeJob (.graceEnd n)) s = _
    unfold onPart
    rw [Part.takeJob_first running jobs]
    exact congrArg (fun q : Part => s.to (q.runJobs true)) (Part.graceExpiry_due (p := { s.part with tickJobs := rest }) zero)
  · intro s audio changedAt quiet
    obtain ⟨chosen, owed⟩ := Part.completeBlock_owed audio changedAt s.part
    refine ⟨{ s with part := s.part.completeBlock audio changedAt }, ?_, fun x => ⟨?_, ?_⟩, fun c => ⟨?_, ?_⟩⟩
    · show onPart (Part.whenRunning (Part.completeBlock audio changedAt)) s = _
      unfold onPart
      rw [quiet.whenRunning]
    · exact (Part.completeBlock_seat audio changedAt s.part x).trans (SeatRec.countDenial_eq _)
    · show Owed.denial x ∈ (s.part.completeBlock audio changedAt).owed ↔ _
      rw [owed]
      exact Part.denial_mem_due chosen _ x
    · exact Part.completeBlock_chain audio changedAt s.part c
    · show Owed.training c ∈ (s.part.completeBlock audio changedAt).owed ↔ _
      rw [owed, Part.training_mem_due, ChainCtl.attemptDue_iff]

end Sys2Proof.Machine
end

section
/-!
PROOFS. SET_STANDING (R10), and what a change of standing does at the floor (R68, R73, R83).
-/
namespace Sys2Proof.Machine

/-! ### The request (R10) -/

theorem readStanding_written {x n : Nat} (hx : x < 256) (hn : n < 256) :
    readStanding (u8 x ++ u8 n) =
      .ok ((seat? x).bind fun s => [Standing.out, .listener, .delegate, .chair][n]?.map fun t => (s, t), []) := by
  unfold readStanding
  rw [bindByte hx, bindByte_last hn, Reader.pure_run]
  cases seat? x <;> cases [Standing.out, .listener, .delegate, .chair][n]? <;> rfl

/-- The number of a standing, in the order of 1.4 (R190). -/
def Standing.code : Standing → Nat
  | .out => 0
  | .listener => 1
  | .delegate => 2
  | .chair => 3

theorem Standing.code_le (t : Standing) : t.code ≤ 3 := by
  cases t <;> decide

@[simp] theorem Standing.getElem?_code (t : Standing) : [Standing.out, .listener, .delegate, .chair][t.code]? = some t := by
  cases t <;> rfl

/-- Whether a chair would be the fifth (R10). -/
def Part.chairLimited (p : Part) (x : Seat) (standing : Standing) : Prop :=
  standing = .chair ∧ (p.seat x).standing ≠ .chair ∧ 4 ≤ p.chairCount

/-- What the seat table answers to a standing within range. -/
theorem answerSetStanding_written (p : Part) (x : Seat) (standing : Standing) :
    answerSetStanding (seatBytes x ++ u8 standing.code) p =
      if !p.isOpen then refuse .noSession p
      else if standing = .chair && (p.seat x).standing ≠ .chair && 4 ≤ p.chairCount then refuse .refused p
      else if standing = (p.seat x).standing then okWake [] p
      else okWake [] (p.changeStanding x standing) := by
  have le := standing.code_le
  refine (readThen_ok (readStanding_written (seat_lt x) (by omega))).trans ?_
  rw [seat?_val, Standing.getElem?_code]
  rfl

theorem exec_setStanding (tag : Byte) (payload : List Byte) (s : State) :
    exec (.setStanding tag payload) s = onPart (Part.request ⟨0x19, tag, payload⟩ answerSetStanding) s := rfl

section
variable {s : State} (ready : s.part.Ready) (tag : Byte)
include ready

theorem exec_setStanding_badValue {x n : Nat} (hx : x < 256) (hn : n < 256) (bad : 63 < x ∨ 3 < n) :
    exec (.setStanding tag (u8 x ++ u8 n)) s = s.refuses 0x99 tag 0x03 := by
  rw [exec_setStanding]
  refine request_refuses (status := .badArg) ready ((readThen_ok (readStanding_written hx hn)).trans ?_)
  rcases bad with gt | gt
  · rw [seat?_of_gt gt]
    rfl
  · rw [List.getElem?_eq_none (show 4 ≤ n from gt)]
    cases seat? x <;> rfl

variable (x : Seat) (standing : Standing)

theorem exec_setStanding_idle (idle : s.part.isOpen = false) :
    exec (.setStanding tag (seatBytes x ++ u8 standing.code)) s = s.refuses 0x99 tag 0x08 := by
  have idle : s.part.taken.isOpen = false := idle
  rw [exec_setStanding]
  refine request_refuses (status := .noSession) ready ((answerSetStanding_written _ x standing).trans ?_)
  exact if_pos (by rw [idle]; rfl)

variable (isOpen : s.part.isOpen = true)
include isOpen

theorem exec_setStanding_fifthChair (limited : s.part.chairLimited x standing) :
    exec (.setStanding tag (seatBytes x ++ u8 standing.code)) s = s.refuses 0x99 tag 0x04 := by
  have isOpen : s.part.taken.isOpen = true := isOpen
  obtain ⟨chair, no, four⟩ : s.part.taken.chairLimited x standing := limited
  rw [exec_setStanding]
  refine request_refuses (status := .refused) ready ((answerSetStanding_written _ x standing).trans ?_)
  rw [if_neg (by simp [isOpen]), if_pos (by simp [chair, no, four])]

theorem exec_setStanding_same (same : standing = (s.part.seat x).standing) :
    exec (.setStanding tag (seatBytes x ++ u8 standing.code)) s = s.acceptsWaking 0x99 tag [] s.part.taken := by
  have isOpen : s.part.taken.isOpen = true := isOpen
  have same : standing = (s.part.taken.seat x).standing := same
  rw [exec_setStanding]
  refine request_acceptsWaking ready ((answerSetStanding_written _ x standing).trans ?_)
  rw [if_neg (by simp [isOpen]), if_neg (by simp [← same]), if_pos same]

theorem exec_setStanding_changes (room : ¬s.part.chairLimited x standing) (new : standing ≠ (s.part.seat x).standing) :
    exec (.setStanding tag (seatBytes x ++ u8 standing.code)) s =
      s.acceptsWaking 0x99 tag [] (s.part.taken.changeStanding x standing) := by
  have isOpen : s.part.taken.isOpen = true := isOpen
  have room : ¬s.part.taken.chairLimited x standing := room
  rw [exec_setStanding]
  refine request_acceptsWaking ready ((answerSetStanding_written _ x standing).trans ?_)
  rw [if_neg (by simp [isOpen]), if_neg (by simpa [Part.chairLimited, and_assoc] using room)]
  exact if_neg new

end

/-! ### Notices that a block queues -/

/-- A notice of an enabled kind with room in the queue stands at its end (R195). -/
theorem Link.notify_notices_enabled {l : Link} {n : Notice} (enabled : l.enabled n = true) (room : l.notices.length < 32) :
    (l.notify n).notices = l.notices ++ [⟨n, l.inRequest⟩] := by
  unfold Link.notify
  rw [if_pos enabled]
  exact congrArg Link.notices (if_pos room)

/-- Notices queued later stand behind those that wait. -/
theorem Link.notify_notices_append (l : Link) (n : Notice) : ∃ more, (l.notify n).notices = l.notices ++ more := by
  unfold Link.notify
  split
  · split
    · exact ⟨_, rfl⟩
    · exact ⟨[], (List.append_nil _).symm⟩
  · exact ⟨[], (List.append_nil _).symm⟩

theorem Link.notifyAll_notices (ns : List Notice) (l : Link) : ∃ more, (l.notifyAll ns).notices = l.notices ++ more := by
  induction ns generalizing l with
  | nil => exact ⟨[], (List.append_nil _).symm⟩
  | cons n ns ih =>
    obtain ⟨first, hf⟩ := l.notify_notices_append n
    obtain ⟨more, hm⟩ := ih (l.notify n)
    exact ⟨first ++ more, by rw [← List.append_assoc, ← hf]; exact hm⟩

/-- A close with a cause queues MIC_CLOSED first (R50). -/
theorem Part.closeMic_notices {p : Part} {x : Seat} {e : Speaker} (found : p.speaker? x = some e) (cause : CloseCause)
    (enabled : p.link.mask.getLsbD 7 = true) (room : p.link.notices.length < 32) :
    ∃ more, (p.closeMic x (some cause)).link.notices =
      p.link.notices ++ ⟨.micClosed x e.kind cause e.grantNo e.channel e.lane e.remaining, p.link.inRequest⟩ :: more := by
  obtain ⟨-, rfl⟩ := Part.speaker?_some found
  obtain ⟨ns, -, link⟩ := Part.closeWith_tells e (some cause) p
  obtain ⟨more, queued⟩ := Link.notifyAll_notices ns (p.delisted e (some cause)).link
  refine ⟨more, ?_⟩
  have first := Link.notify_notices_enabled (l := p.link)
    (n := .micClosed e.seat e.kind cause e.grantNo e.channel e.lane e.remaining) enabled room
  rw [Part.closeMic_eq found, link, queued]
  show (p.link.notify (.micClosed e.seat e.kind cause e.grantNo e.channel e.lane e.remaining)).notices ++ more = _
  rw [first, List.append_assoc]
  rfl

/-! ### The floor's work for a change of standing (R68, R73) -/

theorem Floor.leaveFrames_unsaved {f : Floor} {x : Seat} (h : (f.stack.any fun r => r.saves x) = false) :
    f.leaveFrames x = f := by
  have same : (f.stack.map fun r => { r with saved := r.saved.filter fun e => e.seat ≠ x }) = f.stack := by
    refine (List.map_congr_left fun r m => ?_).trans (List.map_id _)
    have kept : (r.saved.filter fun e => e.seat ≠ x) = r.saved := by
      refine List.filter_eq_self.2 fun e me => ?_
      have no := List.any_eq_false.1 h r m
      simp only [ResumeFrame.saves, List.any_eq_true, decide_eq_true_eq, not_exists, not_and] at no
      simpa using no e me
    rw [kept, id]
  exact congrArg (fun stack => { f with stack := stack }) same

theorem Part.leaveSaved_unsaved {p : Part} {x : Seat} (h : p.isSaved x = false) : p.leaveSaved x = p :=
  if_neg (by simp [h])

/-- A seat leaves its frames; nothing else of the floor changes (R73). -/
theorem Part.leaveSaved_floor (x : Seat) (p : Part) : (p.leaveSaved x).floor = p.floor.leaveFrames x := by
  rcases h : p.isSaved x
  · rw [Part.leaveSaved_unsaved h, Floor.leaveFrames_unsaved h]
  · unfold Part.leaveSaved
    rw [if_pos h]
    simp

/-- A delegate that changes standing leaves queue and held presses after what its microphone did (R68). -/
theorem Part.floorStanding_delegate (x : Seat) (new : Standing) (p : Part) :
    let acted :=
      if new = .chair then p.modFloor (Floor.modSpeaker x Speaker.becomeChair) else p.closeMic x (some .standingChanged)
    (p.floorStanding x .delegate new).floor = (acted.floor.dequeue x).dropHeld x ∧
    (p.floorStanding x .delegate new).link = acted.link := by
  intro acted
  unfold Part.floorStanding
  dsimp only
  split <;> simp [acted]

theorem Part.changedStanding_delegate_floor (x : Seat) (new : Standing) (p : Part) :
    (p.changedStanding x .delegate new).floor =
      { p.floor with
        queue := p.floor.queue.filter fun e => e.seat ≠ x
        held := p.floor.held.filter fun e => e.seat ≠ x
        stack := p.floor.stack.map fun r => { r with saved := r.saved.filter fun e => e.seat ≠ x }
        speakers :=
          if new = .chair then p.floor.speakers.map fun e => if e.seat = x then e.becomeChair else e
          else p.floor.speakers.filter fun e => e.seat ≠ x } := by
  obtain ⟨floor, -⟩ := Part.floorStanding_delegate x new p
  refine (Part.leaveSaved_floor x _).trans ?_
  rw [floor]
  by_cases chair : new = .chair
  · simp only [if_pos chair]
    rfl
  · simp only [if_neg chair]
    rw [Part.closeMic_floor]
    rfl

/-- A delegate made CHAIR that no frame saves causes no notice. -/
theorem Part.changedStanding_becomeChair_link {p : Part} {x : Seat} (unsaved : p.isSaved x = false) :
    (p.changedStanding x .delegate .chair).link = p.link := by
  obtain ⟨floor, link⟩ := Part.floorStanding_delegate x .chair p
  have unsaved : (p.floorStanding x .delegate .chair).isSaved x = false := by
    unfold Part.isSaved
    rw [floor]
    exact unsaved
  refine (congrArg Part.link (Part.leaveSaved_unsaved unsaved)).trans ?_
  rw [link]
  rfl

/-- A delegate that does not become CHAIR closes with STANDING_CHANGED (R68). -/
theorem Part.changedStanding_closes {p : Part} {x : Seat} {new : Standing} {e : Speaker} (other : new ≠ .chair)
    (found : p.speaker? x = some e) (enabled : p.link.mask.getLsbD 7 = true) (room : p.link.notices.length < 32) :
    ∃ more, (p.changedStanding x .delegate new).link.notices =
      p.link.notices ++
        ⟨.micClosed x e.kind .standingChanged e.grantNo e.channel e.lane e.remaining, p.link.inRequest⟩ :: more := by
  obtain ⟨-, link⟩ := Part.floorStanding_delegate x new p
  obtain ⟨first, closed⟩ := Part.closeMic_notices found .standingChanged enabled room
  obtain ⟨ns, later⟩ := (Work.leaveSaved (s := x) (Work.refl (p.floorStanding x .delegate new))).notes
  obtain ⟨more, queued⟩ := Link.notifyAll_notices ns (p.floorStanding x .delegate new).link
  refine ⟨first ++ more, ?_⟩
  show ((p.floorStanding x .delegate new).leaveSaved x).link.notices = _
  rw [later, queued, link, if_neg other, closed, List.append_assoc]
  rfl

/-- Settles O19: the lines of R10 by their conditions, and R68 by the standing that changes. -/
theorem standingChanged : Obligations.StandingChanged := by
  refine ⟨fun s tag ready => ⟨fun x n hx hn bad => exec_setStanding_badValue ready tag hx hn bad, ?_⟩, ?_⟩
  · intro x standing old limited code command
    have coded : code = standing.code := by cases standing <;> rfl
    have asked : command = .setStanding tag (seatBytes x ++ u8 standing.code) := by rw [← coded]
    rw [asked]
    exact ⟨exec_setStanding_idle ready tag x standing, exec_setStanding_fifthChair ready tag x standing,
      exec_setStanding_same ready tag x standing, exec_setStanding_changes ready tag x standing⟩
  · intro p x new f left q
    have floor := Part.changedStanding_delegate_floor x new p
    refine ⟨?_, fun other => ⟨?_, fun e found => Part.changedStanding_closes other found⟩, rfl, rfl, rfl⟩
    · rintro rfl
      exact ⟨floor, Part.changedStanding_becomeChair_link⟩
    · rw [if_neg other] at floor
      exact floor

end Sys2Proof.Machine
end

section
/-!
PROOFS. A press event at the seat table (R4, R5, R65), and at the room scheduler (R36, R37).
-/
namespace Sys2Proof.Machine

/-! ### At the seat table -/

theorem Part.takePress_absent {p : Part} {x : Seat} (h : (p.seat x).link ≠ .present) (button : Button) :
    p.takePress x button = p := if_neg h

theorem Part.takePress_present {p : Part} {x : Seat} (h : (p.seat x).link = .present) (button : Button) :
    p.takePress x button =
      (({ p with pressSeq := p.pressSeq + 1 }).schedulerPress x button).routePress x button (p.pressSeq + 1) := if_pos h

/-- The table of R5. -/
theorem Part.routePress_table (x : Seat) (button : Button) (number : Word32) (p : Part) :
    p.routePress x button number =
      match button, (p.seat x).standing, (p.seat x).unitType with
      | .speak, .chair, _ => p.floorEvent (Part.resolvePress x number .chair)
      | .speak, _, _ => p.floorEvent (Part.resolvePress x number .button)
      | .aux, .chair, _ => p.floorEvent (Part.chairAux x)
      | .aux, .delegate, some .presenter => p.shareToggle x
      | .aux, _, _ => p := by
  unfold Part.routePress
  dsimp only
  generalize (p.seat x).standing = standing
  generalize (p.seat x).unitType = unit
  cases button
  case speak => cases standing <;> rfl
  case aux =>
    cases standing
    case delegate => rcases unit with _ | (_ | _ | _) <;> rfl
    all_goals rfl

/-- A waiting press of the button asked for is taken out and taken (R4, log 21). -/
theorem Part.takeWaiting_first {p : Part} {x : Seat} {button : Button}
    (h : (p.presses.find? fun n => n.seat = x) = some ⟨x, button⟩) :
    p.takeWaiting x button = ({ p with presses := p.presses.erase ⟨x, button⟩ }).takePress x button := by
  unfold Part.takeWaiting
  rw [h]
  exact if_pos rfl

/-! ### SEAT_PRESS (R65) -/

/-- Presses taken one after another, the last one last. -/
theorem Part.takePresses_succ (x : Seat) (button : Button) (n : Nat) (p : Part) :
    p.takePresses x button (n + 1) = (p.takePresses x button n).takePress x button := by
  induction n generalizing p with
  | zero => rfl
  | succ n ih => exact ih (p.takePress x button)

theorem Part.takePresses_repeat (x : Seat) (button : Button) (n : Nat) (p : Part) :
    p.takePresses x button n = Nat.repeat (fun q => q.takePress x button) n p := by
  induction n with
  | zero => rfl
  | succ n ih => exact (Part.takePresses_succ x button n p).trans (congrArg (fun q : Part => q.takePress x button) ih)

/-- The number of a button (R190). -/
def buttonCode : Button → Nat
  | .speak => 0
  | .aux => 1

/-- What the seat table answers to presses within range. -/
theorem answerSeatPress_written (p : Part) (x : Seat) (button : Button) {count : Nat} (low : 1 ≤ count) (high : count ≤ 3) :
    answerSeatPress (seatBytes x ++ u8 (buttonCode button) ++ u8 count) p =
      if (p.seat x).link = .present then ok [] (p.takePresses x button count) else refuse .refused p := by
  have code : buttonCode button < 256 := by cases button <;> decide
  have named : [Button.speak, .aux][buttonCode button]? = some button := by cases button <;> rfl
  refine (readThen_ok (readThree_written (seat_lt x) code (by omega))).trans ?_
  simp only [seat?_val, named, within_of_mem (And.intro low high)]
  rfl

theorem answerSeatPress_badValue (p : Part) {n b count : Nat} (hn : n < 256) (hb : b < 256) (hc : count < 256)
    (bad : 63 < n ∨ 1 < b ∨ count = 0 ∨ 3 < count) : answerSeatPress (u8 n ++ u8 b ++ u8 count) p = refuse .badArg p := by
  refine (readThen_ok (readThree_written hn hb hc)).trans ?_
  dsimp only
  by_cases seat : 63 < n
  · rw [seat?_of_gt seat]
    rfl
  by_cases button : 1 < b
  · rw [List.getElem?_eq_none (show 2 ≤ b from button)]
    cases seat? n <;> rfl
  rw [within_of_not_mem (show ¬(1 ≤ count ∧ count ≤ 3) by omega)]
  cases seat? n <;> cases [Button.speak, .aux][b]? <;> rfl

theorem exec_seatPress (tag : Byte) (payload : List Byte) (s : State) :
    exec (.seatPress tag payload) s = onPart (Part.request ⟨0x2B, tag, payload⟩ answerSeatPress) s := rfl

theorem exec_seatPress_present {s : State} (ready : s.part.Ready) (tag : Byte) (x : Seat) (button : Button) {count : Nat}
    (low : 1 ≤ count) (high : count ≤ 3) (present : (s.part.seat x).link = .present) :
    exec (.seatPress tag (seatBytes x ++ u8 (buttonCode button) ++ u8 count)) s =
      s.accepts 0xAB tag [] (Nat.repeat (fun p => p.takePress x button) count s.part.taken) := by
  rw [exec_seatPress, ← Part.takePresses_repeat]
  exact request_accepts ready ((answerSeatPress_written _ x button low high).trans (if_pos present))

theorem exec_seatPress_absent {s : State} (ready : s.part.Ready) (tag : Byte) (x : Seat) (button : Button) {count : Nat}
    (low : 1 ≤ count) (high : count ≤ 3) (absent : (s.part.seat x).link ≠ .present) :
    exec (.seatPress tag (seatBytes x ++ u8 (buttonCode button) ++ u8 count)) s = s.refuses 0xAB tag 0x04 := by
  rw [exec_seatPress]
  exact request_refuses (status := .refused) ready ((answerSeatPress_written _ x button low high).trans (if_neg absent))

/-! ### At the room scheduler (R36, R37) -/

theorem Part.adhocAttempted_iff (p : Part) (x : Seat) :
    p.adhocAttempted x = true ↔
      p.sched.session = none ∧ p.sched.defaults.adhoc = true ∧ p.sched.valid = true ∧ (p.seat x).link = .present ∧
        (p.seat x).role = .member := by
  simp [Part.adhocAttempted, Part.isOpen, and_assoc]

theorem Part.adhocDuration_eq (p : Part) :
    p.adhocDuration =
      match p.sched.bookings with
      | b :: _ => min p.sched.defaults.adhocDuration (b.start - p.now)
      | [] => p.sched.defaults.adhocDuration := by
  unfold Part.adhocDuration
  cases p.sched.bookings <;> rfl

/-- An attempt at an ad-hoc meeting, by its three cases (R37). -/
theorem Part.attemptAdhoc_cases (p : Part) (x : Seat) :
    (p.adhocAttempted x = false → p.attemptAdhoc x = p) ∧
    (p.adhocAttempted x = true → 16 ≤ p.sched.bookings.length ∨ p.adhocDuration < p.sched.defaults.adhocMinimum →
      p.attemptAdhoc x = p.deny x) ∧
    (p.adhocAttempted x = true → ¬(16 ≤ p.sched.bookings.length ∨ p.adhocDuration < p.sched.defaults.adhocMinimum) →
      p.attemptAdhoc x =
        ({ p with
          sched := { p.sched with bookings := p.adhocBooking :: p.sched.bookings }
          link := p.link.notify (.adhocCreated x p.now p.adhocDuration (p.now + p.adhocDuration)) }).openSession
          p.adhocBooking) := by
  unfold Part.attemptAdhoc
  refine ⟨fun no => if_neg (by simp [no]), fun attempted fails => ?_, fun attempted holds => ?_⟩
  · rw [if_pos attempted, if_pos (by simpa using fails)]
  · rw [if_pos attempted, if_neg (by simpa using holds)]
    rfl

theorem Part.schedulerPress_speak (p : Part) (x : Seat) :
    p.schedulerPress x .speak =
      let tried := p.wakeEvent.attemptAdhoc x
      if tried.isOpen = true ∧ ((tried.seat x).standing = .delegate ∨ (tried.seat x).standing = .chair) then tried.checkIn
      else tried := by
  simp only [← Standing.speaks_iff, ← Bool.and_eq_true]
  rfl

end Sys2Proof.Machine
end

section
/-!
PROOFS. A SPEAK press and a voice report at the floor (R51 to R57), and a chair's AUX press (R74).
-/
namespace Sys2Proof.Machine

/-! ### A request for the floor, and its denial (R53, R54) -/

/-- The part after a request for the floor, with `denied` applied when the request was denied. -/
def Part.orDenied (denied : Part → Part) (r : Verdict × Part) : Part := if r.1 = .denied then denied r.2 else r.2

theorem Part.orDenied_deny (x : Seat) (r : Verdict × Part) : Part.denyIfDenied x r = Part.orDenied (Part.deny x) r := rfl

theorem Part.orDenied_id (r : Verdict × Part) : r.2 = Part.orDenied id r := by
  unfold Part.orDenied
  split <;> rfl

/-- Appended, or denied with QUEUE_FULL (R54). -/
def Part.appendOrDeny (x : Seat) (source : Source) (denied : Part → Part) (p : Part) : Part :=
  if 32 ≤ p.floor.queue.length then denied (p.notify (.queueFull x)) else p.appendSeat x source

theorem Part.orDenied_appendOrFull (x : Seat) (source : Source) (denied : Part → Part) (p : Part) :
    Part.orDenied denied (p.appendOrFull x source) = p.appendOrDeny x source denied := by
  unfold Part.appendOrFull Part.appendOrDeny Floor.queueFull
  simp only [decide_eq_true_eq]
  split <;> rfl

/-- Opened when slot and lane are free, and otherwise by the overflow policy (R53). -/
def Part.askOrDeny (x : Seat) (source : Source) (denied : Part → Part) (p : Part) : Part :=
  if p.floor.delegates < p.floor.preset.limit ∧ (p.freeLane (chainOf x)).isSome = true then
    p.openMic x .delegate source false none
  else
    match p.floor.preset.overflow with
    | .queue => p.appendOrDeny x source denied
    | .deny => denied p
    | .replaceOldest =>
      match p.replaced x with
      | some e => p.replaceWith e x source false
      | none => denied p

theorem Part.resourcesFree_iff (p : Part) (x : Seat) :
    p.resourcesFree x = true ↔ p.floor.delegates < p.floor.preset.limit ∧ (p.freeLane (chainOf x)).isSome = true := by
  simp [Part.resourcesFree, Part.slotFree]

theorem Part.orDenied_requestDelegate (x : Seat) (source : Source) (denied : Part → Part) (p : Part) :
    Part.orDenied denied (p.requestDelegate x source) = p.askOrDeny x source denied := by
  unfold Part.requestDelegate Part.askOrDeny
  simp only [← Part.resourcesFree_iff]
  split
  · rfl
  · cases p.floor.preset.overflow
    case queue => exact Part.orDenied_appendOrFull x source denied p
    case deny => rfl
    case replaceOldest => cases p.replaced x <;> rfl

/-! ### A SPEAK press, line by line (R51) -/

section
variable {p : Part} (x : Seat) (number : Word32) (source : Source)

theorem Part.resolvePress_idle (idle : p.isOpen = false) : p.resolvePress x number source = p.deny x :=
  if_pos (by simp [idle])

variable (isOpen : p.isOpen = true)
include isOpen

/-- During a session the standing of the seat decides which lines apply. -/
theorem Part.resolvePress_open :
    p.resolvePress x number source =
      match (p.seat x).standing with
      | .out => p.deny x
      | .listener => p.deny x
      | .chair => Part.denyIfDenied x (p.requestChair x source)
      | .delegate =>
        if p.speaking x then if p.floor.preset.selfClose then p.closeMic x (some .self) else p
        else if p.isQueued x then if p.floor.preset.withdraw then p.withdraw x else p
        else if p.isHeldPress x then if p.floor.preset.withdraw then p.unhold x else p
        else if p.frozen then (p.modFloor fun f => { f with held := f.held ++ [⟨x, number⟩] }).derive x
        else
          match p.floor.preset.mode with
          | .queued => Part.denyIfDenied x (p.appendOrFull x source)
          | .direct => Part.denyIfDenied x (p.requestDelegate x source)
          | .voice => Part.denyIfDenied x (p.requestDelegate x source) :=
  if_neg (by simp [isOpen])

theorem Part.resolvePress_mute (mute : (p.seat x).standing = .listener ∨ (p.seat x).standing = .out) :
    p.resolvePress x number source = p.deny x := by
  rw [Part.resolvePress_open x number source isOpen]
  rcases mute with standing | standing <;> rw [standing]

theorem Part.resolvePress_chair_speaking (standing : (p.seat x).standing = .chair) (speaking : p.speaking x = true) :
    p.resolvePress x number source = if p.floor.preset.selfClose = true then p.closeMic x (some .self) else p := by
  rw [Part.resolvePress_open x number source isOpen, standing]
  dsimp only
  rw [Part.requestChair, if_pos speaking]
  split <;> rfl

theorem Part.resolvePress_chair_silent (standing : (p.seat x).standing = .chair) (silent : p.speaking x = false) :
    p.resolvePress x number source =
      if (p.openChair x source).1 = .denied then (p.openChair x source).2.deny x else (p.openChair x source).2 := by
  rw [Part.resolvePress_open x number source isOpen, standing]
  dsimp only
  rw [Part.requestChair, if_neg (by simp [silent])]
  rfl

variable (standing : (p.seat x).standing = .delegate)
include standing

theorem Part.resolvePress_delegate_speaking (speaking : p.speaking x = true) :
    p.resolvePress x number source = if p.floor.preset.selfClose = true then p.closeMic x (some .self) else p := by
  rw [Part.resolvePress_open x number source isOpen, standing]
  exact if_pos speaking

variable (silent : p.speaking x = false)
include silent

theorem Part.resolvePress_queued (queued : p.isQueued x = true) :
    p.resolvePress x number source = if p.floor.preset.withdraw = true then p.withdraw x else p := by
  rw [Part.resolvePress_open x number source isOpen, standing]
  dsimp only
  rw [if_neg (by simp [silent]), if_pos queued]

variable (away : p.isQueued x = false)
include away

theorem Part.resolvePress_held (held : p.isHeldPress x = true) :
    p.resolvePress x number source = if p.floor.preset.withdraw = true then p.unhold x else p := by
  rw [Part.resolvePress_open x number source isOpen, standing]
  dsimp only
  rw [if_neg (by simp [silent]), if_neg (by simp [away]), if_pos held]

variable (unheld : p.isHeldPress x = false)
include unheld

theorem Part.resolvePress_frozen (frozen : p.floor.stack ≠ []) :
    p.resolvePress x number source = (p.modFloor fun f => { f with held := f.held ++ [⟨x, number⟩] }).derive x := by
  rw [Part.resolvePress_open x number source isOpen, standing]
  dsimp only
  rw [if_neg (by simp [silent]), if_neg (by simp [away]), if_neg (by simp [unheld]), if_pos ((Part.frozen_iff p).2 frozen)]

variable (thawed : p.floor.stack = [])
include thawed

/-- The last line of R51: the floor mode decides. -/
theorem Part.resolvePress_asks :
    p.resolvePress x number source =
      if p.floor.preset.mode = .queued then p.appendOrDeny x source (Part.deny x) else p.askOrDeny x source (Part.deny x) := by
  rw [Part.resolvePress_open x number source isOpen, standing]
  dsimp only
  rw [if_neg (by simp [silent]), if_neg (by simp [away]), if_neg (by simp [unheld]),
    if_neg fun frozen => (Part.frozen_iff p).1 frozen thawed]
  simp only [Part.orDenied_deny, Part.orDenied_appendOrFull, Part.orDenied_requestDelegate]
  cases p.floor.preset.mode <;> rfl

end

/-! ### Voice reports (R56, R57) -/

/-- A voice report of a seat that speaks (R57). -/
theorem Part.voiceReport_speaking {p : Part} {x : Seat} {e : Speaker} (found : p.speaker? x = some e) (voice : Bool) :
    p.voiceReport x voice =
      if voice = true ∧ e.kind = .delegate ∧ (e.source = .voice ∨ (e.source = .auto ∧ p.floor.preset.mode = .voice)) then
        p.modFloor (Floor.modSpeaker x fun e => { e with silence := 0 })
      else p := by
  unfold Part.voiceReport
  rw [found]
  simp only [Bool.and_eq_true, Part.voiceHeld_iff]

section
variable {p : Part} {x : Seat} (silent : p.speaker? x = none)
include silent

theorem Part.voiceReport_quiet : p.voiceReport x false = p.modFloor (Floor.setOnset x 0) := by
  unfold Part.voiceReport
  rw [silent]
  rfl

theorem Part.voiceReport_first (first : p.floor.onset x = 0) : p.voiceReport x true = p.modFloor (Floor.setOnset x 1) := by
  unfold Part.voiceReport
  rw [silent]
  simp only [Bool.not_true, Bool.false_eq_true, if_false, first]

theorem Part.voiceReport_more (more : 2 ≤ p.floor.onset x) : p.voiceReport x true = p := by
  unfold Part.voiceReport
  rw [silent]
  obtain ⟨n, count⟩ : ∃ n, p.floor.onset x = n + 2 := ⟨p.floor.onset x - 2, by omega⟩
  simp only [Bool.not_true, Bool.false_eq_true, if_false, count]

/-- The second report in a row is an onset, which is resolved in mode VOICE (R56). -/
theorem Part.voiceReport_second (second : p.floor.onset x = 1) :
    p.voiceReport x true =
      if p.floor.preset.mode = .voice then (p.modFloor (Floor.setOnset x 2)).resolveVoice x
      else p.modFloor (Floor.setOnset x 2) := by
  unfold Part.voiceReport
  rw [silent]
  simp only [Bool.not_true, Bool.false_eq_true, if_false, second]

theorem Part.speaking_false : p.speaking x = false := by
  rw [← Bool.not_eq_true, Part.speaking_iff]
  exact Part.speaker?_none silent

/-- An onset is resolved for a delegate that neither speaks nor waits, on a floor that is not frozen (R51). -/
theorem Part.resolveVoice_silent :
    p.resolveVoice x =
      if p.isOpen = true ∧ (p.seat x).standing = .delegate ∧ p.isQueued x = false ∧ p.isHeldPress x = false ∧
          p.floor.stack = [] then
        p.askOrDeny x .voice id
      else p := by
  have thawed : p.frozen = false ↔ p.floor.stack = [] := by
    rw [← Bool.not_eq_true, Part.frozen_iff, not_not]
  unfold Part.resolveVoice
  rw [Part.orDenied_id (p.requestDelegate x .voice), Part.orDenied_requestDelegate]
  simp only [Bool.and_eq_true, decide_eq_true_eq, Bool.not_eq_true', Part.speaking_false silent, thawed, and_assoc, true_and]

end

/-- The second report of a seat that is silent, with what an onset asks for written out. -/
theorem Part.voiceReport_onset {p : Part} {x : Seat} (silent : p.speaker? x = none) (second : p.floor.onset x = 1) :
    p.voiceReport x true =
      if p.floor.preset.mode = .voice ∧ p.isOpen = true ∧ (p.seat x).standing = .delegate ∧ p.isQueued x = false ∧
          p.isHeldPress x = false ∧ p.floor.stack = [] then
        (p.modFloor (Floor.setOnset x 2)).askOrDeny x .voice id
      else p.modFloor (Floor.setOnset x 2) := by
  have resolved := Part.resolveVoice_silent (p := p.modFloor (Floor.setOnset x 2)) (x := x) silent
  rw [Part.voiceReport_second silent second]
  by_cases voice : p.floor.preset.mode = .voice
  · rw [if_pos voice]
    refine resolved.trans ?_
    simp only [voice, true_and]
    rfl
  · rw [if_neg voice, if_neg fun all => voice all.1]

theorem Part.modFloor_setOnset (p : Part) (x : Seat) (n : Nat) :
    p.modFloor (Floor.setOnset x n) = { p with floor := { p.floor with onsets := p.floor.onsets.set x.val n } } := by
  unfold Part.modFloor Floor.setOnset
  rw [updateAt_const]

end Sys2Proof.Machine
end

section
/-!
PROOFS. An AUX press of a PRESENTER delegate: its own share ends, or it asks for one (R149). Then the routing of presses as a
whole.
-/
namespace Sys2Proof.Machine

/-! ### The slot that a seat holds (R148) -/

theorem Screens.slotOf_one {v : Screens} {x : Seat} {h : Share} (held : v.slot1 = some h) (own : h.seat = x) :
    v.slotOf x = some .one := if_pos (by simp [held, own])

theorem Screens.slotOf_two {v : Screens} {x : Seat} {h : Share} (held : v.slot2 = some h) (own : h.seat = x)
    (other : ∀ g, v.slot1 = some g → g.seat ≠ x) : v.slotOf x = some .two := by
  unfold Screens.slotOf
  rw [if_neg, if_pos]
  · simp [held, own]
  · simpa only [Option.any_eq_true, decide_eq_true_eq, not_exists, not_and] using other

theorem Screens.slotOf_none {v : Screens} {x : Seat} (one : ∀ g, v.slot1 = some g → g.seat ≠ x)
    (two : ∀ g, v.slot2 = some g → g.seat ≠ x) : v.slotOf x = none := by
  unfold Screens.slotOf
  rw [if_neg, if_neg]
  · simpa only [Option.any_eq_true, decide_eq_true_eq, not_exists, not_and] using two
  · simpa only [Option.any_eq_true, decide_eq_true_eq, not_exists, not_and] using one

/-! ### The conditions of R149 -/

/-- The conditions of R149 for a seat that holds no slot, an open session the first of them. -/
def Part.shareConditions (p : Part) (x : Seat) : Prop :=
  p.isOpen = true ∧ (p.seat x).link = .present ∧ (p.seat x).unitType = some .presenter ∧ (p.seat x).input.isSome = true ∧
    (p.seat x).signal = true ∧ ((p.seat x).standing = .delegate ∨ (p.seat x).standing = .chair) ∧
    (p.screens.requiresFloor = true → (p.seat x).standing = .delegate →
      p.speaking x = true ∨ ∃ r ∈ p.floor.stack, ∃ e ∈ r.saved, e.seat = x)

theorem Part.inFloor_iff (p : Part) (x : Seat) :
    p.inFloor x = true ↔ p.speaking x = true ∨ ∃ r ∈ p.floor.stack, ∃ e ∈ r.saved, e.seat = x := by
  simp [Part.inFloor, Part.isSaved, ResumeFrame.saves]

theorem Part.mayShare_iff (p : Part) (x : Seat) : (p.isOpen && p.mayShare x) = true ↔ p.shareConditions x := by
  have floor : (!(p.screens.requiresFloor && (p.seat x).standing = .delegate) || p.inFloor x) = true ↔
      (p.screens.requiresFloor = true → (p.seat x).standing = .delegate →
        p.speaking x = true ∨ ∃ r ∈ p.floor.stack, ∃ e ∈ r.saved, e.seat = x) := by
    rw [← Part.inFloor_iff]
    cases p.screens.requiresFloor <;> cases p.inFloor x <;> simp
  unfold Part.mayShare Part.shareConditions
  dsimp only
  rw [Bool.and_eq_true, Bool.and_eq_true, floor]
  simp only [Bool.and_eq_true, decide_eq_true_eq, Standing.speaks_iff, and_assoc]

/-! ### The press -/

theorem Part.shareToggle_own {p : Part} {x : Seat} {n : Slot} (own : p.screens.slotOf x = some n) :
    p.shareToggle x = p.endShare n .self := by
  unfold Part.shareToggle
  rw [own]

section
variable {p : Part} {x : Seat} (free : p.screens.slotOf x = none)
include free

theorem Part.shareToggle_denied (fails : ¬p.shareConditions x) : p.shareToggle x = p.deny x := by
  unfold Part.shareToggle
  rw [free]
  exact if_neg fun holds => fails ((Part.mayShare_iff p x).1 holds)

variable (may : p.shareConditions x)
include may

/-- With the conditions of R149 the slots and the share policy decide. -/
theorem Part.shareToggle_asks :
    p.shareToggle x =
      match p.grantShare x .button with
      | some (_, q) => q
      | none => p.deny x := by
  unfold Part.shareToggle
  rw [free]
  exact if_pos ((Part.mayShare_iff p x).2 may)

theorem Part.shareToggle_slotOne (one : p.screens.slot1 = none) : p.shareToggle x = p.takeSlot .one x .button := by
  rw [Part.shareToggle_asks free may]
  simp [Part.grantShare, Screens.freeSlot, one]

theorem Part.shareToggle_slotTwo (one : p.screens.slot1 ≠ none) (two : p.screens.slot2 = none) :
    p.shareToggle x = p.takeSlot .two x .button := by
  rw [Part.shareToggle_asks free may]
  simp [Part.grantShare, Screens.freeSlot, one, two]

variable {h1 h2 : Share} (one : p.screens.slot1 = some h1) (two : p.screens.slot2 = some h2)
include one two

theorem Part.shareToggle_policyDeny (policy : p.screens.policy = .deny) : p.shareToggle x = p.deny x := by
  rw [Part.shareToggle_asks free may]
  simp [Part.grantShare, Screens.freeSlot, one, two, policy]

theorem Part.shareToggle_takesOlder (policy : p.screens.policy = .takeover) {n : Slot} {h : Share}
    (older : p.screens.older = some n) (held : p.screens.slot n = some h) :
    p.shareToggle x = (p.freeShare n h .takenOver).takeSlot n x .button := by
  rw [Part.shareToggle_asks free may]
  simp [Part.grantShare, Screens.freeSlot, one, two, policy, older, held]

end

/-! ### A chair's AUX press (R74) -/

theorem Part.chairAux_lines (p : Part) (x : Seat) :
    p.chairAux x =
      if p.floor.holders.any fun h => h.1 = .seat x then p.release (.seat x)
      else if p.floor.stack.any fun r => r.holder = .seat x && r.released then p.retake (.seat x)
      else p.take (.seat x) := rfl

/-! ### All presses -/

/-- An attempt at an ad-hoc meeting, with the booking it creates written out (R37). -/
theorem Part.attemptAdhoc_written (w : Part) (x : Seat) :
    let d := w.sched
    let k := d.defaults
    let duration := match d.bookings with
      | b :: _ => min k.adhocDuration (b.start - w.now)
      | [] => k.adhocDuration
    let b : Booking :=
      { id := 0, start := w.now, duration := duration, title := [], roster := [], chairs := [], floor := k.floor, mix := k.mix
        plan := k.adhocPlan, privacy := .normal, grace := 0, warning := k.adhocWarning, origin := .adhoc, state := .active }
    let attempted := d.session = none ∧ k.adhoc = true ∧ d.valid = true ∧ (w.seat x).link = .present ∧ (w.seat x).role = .member
    let fails := 16 ≤ d.bookings.length ∨ duration < k.adhocMinimum
    w.attemptAdhoc x =
      if ¬attempted then w
      else if fails then w.deny x
      else
        ({ w with
          sched := { d with bookings := b :: d.bookings }
          link := w.link.notify (.adhocCreated x w.now duration (w.now + duration)) }).openSession b := by
  intro d k duration b attempted fails
  have lasts : w.adhocDuration = duration := Part.adhocDuration_eq w
  have booked : w.adhocBooking = b := by
    unfold Part.adhocBooking
    rw [lasts]
  obtain ⟨no, denied, created⟩ := Part.attemptAdhoc_cases w x
  rw [lasts, booked] at created
  rw [lasts] at denied
  by_cases asked : attempted
  · rw [if_neg (not_not_intro asked)]
    have asked : w.adhocAttempted x = true := (Part.adhocAttempted_iff w x).2 asked
    by_cases full : fails
    · rw [if_pos full]
      exact denied asked full
    · rw [if_neg full]
      exact created asked full
  · rw [if_pos asked]
    exact no (Bool.eq_false_iff.2 fun yes => asked ((Part.adhocAttempted_iff w x).1 yes))

/-- Settles O21: the seat table, the room scheduler, the floor, priority and the shares, each by its own lines. -/
theorem pressesRouted : Obligations.PressesRouted := by
  refine ⟨fun p x button => ⟨fun absent => Part.takePress_absent absent button, fun present => ?_⟩, ?_, ?_, ?_, ?_⟩
  · intro number q
    exact (Part.takePress_present present button).trans (Part.routePress_table x button number q)
  · intro s x button quiet first
    show onPart (Part.whenRunning (Part.takeWaiting x button)) s = _
    unfold onPart
    rw [quiet.whenRunning, Part.takeWaiting_first first]
    rfl
  · intro s tag x button ready code
    have coded : code = buttonCode button := by cases button <;> rfl
    rw [coded]
    exact ⟨fun _ low high => exec_seatPress_present ready tag x button low high,
      fun _ low high => exec_seatPress_absent ready tag x button low high,
      fun _ _ _ hn hb hc bad => request_refuses (f := ⟨0x2B, tag, _⟩) (owner := answerSeatPress) (status := .badArg) ready
        (answerSeatPress_badValue _ hn hb hc bad)⟩
  · intro p x w d k duration b attempted fails tried
    have attempt : p.wakeEvent.attemptAdhoc x = tried := Part.attemptAdhoc_written w x
    refine ⟨rfl, (Part.schedulerPress_speak p x).trans ?_⟩
    rw [attempt]
    rfl
  · intro p x number source f preset append appended asked r standing
    refine ⟨Part.resolvePress_idle x number source, Part.resolvePress_mute x number source, fun isOpen chair => ?_,
      fun isOpen delegate => ?_, fun e voice found => Part.voiceReport_speaking found voice, fun silent => ?_,
      Part.chairAux_lines p x, ?_⟩
    · exact ⟨Part.resolvePress_chair_speaking x number source isOpen chair,
        Part.resolvePress_chair_silent x number source isOpen chair⟩
    · refine ⟨Part.resolvePress_delegate_speaking x number source isOpen delegate,
        Part.resolvePress_queued x number source isOpen delegate,
        fun silent away => Part.resolvePress_held x number source isOpen delegate silent away,
        fun silent away unheld => ⟨Part.resolvePress_frozen x number source isOpen delegate silent away unheld,
          fun thawed queued => ?_, fun thawed other => ?_⟩⟩
      · exact (Part.resolvePress_asks x number source isOpen delegate silent away unheld thawed).trans (if_pos queued)
      · exact (Part.resolvePress_asks x number source isOpen delegate silent away unheld thawed).trans (if_neg other)
    · intro counted
      have write (n : Nat) : p.modFloor (Floor.setOnset x n) = counted n := Part.modFloor_setOnset p x n
      have onset := Part.voiceReport_onset (p := p) (x := x) silent
      rw [write] at onset
      exact ⟨(Part.voiceReport_quiet silent).trans (write 0), fun first => (Part.voiceReport_first silent first).trans (write 1),
        onset, Part.voiceReport_more silent⟩
    · intro v unit may
      refine ⟨fun h held own => Part.shareToggle_own (Screens.slotOf_one held own),
        fun h held own other => Part.shareToggle_own (Screens.slotOf_two held own other), fun notOne notTwo => ?_⟩
      have free := Screens.slotOf_none notOne notTwo
      exact ⟨Part.shareToggle_denied free, Part.shareToggle_slotOne free, Part.shareToggle_slotTwo free,
        fun h1 h2 holds one two => ⟨Part.shareToggle_policyDeny free holds one two,
          fun policy older => Part.shareToggle_takesOlder free holds one two policy older one,
          fun policy older => Part.shareToggle_takesOlder free holds one two policy older two⟩⟩

end Sys2Proof.Machine
end

section
/-!
PROOFS. Taking everything that has fallen due (log 2), and the steps of time at the room scheduler (R18, R32).
-/
namespace Sys2Proof.Machine

/-! ### Running the jobs of a second tick -/

theorem Part.runJob_keeps (j : TickJob) (p : Part) : (p.runJob j).power = p.power ∧ (p.runJob j).owed = p.owed := by
  cases j <;> dsimp only [Part.runJob]
  case entry => split <;> simp [Part.pushJob]
  case voice => split <;> simp [Part.pushJob]
  case grace => split <;> simp [Part.pushJob]
  case standby => split <;> simp [Part.pushJob]
  all_goals simp

/-- A step puts no job in front of the others. -/
theorem Part.runJob_step_tickJobs {j : TickJob} (step : j.isStep = true) (p : Part) : (p.runJob j).tickJobs = p.tickJobs := by
  cases j
  case expiry | silence | graceEnd | standbyEnd => simp [Part.runJob]
  all_goals cases step

theorem Part.runJobsWith_keeps (stop : Bool) (n : Nat) (p : Part) :
    (p.runJobsWith stop n).power = p.power ∧ (p.runJobsWith stop n).owed = p.owed := by
  induction n generalizing p with
  | zero => exact ⟨rfl, rfl⟩
  | succ n ih =>
    unfold Part.runJobsWith
    split
    · exact ⟨rfl, rfl⟩
    · rename_i j rest _
      split
      · exact ⟨rfl, rfl⟩
      · obtain ⟨power, owed⟩ := ih (({ p with tickJobs := rest }).runJob j)
        obtain ⟨power', owed'⟩ := Part.runJob_keeps j { p with tickJobs := rest }
        exact ⟨power.trans power', owed.trans owed'⟩

theorem Part.runJobs_keeps (stop : Bool) (p : Part) : (p.runJobs stop).power = p.power ∧ (p.runJobs stop).owed = p.owed :=
  Part.runJobsWith_keeps stop _ p

/-- The fuel that a job needs: one unit for itself, and one for the step that it may put in front of the others. -/
def TickJob.fuel (j : TickJob) : Nat := if j.isStep then 1 else 2

theorem TickJob.fuel_sum_le (js : List TickJob) : (js.map TickJob.fuel).sum ≤ 2 * js.length := by
  induction js with
  | nil => exact Nat.le_refl 0
  | cons j js ih =>
    have le : j.fuel ≤ 2 := by
      unfold TickJob.fuel
      split <;> omega
    simp only [List.map_cons, List.sum_cons, List.length_cons]
    omega

/-- Running a job uses up at least one unit of the fuel that the jobs left need. -/
theorem Part.runJob_fuel {p : Part} {j : TickJob} {rest : List TickJob} :
    (((({ p with tickJobs := rest } : Part).runJob j).tickJobs).map TickJob.fuel).sum < ((j :: rest).map TickJob.fuel).sum := by
  rw [List.map_cons, List.sum_cons]
  by_cases step : j.isStep = true
  · rw [Part.runJob_step_tickJobs step]
    simp [TickJob.fuel, step]
  · rcases Part.runJob_tickJobs j { p with tickJobs := rest } with same | ⟨k, isStep, pushed⟩
    · rw [same]
      simp [TickJob.fuel, step]
    · rw [pushed, List.map_cons, List.sum_cons]
      simp [TickJob.fuel, step, isStep]

/-- Run without a stop, the jobs of a second tick are run to the end. -/
theorem Part.runJobs_done (p : Part) : (p.runJobs false).tickJobs = [] := by
  have enough (n : Nat) : ∀ p : Part, (p.tickJobs.map TickJob.fuel).sum ≤ n → (p.runJobsWith false n).tickJobs = [] := by
    induction n with
    | zero =>
      intro p none
      cases jobs : p.tickJobs with
      | nil => exact jobs
      | cons j rest =>
        rw [jobs, List.map_cons, List.sum_cons] at none
        have pos : 0 < j.fuel := by
          unfold TickJob.fuel
          split <;> omega
        omega
    | succ n ih =>
      intro p enough
      unfold Part.runJobsWith
      cases jobs : p.tickJobs with
      | nil => exact jobs
      | cons j rest =>
        rw [jobs] at enough
        exact ih _ (Nat.le_of_lt_succ (Nat.lt_of_lt_of_le Part.runJob_fuel enough))
  exact enough _ p (TickJob.fuel_sum_le _)

/-- What every job before the first step keeps is kept by a second tick up to that step. -/
theorem Part.runJobs_upToStep {P : Part → Prop}
    (kept : ∀ (q : Part) (j : TickJob) (rest : List TickJob), q.tickJobs = j :: rest → j.isStep = false → P q →
      P (({ q with tickJobs := rest }).runJob j)) {p : Part} (h : P p) : P (p.runJobs true) := by
  unfold Part.runJobs
  generalize 2 * p.tickJobs.length = n
  induction n generalizing p with
  | zero => exact h
  | succ n ih =>
    unfold Part.runJobsWith
    split
    · exact h
    · rename_i j rest jobs
      split
      · exact h
      · rename_i go
        exact ih (kept p j rest jobs (by simpa using go) h)

/-! ### Taking everything that has fallen due (log 2) -/

theorem Part.takeOwed_keeps (o : Owed) (p : Part) : (p.takeOwed o).power = p.power ∧ (p.takeOwed o).owed = p.owed := by
  cases o
  case tick moved =>
    obtain ⟨power, owed⟩ := Part.runJobs_keeps false (p.startTick moved)
    have started : (p.startTick moved).power = p.power ∧ (p.startTick moved).owed = p.owed := by
      cases moved <;> exact ⟨rfl, rfl⟩
    exact ⟨power.trans started.1, owed.trans started.2⟩
  all_goals simp [Part.takeOwed]

theorem Part.takeOwed_tickJobs (o : Owed) {p : Part} (none : p.tickJobs = []) : (p.takeOwed o).tickJobs = [] := by
  cases o
  case tick moved => exact Part.runJobs_done _
  all_goals simpa [Part.takeOwed] using none

theorem Part.foldl_takeOwed (os : List Owed) {p : Part} (owed : p.owed = []) (jobs : p.tickJobs = []) :
    (os.foldl Part.takeOwed p).owed = [] ∧ (os.foldl Part.takeOwed p).tickJobs = [] ∧
      (os.foldl Part.takeOwed p).power = p.power := by
  induction os generalizing p with
  | nil => exact ⟨owed, jobs, rfl⟩
  | cons o os ih =>
    obtain ⟨power, same⟩ := Part.takeOwed_keeps o p
    obtain ⟨owed', jobs', power'⟩ := ih (same.trans owed) (Part.takeOwed_tickJobs o jobs)
    exact ⟨owed', jobs', power'.trans power⟩

theorem Part.catchUp_nothingDue {p : Part} (owed : p.owed = []) (jobs : p.tickJobs = []) : p.catchUp = p := by
  unfold Part.catchUp
  simp only [Part.runJobs_none false jobs, owed, List.foldl_nil]
  rw [← owed]

/-- Settles O3: the jobs of a second tick run to the end, and then what is owed is taken step by step. -/
theorem catchUpLeavesNothingDue : Obligations.CatchUpLeavesNothingDue := by
  intro p
  obtain ⟨owed, jobs, power⟩ :=
    Part.foldl_takeOwed (p.runJobs false).owed (p := { p.runJobs false with owed := [] }) rfl (Part.runJobs_done p)
  exact ⟨owed, jobs, power.trans (Part.runJobs_keeps false p).1, Part.catchUp_nothingDue⟩

/-! ### A second tick at the room scheduler (R18) -/

/-- The clock, its valid flag and the booking table, which no receiver of a second tick changes. -/
def Scheduler.calendar (d : Scheduler) : Time × Bool × List Booking := (d.clock, d.valid, d.bookings)

theorem Part.tickEntry_calendar (x : Seat) (p : Part) : (p.tickEntry x).sched.calendar = p.sched.calendar := by
  unfold Part.tickEntry
  split
  · rfl
  · dsimp only
    split <;> simp [Scheduler.calendar]

theorem Part.tickStandby_calendar (p : Part) : p.tickStandby.sched.calendar = p.sched.calendar := by
  unfold Part.tickStandby
  split <;> rfl

/-- The jobs of a second tick that are no steps leave the calendar. -/
theorem Part.runJob_calendar {j : TickJob} (go : j.isStep = false) (p : Part) :
    (p.runJob j).sched.calendar = p.sched.calendar := by
  cases j <;> dsimp only [Part.runJob]
  case entry x =>
    have counted := Part.tickEntry_calendar x p
    split <;> exact counted
  case present => rfl
  case voice => split <;> simp [Part.pushJob]
  case floorEnd => simp
  case grace => split <;> simp [Part.pushJob]
  case standby =>
    have counted := Part.tickStandby_calendar p
    split <;> exact counted
  all_goals cases go

/-- The jobs that a second tick has while no session is OPEN, with the steps that may come of them. -/
def TickJob.outsideSession (j : TickJob) : Prop := j.isStep = true ∨ (∃ n, j = .grace n) ∨ j = .standby

theorem Part.runJob_outsideSession {j : TickJob} (go : j.isStep = false) (outside : j.outsideSession) (p : Part) :
    (p.runJob j).floor = p.floor ∧ (p.runJob j).mixer = p.mixer := by
  rcases outside with step | ⟨n, rfl⟩ | rfl
  · rw [go] at step
    cases step
  · dsimp only [Part.runJob]
    split <;> simp [Part.pushJob]
  · dsimp only [Part.runJob]
    split <;> simp [Part.pushJob]

/-- Up to its first step, a second tick leaves what is owed and the calendar. -/
theorem Part.runJobs_calendar (p : Part) : (p.runJobs true).sched.calendar = p.sched.calendar :=
  Part.runJobs_upToStep (P := fun q => q.sched.calendar = p.sched.calendar)
    (fun q _ rest _ go h => (Part.runJob_calendar go { q with tickJobs := rest }).trans h) rfl

/-- Up to its first step, a second tick outside a session leaves the floor and the mixer. -/
theorem Part.runJobs_outsideSession {p : Part} (outside : ∀ j ∈ p.tickJobs, j.outsideSession) :
    (p.runJobs true).floor = p.floor ∧ (p.runJobs true).mixer = p.mixer := by
  refine (Part.runJobs_upToStep
    (P := fun q => (∀ j ∈ q.tickJobs, j.outsideSession) ∧ q.floor = p.floor ∧ q.mixer = p.mixer) ?_ ⟨outside, rfl, rfl⟩).2
  rintro q j rest jobs go ⟨outside, floor, mixer⟩
  rw [jobs] at outside
  obtain ⟨floor', mixer'⟩ := Part.runJob_outsideSession go (outside j List.mem_cons_self) { q with tickJobs := rest }
  refine ⟨?_, floor'.trans floor, mixer'.trans mixer⟩
  have tail : ∀ i ∈ rest, i.outsideSession := fun i m => outside i (List.mem_cons_of_mem _ m)
  rcases Part.runJob_tickJobs j { q with tickJobs := rest } with same | ⟨k, isStep, pushed⟩
  · rw [same]
    exact tail
  · rw [pushed]
    exact fun i m => (List.mem_cons.1 m).elim (fun e => e ▸ .inl isStep) (tail i)

theorem Part.tickPlan_outsideSession {p : Part} (idle : p.isOpen = false) : ∀ j ∈ p.tickPlan, j.outsideSession := by
  intro j m
  simp only [Part.tickPlan, idle, Bool.false_eq_true, if_false, List.nil_append, List.mem_cons, List.not_mem_nil, or_false] at m
  rcases m with rfl | rfl | rfl
  · exact .inr (.inl ⟨.one, rfl⟩)
  · exact .inr (.inl ⟨.two, rfl⟩)
  · exact .inr (.inr rfl)

/-- A due second tick: the clock moves, unless a boundary taken first has moved it, and the receivers leave the calendar (R18). -/
theorem Part.secondTick_spec {p : Part} {moved : Bool} {rest : List Owed} (running : p.power = .running) (jobs : p.tickJobs = [])
    (owed : p.owed = .tick moved :: rest) :
    p.secondTick.owed = rest ∧
      p.secondTick.sched.calendar =
        (if moved then p.sched.clock else p.sched.clock.next, p.sched.valid && (moved || p.sched.clock ≠ Time.last),
          p.sched.bookings) ∧
      (p.isOpen = false → p.secondTick.floor = p.floor ∧ p.secondTick.mixer = p.mixer) := by
  rw [Part.secondTick_due running jobs owed]
  refine ⟨?_, ?_, fun idle => ?_⟩
  · rw [(Part.runJobs_keeps true _).2]
    cases moved <;> rfl
  · rw [Part.runJobs_calendar]
    cases moved <;> simp [Part.startTick, Part.moveClock, Scheduler.calendar]
  · obtain ⟨floor, mixer⟩ := Part.runJobs_outsideSession (p := ({ p with owed := rest } : Part).startTick moved)
      (by cases moved <;> exact Part.tickPlan_outsideSession idle)
    rw [floor, mixer]
    cases moved <;> exact ⟨rfl, rfl⟩

/-! ### The minute boundary and the wrap (R18, R32) -/

/-- A minute boundary or a wrap that is first in line is taken alone. -/
theorem Part.takeBoundary_first {p : Part} {o : Owed} {rest : List Owed} (noTick : ∀ moved, o ≠ .tick moved)
    (running : p.power = .running) (jobs : p.tickJobs = []) (owed : p.owed = o :: rest) :
    Part.takeBoundary o p = ({ p with owed := rest }).takeOwed o := by
  unfold Part.takeBoundary
  rw [if_pos running, jobs, owed]
  cases o
  case tick moved => exact absurd rfl (noTick moved)
  all_goals exact if_pos rfl

/-- What the 1000th completion makes due (R18). -/
theorem Scheduler.due_completed {d : Scheduler} (due : d.completions = 0) :
    d.due =
      if d.clock = Time.last then [.tick false, .wrap]
      else if d.clock.second = 59 then [.tick false, .boundary]
      else [.tick false] := if_neg (not_not.2 due)

/-- Settles O31: the tick by its jobs, the boundary and the wrap as steps that stand first, and what a completion makes due. -/
theorem clockTicks : Obligations.ClockTicks := by
  refine ⟨fun t _ _ _ => rfl, ?_, ?_, ?_, fun d => ⟨rfl, ?_, ?_, ?_, ?_⟩⟩
  · intro s moved rest running jobs owed
    obtain ⟨left, calendar, outside⟩ := Part.secondTick_spec running jobs owed
    obtain ⟨clock, valid, bookings⟩ : _ ∧ _ ∧ _ := by simpa only [Scheduler.calendar, Prod.mk.injEq] using calendar
    exact ⟨{ s with part := s.part.secondTick }, rfl, left, clock, valid, bookings, outside⟩
  · intro s rest running jobs owed
    have taken := Part.takeBoundary_first (fun _ h => by cases h) running jobs owed
    exact congrArg s.to taken
  · intro s rest running jobs owed
    have taken := Part.takeBoundary_first (fun _ h => by cases h) running jobs owed
    exact congrArg s.to taken
  · exact fun other => if_pos other
  · intro due
    rw [Scheduler.due_completed due]
    (repeat' split) <;> exact List.mem_cons_self
  · exact fun due last => (Scheduler.due_completed due).trans (if_pos last)
  · exact fun due second other => (Scheduler.due_completed due).trans ((if_neg other).trans (if_pos second))

end Sys2Proof.Machine
end

section
/-!
PROOFS. SET_CLOCK (R35), and the booking work of a minute boundary in its four steps (R28 to R30, R32).
-/
namespace Sys2Proof.Machine

/-! ### SET_CLOCK -/

theorem readTime_timeBytes {t : Time} (day : t.day < 65536) (minute : t.minute < 65536) (second : t.second < 256) :
    readTime (timeBytes t) = .ok (t, []) := by
  unfold readTime timeBytes
  rw [List.append_assoc, bindWord day, bindWord minute, bindByte_last second, Reader.pure_run]

theorem time?_inRange {t : Time} (day : t.day ≤ 65535) (h : t.minute ≤ 1439 ∧ t.second ≤ 59) : time? t = some t :=
  if_pos (by simpa [and_assoc] using And.intro day h)

theorem time?_outOfRange {t : Time} (h : ¬(t.minute ≤ 1439 ∧ t.second ≤ 59)) : time? t = none :=
  if_neg fun fits => h (by simp only [Bool.and_eq_true, decide_eq_true_eq] at fits; exact ⟨fits.1.2, fits.2⟩)

theorem exec_setClock {s : State} (ready : s.part.Ready) (tag : Byte) {t : Time} (day : t.day < 65536)
    (minute : t.minute < 65536) (second : t.second < 256) :
    exec (.setClock tag (timeBytes t)) s =
      if t.minute ≤ 1439 ∧ t.second ≤ 59 then s.acceptsWaking 0x88 tag [] (s.part.taken.setClock t).bookingWork
      else s.refuses 0x88 tag 0x03 := by
  have read := readTime_timeBytes day minute second
  show onPart (Part.request ⟨0x08, tag, timeBytes t⟩ answerSetClock) s = _
  split
  · rename_i fits
    refine request_acceptsWaking ready ((readThen_ok read).trans ?_)
    rw [time?_inRange (by omega) fits]
    rfl
  · rename_i bad
    refine request_refuses (status := .badArg) ready ((readThen_ok read).trans ?_)
    rw [time?_outOfRange bad]
    rfl

/-! ### The four steps of the booking work (R32) -/

theorem Part.endTest_active {p : Part} {b : Booking} (active : p.activeBooking = some b) :
    p.endTest = if b.finish ≤ p.now then p.closeSession .ended else p := by
  unfold Part.endTest
  rw [active]

theorem Part.endTest_noBooking {p : Part} (none : p.activeBooking = none) : p.endTest = p := by
  unfold Part.endTest
  rw [none]

/-- Notices queued for the members of a list reach the link interface alone. -/
theorem Part.foldl_notify {α : Type} (notice : α → Notice) (xs : List α) (p : Part) :
    xs.foldl (fun q x => q.notify (notice x)) p = { p with link := xs.foldl (fun l x => l.notify (notice x)) p.link } := by
  induction xs generalizing p with
  | nil => rfl
  | cons x xs ih => exact ih (p.notify (notice x))

theorem Part.dropMissed_eq (p : Part) :
    p.dropMissed =
      { p with
        sched := { p.sched with bookings := p.sched.bookings.filter fun b => !p.missed b }
        link := (p.sched.bookings.filter p.missed).foldl (fun l b => l.notify (.bookingMissed b.id b.start b.duration)) p.link } :=
  Part.foldl_notify (fun b : Booking => .bookingMissed b.id b.start b.duration) _ _

/-- With the session IDLE, the first booking is tested. -/
theorem Part.startTest_idle {p : Part} {b : Booking} {rest : List Booking} (idle : p.sched.session = none)
    (first : p.sched.bookings = b :: rest) :
    p.startTest = if b.state = .pending && b.start ≤ p.now && p.now < b.finish then p.openSession b else p := by
  unfold Part.startTest
  rw [idle, first]
  rfl

theorem Part.startTest_open {p : Part} {d : Session} (session : p.sched.session = some d) : p.startTest = p := by
  unfold Part.startTest
  rw [session]

theorem Part.startTest_emptyTable {p : Part} (empty : p.sched.bookings = []) : p.startTest = p := by
  unfold Part.startTest
  rw [empty]
  cases p.sched.session <;> rfl

theorem Part.startTest_opens {p : Part} {b : Booking} {rest : List Booking} (idle : p.sched.session = none)
    (first : p.sched.bookings = b :: rest) (pending : b.state = .pending) (started : b.start ≤ p.now) (lasts : p.now < b.finish) :
    p.startTest = p.openSession b := by
  rw [Part.startTest_idle idle first, if_pos (by simp [pending, started, lasts])]

theorem Part.startTest_stays {p : Part} {b : Booking} {rest : List Booking} (first : p.sched.bookings = b :: rest)
    (no : b.state = .active ∨ p.now < b.start ∨ b.finish ≤ p.now) : p.startTest = p := by
  cases session : p.sched.session with
  | some d => exact Part.startTest_open session
  | none =>
    rw [Part.startTest_idle session first]
    refine if_neg fun opens => ?_
    simp only [Bool.and_eq_true, decide_eq_true_eq] at opens
    obtain ⟨⟨pending, started⟩, lasts⟩ := opens
    rcases no with active | early | late
    · rw [active] at pending
      cases pending
    · omega
    · omega

theorem Part.noShowTest_open {p : Part} {d : Session} (session : p.sched.session = some d) :
    p.noShowTest = if !d.checkedIn && d.deadline.any fun t => t ≤ p.now then p.closeSession .noShow else p := by
  unfold Part.noShowTest
  rw [session]

/-- Whether the no-show deadline has been reached (R28). -/
theorem deadline_reached (d : Session) (now : Nat) :
    (!d.checkedIn && d.deadline.any fun t => decide (t ≤ now)) = true ↔
      d.checkedIn = false ∧ ∃ t, d.deadline = some t ∧ t ≤ now := by
  simp [Option.any_eq_true]

theorem Part.noShowTest_idle {p : Part} (idle : p.sched.session = none) : p.noShowTest = p := by
  unfold Part.noShowTest
  rw [idle]

/-! ### The end-warning test (R29) -/

theorem Part.endWarningTest_idle {p : Part} (idle : p.sched.session = none) : p.endWarningTest = p := by
  unfold Part.endWarningTest
  rw [idle]

theorem Part.endWarningTest_open {p : Part} {d : Session} {b : Booking} (session : p.sched.session = some d)
    (active : p.activeBooking = some b) :
    p.endWarningTest =
      if d.warned then if b.warning < b.finish - p.now then (p.setWarned false).deriveAll else p.deriveAll
      else if 0 < b.warning && b.finish ≤ p.now + b.warning then
        ((p.setWarned true).notify (.endWarning b.id b.finish (b.finish - p.now))).deriveAll
      else p := by
  unfold Part.endWarningTest
  rw [session, active]

theorem Part.setWarned_open {p : Part} {d : Session} (session : p.sched.session = some d) (w : Bool) :
    p.setWarned w = { p with sched := { p.sched with session := some { d with warned := w } } } := by
  show { p with sched := { p.sched with session := p.sched.session.map _ } } = _
  rw [session]
  rfl

/-- The cases of R29. -/
theorem Part.endWarningTest_cases {p : Part} {d : Session} {b : Booking} (session : p.sched.session = some d)
    (active : p.activeBooking = some b) :
    (d.warned = true → b.warning < b.finish - p.now → p.endWarningTest = (p.setWarned false).deriveAll) ∧
    (d.warned = true → b.finish - p.now ≤ b.warning → p.endWarningTest = p.deriveAll) ∧
    (d.warned = false → 0 < b.warning → b.finish ≤ p.now + b.warning →
      p.endWarningTest = ((p.setWarned true).notify (.endWarning b.id b.finish (b.finish - p.now))).deriveAll) ∧
    (d.warned = false → b.warning = 0 ∨ p.now + b.warning < b.finish → p.endWarningTest = p) := by
  rw [Part.endWarningTest_open session active]
  refine ⟨fun set far => ?_, fun set close => ?_, fun clear warns close => ?_, fun clear no => ?_⟩
  · rw [if_pos set, if_pos far]
  · rw [if_pos set, if_neg (Nat.not_lt.2 close)]
  · rw [if_neg (by simp [clear]), if_pos (by simp [warns, close])]
  · rw [if_neg (by simp [clear]), if_neg]
    simp only [Bool.and_eq_true, decide_eq_true_eq]
    omega

/-- Settles O22: SET_CLOCK by the range of its time, and each step of the booking work by its cases. -/
theorem clockSet : Obligations.ClockSet := by
  refine ⟨fun s tag t ready day minute second => exec_setClock ready tag day minute second, fun p => ?_⟩
  refine ⟨rfl, fun b active ended => (Part.endTest_active active).trans (if_pos ended),
    fun b active lasts => (Part.endTest_active active).trans (if_neg (Nat.not_le.2 lasts)), Part.endTest_noBooking,
    Part.dropMissed_eq p, fun b rest => Part.startTest_opens, fun b rest => Part.startTest_stays, Part.startTest_emptyTable,
    fun d => Part.startTest_open, fun d session => ?_, fun idle => ⟨Part.noShowTest_idle idle, Part.endWarningTest_idle idle⟩,
    fun d b session active => ?_⟩
  · simp only [Part.noShowTest_open session, deadline_reached]
  · obtain ⟨far, close, warns, stays⟩ := Part.endWarningTest_cases session active
    rw [Part.setWarned_open session] at far warns
    exact ⟨far, close, warns, stays⟩

end Sys2Proof.Machine
end

section
/-!
PROOFS. The requests on the booking table and the session: REMOVE_BOOKING (R23), EXTEND_BOOKING (R33), CHECK_IN (R27) and
END_SESSION (R30).
-/
namespace Sys2Proof.Machine

/-! ### The room scheduler after a close (R31) -/

theorem Part.emptySession_sched (p : Part) (d : Session) (cause : SessionCause) :
    (p.emptySession d cause).sched =
      { p.sched with
        bookings := p.sched.bookings.filter fun b => b.state ≠ .active
        session := none
        timer := some (p.sched.delay * 60) } := rfl

theorem Part.closeSession_sched {p : Part} {d : Session} (session : p.sched.session = some d) (cause : SessionCause) :
    (p.closeSession cause).sched =
      { p.sched with
        bookings := p.sched.bookings.filter fun b => b.state ≠ .active
        session := none
        timer := some (p.sched.delay * 60) } := by
  unfold Part.closeSession
  rw [session]
  simp [Part.floorEvent, Part.emptySession_sched]

theorem Part.isOpen_iff (p : Part) : p.isOpen = true ↔ ∃ d, p.sched.session = some d := Option.isSome_iff_exists

/-- A close takes the ACTIVE booking out of the table. -/
theorem Part.closeSession_removesActive {p : Part} {b : Booking} (isOpen : p.isOpen = true) (active : b.state = .active)
    (cause : SessionCause) : b ∉ (p.closeSession cause).sched.bookings := by
  obtain ⟨d, session⟩ := p.isOpen_iff.1 isOpen
  rw [Part.closeSession_sched session cause]
  intro stays
  simpa [active] using (List.mem_filter.1 stays).2

/-! ### REMOVE_BOOKING -/

section
variable {s : State} (ready : s.part.Ready) (tag : Byte) {id : Nat} (small : id < 65536)
include ready small

theorem exec_removeBooking_notFound (absent : ∀ b ∈ s.part.sched.bookings, b.id ≠ id) :
    exec (.removeBooking tag (u16 id)) s = s.refuses 0x8B tag 0x05 := by
  have absent : ∀ b ∈ s.part.taken.sched.bookings, b.id ≠ id := absent
  have none : (s.part.taken.sched.bookings.find? fun b => b.id = id) = none := List.find?_eq_none.2 (by simpa using absent)
  refine request_refuses (f := ⟨0x0B, tag, u16 id⟩) (owner := answerRemoveBooking) (status := .notFound) ready
    ((readThen_ok (readWord_last small)).trans ?_)
  rw [none]

variable {b : Booking} (found : (s.part.sched.bookings.find? fun x => x.id = id) = some b)
include found

theorem exec_removeBooking_pending (pending : b.state = .pending) :
    exec (.removeBooking tag (u16 id)) s =
      s.acceptsWaking 0x8B tag []
        (s.part.taken.modSched fun d => { d with bookings := d.bookings.filter fun x => x.id ≠ id }) := by
  have found : (s.part.taken.sched.bookings.find? fun b => b.id = id) = some b := found
  refine request_acceptsWaking (f := ⟨0x0B, tag, u16 id⟩) (owner := answerRemoveBooking) ready
    ((readThen_ok (readWord_last small)).trans ?_)
  rw [found]
  dsimp only
  rw [pending]

theorem exec_removeBooking_active (active : b.state = .active) :
    exec (.removeBooking tag (u16 id)) s = s.acceptsWaking 0x8B tag [] (s.part.taken.closeSession .controller) := by
  have found : (s.part.taken.sched.bookings.find? fun b => b.id = id) = some b := found
  refine request_acceptsWaking (f := ⟨0x0B, tag, u16 id⟩) (owner := answerRemoveBooking) ready
    ((readThen_ok (readWord_last small)).trans ?_)
  rw [found]
  dsimp only
  rw [active]

end

/-- Settles O24, by the state of the booking that has the id. -/
theorem bookingRemoved : Obligations.BookingRemoved := by
  intro s tag id ready small
  refine ⟨exec_removeBooking_notFound ready tag small, fun b found => ⟨exec_removeBooking_pending ready tag small found, ?_⟩⟩
  intro active
  exact ⟨exec_removeBooking_active ready tag small found active, fun isOpen =>
    Part.closeSession_removesActive (p := s.part.taken) isOpen active .controller⟩

/-! ### EXTEND_BOOKING -/

theorem readExtension_written {id minutes : Nat} (hi : id < 65536) (hm : minutes < 256) :
    (do return (← readWord, ← readByte) : Reader (Nat × Nat)) (u16 id ++ u8 minutes) = .ok ((id, minutes), []) := by
  rw [bindWord hi, bindByte_last hm, Reader.pure_run]

/-- The minutes granted are the least of the four numbers of R33. -/
theorem Part.extension_eq (p : Part) (b : Booking) (asked : Nat) :
    p.extension b asked =
      min (min asked (((p.sched.bookings.find? fun x => b.start < x.start).map fun x => x.start - b.finish).getD asked))
        (min (720 - b.duration) (Config.lastRoomMinute - b.finish)) := by
  unfold Part.extension
  cases p.sched.bookings.find? fun x => b.start < x.start <;> rfl

section
variable {s : State} (ready : s.part.Ready) (tag : Byte) {id minutes : Nat} (hi : id < 65536) (hm : minutes < 256)
include ready hi hm

theorem exec_extendBooking_badMinutes (bad : ¬(1 ≤ minutes ∧ minutes ≤ 240)) :
    exec (.extendBooking tag (u16 id ++ u8 minutes)) s = s.refuses 0x8C tag 0x03 := by
  refine request_refuses (f := ⟨0x0C, tag, u16 id ++ u8 minutes⟩) (owner := answerExtendBooking) (status := .badArg) ready
    ((readThen_ok (readExtension_written hi hm)).trans ?_)
  dsimp only
  rw [within_of_not_mem bad]
  rfl

variable (good : 1 ≤ minutes ∧ minutes ≤ 240)
include good

theorem exec_extendBooking_notActive (other : ∀ b, s.part.activeBooking = some b → b.id ≠ id ∨ s.part.isOpen = false) :
    exec (.extendBooking tag (u16 id ++ u8 minutes)) s = s.refuses 0x8C tag 0x0B := by
  have other : ∀ b, s.part.taken.activeBooking = some b → b.id ≠ id ∨ s.part.taken.isOpen = false := other
  refine request_refuses (f := ⟨0x0C, tag, u16 id ++ u8 minutes⟩) (owner := answerExtendBooking) (status := .notActive) ready
    ((readThen_ok (readExtension_written hi hm)).trans ?_)
  dsimp only
  rw [within_of_mem good, checkThen_some]
  cases active : s.part.taken.activeBooking with
  | none => rfl
  | some b =>
    refine if_neg fun own => ?_
    simp only [Bool.and_eq_true, decide_eq_true_eq] at own
    rcases other b active with ne | closed
    · exact ne own.1
    · rw [closed] at own
      cases own.2

theorem exec_extendBooking_grants {b : Booking} (active : s.part.activeBooking = some b) (own : b.id = id)
    (isOpen : s.part.isOpen = true) :
    let granted := s.part.taken.extension b minutes
    exec (.extendBooking tag (u16 id ++ u8 minutes)) s =
      s.acceptsWaking 0x8C tag (u8 granted ++ minuteBytes (b.finish + granted)) (s.part.taken.extendBooking b granted) := by
  have active : s.part.taken.activeBooking = some b := active
  have isOpen : s.part.taken.isOpen = true := isOpen
  refine request_acceptsWaking (f := ⟨0x0C, tag, u16 id ++ u8 minutes⟩) (owner := answerExtendBooking) ready
    ((readThen_ok (readExtension_written hi hm)).trans ?_)
  dsimp only
  rw [within_of_mem good, checkThen_some, active]
  exact if_pos (by simp [own, isOpen])

end

/-- Settles O25, by the lines of R33. -/
theorem bookingExtended : Obligations.BookingExtended := by
  intro s tag id minutes ready hi hm
  refine ⟨fun bad => exec_extendBooking_badMinutes ready tag hi hm (by omega),
    fun low high => exec_extendBooking_notActive ready tag hi hm ⟨low, high⟩, ?_⟩
  rintro b low high active rfl isOpen
  have granted := exec_extendBooking_grants ready tag hi hm ⟨low, high⟩ active rfl isOpen
  rw [Part.extension_eq] at granted
  exact granted

/-! ### CHECK_IN and END_SESSION -/

theorem Part.checkIn_open {p : Part} {d : Session} (session : p.sched.session = some d) :
    p.checkIn = p.modSched fun k => { k with session := some { d with checkedIn := true } } := by
  show { p with sched := { p.sched with session := p.sched.session.map _ } } = _
  rw [session]
  rfl

section
variable {s : State} (ready : s.part.Ready) (tag : Byte)
include ready

theorem exec_checkIn_idle (idle : s.part.sched.session = none) : exec (.checkIn tag []) s = s.refuses 0x8F tag 0x08 := by
  have idle : s.part.taken.sched.session = none := idle
  refine request_refuses (f := ⟨0x0F, tag, []⟩) (owner := answerCheckIn) (status := .noSession) ready
    ((readThen_ok readNothing_nil).trans ?_)
  rw [idle]

theorem exec_endSession_idle (idle : s.part.sched.session = none) :
    exec (.endSession tag []) s = s.refuses 0x90 tag 0x08 := by
  refine request_refuses (f := ⟨0x10, tag, []⟩) (owner := answerEndSession) (status := .noSession) ready
    ((readThen_ok readNothing_nil).trans (if_neg ?_))
  show ¬s.part.sched.session.isSome = true
  simp [idle]

variable {d : Session} (session : s.part.sched.session = some d)
include session

theorem exec_checkIn_again (checked : d.checkedIn = true) : exec (.checkIn tag []) s = s.refuses 0x8F tag 0x0A := by
  have session : s.part.taken.sched.session = some d := session
  refine request_refuses (f := ⟨0x0F, tag, []⟩) (owner := answerCheckIn) (status := .already) ready
    ((readThen_ok readNothing_nil).trans ?_)
  rw [session]
  exact if_pos checked

theorem exec_checkIn_sets (unchecked : d.checkedIn = false) :
    exec (.checkIn tag []) s =
      s.accepts 0x8F tag [] (s.part.taken.modSched fun k => { k with session := some { d with checkedIn := true } }) := by
  have session : s.part.taken.sched.session = some d := session
  refine request_accepts (f := ⟨0x0F, tag, []⟩) (owner := answerCheckIn) ready ((readThen_ok readNothing_nil).trans ?_)
  rw [session]
  exact (if_neg (by simp [unchecked])).trans (congrArg (ok []) (Part.checkIn_open session))

theorem exec_endSession_open :
    exec (.endSession tag []) s = s.accepts 0x90 tag [] (s.part.taken.closeSession .controller) := by
  refine request_accepts (f := ⟨0x10, tag, []⟩) (owner := answerEndSession) ready
    ((readThen_ok readNothing_nil).trans (if_pos ?_))
  show s.part.sched.session.isSome = true
  simp [session]

end

/-- Settles O26, by the state of the session. -/
theorem sessionRequests : Obligations.SessionRequests := by
  intro s tag ready
  exact ⟨fun idle => ⟨exec_checkIn_idle ready tag idle, exec_endSession_idle ready tag idle⟩,
    fun d session => ⟨exec_checkIn_again ready tag session, exec_checkIn_sets ready tag session,
      exec_endSession_open ready tag session⟩⟩

end Sys2Proof.Machine
end

section
/-!
PROOFS. Presets and room defaults as bytes (Table 2-1, R190): what the bytes of a preset spell, and the requests SET_ROOM_DEFAULTS
(R38), SET_STANDBY and WAKE (R42).
-/
namespace Sys2Proof.Machine

/-! ### Bytes that spell a value in range -/

/-- A reader takes exactly these bytes, and gives the value in range that they spell, when they spell one. -/
def Spells {α : Type} (read : Reader (Option α)) (write : α → List Byte) (Fits : α → Prop) (bytes : List Byte) : Prop :=
  ∃ o, (∀ rest, read (bytes ++ rest) = .ok (o, rest)) ∧ ∀ a, o = some a ↔ Fits a ∧ write a = bytes

section
variable {α : Type} {read : Reader (Option α)} {write : α → List Byte} {Fits : α → Prop} {bytes : List Byte}

/-- A payload that spells a value in range. -/
theorem Spells.readThen_some (h : Spells read write Fits bytes) {a : α} (fits : Fits a) (same : write a = bytes) (p : Part)
    (work : Option α → Answer) : readThen read bytes p work = work (some a) := by
  obtain ⟨o, reads, spelled⟩ := h
  rw [← (spelled a).2 ⟨fits, same⟩]
  have whole := reads []
  rw [List.append_nil] at whole
  exact readThen_ok whole

/-- A payload that spells no value in range. -/
theorem Spells.readThen_none (h : Spells read write Fits bytes) (no : ∀ a, Fits a → write a ≠ bytes) (p : Part)
    (work : Option α → Answer) : readThen read bytes p work = work none := by
  obtain ⟨o, reads, spelled⟩ := h
  have none : o = none := Option.eq_none_iff_forall_ne_some.2 fun a e => no a ((spelled a).1 e).1 ((spelled a).1 e).2
  subst none
  have whole := reads []
  rw [List.append_nil] at whole
  exact readThen_ok whole

end

/-! ### Numbers as bytes -/

theorem ofNat_eq_byte {n : Nat} (h : n < 256) (b : Byte) : BitVec.ofNat 8 n = b ↔ n = b.toNat :=
  ⟨fun e => by rw [← e, toNat_ofNat_byte h], fun e => by rw [e, BitVec.ofNat_toNat, BitVec.setWidth_eq]⟩

theorem u16_eq_bytes {n : Nat} (h : n < 65536) (high low : Byte) :
    u16 n = [high, low] ↔ n = high.toNat * 256 + low.toNat := by
  have bound := low.isLt
  have low' : BitVec.ofNat 8 n = BitVec.ofNat 8 (n % 256) := by
    apply BitVec.eq_of_toNat_eq
    simp
  show [BitVec.ofNat 8 (n / 256), BitVec.ofNat 8 n] = _ ↔ _
  rw [List.cons.injEq, List.cons.injEq, low', ofNat_eq_byte (by omega), ofNat_eq_byte (by omega)]
  constructor
  · rintro ⟨hi, lo, -⟩
    omega
  · exact fun e => ⟨by omega, by omega, rfl⟩

/-! ### Values by their numbers (R190) -/

theorem within_eq_some {low high n m : Nat} : within low high n = some m ↔ (low ≤ m ∧ m ≤ high) ∧ m = n := by
  unfold within
  split
  · rename_i mem
    simp only [Bool.and_eq_true, decide_eq_true_eq] at mem
    rw [Option.some_inj]
    exact ⟨fun e => e ▸ ⟨mem, rfl⟩, fun e => e.2.symm⟩
  · rename_i out
    refine ⟨fun e => absurd e (by simp), fun ⟨mem, e⟩ => absurd ?_ out⟩
    rw [← e]
    simpa using mem

theorem below_eq_some {bound n : Nat} {a : Fin bound} : below bound n = some a ↔ a.val = n := by
  unfold below
  split
  · rw [Option.some_inj, Fin.ext_iff]
    exact eq_comm
  · rename_i out
    refine ⟨fun e => absurd e (by simp), fun e => absurd (e ▸ a.isLt) out⟩

/-- The number of a flag, on 0 and off 1 (log 6). -/
def flagCode (b : Bool) : Nat := if b then 0 else 1

theorem flagCode_lt (b : Bool) : flagCode b < 256 := by
  cases b <;> decide

/-- The only value that a list gives to a number stands there. -/
theorem getElem?_eq_some_code {α : Type} {values : List α} {code : α → Nat} (h : ∀ a, values[code a]? = some a)
    (once : ∀ n a, values[n]? = some a → code a = n) (n : Nat) (a : α) : values[n]? = some a ↔ code a = n :=
  ⟨once n a, fun e => e ▸ h a⟩

theorem flag?_eq_some {n : Nat} {b : Bool} : flag? n = some b ↔ flagCode b = n :=
  getElem?_eq_some_code (by decide) (fun n a => by rcases n with _ | _ | n <;> cases a <;> simp [flagCode]) n b

theorem mode?_eq_some {n : Nat} {m : Mode} : [Mode.direct, .queued, .voice][n]? = some m ↔ m.ctorIdx = n :=
  getElem?_eq_some_code (fun a => by cases a <;> rfl)
    (fun n a => by rcases n with _ | _ | _ | n <;> cases a <;> simp [Mode.ctorIdx]) n m

theorem overflow?_eq_some {n : Nat} {m : Overflow} :
    [Overflow.queue, .replaceOldest, .deny][n]? = some m ↔ m.ctorIdx = n :=
  getElem?_eq_some_code (fun a => by cases a <;> rfl)
    (fun n a => by rcases n with _ | _ | _ | n <;> cases a <;> simp [Overflow.ctorIdx]) n m

theorem expiry?_eq_some {n : Nat} {m : Expiry} : [Expiry.warnOnly, .close][n]? = some m ↔ m.ctorIdx = n :=
  getElem?_eq_some_code (fun a => by cases a <;> rfl)
    (fun n a => by rcases n with _ | _ | n <;> cases a <;> simp [Expiry.ctorIdx]) n m

theorem stackPolicy?_eq_some {n : Nat} {m : StackPolicy} :
    [StackPolicy.discardOldest, .clearFloor][n]? = some m ↔ m.ctorIdx = n :=
  getElem?_eq_some_code (fun a => by cases a <;> rfl)
    (fun n a => by rcases n with _ | _ | n <;> cases a <;> simp [StackPolicy.ctorIdx]) n m

/-! ### The floor preset -/

/-- The numbers that the bytes of a floor preset hold. -/
structure FloorNumbers where
  mode : Nat
  limit : Nat
  overflow : Nat
  autoAdvance : Nat
  selfClose : Nat
  withdraw : Nat
  speechLimit : Nat
  warnLead : Nat
  expiry : Nat
  voiceHold : Nat
  stackPolicy : Nat
  chairBias : Nat

/-- The numbers of a floor preset. -/
def FloorPreset.numbers (f : FloorPreset) : FloorNumbers :=
  ⟨f.mode.ctorIdx, f.limit, f.overflow.ctorIdx, flagCode f.autoAdvance, flagCode f.selfClose, flagCode f.withdraw, f.speechLimit,
    f.warnLead, f.expiry.ctorIdx, f.voiceHold, f.stackPolicy.ctorIdx, f.chairBias⟩

/-- The floor preset that these numbers name, when each of them lies within Table 2-1. -/
def FloorNumbers.preset? (x : FloorNumbers) : Option FloorPreset := do
  let mode ← [Mode.direct, .queued, .voice][x.mode]?
  let limit ← within 1 8 x.limit
  let overflow ← [Overflow.queue, .replaceOldest, .deny][x.overflow]?
  let autoAdvance ← flag? x.autoAdvance
  let selfClose ← flag? x.selfClose
  let withdraw ← flag? x.withdraw
  let speechLimit ← within 0 3600 x.speechLimit
  let warnLead ← within 0 120 x.warnLead
  let expiry ← [Expiry.warnOnly, .close][x.expiry]?
  let voiceHold ← within 1 30 x.voiceHold
  let stackPolicy ← [StackPolicy.discardOldest, .clearFloor][x.stackPolicy]?
  let chairBias ← if x.chairBias = 1 || x.chairBias = 2 || x.chairBias = 4 then some x.chairBias else none
  return ⟨mode, limit, overflow, autoAdvance, selfClose, withdraw, speechLimit, warnLead, expiry, voiceHold, stackPolicy, chairBias⟩

theorem FloorNumbers.preset?_of_fits {f : FloorPreset} (fits : f.Fits) : f.numbers.preset? = some f := by
  obtain ⟨limit, speech, lead, hold, bias⟩ := fits
  have mode := mode?_eq_some.2 (Eq.refl f.mode.ctorIdx)
  have limit := within_of_mem limit
  have overflow := overflow?_eq_some.2 (Eq.refl f.overflow.ctorIdx)
  have flag (b : Bool) : flag? (flagCode b) = some b := flag?_eq_some.2 rfl
  have speech := within_of_mem (And.intro (Nat.zero_le _) speech)
  have lead := within_of_mem (And.intro (Nat.zero_le _) lead)
  have expiry := expiry?_eq_some.2 (Eq.refl f.expiry.ctorIdx)
  have hold := within_of_mem hold
  have policy := stackPolicy?_eq_some.2 (Eq.refl f.stackPolicy.ctorIdx)
  have bias : (f.chairBias = 1 || f.chairBias = 2 || f.chairBias = 4) = true := by simpa [or_assoc] using bias
  simp only [FloorNumbers.preset?, FloorPreset.numbers, mode, limit, overflow, flag, speech, lead, expiry, hold, policy]
  exact if_pos bias

theorem FloorNumbers.preset?_eq_some {x : FloorNumbers} {f : FloorPreset} : x.preset? = some f ↔ f.Fits ∧ f.numbers = x := by
  refine ⟨fun h => ?_, fun ⟨fits, same⟩ => same ▸ FloorNumbers.preset?_of_fits fits⟩
  obtain ⟨mode, hm, h⟩ := Option.bind_eq_some_iff.1 h
  obtain ⟨limit, hl, h⟩ := Option.bind_eq_some_iff.1 h
  obtain ⟨overflow, ho, h⟩ := Option.bind_eq_some_iff.1 h
  obtain ⟨autoAdvance, ha, h⟩ := Option.bind_eq_some_iff.1 h
  obtain ⟨selfClose, hs, h⟩ := Option.bind_eq_some_iff.1 h
  obtain ⟨withdraw, hw, h⟩ := Option.bind_eq_some_iff.1 h
  obtain ⟨speechLimit, hsl, h⟩ := Option.bind_eq_some_iff.1 h
  obtain ⟨warnLead, hwl, h⟩ := Option.bind_eq_some_iff.1 h
  obtain ⟨expiry, he, h⟩ := Option.bind_eq_some_iff.1 h
  obtain ⟨voiceHold, hv, h⟩ := Option.bind_eq_some_iff.1 h
  obtain ⟨stackPolicy, hp, h⟩ := Option.bind_eq_some_iff.1 h
  obtain ⟨bias, last⟩ := Option.ite_none_right_eq_some.1 h
  obtain rfl := Option.some_inj.1 last
  obtain ⟨limitRange, hl⟩ := within_eq_some.1 hl
  obtain ⟨speechRange, hsl⟩ := within_eq_some.1 hsl
  obtain ⟨leadRange, hwl⟩ := within_eq_some.1 hwl
  obtain ⟨holdRange, hv⟩ := within_eq_some.1 hv
  have biasRange : x.chairBias = 1 ∨ x.chairBias = 2 ∨ x.chairBias = 4 := by simpa [or_assoc] using bias
  refine ⟨⟨limitRange, speechRange.2, leadRange.2, holdRange, biasRange⟩, ?_⟩
  simp only [FloorPreset.numbers, mode?_eq_some.1 hm, hl, overflow?_eq_some.1 ho, flag?_eq_some.1 ha, flag?_eq_some.1 hs,
    flag?_eq_some.1 hw, hsl, hwl, expiry?_eq_some.1 he, hv, stackPolicy?_eq_some.1 hp]

/-- A floor preset within Table 2-1 is written as the bytes of its numbers. -/
theorem floorBytes_eq_bytes {f : FloorPreset} (fits : f.Fits) (a b c d e g h i j k l m n : Byte) :
    floorBytes f = [a, b, c, d, e, g, h, i, j, k, l, m, n] ↔
      f.numbers = ⟨a.toNat, b.toNat, c.toNat, d.toNat, e.toNat, g.toNat, h.toNat * 256 + i.toNat, j.toNat, k.toNat, l.toNat,
        m.toNat, n.toNat⟩ := by
  obtain ⟨limit, speech, lead, hold, bias⟩ := fits
  have mode : f.mode.ctorIdx < 256 := by cases f.mode <;> decide
  have overflow : f.overflow.ctorIdx < 256 := by cases f.overflow <;> decide
  have expiry : f.expiry.ctorIdx < 256 := by cases f.expiry <;> decide
  have policy : f.stackPolicy.ctorIdx < 256 := by cases f.stackPolicy <;> decide
  have limit : f.limit < 256 := by omega
  have lead : f.warnLead < 256 := by omega
  have hold : f.voiceHold < 256 := by omega
  have bias : f.chairBias < 256 := by omega
  have time := u16_eq_bytes (show f.speechLimit < 65536 by omega) h i
  simp only [u16, u8, List.cons_append, List.nil_append, List.cons.injEq, and_true] at time
  show [BitVec.ofNat 8 f.mode.ctorIdx, BitVec.ofNat 8 f.limit, BitVec.ofNat 8 f.overflow.ctorIdx,
    BitVec.ofNat 8 (flagCode f.autoAdvance), BitVec.ofNat 8 (flagCode f.selfClose), BitVec.ofNat 8 (flagCode f.withdraw),
    BitVec.ofNat 8 (f.speechLimit / 256), BitVec.ofNat 8 f.speechLimit, BitVec.ofNat 8 f.warnLead, BitVec.ofNat 8 f.expiry.ctorIdx,
    BitVec.ofNat 8 f.voiceHold, BitVec.ofNat 8 f.stackPolicy.ctorIdx, BitVec.ofNat 8 f.chairBias] = _ ↔ _
  simp only [List.cons.injEq, and_true, ofNat_eq_byte, mode, limit, overflow, flagCode_lt, lead, expiry, hold, policy, bias,
    FloorPreset.numbers, FloorNumbers.mk.injEq, ← time, and_assoc]

theorem readFloor_spells {bytes : List Byte} (len : bytes.length = 13) : Spells readFloor floorBytes FloorPreset.Fits bytes := by
  match bytes, len with
  | [a, b, c, d, e, g, h, i, j, k, l, m, n], _ =>
    refine ⟨FloorNumbers.preset? ⟨a.toNat, b.toNat, c.toNat, d.toNat, e.toNat, g.toNat, h.toNat * 256 + i.toNat, j.toNat, k.toNat,
      l.toNat, m.toNat, n.toNat⟩, fun rest => rfl, fun f => ?_⟩
    rw [FloorNumbers.preset?_eq_some]
    exact and_congr_right fun fits => (floorBytes_eq_bytes fits a b c d e g h i j k l m n).symm

/-! ### The mixing preset -/

/-- A mixing preset, when each of its numbers that the reading checks lies within Table 2-1. -/
def MixPreset.checked? (m : MixPreset) : Option MixPreset := do
  let gate ← within 0 32767 m.gate
  let attack ← within 0 3 m.attack
  let release ← within 2 10 m.release
  let duck ← within 0 3 m.duck
  return ⟨gate, attack, release, m.master, m.record, duck⟩

theorem MixPreset.checked?_eq_some {x m : MixPreset} (master : x.master ≤ 255) (record : x.record ≤ 255) :
    x.checked? = some m ↔ m.Fits ∧ m = x := by
  unfold MixPreset.checked?
  simp only [bind, Option.bind_eq_some_iff, pure, Option.some_inj, within_eq_some]
  constructor
  · rintro ⟨gate, ⟨hg, rfl⟩, attack, ⟨ha, rfl⟩, release, ⟨hr, rfl⟩, duck, ⟨hd, rfl⟩, rfl⟩
    exact ⟨⟨hg.2, ha.2, hr, master, record, hd.2⟩, rfl⟩
  · rintro ⟨⟨gate, attack, release, -, -, duck⟩, rfl⟩
    exact ⟨m.gate, ⟨⟨Nat.zero_le _, gate⟩, rfl⟩, m.attack, ⟨⟨Nat.zero_le _, attack⟩, rfl⟩, m.release, ⟨release, rfl⟩, m.duck,
      ⟨⟨Nat.zero_le _, duck⟩, rfl⟩, rfl⟩

theorem mixBytes_eq_bytes {m : MixPreset} (fits : m.Fits) (a b c d e g h : Byte) :
    mixBytes m = [a, b, c, d, e, g, h] ↔
      m = ⟨a.toNat * 256 + b.toNat, c.toNat, d.toNat, e.toNat, g.toNat, h.toNat⟩ := by
  obtain ⟨gate, attack, release, master, record, duck⟩ := fits
  have attack : m.attack < 256 := by omega
  have release : m.release < 256 := by omega
  have master : m.master < 256 := by omega
  have record : m.record < 256 := by omega
  have duck : m.duck < 256 := by omega
  have gate := u16_eq_bytes (show m.gate < 65536 by omega) a b
  simp only [u16, u8, List.cons_append, List.nil_append, List.cons.injEq, and_true] at gate
  show [BitVec.ofNat 8 (m.gate / 256), BitVec.ofNat 8 m.gate, BitVec.ofNat 8 m.attack, BitVec.ofNat 8 m.release,
    BitVec.ofNat 8 m.master, BitVec.ofNat 8 m.record, BitVec.ofNat 8 m.duck] = _ ↔ _
  cases m
  simp only [List.cons.injEq, and_true, ofNat_eq_byte, attack, release, master, record, duck, MixPreset.mk.injEq, ← gate, and_assoc]

theorem readMix_spells {bytes : List Byte} (len : bytes.length = 7) : Spells readMix mixBytes MixPreset.Fits bytes := by
  match bytes, len with
  | [a, b, c, d, e, g, h], _ =>
    have byte (x : Byte) : x.toNat ≤ 255 := Nat.le_of_lt_succ x.isLt
    refine ⟨MixPreset.checked? ⟨a.toNat * 256 + b.toNat, c.toNat, d.toNat, e.toNat, g.toNat, h.toNat⟩, fun rest => rfl, fun m => ?_⟩
    rw [MixPreset.checked?_eq_some (byte e) (byte g)]
    exact and_congr_right fun fits => (mixBytes_eq_bytes fits a b c d e g h).symm

/-! ### The room defaults (R38) -/

theorem floorBytes_length (f : FloorPreset) : (floorBytes f).length = 13 := by
  simp [floorBytes, flagBytes, u16, u8]

theorem mixBytes_length (m : MixPreset) : (mixBytes m).length = 7 := by
  simp [mixBytes, u16, u8]

/-- The last five bytes of the room defaults. -/
def RoomDefaults.tail (k : RoomDefaults) : List Byte :=
  [BitVec.ofNat 8 (flagCode k.adhoc), BitVec.ofNat 8 k.adhocDuration, BitVec.ofNat 8 k.adhocMinimum,
    BitVec.ofNat 8 k.adhocPlan.val, BitVec.ofNat 8 k.adhocWarning]

theorem RoomDefaults.payload_eq (k : RoomDefaults) : k.payload = floorBytes k.floor ++ (mixBytes k.mix ++ k.tail) := by
  simp only [RoomDefaults.payload, List.append_assoc]
  rfl

/-- Equal bytes spell equal parts. -/
theorem RoomDefaults.payload_inj {k : RoomDefaults} {floor mix tail : List Byte} (hf : floor.length = 13) (hm : mix.length = 7) :
    k.payload = floor ++ (mix ++ tail) ↔ floorBytes k.floor = floor ∧ mixBytes k.mix = mix ∧ k.tail = tail := by
  rw [RoomDefaults.payload_eq]
  constructor
  · intro same
    obtain ⟨first, same⟩ := List.append_inj same ((floorBytes_length _).trans hf.symm)
    exact ⟨first, List.append_inj same ((mixBytes_length _).trans hm.symm)⟩
  · rintro ⟨rfl, rfl, rfl⟩
    rfl

theorem RoomDefaults.tail_eq {k : RoomDefaults} (duration : k.adhocDuration < 256) (minimum : k.adhocMinimum < 256)
    (warning : k.adhocWarning < 256) (a b c d e : Byte) :
    k.tail = [a, b, c, d, e] ↔
      flagCode k.adhoc = a.toNat ∧ k.adhocDuration = b.toNat ∧ k.adhocMinimum = c.toNat ∧ k.adhocPlan.val = d.toNat ∧
        k.adhocWarning = e.toNat := by
  have plan : k.adhocPlan.val < 256 := by omega
  simp only [RoomDefaults.tail, List.cons.injEq, and_true, ofNat_eq_byte, flagCode_lt, duration, minimum, plan, warning]

/-- The defaults that these fields name, when each of them is in the range of R38. -/
def defaults? (floor : Option FloorPreset) (mix : Option MixPreset) (adhoc duration minimum plan warning : Nat) :
    Option RoomDefaults := do
  let floor ← floor
  let mix ← mix
  let adhoc ← flag? adhoc
  let duration ← within 15 240 duration
  let minimum ← within 5 (min 30 duration) minimum
  let plan ← below 4 plan
  let warning ← within 0 15 warning
  return ⟨floor, mix, adhoc, duration, minimum, plan, warning⟩

theorem defaults?_eq_some {floor : Option FloorPreset} {mix : Option MixPreset} {adhoc duration minimum plan warning : Nat}
    {k : RoomDefaults} :
    defaults? floor mix adhoc duration minimum plan warning = some k ↔
      (floor = some k.floor ∧ mix = some k.mix) ∧
        ((15 ≤ k.adhocDuration ∧ k.adhocDuration ≤ 240) ∧
          (5 ≤ k.adhocMinimum ∧ k.adhocMinimum ≤ 30 ∧ k.adhocMinimum ≤ k.adhocDuration) ∧ k.adhocWarning ≤ 15) ∧
        flagCode k.adhoc = adhoc ∧ k.adhocDuration = duration ∧ k.adhocMinimum = minimum ∧ k.adhocPlan.val = plan ∧
          k.adhocWarning = warning := by
  unfold defaults?
  simp only [bind, Option.bind_eq_some_iff, pure, Option.some_inj, within_eq_some, flag?_eq_some, below_eq_some]
  constructor
  · rintro ⟨f, rfl, m, rfl, flag, rfl, duration, ⟨hd, rfl⟩, minimum, ⟨hm, rfl⟩, plan, rfl, warning, ⟨hw, rfl⟩, rfl⟩
    exact ⟨⟨rfl, rfl⟩, ⟨hd, ⟨hm.1, le_min_iff.1 hm.2⟩, hw.2⟩, rfl, rfl, rfl, rfl, rfl⟩
  · rintro ⟨⟨rfl, rfl⟩, ⟨hd, hm, hw⟩, rfl, rfl, rfl, rfl, rfl⟩
    exact ⟨_, rfl, _, rfl, _, rfl, _, ⟨hd, rfl⟩, _, ⟨⟨hm.1, le_min hm.2.1 hm.2.2⟩, rfl⟩, _, rfl, _, ⟨⟨Nat.zero_le _, hw⟩, rfl⟩, rfl⟩

theorem readDefaults_spells_parts {floor mix : List Byte} (hf : floor.length = 13) (hm : mix.length = 7) (a b c d e : Byte) :
    Spells readDefaults RoomDefaults.payload RoomDefaults.Fits (floor ++ (mix ++ [a, b, c, d, e])) := by
  obtain ⟨f, readsFloor, spellsFloor⟩ := readFloor_spells hf
  obtain ⟨m, readsMix, spellsMix⟩ := readMix_spells hm
  refine ⟨defaults? f m a.toNat b.toNat c.toNat d.toNat e.toNat, fun rest => ?_, fun k => ?_⟩
  · unfold readDefaults
    rw [List.append_assoc, List.append_assoc, Reader.bind_ok (readsFloor _), Reader.bind_ok (readsMix _)]
    rfl
  · rw [defaults?_eq_some, RoomDefaults.payload_inj hf hm, spellsFloor, spellsMix]
    constructor
    · rintro ⟨⟨⟨floorFits, floorSame⟩, mixFits, mixSame⟩, ⟨duration, minimum, warning⟩, tail⟩
      exact ⟨⟨floorFits, mixFits, duration, minimum, warning⟩, floorSame, mixSame,
        (RoomDefaults.tail_eq (by omega) (by omega) (by omega) a b c d e).2 tail⟩
    · rintro ⟨⟨floorFits, mixFits, duration, minimum, warning⟩, floorSame, mixSame, tail⟩
      exact ⟨⟨⟨floorFits, floorSame⟩, mixFits, mixSame⟩, ⟨duration, minimum, warning⟩,
        (RoomDefaults.tail_eq (by omega) (by omega) (by omega) a b c d e).1 tail⟩

theorem readDefaults_spells {bytes : List Byte} (len : bytes.length = 25) :
    Spells readDefaults RoomDefaults.payload RoomDefaults.Fits bytes := by
  have split : bytes = bytes.take 13 ++ ((bytes.drop 13).take 7 ++ (bytes.drop 13).drop 7) := by
    rw [List.take_append_drop, List.take_append_drop]
  have tail : ((bytes.drop 13).drop 7).length = 5 := by simp [len]
  rw [split]
  match (bytes.drop 13).drop 7, tail with
  | [a, b, c, d, e], _ => exact readDefaults_spells_parts (by simp [len]) (by simp [len]) a b c d e

theorem RoomDefaults.payload_length (k : RoomDefaults) : k.payload.length = 25 := by
  simp [RoomDefaults.payload_eq, floorBytes_length, mixBytes_length, RoomDefaults.tail]

/-- Bytes that spell defaults out of range spell none in range. -/
theorem RoomDefaults.payload_ne {k l : RoomDefaults} (floor : k.floor.Fits) (mix : k.mix.Fits) (duration : k.adhocDuration < 256)
    (minimum : k.adhocMinimum < 256) (warning : k.adhocWarning < 256) (out : ¬k.Fits) (fits : l.Fits) :
    l.payload ≠ k.payload := by
  intro same
  rw [k.payload_eq, RoomDefaults.payload_inj (floorBytes_length _) (mixBytes_length _)] at same
  obtain ⟨-, -, tail⟩ := same
  obtain ⟨-, -, lDuration, lMinimum, lWarning⟩ := fits
  obtain ⟨-, hd, hm, -, hw⟩ := (RoomDefaults.tail_eq (by omega) (by omega) (by omega) _ _ _ _ _).1 tail
  rw [toNat_ofNat_byte duration] at hd
  rw [toNat_ofNat_byte minimum] at hm
  rw [toNat_ofNat_byte warning] at hw
  exact out ⟨floor, mix, hd ▸ lDuration, by rwa [← hd, ← hm], hw ▸ lWarning⟩

/-! ### SET_ROOM_DEFAULTS, SET_STANDBY and WAKE -/

section
variable {s : State} (ready : s.part.Ready) (tag : Byte)
include ready

theorem exec_setRoomDefaults_fits {k : RoomDefaults} (fits : k.Fits) :
    exec (.setRoomDefaults tag k.payload) s =
      s.acceptsWaking 0x91 tag [] (s.part.taken.modSched fun d => { d with defaults := k }) :=
  request_acceptsWaking (f := ⟨0x11, tag, k.payload⟩) (owner := answerSetRoomDefaults) ready
    ((readDefaults_spells k.payload_length).readThen_some fits rfl _ _)

theorem exec_setRoomDefaults_refused {bytes : List Byte} (len : bytes.length = 25)
    (none : ∀ k : RoomDefaults, k.Fits → k.payload ≠ bytes) :
    exec (.setRoomDefaults tag bytes) s = s.refuses 0x91 tag 0x03 :=
  request_refuses (f := ⟨0x11, tag, bytes⟩) (owner := answerSetRoomDefaults) (status := .badArg) ready
    ((readDefaults_spells len).readThen_none none _ _)

theorem exec_wake : exec (.wake tag []) s = s.acceptsWaking 0x93 tag [] s.part.taken :=
  request_acceptsWaking (f := ⟨0x13, tag, []⟩) (owner := answerWake) ready (readThen_ok readNothing_nil)

end

theorem readTwo_written {a b : Nat} (ha : a < 256) (hb : b < 256) :
    (do return (← readByte, ← readByte) : Reader (Nat × Nat)) (u8 a ++ u8 b) = .ok ((a, b), []) := by
  rw [bindByte ha, bindByte_last hb, Reader.pure_run]

/-- What SET_STANDBY does with the two numbers that it reads. -/
theorem answerSetStandby_eq {delay enter : Nat} (hd : delay < 256) (he : enter < 256) (p : Part) :
    answerSetStandby (u8 delay ++ u8 enter) p =
      checkThen (within 0 240 delay) p fun delay =>
        checkThen (flag? enter) p fun enter =>
          if enter then
            if p.isOpen then refuse .refused p
            else if p.inStandby then ok [] (p.setDelay delay)
            else ok [] (p.setDelay delay).enterStandby
          else okWake [] (p.setDelay delay) :=
  readThen_ok (readTwo_written hd he)

/-- The timer restarts but while a session is OPEN. -/
theorem Scheduler.restart_eq (d : Scheduler) :
    d.restart = { d with timer := if d.session.isSome then d.timer else some (d.delay * 60) } := by
  unfold Scheduler.restart
  split <;> rfl

theorem Part.setDelay_eq (delay : Nat) (p : Part) :
    p.setDelay delay =
      p.modSched fun d => { d with delay := delay, timer := if d.session.isSome then d.timer else some (delay * 60) } := by
  unfold Part.setDelay
  simp only [Scheduler.restart_eq]

/-- SET_STANDBY with a delay in range and the choice to enter now. -/
theorem answerSetStandby_enter {delay : Nat} (short : delay ≤ 240) (p : Part) :
    answerSetStandby (u8 delay ++ u8 0) p =
      if p.isOpen then refuse .refused p
      else if p.inStandby then ok [] (p.setDelay delay)
      else ok [] (p.setDelay delay).enterStandby := by
  rw [answerSetStandby_eq (by omega) (by omega), within_of_mem ⟨Nat.zero_le _, short⟩, checkThen_some]
  rfl

section
variable {s : State} (ready : s.part.Ready) (tag : Byte) {delay : Nat}
include ready

theorem exec_setStandby_badDelay (small : delay < 256) (long : 240 < delay) {n : Nat} (hn : n < 256) :
    exec (.setStandby tag (u8 delay ++ u8 n)) s = s.refuses 0x92 tag 0x03 := by
  refine request_refuses (f := ⟨0x12, tag, u8 delay ++ u8 n⟩) (owner := answerSetStandby) (status := .badArg) ready
    ((answerSetStandby_eq small hn _).trans ?_)
  rw [within_of_not_mem (by omega), checkThen_none]

variable (short : delay ≤ 240)
include short

theorem exec_setStandby_badChoice {n : Nat} (bad : 1 < n) (hn : n < 256) :
    exec (.setStandby tag (u8 delay ++ u8 n)) s = s.refuses 0x92 tag 0x03 := by
  refine request_refuses (f := ⟨0x12, tag, u8 delay ++ u8 n⟩) (owner := answerSetStandby) (status := .badArg) ready
    ((answerSetStandby_eq (by omega) hn _).trans ?_)
  rw [within_of_mem ⟨Nat.zero_le _, short⟩, checkThen_some, flag?_of_gt bad, checkThen_none]

theorem exec_setStandby_stay :
    exec (.setStandby tag (u8 delay ++ u8 1)) s = s.acceptsWaking 0x92 tag [] (s.part.taken.setDelay delay) := by
  refine request_acceptsWaking (f := ⟨0x12, tag, u8 delay ++ u8 1⟩) (owner := answerSetStandby) ready
    ((answerSetStandby_eq (by omega) (by omega) _).trans ?_)
  rw [within_of_mem ⟨Nat.zero_le _, short⟩, checkThen_some]
  rfl

theorem exec_setStandby_open (busy : s.part.isOpen = true) :
    exec (.setStandby tag (u8 delay ++ u8 0)) s = s.refuses 0x92 tag 0x04 :=
  request_refuses (f := ⟨0x12, tag, u8 delay ++ u8 0⟩) (owner := answerSetStandby) (status := .refused) ready
    ((answerSetStandby_enter short _).trans (if_pos busy))

theorem exec_setStandby_enter (idle : s.part.isOpen = false) :
    exec (.setStandby tag (u8 delay ++ u8 0)) s =
      s.accepts 0x92 tag []
        (if s.part.inStandby then s.part.taken.setDelay delay else (s.part.taken.setDelay delay).enterStandby) := by
  refine request_accepts (f := ⟨0x12, tag, u8 delay ++ u8 0⟩) (owner := answerSetStandby) ready
    ((answerSetStandby_enter short _).trans ((if_neg (ne_true_of_eq_false idle)).trans ?_))
  exact (apply_ite (ok []) _ _ _).symm

end

/-- Settles O27, request by request: a payload of 25 bytes is answered by what its bytes spell, and one of two bytes by its two
numbers. -/
theorem roomSettingsReplaced : Obligations.RoomSettingsReplaced := by
  intro s tag ready
  refine ⟨fun k => ⟨exec_setRoomDefaults_fits ready tag, fun floor mix duration minimum warning out => ?_⟩,
    fun bytes => exec_setRoomDefaults_refused ready tag, exec_wake ready tag, fun delay small => ?_⟩
  · exact exec_setRoomDefaults_refused ready tag k.payload_length
      fun l => RoomDefaults.payload_ne floor mix duration minimum warning out
  · simp only [← Part.setDelay_eq]
    exact ⟨fun long n => exec_setStandby_badDelay ready tag small long, fun short n => exec_setStandby_badChoice ready tag short,
      exec_setStandby_stay ready tag, exec_setStandby_open ready tag, exec_setStandby_enter ready tag⟩

end Sys2Proof.Machine
end

section
/-!
PROOFS. ADD_BOOKING (R21, R22): what the bytes of a booking spell, the lines of R21 and the place in start order.
-/
namespace Sys2Proof.Machine

/-! ### Values by their numbers (R20, R21) -/

theorem privacy?_eq_some {n : Nat} {v : Privacy} : [Privacy.normal, .confidential][n]? = some v ↔ v.ctorIdx = n :=
  getElem?_eq_some_code (fun a => by cases a <;> rfl)
    (fun n a => by rcases n with _ | _ | n <;> cases a <;> simp [Privacy.ctorIdx]) n v

theorem text?_eq_some {t u : Text} : text? t = some u ↔ Text.fits u ∧ u = t := by
  by_cases fits : Text.fits t
  · rw [text?_of_fits fits, Option.some_inj]
    exact ⟨fun e => e ▸ ⟨fits, rfl⟩, fun e => e.2.symm⟩
  · rw [text?_of_not_fits fits]
    refine ⟨fun e => absurd e (by simp), fun ⟨h, e⟩ => absurd (e ▸ h) fits⟩

/-- A check that has one value for each number, applied to a whole list. -/
theorem every_eq_some {α β : Type} {check : α → Option β} {code : β → α} (h : ∀ a b, check a = some b ↔ code b = a)
    {xs : List α} {ys : List β} : every check xs = some ys ↔ ys.map code = xs := by
  induction xs generalizing ys with
  | nil => simp [every, eq_comm]
  | cons a xs ih =>
    simp only [every, bind, Option.bind_eq_some_iff, pure, Option.some_inj, h, ih, List.map_eq_cons_iff]
    constructor
    · rintro ⟨b, hb, more, hm, rfl⟩
      exact ⟨b, more, rfl, hb, hm⟩
    · rintro ⟨b, more, rfl, hb, hm⟩
      exact ⟨b, hb, more, hm, rfl⟩

theorem upToFour_below_eq_some {bound : Nat} {xs : List Nat} {ys : List (Fin bound)} :
    upToFour (below bound) xs = some ys ↔ ys.length ≤ 4 ∧ ys.map Fin.val = xs := by
  unfold upToFour
  rw [Option.ite_none_right_eq_some, every_eq_some fun _ _ => below_eq_some]
  exact and_congr_left fun e => by rw [← e, List.length_map]

theorem upToFour_seat_eq_some {xs : List Nat} {ys : List Seat} :
    upToFour seat? xs = some ys ↔ ys.length ≤ 4 ∧ ys.map Fin.val = xs := upToFour_below_eq_some

/-- The room minute of a day and a minute of day. -/
def roomMinute? (day minute : Nat) : Option Nat := if minute ≤ 1439 then some (day * 1440 + minute) else none

theorem roomMinute?_eq_some {day minute start : Nat} :
    roomMinute? day minute = some start ↔ start / 1440 = day ∧ start % 1440 = minute := by
  unfold roomMinute?
  rw [Option.ite_none_right_eq_some, Option.some_inj]
  omega

/-! ### The fields of ADD_BOOKING -/

/-- The fields of ADD_BOOKING, in the order of their bytes. -/
structure BookingFields where
  id : Nat
  day : Nat
  minute : Nat
  duration : Nat
  title : Text
  roster : List Nat
  chairs : List Nat
  floor : List Byte
  mix : List Byte
  plan : Nat
  privacy : Nat
  grace : Nat
  warning : Nat

namespace BookingFields

/-- The bytes of the fields. -/
def bytes (x : BookingFields) : List Byte :=
  u16 x.id ++ u16 x.day ++ u16 x.minute ++ u16 x.duration ++ textBytes x.title ++ listBytes u8 x.roster ++
    listBytes u8 x.chairs ++ x.floor ++ x.mix ++ u8 x.plan ++ u8 x.privacy ++ u8 x.grace ++ u8 x.warning

/-- Every field fits its bytes. -/
structure Small (x : BookingFields) : Prop where
  id : x.id < 65536
  day : x.day < 65536
  minute : x.minute < 65536
  duration : x.duration < 65536
  title : x.title.length < 256
  roster : x.roster.length < 256 ∧ ∀ n ∈ x.roster, n < 256
  chairs : x.chairs.length < 256 ∧ ∀ n ∈ x.chairs, n < 256
  floor : x.floor.length = 13
  mix : x.mix.length = 7
  plan : x.plan < 256
  privacy : x.privacy < 256
  grace : x.grace < 256
  warning : x.warning < 256

/-- The booking that the fields name, when each of them passes line 1 of R21, but for the zones of the roster. -/
def booking? (x : BookingFields) (floor : Option FloorPreset) (mix : Option MixPreset) : Option Booking := do
  let id ← within 1 65535 x.id
  let start ← roomMinute? x.day x.minute
  let duration ← within 5 720 x.duration
  let _ ← within 0 Config.lastRoomMinute (start + duration)
  let title ← text? x.title
  let roster ← upToFour (below 8) x.roster
  let chairs ← upToFour seat? x.chairs
  let floor ← floor
  let mix ← mix
  let plan ← below 4 x.plan
  let privacy ← [Privacy.normal, .confidential][x.privacy]?
  let grace ← within 0 30 x.grace
  let warning ← within 0 15 x.warning
  return ⟨id, start, duration, title, roster, chairs, floor, mix, plan, privacy, grace, warning, .roomController, .pending⟩

end BookingFields

/-- The fields that a booking is written as. -/
def Booking.written (b : Booking) : BookingFields :=
  ⟨b.id, b.start / 1440, b.start % 1440, b.duration, b.title, b.roster.map Fin.val, b.chairs.map Fin.val, floorBytes b.floor,
    mixBytes b.mix, b.plan.val, b.privacy.ctorIdx, b.grace, b.warning⟩

theorem Booking.payload_eq (b : Booking) : b.payload = b.written.bytes := by
  simp only [Booking.payload, BookingFields.bytes, Booking.written, minuteBytes, listBytes, List.flatMap_map, List.length_map,
    List.append_assoc]
  rfl

theorem Booking.Fits.small {b : Booking} (fits : b.Fits) : b.written.Small := by
  obtain ⟨id, duration, finish, title, roster, chairs, -, -, grace, warning, -, -⟩ := fits
  have finish : b.start + b.duration ≤ 65535 * 1440 + 1439 := finish
  have privacy : b.privacy.ctorIdx < 256 := by cases b.privacy <;> decide
  constructor <;> simp only [Booking.written, List.length_map, List.mem_map, floorBytes_length, mixBytes_length]
  case title => exact Nat.lt_of_le_of_lt title.1 (by omega)
  case roster => exact ⟨by omega, fun n ⟨z, _, e⟩ => by omega⟩
  case chairs => exact ⟨by omega, fun n ⟨z, _, e⟩ => by omega⟩
  all_goals omega

namespace BookingFields
variable {x : BookingFields}

/-- The fields name the booking that is written as them, when it is in range. -/
theorem booking?_eq_some {floor : Option FloorPreset} {mix : Option MixPreset}
    (hf : ∀ f, floor = some f ↔ f.Fits ∧ floorBytes f = x.floor) (hm : ∀ m, mix = some m ↔ m.Fits ∧ mixBytes m = x.mix)
    {b : Booking} : x.booking? floor mix = some b ↔ b.Fits ∧ b.written = x := by
  unfold booking?
  simp only [bind, Option.bind_eq_some_iff, pure, Option.some_inj, within_eq_some, roomMinute?_eq_some, text?_eq_some,
    upToFour_below_eq_some, upToFour_seat_eq_some, hf, hm, below_eq_some, privacy?_eq_some]
  constructor
  · rintro ⟨id, ⟨hid, eid⟩, start, ⟨eday, eminute⟩, duration, ⟨hduration, eduration⟩, _, ⟨⟨-, hfinish⟩, rfl⟩, title, ⟨htitle, etitle⟩,
      roster, ⟨hroster, eroster⟩, chairs, ⟨hchairs, echairs⟩, floor, ⟨hfloor, efloor⟩, mix, ⟨hmix, emix⟩, plan, eplan, privacy,
      eprivacy, grace, ⟨hgrace, egrace⟩, warning, ⟨hwarning, ewarning⟩, rfl⟩
    refine ⟨⟨hid, hduration, hfinish, htitle, hroster, hchairs, hfloor, hmix, hgrace.2, hwarning.2, rfl, rfl⟩, ?_⟩
    simp only [Booking.written, eid, eday, eminute, eduration, etitle, eroster, echairs, efloor, emix, eplan, eprivacy, egrace,
      ewarning]
  · rintro ⟨⟨hid, hduration, hfinish, htitle, hroster, hchairs, hfloor, hmix, hgrace, hwarning, origin, state⟩, rfl⟩
    refine ⟨_, ⟨hid, rfl⟩, b.start, ⟨rfl, rfl⟩, _, ⟨hduration, rfl⟩, _, ⟨⟨Nat.zero_le _, hfinish⟩, rfl⟩, _, ⟨htitle, rfl⟩,
      b.roster, ⟨hroster, rfl⟩, b.chairs, ⟨hchairs, rfl⟩, b.floor, ⟨hfloor, rfl⟩, b.mix, ⟨hmix, rfl⟩, b.plan, rfl, b.privacy, rfl,
      _, ⟨⟨Nat.zero_le _, hgrace⟩, rfl⟩, _, ⟨⟨Nat.zero_le _, hwarning⟩, rfl⟩, ?_⟩
    cases b
    simp_all [Booking.written]

theorem readRoomMinute_written {day minute : Nat} (hd : day < 65536) (hm : minute < 65536) (rest : List Byte) :
    readRoomMinute (u16 day ++ (u16 minute ++ rest)) = .ok (roomMinute? day minute, rest) := by
  unfold readRoomMinute
  rw [bindWord hd, bindWord hm]
  rfl

theorem readNumbers_written {xs : List Nat} (short : xs.length < 256) (h : ∀ n ∈ xs, n < 256) (rest : List Byte) :
    readList (listBytes u8 xs ++ rest) = .ok (xs, rest) := by
  have read := readList_list (write := fun n : Nat => n) short h rest
  rwa [List.map_id'] at read

/-- The reader of ADD_BOOKING gives the booking that is written as these fields, when one in range is. -/
theorem readBooking_bytes (small : x.Small) :
    ∃ o, readBooking x.bytes = .ok (o, []) ∧ ∀ b, o = some b ↔ b.Fits ∧ b.written = x := by
  obtain ⟨f, readsFloor, spellsFloor⟩ := readFloor_spells small.floor
  obtain ⟨m, readsMix, spellsMix⟩ := readMix_spells small.mix
  refine ⟨x.booking? f m, ?_, fun b => booking?_eq_some spellsFloor spellsMix⟩
  simp only [bytes, List.append_assoc]
  unfold readBooking
  rw [bindWord small.id, Reader.bind_ok (readRoomMinute_written small.day small.minute _), bindWord small.duration,
    Reader.bind_ok (readText_text small.title _), Reader.bind_ok (readNumbers_written small.roster.1 small.roster.2 _),
    Reader.bind_ok (readNumbers_written small.chairs.1 small.chairs.2 _), Reader.bind_ok (readsFloor _),
    Reader.bind_ok (readsMix _), bindByte small.plan, bindByte small.privacy, bindByte small.grace, bindByte_last small.warning]
  rfl

end BookingFields

/-! ### Lines 2 to 5 of R21, and the place in start order (R22) -/

theorem Part.zonesDefined_eq_false {p : Part} {roster : List (Fin 8)} :
    p.zonesDefined roster = false ↔ ∃ z ∈ roster, p.zones.getD z.val none = none := by
  simp [Part.zonesDefined, List.all_eq_false]

theorem insertBooking_eq (b : Booking) (bookings : List Booking) :
    insertBooking b bookings =
      bookings.takeWhile (fun x => x.start ≤ b.start) ++ b :: bookings.dropWhile fun x => x.start ≤ b.start := by
  induction bookings with
  | nil => rfl
  | cons x rest ih =>
    rw [insertBooking]
    split
    · rename_i before
      rw [List.takeWhile_cons_of_neg (by simpa using before), List.dropWhile_cons_of_neg (by simpa using before)]
      rfl
    · rename_i after
      rw [List.takeWhile_cons_of_pos (by simpa using after), List.dropWhile_cons_of_pos (by simpa using after), ih]
      rfl

section
variable (p : Part) (b : Booking)

/-- Line 2 of R21: a booking of the table has the id. -/
def Part.idTaken : Prop := ∃ x ∈ p.sched.bookings, x.id = b.id

/-- Line 3 of R21: a booking of the table overlaps, or the ACTIVE booking starts later. -/
def Part.bookingConflicts : Prop :=
  (∃ x ∈ p.sched.bookings, b.start < x.start + x.duration ∧ x.start < b.start + b.duration) ∨
    ∃ a, p.activeBooking = some a ∧ b.start < a.start

/-- Line 4 of R21: the end has passed. -/
def Part.bookingPast : Prop := p.sched.valid = true ∧ b.start + b.duration ≤ p.now

variable {p b}

theorem Part.idTaken_iff : (p.sched.bookings.any fun x => x.id = b.id) = true ↔ p.idTaken b := by
  simp [Part.idTaken]

theorem Part.bookingConflicts_iff :
    (p.sched.bookings.any b.overlaps || p.activeBooking.any (fun a => b.start < a.start)) = true ↔ p.bookingConflicts b := by
  simp only [Bool.or_eq_true, List.any_eq_true, Option.any_eq_true, Booking.overlaps, Bool.and_eq_true, decide_eq_true_eq]
  rfl

theorem Part.bookingPast_iff : (p.sched.valid && decide (b.finish ≤ p.now)) = true ↔ p.bookingPast b := by
  simp only [Bool.and_eq_true, decide_eq_true_eq]
  rfl

theorem Part.bookingRefused_duplicate (taken : p.idTaken b) : p.bookingRefused b = some .duplicateId :=
  if_pos (Part.idTaken_iff.2 taken)

variable (fresh : ¬p.idTaken b)
include fresh

theorem Part.bookingRefused_conflict (conflicts : p.bookingConflicts b) : p.bookingRefused b = some .conflict :=
  (if_neg (mt Part.idTaken_iff.1 fresh)).trans (if_pos (Part.bookingConflicts_iff.2 conflicts))

variable (apart : ¬p.bookingConflicts b)
include apart

theorem Part.bookingRefused_past (past : p.bookingPast b) : p.bookingRefused b = some .past :=
  (if_neg (mt Part.idTaken_iff.1 fresh)).trans ((if_neg (mt Part.bookingConflicts_iff.1 apart)).trans
    (if_pos (Part.bookingPast_iff.2 past)))

variable (ahead : ¬p.bookingPast b)
include ahead

/-- Past lines 2 to 4 only the length of the table counts. -/
theorem Part.bookingRefused_room : p.bookingRefused b = if 16 ≤ p.sched.bookings.length then some .full else none :=
  (if_neg (mt Part.idTaken_iff.1 fresh)).trans ((if_neg (mt Part.bookingConflicts_iff.1 apart)).trans
    (if_neg (mt Part.bookingPast_iff.1 ahead)))

end

/-- A stored booking, at its place in start order. -/
def Part.withBooking (b : Booking) (p : Part) : Part :=
  p.modSched fun d =>
    { d with
      bookings := d.bookings.takeWhile (fun x => x.start ≤ b.start) ++ b :: d.bookings.dropWhile fun x => x.start ≤ b.start }

theorem Part.storeBooking_eq (b : Booking) (p : Part) :
    p.storeBooking b =
      if p.sched.valid ∧ p.sched.session = none ∧ b.start ≤ p.now ∧ p.now < b.start + b.duration then
        (p.withBooking b).openSession b
      else p.withBooking b := by
  unfold Part.storeBooking Part.withBooking
  simp only [insertBooking_eq]
  refine if_congr ?_ rfl rfl
  simp only [Bool.and_eq_true, decide_eq_true_eq, and_assoc, Part.isOpen, Bool.not_eq_true', Option.isSome_eq_false_iff,
    Option.isNone_iff_eq_none]
  rfl

/-! ### ADD_BOOKING -/

/-- ADD_BOOKING of a booking in range, from line 1's zones on. -/
theorem answerAddBooking_fits {b : Booking} (fits : b.Fits) (p : Part) :
    answerAddBooking b.payload p =
      if p.zonesDefined b.roster then
        match p.bookingRefused b with
        | some status => refuse status p
        | none => okWake [] (p.storeBooking b)
      else refuse .badArg p := by
  obtain ⟨o, reads, named⟩ := BookingFields.readBooking_bytes fits.small
  rw [b.payload_eq]
  obtain rfl := (named b).2 ⟨fits, rfl⟩
  exact readThen_ok reads

/-- ADD_BOOKING of a booking that passes line 1. -/
theorem answerAddBooking_defined {s : State} {b : Booking} (fits : b.Fits)
    (defined : ¬∃ z ∈ b.roster, s.part.zones.getD z.val none = none) :
    answerAddBooking b.payload s.part.taken =
      match s.part.bookingRefused b with
      | some status => refuse status s.part.taken
      | none => okWake [] (s.part.taken.storeBooking b) :=
  (answerAddBooking_fits fits _).trans (if_pos (eq_true_of_ne_false (mt Part.zonesDefined_eq_false.1 defined)))

section
variable {s : State} (ready : s.part.Ready) (tag : Byte)
include ready

theorem exec_addBooking_none {x : BookingFields} (small : x.Small) (none : ∀ b : Booking, b.Fits → b.written ≠ x) :
    exec (.addBooking tag x.bytes) s = s.refuses 0x8A tag 0x03 := by
  obtain ⟨o, reads, named⟩ := BookingFields.readBooking_bytes small
  have nothing : o = Option.none := Option.eq_none_iff_forall_ne_some.2 fun b e => none b ((named b).1 e).1 ((named b).1 e).2
  subst nothing
  exact request_refuses (f := ⟨0x0A, tag, x.bytes⟩) (owner := answerAddBooking) (status := .badArg) ready (readThen_ok reads)

variable {b : Booking} (fits : b.Fits)
include fits

theorem exec_addBooking_undefined (undefined : ∃ z ∈ b.roster, s.part.zones.getD z.val none = none) :
    exec (.addBooking tag b.payload) s = s.refuses 0x8A tag 0x03 := by
  have undefined : s.part.taken.zonesDefined b.roster = false := Part.zonesDefined_eq_false.2 undefined
  exact request_refuses (f := ⟨0x0A, tag, b.payload⟩) (owner := answerAddBooking) (status := .badArg) ready
    ((answerAddBooking_fits fits _).trans (if_neg (ne_true_of_eq_false undefined)))

variable (defined : ¬∃ z ∈ b.roster, s.part.zones.getD z.val none = none)
include defined

theorem exec_addBooking_refused {status : Status} (refused : s.part.bookingRefused b = some status) :
    exec (.addBooking tag b.payload) s = s.refuses 0x8A tag status.code := by
  refine request_refuses (f := ⟨0x0A, tag, b.payload⟩) (owner := answerAddBooking) ready
    ((answerAddBooking_defined fits defined).trans ?_)
  rw [refused]

theorem exec_addBooking_stored (accepted : s.part.bookingRefused b = none) :
    exec (.addBooking tag b.payload) s = s.acceptsWaking 0x8A tag [] (s.part.taken.storeBooking b) := by
  refine request_acceptsWaking (f := ⟨0x0A, tag, b.payload⟩) (owner := answerAddBooking) ready
    ((answerAddBooking_defined fits defined).trans ?_)
  rw [accepted]

end

/-- A booking in range has every field in range. -/
theorem Booking.Fits.written_in_range {b : Booking} (fits : b.Fits) {x : BookingFields} (same : b.written = x) :
     ¬(x.id = 0 ∨ 1439 < x.minute ∨ x.duration < 5 ∨ 720 < x.duration ∨
      Config.lastRoomMinute < x.day * 1440 + x.minute + x.duration ∨ ¬Text.fits x.title ∨ 4 < x.roster.length ∨
      (∃ n ∈ x.roster, 7 < n) ∨ 4 < x.chairs.length ∨ (∃ n ∈ x.chairs, 63 < n) ∨
      (∀ f : FloorPreset, f.Fits → floorBytes f ≠ x.floor) ∨ (∀ m : MixPreset, m.Fits → mixBytes m ≠ x.mix) ∨
      3 < x.plan ∨ 1 < x.privacy ∨ 30 < x.grace ∨ 15 < x.warning) := by
  subst same
  obtain ⟨id, duration, finish, title, roster, chairs, floor, mix, grace, warning, -, -⟩ := fits
  have finish : b.start + b.duration ≤ Config.lastRoomMinute := finish
  have privacy : b.privacy.ctorIdx ≤ 1 := by cases b.privacy <;> decide
  simp only [Booking.written, List.length_map, Nat.div_add_mod', not_or]
  refine ⟨by omega, by omega, by omega, by omega, by omega, not_not.2 title, by omega, ?_, by omega, ?_, fun h => h _ floor rfl,
    fun h => h _ mix rfl, by omega, by omega, by omega, by omega⟩
  all_goals
    rintro ⟨n, mem, big⟩
    obtain ⟨z, -, rfl⟩ := List.mem_map.1 mem
    omega

/-- Settles O23: the fields are read as they were written, and the lines of R21 come in their order. -/
theorem bookingAdded : Obligations.BookingAdded := by
  refine ⟨fun s tag b ready fits => ?_, ?_⟩
  · intro p command duplicate conflict past stored
    split
    · exact exec_addBooking_undefined ready tag fits ‹_›
    rename_i defined
    split
    · exact exec_addBooking_refused ready tag fits defined (Part.bookingRefused_duplicate ‹_›)
    rename_i fresh
    split
    · exact exec_addBooking_refused ready tag fits defined (Part.bookingRefused_conflict fresh ‹_›)
    rename_i apart
    split
    · exact exec_addBooking_refused ready tag fits defined (Part.bookingRefused_past fresh apart ‹_›)
    rename_i ahead
    have room := Part.bookingRefused_room fresh apart ahead
    split
    · exact exec_addBooking_refused ready tag fits defined (room.trans (if_pos ‹_›))
    · rw [exec_addBooking_stored ready tag fits defined (room.trans (if_neg ‹_›)), Part.storeBooking_eq]
      rfl
  · intro s tag id day minute duration plan privacy grace warning title roster chairs floor mix ready hid hday hminute hduration
      hplan hprivacy hgrace hwarning htitle hroster hchairs numbers hfloor hmix out
    exact exec_addBooking_none ready tag
      (x := ⟨id, day, minute, duration, title, roster, chairs, floor, mix, plan, privacy, grace, warning⟩)
      ⟨hid, hday, hminute, hduration, htitle, ⟨hroster, fun n m => numbers n (List.mem_append_left _ m)⟩,
        ⟨hchairs, fun n m => numbers n (List.mem_append_right _ m)⟩, hfloor, hmix, hplan, hprivacy, hgrace, hwarning⟩
      fun b fits same => fits.written_in_range same out

end Sys2Proof.Machine
end

section
/-!
PROOFS. Standby and wake (R39 to R42): what entering standby and waking leave in each block, and what the expiry of the standby
delay timer does.
-/
namespace Sys2Proof.Machine

/-! ### What a ring and a nameplate depend on (R12, R13) -/

theorem Part.ringOf_congr {p q : Part} (sched : q.sched = p.sched) (floor : q.floor = p.floor) {x : Seat}
    (denial : (q.seat x).denial = (p.seat x).denial) (standing : (q.seat x).standing = (p.seat x).standing) :
    q.ringOf x = p.ringOf x := by
  unfold Part.ringOf Part.inStandby Part.holds Part.isSaved Part.speaker? Part.isQueued Part.isHeldPress Part.isOpen
  rw [sched, floor, denial, standing]

theorem Part.statusLineOf_congr {p q : Part} (sched : q.sched = p.sched) (floor : q.floor = p.floor) (x : Seat) :
    q.statusLineOf x = p.statusLineOf x := by
  unfold Part.statusLineOf Part.inStandby Part.minutesLeft Part.activeBooking Part.now Part.speaker? Part.queuePosition
  rw [sched, floor]

theorem Part.seat_deriveAll (p : Part) (len : p.seats.length = 64) (x : Seat) : p.deriveAll.seat x = p.lit x (p.seat x) := by
  obtain ⟨-, -, lit⟩ := Part.deriveAll_spec p len
  exact lit x

theorem Part.seat_congr {p q : Part} (seats : q.seats = p.seats) (x : Seat) : q.seat x = p.seat x :=
  congrArg (fun l => l.getD x.val SeatRec.reset) seats

/-! ### Screens decided again (R144) -/

/-- After a recomputation a screen is as before but for its source, which is the one decided for it. -/
theorem Part.recomputeScreens_screen {p : Part} {i : Fin 8} {screen : Screen}
    (h : p.recomputeScreens.screens.screens[i.val]? = some screen) :
    screen.source = p.decideSource i ∧ ∃ old ∈ p.screens.screens, screen = { old with source := p.decideSource i } := by
  obtain ⟨-, shown, -, -⟩ := p.recomputeScreens_spec
  rw [shown i, Option.map_eq_some_iff] at h
  obtain ⟨old, was, rfl⟩ := h
  exact ⟨rfl, old, List.mem_of_getElem? was, rfl⟩

theorem Part.setRate_screens (rate : PollRate) (p : Part) : (p.setRate rate).screens = p.screens := by
  simp

@[simp] theorem Part.setRate_decideSource (rate : PollRate) (p : Part) (i : Fin 8) :
    (p.setRate rate).decideSource i = p.decideSource i := rfl

theorem Part.setRate_rate (rate : PollRate) (p : Part) (c : Chain) : ((p.setRate rate).chain c).rate = rate := by
  cases c <;> rfl

/-! ### Waking (R41) -/

theorem Part.inStandby_iff {p : Part} : p.inStandby = true ↔ p.sched.standby = .standby := decide_eq_true_iff

theorem Part.inStandby_of_awake {p : Part} (h : p.sched.standby = .awake) : p.inStandby = false :=
  decide_eq_false (by rw [h]; decide)

/-- A wake event while AWAKE restarts the timer alone. -/
theorem Part.wakeEvent_awake {p : Part} (h : p.sched.standby = .awake) :
    p.wakeEvent =
      if p.isOpen then p else { p with sched := { p.sched with timer := some (p.sched.delay * 60) } } := by
  unfold Part.wakeEvent
  rw [if_neg (ne_true_of_eq_false (Part.inStandby_of_awake h))]
  unfold Part.modSched Scheduler.restart Part.isOpen
  split <;> rfl

/-- A room that has just become AWAKE: its scheduler and its notice, before the other blocks follow. -/
def Part.roused (p : Part) : Part :=
  ((p.modSched fun d => { d with standby := .awake }).notify (.standbyChanged .awake)).modSched Scheduler.restart

theorem Part.wakeEvent_standby {p : Part} (h : p.sched.standby = .standby) :
    p.wakeEvent = ((p.roused.deriveAll.modMixer fun m => { m with outputForced := false }).recomputeScreens).setRate .normal :=
  if_pos (Part.inStandby_iff.2 h)

@[simp] theorem Part.roused_mixer (p : Part) : p.roused.mixer = p.mixer := rfl

theorem Part.roused_sched (p : Part) :
    p.roused.sched =
      { p.sched with
        standby := .awake, timer := if p.sched.session.isSome then p.sched.timer else some (p.sched.delay * 60) } :=
  Scheduler.restart_eq _

section
variable {p : Part} (asleep : p.sched.standby = .standby)
include asleep

theorem Part.wakeEvent_sched : p.wakeEvent.sched = p.roused.sched := by
  simp [Part.wakeEvent_standby asleep]

theorem Part.wakeEvent_link : p.wakeEvent.link = p.link.notify (.standbyChanged .awake) := by
  rw [Part.wakeEvent_standby asleep]
  simp
  rfl

theorem Part.wakeEvent_mixer : p.wakeEvent.mixer = { p.mixer with outputForced := false } := by
  rw [Part.wakeEvent_standby asleep]
  simp

theorem Part.wakeEvent_rate (c : Chain) : (p.wakeEvent.chain c).rate = .normal := by
  rw [Part.wakeEvent_standby asleep, Part.setRate_rate]

theorem Part.wakeEvent_source {i : Fin 8} {screen : Screen} (h : p.wakeEvent.screens.screens[i.val]? = some screen) :
    screen.source = p.wakeEvent.decideSource i := by
  rw [Part.wakeEvent_standby asleep, Part.setRate_screens] at h
  rw [Part.wakeEvent_standby asleep, Part.setRate_decideSource, Part.recomputeScreens_decide]
  exact (Part.recomputeScreens_screen h).1

theorem Part.wakeEvent_seat (len : p.seats.length = 64) (x : Seat) :
    p.wakeEvent.seat x = p.roused.lit x (p.seat x) := by
  rw [Part.wakeEvent_standby asleep, Part.seat_congr (p := p.roused.deriveAll) (by simp), Part.seat_deriveAll p.roused len]
  rfl

/-- Waking shows every seat what the rules give it. -/
theorem Part.wakeEvent_lit (len : p.seats.length = 64) (x : Seat) :
    (p.wakeEvent.seat x).ring = p.wakeEvent.ringOf x ∧ (p.wakeEvent.seat x).nameLine = (p.seat x).name ∧
      (p.wakeEvent.seat x).statusLine = p.wakeEvent.statusLineOf x := by
  have seat := Part.wakeEvent_seat asleep len x
  have sched := Part.wakeEvent_sched asleep
  have floor : p.wakeEvent.floor = p.roused.floor := by simp; rfl
  have awake : p.roused.inStandby = false := Part.inStandby_of_awake (by rw [Part.roused_sched])
  refine ⟨?_, ?_, ?_⟩
  · rw [Part.ringOf_congr sched floor (by rw [seat]; rfl) (by rw [seat]; rfl), seat]
    rfl
  · rw [seat]
    exact if_neg (ne_true_of_eq_false awake)
  · rw [Part.statusLineOf_congr sched floor, seat]
    rfl

end

/-! ### Entering standby (R40) -/

/-- A room that has just entered standby: its scheduler and its notice, before the other blocks follow. -/
def Part.dozed (p : Part) : Part :=
  (p.modSched fun d => { d with standby := .standby, timer := none }).notify (.standbyChanged .standby)

/-- The director and everything before it, at an entry into standby. -/
def Part.darkened (p : Part) : Part :=
  (p.dozed.deriveAll.modMixer fun m => { m with outputForced := true }).directorStandby

theorem Part.enterStandby_eq (p : Part) : p.enterStandby = p.darkened.screensStandby.setRate .slow := rfl

@[simp] theorem Part.dozed_mixer (p : Part) : p.dozed.mixer = p.mixer := rfl

@[simp] theorem Part.dozed_director (p : Part) : p.dozed.director = p.director := rfl

theorem Part.dozed_inStandby (p : Part) : p.dozed.inStandby = true := rfl

theorem Part.enterStandby_sched (p : Part) : p.enterStandby.sched = { p.sched with standby := .standby, timer := none } := by
  rw [Part.enterStandby_eq]
  simp [Part.darkened]
  rfl

theorem Part.enterStandby_link (p : Part) : p.enterStandby.link = p.link.notify (.standbyChanged .standby) := by
  rw [Part.enterStandby_eq]
  simp [Part.darkened]
  rfl

theorem Part.enterStandby_mixer (p : Part) : p.enterStandby.mixer = { p.mixer with outputForced := true } := by
  rw [Part.enterStandby_eq]
  simp [Part.darkened]

theorem Part.enterStandby_rate (p : Part) (c : Chain) : (p.enterStandby.chain c).rate = .slow := by
  rw [Part.enterStandby_eq, Part.setRate_rate]

theorem Part.enterStandby_director (p : Part) :
    p.enterStandby.director = { p.director with aimed := none, follow := .wide } := by
  rw [Part.enterStandby_eq]
  simp [Part.darkened, Part.directorStandby, Part.setFollow_director, Part.dropRecall]

theorem Screens.clearOverrides_override {v : Screens} {screen : Screen} (mem : screen ∈ v.clearOverrides.screens) :
    screen.override = none := by
  obtain ⟨was, -, rfl⟩ := List.mem_map.1 mem
  rfl

theorem Part.decideSource_standby {p : Part} (h : p.inStandby = true) (i : Fin 8) : p.decideSource i = .blank := by
  simp [Part.decideSource, h]

/-- Every screen of a room in standby is BLANK, and an entry leaves it no override. -/
theorem Part.screensStandby_screen {p : Part} (asleep : p.inStandby = true) {i : Fin 8} {screen : Screen}
    (h : p.screensStandby.screens.screens[i.val]? = some screen) : screen.source = .blank ∧ screen.override = none := by
  rw [Part.screensStandby] at h
  obtain ⟨source, old, mem, same⟩ := Part.recomputeScreens_screen h
  have asleep : (p.modScreens Screens.clearOverrides).inStandby = true := asleep
  have clear : old.override = none := Screens.clearOverrides_override (v := p.screens) mem
  refine ⟨source.trans (Part.decideSource_standby asleep i), ?_⟩
  rw [same]
  exact clear

theorem Part.darkened_inStandby (p : Part) : p.darkened.inStandby = true := by
  simp [Part.darkened, Part.inStandby]
  rfl

theorem Part.enterStandby_screen (p : Part) {i : Fin 8} {screen : Screen}
    (h : p.enterStandby.screens.screens[i.val]? = some screen) : screen.source = .blank ∧ screen.override = none := by
  rw [Part.enterStandby_eq, Part.setRate_screens] at h
  exact Part.screensStandby_screen p.darkened_inStandby h

/-- Every ring and nameplate of a room in standby is dark. -/
theorem Part.enterStandby_dark (p : Part) (len : p.seats.length = 64) (x : Seat) :
    (p.enterStandby.seat x).ring = .off ∧ (p.enterStandby.seat x).nameLine = [] ∧ (p.enterStandby.seat x).statusLine = [] := by
  have seat : p.enterStandby.seat x = p.dozed.lit x (p.dozed.seat x) := by
    rw [← Part.seat_deriveAll p.dozed len]
    refine Part.seat_congr ?_ x
    rw [Part.enterStandby_eq]
    simp [Part.darkened]
  rw [seat]
  simp [Part.lit, Part.ringOf, Part.nameLineOf, Part.statusLineOf, p.dozed_inStandby]

/-! ### The expiry of the standby delay timer (R39, R40) -/

/-- What keeps a room awake when its timer expires: a booking within 15 minutes or a pending wake event. -/
def Part.staysAwake (p : Part) : Prop :=
  (p.sched.valid = true ∧ ∃ b, (p.sched.bookings.find? fun b => b.state = .pending) = some b ∧ b.start ≤ p.now + 15) ∨
    p.presses ≠ [] ∨ p.link.wakePending = true

theorem Part.staysAwake_iff {p : Part} : (p.bookingNear || p.wakePending) = true ↔ p.staysAwake := by
  unfold Part.staysAwake Part.bookingNear Part.wakePending
  simp only [Bool.or_eq_true, Bool.and_eq_true, Option.any_eq_true, decide_eq_true_eq, Bool.not_eq_true', List.isEmpty_eq_false_iff]

section
variable {p : Part} (awake : p.sched.standby = .awake) (idle : p.sched.session = none) (counts : 0 < p.sched.delay)
  (expired : p.sched.timer = some 0)
include awake idle counts expired

theorem Part.standbyExpiry_due :
    p.standbyExpiry = if p.bookingNear || p.wakePending then p.modSched Scheduler.restart else p.enterStandby := by
  refine if_pos ?_
  simp [Part.standbyDue, Part.standbyCounts, Part.inStandby_of_awake awake, Part.isOpen, idle, counts, expired]

theorem Part.standbyExpiry_stays (stays : p.staysAwake) :
    p.standbyExpiry = { p with sched := { p.sched with timer := some (p.sched.delay * 60) } } := by
  rw [Part.standbyExpiry_due awake idle counts expired, if_pos (Part.staysAwake_iff.2 stays)]
  unfold Part.modSched
  rw [Scheduler.restart_eq]
  simp [idle]

theorem Part.standbyExpiry_enters (goes : ¬p.staysAwake) : p.standbyExpiry = p.enterStandby := by
  rw [Part.standbyExpiry_due awake idle counts expired, if_neg (mt Part.staysAwake_iff.1 goes)]

end

/-- The command of the expiry, as the last step of its second tick. -/
theorem exec_standbyTimerExpiry_last {s : State} (running : s.part.power = .running) (jobs : s.part.tickJobs = [.standbyEnd]) :
    exec .standbyTimerExpiry s = s.to ({ s.part with tickJobs := [] }).standbyExpiry := by
  refine congrArg s.to ((Part.takeJob_first running jobs).trans (Part.runJobs_none true ?_))
  show Part.tickJobs (Part.standbyExpiry _) = []
  simp

/-- Settles O28: waking and entering block by block, and the expiry by what keeps the room awake. -/
theorem standbyEntryAndWake : Obligations.StandbyEntryAndWake := by
  refine ⟨fun p awake => Part.wakeEvent_awake awake, fun p asleep => ?_, fun p => ?_,
    fun s running jobs awake idle counts expired => ?_⟩
  · intro q
    have sched : q.sched = _ := (Part.wakeEvent_sched asleep).trans p.roused_sched
    refine ⟨by rw [sched], by rw [Part.wakeEvent_mixer asleep], Part.wakeEvent_rate asleep .A, Part.wakeEvent_rate asleep .B,
      by simp [q], by rw [sched], by rw [sched], fun idle => by rw [sched, idle]; rfl, Part.wakeEvent_link asleep,
      fun i screen => Part.wakeEvent_source asleep, Part.wakeEvent_lit asleep⟩
  · intro q
    refine ⟨by rw [p.enterStandby_sched], by rw [p.enterStandby_sched], by rw [p.enterStandby_mixer], p.enterStandby_rate .A,
      p.enterStandby_rate .B, by simp [q], by rw [p.enterStandby_director], by rw [p.enterStandby_director],
      by rw [p.enterStandby_director], p.enterStandby_link, fun i screen => p.enterStandby_screen, p.enterStandby_dark⟩
  · intro p near stays
    have step := exec_standbyTimerExpiry_last running jobs
    exact ⟨fun h => step.trans (congrArg s.to (Part.standbyExpiry_stays (p := p) awake idle counts expired h)),
      fun h => step.trans (congrArg s.to (Part.standbyExpiry_enters (p := p) awake idle counts expired h))⟩

end Sys2Proof.Machine
end

section
/-!
PROOFS. Opening a session (R26): what the opening leaves in the scheduler, the seat table, the floor, the mixer and the screens.
-/
namespace Sys2Proof.Machine

/-! ### What a frame keeps -/

/-- Parts of one frame have the same seat records, but for the derived indicators. -/
theorem Part.unlit_of_frame {p q : Part} (h : q.floorFrame = p.floorFrame) (x : Seat) : (q.seat x).unlit = (p.seat x).unlit := by
  have seats : q.seats.map SeatRec.unlit = p.seats.map SeatRec.unlit := congrArg Part.seats h
  have unlit (r : Part) : (r.seats.map SeatRec.unlit).getD x.val SeatRec.reset.unlit = (r.seat x).unlit :=
    List.getD_map _ _ _
  rw [← unlit q, ← unlit p, seats]

theorem Part.standing_of_frame {p q : Part} (h : q.floorFrame = p.floorFrame) (x : Seat) :
    (q.seat x).standing = (p.seat x).standing := by
  have same := congrArg SeatRec.standing (Part.unlit_of_frame h x)
  exact same

theorem Part.role_of_frame {p q : Part} (h : q.floorFrame = p.floorFrame) (x : Seat) : (q.seat x).role = (p.seat x).role := by
  have same := congrArg SeatRec.role (Part.unlit_of_frame h x)
  exact same

theorem Part.seatCount_of_frame {p q : Part} (h : q.floorFrame = p.floorFrame) : q.seats.length = p.seats.length := by
  have seats : q.seats.map SeatRec.unlit = p.seats.map SeatRec.unlit := congrArg Part.seats h
  simpa using congrArg List.length seats

theorem Part.mixer_of_frame {p q : Part} (h : q.floorFrame = p.floorFrame) :
    q.mixer.params = p.mixer.params ∧ q.mixer.mute = p.mixer.mute ∧ q.mixer.recordForced = p.mixer.recordForced ∧
      q.mixer.clip = p.mixer.clip :=
  ⟨congrArg (fun r => r.mixer.params) h, congrArg (fun r => r.mixer.mute) h, congrArg (fun r => r.mixer.recordForced) h,
    congrArg (fun r => r.mixer.clip) h⟩

theorem Part.deriveAll_sameFrame (p : Part) : p.deriveAll.floorFrame = p.floorFrame :=
  FloorWork.deriveAll (FloorWork.ofFrame p) rfl

theorem Part.recountChain_sameFrame (c : Chain) (p : Part) : (p.recountChain c).floorFrame = p.floorFrame :=
  (FloorWork.ofFrame p).recountChain rfl

/-! ### The screens -/

/-- A recomputation writes the sources and the records of the screen link alone. -/
theorem Part.recomputeScreens_screens (p : Part) :
    p.recomputeScreens.screens =
      { p.screens with screens := p.recomputeScreens.screens.screens, queue := p.recomputeScreens.screens.queue } := by
  obtain ⟨only, -⟩ := p.recomputeScreens_spec
  have screens := congrArg Part.screens only
  exact screens

/-- Screens without overrides stay so. -/
theorem Part.recomputeScreens_override {p : Part} (h : ∀ screen ∈ p.screens.screens, screen.override = none) :
    ∀ screen ∈ p.recomputeScreens.screens.screens, screen.override = none := by
  intro screen mem
  obtain ⟨-, -, beyond, -⟩ := p.recomputeScreens_spec
  obtain ⟨j, at_j⟩ := List.getElem?_of_mem mem
  by_cases hj : j < 8
  · obtain ⟨-, old, was, same⟩ := Part.recomputeScreens_screen (i := ⟨j, hj⟩) at_j
    rw [same]
    exact h old was
  · exact h screen (List.mem_of_getElem? ((beyond j (by omega)).symm.trans at_j))

@[simp] theorem Part.pendBroadcast_decideSource (c : Chain) (p : Part) (i : Fin 8) :
    (p.pendBroadcast c).decideSource i = p.decideSource i := by
  cases c <;> rfl

section
variable (b : Booking) (p : Part)

/-- The screens of an opening, before they are computed again. -/
def Part.screensTuned : Part :=
  p.modScreens fun v => { v.clearOverrides with plan := b.plan, confidential := b.privacy = .confidential }

theorem Part.screensSessionOpen_eq : p.screensSessionOpen b = (p.screensTuned b).recomputeScreens := rfl

theorem Part.screensSessionOpen_plan :
    (p.screensSessionOpen b).screens.plan = b.plan ∧
      (p.screensSessionOpen b).screens.confidential = decide (b.privacy = .confidential) := by
  rw [Part.screensSessionOpen_eq, Part.recomputeScreens_screens]
  exact ⟨rfl, rfl⟩

theorem Part.screensSessionOpen_override : ∀ screen ∈ (p.screensSessionOpen b).screens.screens, screen.override = none := by
  rw [Part.screensSessionOpen_eq]
  exact Part.recomputeScreens_override fun _ mem => Screens.clearOverrides_override (v := p.screens) mem

theorem Part.screensSessionOpen_source {i : Fin 8} {screen : Screen}
    (h : (p.screensSessionOpen b).screens.screens[i.val]? = some screen) :
    screen.source = (p.screensSessionOpen b).decideSource i := by
  rw [Part.screensSessionOpen_eq] at h ⊢
  rw [Part.recomputeScreens_decide]
  exact (Part.recomputeScreens_screen h).1

/-! ### The mixer -/

/-- The mixer of an opening, before its seats are counted again. -/
def Part.mixerTuned : Part :=
  p.modMixer fun m => { m with params := b.mix, recordForced := b.privacy = .confidential, mute := false }

theorem Part.mixerSessionOpen_sameFrame : (p.mixerSessionOpen b).floorFrame = (p.mixerTuned b).floorFrame :=
  (Part.recountChain_sameFrame .B _).trans (Part.recountChain_sameFrame .A _)

/-- The presets of an opening are in force at the mixer. -/
theorem Part.mixerSessionOpen_presets :
    (p.mixerSessionOpen b).mixer.params = b.mix ∧ (p.mixerSessionOpen b).mixer.mute = false ∧
      (p.mixerSessionOpen b).mixer.recordForced = decide (b.privacy = .confidential) := by
  obtain ⟨params, mute, forced, -⟩ := Part.mixer_of_frame (p.mixerSessionOpen_sameFrame b)
  exact ⟨params, mute, forced⟩

end

/-! ### The seats (R9) -/

/-- Standings given to the seats of a list, one after another. -/
theorem Part.setStandings_seat (standing : Seat → Standing) (seats : List Seat) {p : Part} (len : p.seats.length = 64) (x : Seat) :
    ((seats.foldl (fun q s => q.setStanding s (standing s)) p).seat x) =
        (if x ∈ seats then { p.seat x with standing := standing x } else p.seat x) ∧
      (seats.foldl (fun q s => q.setStanding s (standing s)) p).seats.length = 64 := by
  induction seats generalizing p with
  | nil => exact ⟨by simp, len⟩
  | cons s seats ih =>
    have len' : (p.setStanding s (standing s)).seats.length = 64 := by
      rw [Part.setStanding, Part.modSeat_seats, length_updateAt, len]
    obtain ⟨seat, count⟩ := ih len'
    refine ⟨?_, count⟩
    rw [List.foldl_cons, seat, Part.setStanding, Part.seat_modSeat, len]
    by_cases here : s = x
    · subst here
      simp
    · simp [here, Ne.symm here]

theorem mem_allSeats (x : Seat) : x ∈ allSeats := List.mem_finRange x

theorem Part.openStandings_standing (b : Booking) {p : Part} (len : p.seats.length = 64) (x : Seat) :
    ((p.openStandings b).seat x).standing = p.standingFor b x := by
  obtain ⟨seat, -⟩ := Part.setStandings_seat (p.standingFor b) allSeats len x
  rw [Part.openStandings, Part.standing_of_frame (Part.deriveAll_sameFrame _), seat, if_pos (mem_allSeats x)]

/-- A seat lies in a roster that is empty or names a defined zone of the seat. -/
theorem Part.inRoster_iff {p : Part} {roster : List (Fin 8)} {x : Seat} :
    p.inRoster roster x = true ↔
      roster = [] ∨ ∃ z ∈ roster, ∃ zone : Zone, p.zones.getD z.val none = some zone ∧ zone.first ≤ x ∧ x ≤ zone.last ∧
        zone.stride ∣ x.val - zone.first.val := by
  have zoned (z : Fin 8) : p.inZone z x = true ↔ ∃ zone : Zone, p.zones.getD z.val none = some zone ∧ zone.first ≤ x ∧
      x ≤ zone.last ∧ zone.stride ∣ x.val - zone.first.val := by
    rcases defined : p.zones.getD z.val none with _ | zone
    · simp [Part.inZone_undefined defined]
    · simp [Part.inZone_defined defined]
  simp only [Part.inRoster, Bool.or_eq_true, List.isEmpty_iff, List.any_eq_true, zoned]

section
variable {p : Part} {b : Booking} {x : Seat}

/-- The four lines of R9. -/
theorem Part.standingFor_chair (chair : x ∈ b.chairs) : p.standingFor b x = .chair :=
  if_pos (List.contains_iff_mem.2 chair)

variable (plain : x ∉ b.chairs)
include plain

theorem Part.standingFor_plain :
    p.standingFor b x =
      if p.inRoster b.roster x then match (p.seat x).role with | .member => .delegate | .observer => .listener else .out :=
  if_neg (mt List.contains_iff_mem.1 plain)

theorem Part.standingFor_out (outside : p.inRoster b.roster x = false) : p.standingFor b x = .out :=
  (Part.standingFor_plain plain).trans (if_neg (ne_true_of_eq_false outside))

variable (inside : p.inRoster b.roster x = true)
include inside

theorem Part.standingFor_member (member : (p.seat x).role = .member) : p.standingFor b x = .delegate := by
  rw [Part.standingFor_plain plain, if_pos inside, member]

theorem Part.standingFor_observer (observer : (p.seat x).role = .observer) : p.standingFor b x = .listener := by
  rw [Part.standingFor_plain plain, if_pos inside, observer]

end

/-! ### The end-warning test of an opening (R29) -/

/-- The end-warning test of an OPEN session writes its flag, and derives every seat or none. -/
theorem Part.endWarningTest_shape {p : Part} {d : Session} (session : p.sched.session = some d) :
    ∃ r w, (p.endWarningTest = r ∨ p.endWarningTest = r.deriveAll) ∧ r.seats = p.seats ∧
      r.sched = { p.sched with session := some { d with warned := w } } := by
  have flagged (w : Bool) : (p.setWarned w).sched = { p.sched with session := some { d with warned := w } } := by
    rw [Part.setWarned_open session]
  have same : p.sched = { p.sched with session := some { d with warned := d.warned } } := by rw [← session]
  rcases active : p.activeBooking with _ | b
  · refine ⟨p, d.warned, .inl ?_, rfl, same⟩
    unfold Part.endWarningTest
    rw [session, active]
  · rw [Part.endWarningTest_open session active]
    split
    · split
      · exact ⟨_, false, .inr rfl, by simp, flagged false⟩
      · exact ⟨p, d.warned, .inr rfl, rfl, same⟩
    · split
      · exact ⟨_, true, .inr rfl, by simp, flagged true⟩
      · exact ⟨p, d.warned, .inl rfl, rfl, same⟩

/-! ### The steps of an opening -/

/-- The room at the beginning of an opening: awake. -/
def Part.risen (p : Part) : Part := if p.inStandby then p.wakeEvent else p

section
variable (p : Part)

theorem Part.risen_cases :
    (p.sched.standby = .standby ∧ p.risen = p.wakeEvent) ∨ (p.sched.standby = .awake ∧ p.risen = p) := by
  rcases h : p.sched.standby with _ | _
  · exact .inr ⟨rfl, if_neg (ne_true_of_eq_false (Part.inStandby_of_awake h))⟩
  · exact .inl ⟨rfl, if_pos (Part.inStandby_iff.2 h)⟩

theorem Part.risen_sched :
    p.risen.sched.bookings = p.sched.bookings ∧ p.risen.sched.session = p.sched.session ∧ p.risen.sched.clock = p.sched.clock ∧
      p.risen.sched.standby = .awake := by
  rcases p.risen_cases with ⟨asleep, same⟩ | ⟨awake, same⟩
  · rw [same, Part.wakeEvent_sched asleep, Part.roused_sched]
    exact ⟨rfl, rfl, rfl, rfl⟩
  · rw [same]
    exact ⟨rfl, rfl, rfl, awake⟩

theorem Part.risen_link :
    p.risen.link = if p.sched.standby = .standby then p.link.notify (.standbyChanged .awake) else p.link := by
  rcases p.risen_cases with ⟨asleep, same⟩ | ⟨awake, same⟩
  · rw [same, Part.wakeEvent_link asleep, if_pos asleep]
  · rw [same, if_neg (by rw [awake]; decide)]

theorem Part.risen_floor : p.risen.floor = p.floor ∧ p.risen.zones = p.zones := by
  rcases p.risen_cases with ⟨-, same⟩ | ⟨-, same⟩ <;> simp [same]

theorem Part.risen_seat (len : p.seats.length = 64) :
    p.risen.seats.length = 64 ∧ ∀ x, (p.risen.seat x).role = (p.seat x).role := by
  rcases p.risen_cases with ⟨asleep, same⟩ | ⟨-, same⟩
  · rw [same]
    refine ⟨?_, fun x => by rw [Part.wakeEvent_seat asleep len]; rfl⟩
    rw [Part.wakeEvent_standby asleep]
    simp
    exact (Part.seatCount_of_frame p.roused.deriveAll_sameFrame).trans len
  · rw [same]
    exact ⟨len, fun _ => rfl⟩

end

section
variable (b : Booking) (p : Part)

/-- Steps 1 to 5 of R26: the room is awake, the session record filled, and SESSION_OPENED queued. -/
def Part.announced : Part :=
  (p.risen.fillSession b).notify (.sessionOpened b.id b.origin b.title b.start b.finish b.privacy b.plan)

/-- An opening up to the floor's preset. -/
def Part.seated : Part := ((p.announced b).endWarningTest.openStandings b).modFloor fun f => { f with preset := b.floor }

theorem Part.openSession_eq :
    p.openSession b =
      ((((p.seated b).mixerSessionOpen b).screensSessionOpen b).pendBroadcast .A).pendBroadcast .B := rfl

theorem Part.announced_sched :
    (p.announced b).sched =
      { p.risen.sched with
        bookings := p.sched.bookings.map fun x => if x.id = b.id then { x with state := .active } else x
        session := some (p.risen.newSession b)
        timer := none } := by
  obtain ⟨bookings, -⟩ := p.risen_sched
  rw [← bookings]
  rfl

theorem Part.announced_link :
    (p.announced b).link =
      (if p.sched.standby = .standby then p.link.notify (.standbyChanged .awake) else p.link).notify
        (.sessionOpened b.id b.origin b.title b.start (b.start + b.duration) b.privacy b.plan) := by
  rw [← p.risen_link]
  rfl

/-- The scheduler of an opening, up to the warning-given flag. -/
theorem Part.openSession_sched :
    ∃ w, (p.openSession b).sched =
      { (p.announced b).sched with session := some { p.risen.newSession b with warned := w } } := by
  have session : (p.announced b).sched.session = some (p.risen.newSession b) := by rw [Part.announced_sched]
  obtain ⟨r, w, test, -, sched⟩ := Part.endWarningTest_shape session
  refine ⟨w, ?_⟩
  rw [Part.openSession_eq]
  simp only [Part.pendBroadcast_frame, Part.screensSessionOpen_frame, Part.mixerSessionOpen_frame, Part.seated,
    Part.modFloor_sched, Part.openStandings_frame]
  rcases test with test | test <;> simp [test, sched]

/-- The standings of an opening are those that R9 gives at its beginning. -/
theorem Part.openSession_standing (len : p.seats.length = 64) (x : Seat) :
    ((p.openSession b).seat x).standing = p.standingFor b x := by
  have session : (p.announced b).sched.session = some (p.risen.newSession b) := by rw [Part.announced_sched]
  obtain ⟨r, w, test, seats, -⟩ := Part.endWarningTest_shape session
  obtain ⟨count, role⟩ := p.risen_seat len
  have frame : (p.announced b).endWarningTest.floorFrame = r.floorFrame := by
    rcases test with test | test <;> simp [test, Part.deriveAll_sameFrame]
  have seats : r.seats = p.risen.seats := seats
  have count : (p.announced b).endWarningTest.seats.length = 64 := by
    rw [Part.seatCount_of_frame frame, seats, count]
  have role : ((p.announced b).endWarningTest.seat x).role = (p.seat x).role := by
    rw [Part.role_of_frame frame, Part.seat_congr seats, role]
  have zones : (p.announced b).endWarningTest.zones = p.zones := by
    rw [(Part.endWarningTest_frame _).2.2.2.1]
    exact p.risen_floor.2
  have last : (p.openSession b).seats = ((p.announced b).endWarningTest.openStandings b).seats := by
    rw [Part.openSession_eq]
    simp [Part.seated]
  rw [Part.seat_congr last, Part.openStandings_standing b count]
  unfold Part.standingFor Part.inRoster Part.inZone
  rw [zones, role]

theorem Part.openSession_floor : (p.openSession b).floor = { p.floor with preset := b.floor } := by
  obtain ⟨floor, -⟩ := p.risen_floor
  rw [Part.openSession_eq, ← floor]
  simp [Part.seated, Part.announced]

/-- What an opening queues after SESSION_OPENED. -/
theorem Part.openSession_later : ∃ later, (p.openSession b).link = (p.announced b).link.notifyAll later := by
  have work : Work (p.announced b) (p.openSession b) :=
    Work.pendBroadcast (Work.pendBroadcast (Work.screensSessionOpen (Work.mixerSessionOpen (Work.modFloor
      (Work.openStandings (Work.endWarningTest (.refl _)))))))
  exact work.notes

end

/-- Settles O29, block by block. -/
theorem sessionOpens : Obligations.SessionOpens := by
  intro p b len idle q
  obtain ⟨w, sched⟩ := p.openSession_sched b
  rw [p.announced_sched b] at sched
  obtain ⟨-, -, clock, awake⟩ := p.risen_sched
  have bookings : q.sched.bookings = _ := congrArg Scheduler.bookings sched
  have session : q.sched.session = _ := congrArg Scheduler.session sched
  have screens : q.screens = (((p.seated b).mixerSessionOpen b).screensSessionOpen b).screens := by
    simp only [q, Part.openSession_eq, Part.pendBroadcast_frame]
  have mixer : q.mixer = ((p.seated b).mixerSessionOpen b).mixer := by
    simp only [q, Part.openSession_eq, Part.pendBroadcast_frame, Part.screensSessionOpen_frame]
  obtain ⟨plan, confidential⟩ := Part.screensSessionOpen_plan b ((p.seated b).mixerSessionOpen b)
  obtain ⟨params, mute, forced⟩ := Part.mixerSessionOpen_presets b (p.seated b)
  refine ⟨bookings, ⟨_, session, rfl, clock, rfl, rfl, ?_⟩, congrArg Scheduler.timer sched,
    (congrArg Scheduler.standby sched).trans awake, fun x => ?_, p.openSession_floor b, by rw [mixer, params], by rw [mixer, mute],
    by rw [mixer, forced], by rw [screens, plan], by rw [screens, confidential], ?_, fun i screen at_i => ?_,
    ⟨fun c => ?_, fun once mem => ?_⟩, ?_⟩
  · show Booking.deadline b p.risen.now = _
    unfold Booking.deadline Part.now
    rw [clock]
  · intro inRoster
    have roster : p.inRoster b.roster x = true ↔ inRoster := Part.inRoster_iff
    have given := p.openSession_standing b len x
    exact ⟨fun chair => given.trans (Part.standingFor_chair chair),
      fun plain inside member => given.trans (Part.standingFor_member plain (roster.2 inside) member),
      fun plain inside observer => given.trans (Part.standingFor_observer plain (roster.2 inside) observer),
      fun plain outside => given.trans (Part.standingFor_out plain (eq_false_of_ne_true (mt roster.1 outside)))⟩
  · rw [screens]
    exact Part.screensSessionOpen_override b _
  · rw [screens] at at_i
    rw [Part.screensSessionOpen_source b _ at_i]
    simp [q, Part.openSession_eq]
  · rw [Part.openSession_broadcast p b c]
    exact congrArg (fun title => if (p.chain c).state = .active then some title else (p.chain c).broadcast)
      (if_pos (Part.isOpen_iff q |>.2 ⟨_, session⟩))
  · rw [bookings]
    exact openedTitle once mem
  · obtain ⟨later, link⟩ := p.openSession_later b
    exact ⟨later, link.trans (congrArg (Link.notifyAll later) (p.announced_link b))⟩

end Sys2Proof.Machine
end

section
/-!
PROOFS. Closing a session (R31): what the closing leaves in the seat table, the floor, the mixer, the director and the screens.
-/
namespace Sys2Proof.Machine

/-! ### The mixer's lists keep their lengths -/

/-- The numbers of channels, of duck counts and of loudspeaker states. -/
def Mixer.sizes (m : Mixer) : Nat × Nat × Nat := (m.channels.length, m.ducks.length, m.loud.length)

theorem Mixer.sizes_iff {m : Mixer} {a b c : Nat} :
    m.sizes = (a, b, c) ↔ m.channels.length = a ∧ m.ducks.length = b ∧ m.loud.length = c := by
  simp [Mixer.sizes]

theorem Part.recountSeat_sizes (x : Seat) (p : Part) : (p.recountSeat x).mixer.sizes = p.mixer.sizes := by
  unfold Part.recountSeat
  dsimp only
  split <;> simp [Mixer.sizes]

theorem Part.recountChain_sizes (c : Chain) (p : Part) : (p.recountChain c).mixer.sizes = p.mixer.sizes := by
  unfold Part.recountChain
  induction chainSeats c generalizing p with
  | nil => rfl
  | cons x xs ih => rw [List.foldl_cons, ih, Part.recountSeat_sizes]

/-- A channel is made FREE. -/
theorem Mixer.free_channels (ch lane : Nat) (live : Bool) (m : Mixer) : (m.free ch lane live).channels = m.channels.set ch none := by
  unfold Mixer.free Mixer.channel?
  rcases free : m.channels.getD ch none with _ | r
  · exact (set_none_of_none _ _ free).symm
  · exact (updateAt_eq_modify _ _ _).trans (List.set_eq_modify none ch m.channels).symm

theorem Mixer.free_counts (ch lane : Nat) (live : Bool) (m : Mixer) :
    (m.free ch lane live).ducks = m.ducks ∧ (m.free ch lane live).loud = m.loud := by
  unfold Mixer.free
  split <;> exact ⟨rfl, rfl⟩

theorem Mixer.free_sizes (ch lane : Nat) (live : Bool) (m : Mixer) : (m.free ch lane live).sizes = m.sizes := by
  obtain ⟨ducks, loud⟩ := m.free_counts ch lane live
  simp [Mixer.sizes, Mixer.free_channels, ducks, loud]

theorem Part.mixerClose_sizes (s : Seat) (ch lane : Nat) (live : Bool) (p : Part) :
    (p.mixerClose s ch lane live).mixer.sizes = p.mixer.sizes := by
  unfold Part.mixerClose
  split
  · rfl
  · rw [Part.recountChain_sizes, Part.recountSeat_sizes, Part.modMixer_mixer, Mixer.free_sizes]

theorem Part.closeMic_sizes (s : Seat) (cause : Option CloseCause) (p : Part) :
    (p.closeMic s cause).mixer.sizes = p.mixer.sizes := by
  unfold Part.closeMic
  split
  · rw [Part.closeWith_mixer, Part.mixerClose_sizes]
    simp [Part.delisted]
  · rfl

theorem Part.closeSeats_sizes (seats : List Seat) (cause : Option CloseCause) (p : Part) :
    (p.closeSeats seats cause).mixer.sizes = p.mixer.sizes := by
  unfold Part.closeSeats
  induction seats generalizing p with
  | nil => rfl
  | cons s seats ih => rw [List.foldl_cons, ih, Part.closeMic_sizes]

/-! ### The floor and its seats at a closing (R11, R70, R84) -/

section
variable (p : Part)

theorem Part.floorSessionClose_floor :
    p.floorSessionClose.floor =
      { p.floor with speakers := [], queue := [], held := [], onsets := p.floor.onsets.map fun _ => 0 } := by
  have silent : p.floor.speakers.filter (fun e => e.seat ∉ p.floor.speakerSeats) = [] :=
    List.filter_eq_nil_iff.2 fun e m => by
      have mem : e.seat ∈ p.floor.speakerSeats := List.mem_map_of_mem m
      simpa using mem
  simp only [Part.floorSessionClose, Part.deriveSeats_frame, Part.modFloor_floor, Part.closeSeats_floor, silent]

theorem Part.floorSessionClose_sizes : p.floorSessionClose.mixer.sizes = p.mixer.sizes := by
  rw [← Part.closeSeats_sizes p.floor.speakerSeats (some .sessionEnd) p]
  simp [Part.floorSessionClose]

theorem FloorWork.floorSessionClose {P : Part → Prop} (w : FloorWork P) {p : Part} (h : P p) : P p.floorSessionClose := by
  unfold Part.floorSessionClose
  exact w.deriveSeats (w.modFloor rfl (w.closeSeats h))

theorem FloorWork.clearPriority {P : Part → Prop} (w : FloorWork P) {p : Part} (h : P p) : P p.clearPriority := by
  unfold Part.clearPriority
  have cleared := w.modFloor (f := fun f => { f with stack := [], holders := [] }) rfl h
  dsimp only
  split
  · exact w.deriveSeats cleared
  · exact w.deriveSeats (w.notifyPriority cleared)

theorem Part.endFloorEvent_floor (before : List QueueEntry) :
    ∃ placed, (p.endFloorEvent before).floor = { p.floor with headPlaced := placed } := by
  unfold Part.endFloorEvent
  split
  · exact ⟨false, rfl⟩
  · exact ⟨p.floor.headPlaced, rfl⟩

theorem Part.clearPriority_floor : p.clearPriority.floor = { p.floor with stack := [], holders := [] } := by
  unfold Part.clearPriority
  dsimp only
  split <;> simp

end

/-- Nothing advances without a session. -/
theorem Part.autoAdvance_idle {p : Part} (idle : p.sched.session = none) : p.autoAdvance = p :=
  if_neg (by simp [Part.isOpen, idle])

/-- A seat record with the standing of a closed session. -/
def SeatRec.away (r : SeatRec) : SeatRec := { r with standing := .out }

theorem Part.closeStandings_standing (p : Part) (x : Seat) : (p.closeStandings.seat x).standing = .out := by
  unfold Part.closeStandings
  rw [Part.standing_of_frame (Part.deriveAll_sameFrame _)]
  exact congrArg SeatRec.standing (List.getD_map p.seats SeatRec.reset SeatRec.away)

/-! ### The mixer at a closing (R120) -/

/-- The channels of a mixer made FREE one after another. -/
theorem clearAll_getElem? {α : Type} (l : List Nat) (cs : List (Option α)) (i : Nat) :
    (l.foldl (fun k ch => k.set ch none) cs)[i]? = if i ∈ l then cs[i]?.map fun _ => none else cs[i]? := by
  induction l generalizing cs with
  | nil => simp
  | cons ch l ih =>
    rw [List.foldl_cons, ih, List.getElem?_set']
    by_cases here : ch = i
    · subst here
      simp [Function.const_def]
    · simp [here, Ne.symm here]

theorem clearAll_none {α : Type} {n : Nat} {cs : List (Option α)} (len : cs.length = n) :
    ∀ c ∈ (List.range n).foldl (fun k ch => k.set ch none) cs, c = none := by
  intro c mem
  obtain ⟨i, at_i⟩ := List.getElem?_of_mem mem
  rw [clearAll_getElem?] at at_i
  split at at_i
  · obtain ⟨-, -, same⟩ := Option.map_eq_some_iff.1 at_i
    exact same.symm
  · rename_i beyond
    have inside := (List.getElem?_eq_some_iff.1 at_i).1
    exact absurd (List.mem_range.2 (len ▸ inside)) beyond

/-- Every channel of a list is made FREE. -/
def Part.freeAll (l : List Nat) (p : Part) : Part := l.foldl (fun q ch => q.modMixer (Mixer.free ch 0 false)) p

theorem Part.freeAll_mixer (l : List Nat) (p : Part) :
    (p.freeAll l).mixer.channels = l.foldl (fun k ch => k.set ch none) p.mixer.channels ∧
      (p.freeAll l).mixer.sizes = p.mixer.sizes := by
  unfold Part.freeAll
  induction l generalizing p with
  | nil => exact ⟨rfl, rfl⟩
  | cons ch l ih =>
    obtain ⟨channels, sizes⟩ := ih (p.modMixer (Mixer.free ch 0 false))
    rw [List.foldl_cons, List.foldl_cons, channels, sizes, Part.modMixer_mixer, Mixer.free_channels, Mixer.free_sizes]
    exact ⟨rfl, rfl⟩

theorem Part.freeAll_sameFrame (l : List Nat) (p : Part) : (p.freeAll l).floorFrame = p.floorFrame :=
  have w := FloorWork.ofFrame p
  w.foldl (fun _ _ h => w.modMixer (Mixer.free_unheard _ _ _ _) h) l rfl

section
variable {m : Mixer} (quiet : ∀ c ∈ m.channels, c = none) (x : Seat)
include quiet

theorem Mixer.duckCount_quiet : m.duckCount x = 0 := by
  unfold Mixer.duckCount
  rw [List.length_eq_zero_iff, List.filter_eq_nil_iff]
  intro c mem
  simp [quiet c mem]

theorem Mixer.loudNew_quiet : m.loudNew x = .normal := by
  have closed : m.seatOpen x = false := List.any_eq_false.2 fun c mem => by simp [quiet c mem]
  unfold Mixer.loudNew
  rw [closed, Mixer.duckCount_quiet quiet]
  rfl

end

theorem Part.recounted_channels {p : Part} (quiet : ∀ c ∈ p.mixer.channels, c = none) :
    ∀ c ∈ ((p.recountChain .A).recountChain .B).mixer.channels, c = none := by
  rw [(Part.recountChain_channels _ _).1, (Part.recountChain_channels _ _).1]
  exact quiet

/-- A recount of both chains with no OPEN channel. -/
theorem Part.recounted_quiet {p : Part} (quiet : ∀ c ∈ p.mixer.channels, c = none) (hd : p.mixer.ducks.length = 64)
    (hl : p.mixer.loud.length = 64) :
    (∀ n ∈ ((p.recountChain .A).recountChain .B).mixer.ducks, n = 0) ∧
      ∀ l ∈ ((p.recountChain .A).recountChain .B).mixer.loud, l = .normal := by
  obtain ⟨-, hdA, hlA, ducksA, loudA, -⟩ := Part.recountChain_spec .A p hd hl
  obtain ⟨-, hdB, hlB, ducksB, loudB, -⟩ := Part.recountChain_spec .B (p.recountChain .A) hdA hlA
  obtain ⟨channels, -⟩ := Part.recountChain_channels .A p
  have quietA : ∀ c ∈ (p.recountChain .A).mixer.channels, c = none := by
    rw [channels]
    exact quiet
  have either (y : Seat) : chainOf y = .A ∨ chainOf y = .B := by cases chainOf y <;> simp
  refine ⟨fun n mem => ?_, fun l mem => ?_⟩
  · obtain ⟨i, at_i⟩ := List.getElem?_of_mem mem
    have inside : i < 64 := hdB ▸ (List.getElem?_eq_some_iff.1 at_i).1
    have count := ducksB ⟨i, inside⟩
    rw [List.getD_eq_getElem?_getD, at_i, Mixer.duckCount_quiet quietA, ducksA, Mixer.duckCount_quiet quiet] at count
    rcases either ⟨i, inside⟩ with chain | chain <;> simpa [chain] using count
  · obtain ⟨i, at_i⟩ := List.getElem?_of_mem mem
    have inside : i < 64 := hlB ▸ (List.getElem?_eq_some_iff.1 at_i).1
    have state := loudB ⟨i, inside⟩
    rw [List.getD_eq_getElem?_getD, at_i, Mixer.loudNew_quiet quietA, loudA, Mixer.loudNew_quiet quiet] at state
    rcases either ⟨i, inside⟩ with chain | chain <;> simpa [chain] using state

/-- The last-mic holder and the forced record output are cleared. -/
def Part.unheld (p : Part) : Part := p.modMixer fun m => { m with holder := none, recordForced := false }

theorem Part.unheld_mixer (p : Part) : p.unheld.mixer = { p.mixer with holder := none, recordForced := false } := rfl

theorem Part.unheld_sizes (p : Part) : p.unheld.mixer.sizes = p.mixer.sizes := rfl

/-- The mixer of a closing, before its seats are counted again. -/
def Part.mixerCleared (p : Part) : Part := (p.freeAll (List.range 12)).unheld

theorem Part.mixerSessionClose_eq (p : Part) :
    p.mixerSessionClose = (p.mixerCleared.recountChain .A).recountChain .B := rfl

section
variable {p : Part} (sizes : p.mixer.sizes = (12, 64, 64))
include sizes

theorem Part.mixerCleared_quiet : ∀ c ∈ p.mixerCleared.mixer.channels, c = none := by
  obtain ⟨channels, -⟩ := p.freeAll_mixer (List.range 12)
  rw [Part.mixerCleared, Part.unheld_mixer]
  dsimp only
  rw [channels]
  obtain ⟨len, -, -⟩ := Mixer.sizes_iff.1 sizes
  exact clearAll_none (n := 12) len

theorem Part.mixerSessionClose_quiet :
    (∀ ch ∈ p.mixerSessionClose.mixer.channels, ch = none) ∧ (∀ n ∈ p.mixerSessionClose.mixer.ducks, n = 0) ∧
      ∀ l ∈ p.mixerSessionClose.mixer.loud, l = .normal := by
  obtain ⟨-, freed⟩ := p.freeAll_mixer (List.range 12)
  have freed : p.mixerCleared.mixer.sizes = (12, 64, 64) := by rw [Part.mixerCleared, Part.unheld_sizes, freed, sizes]
  have quiet := Part.mixerCleared_quiet sizes
  obtain ⟨-, ducks, loud⟩ := Mixer.sizes_iff.1 freed
  rw [Part.mixerSessionClose_eq]
  exact ⟨Part.recounted_channels quiet, Part.recounted_quiet quiet ducks loud⟩

end

/-- What the closing clears and what it keeps of the mixer. -/
theorem Part.mixerSessionClose_keeps (p : Part) :
    p.mixerSessionClose.mixer.holder = none ∧ p.mixerSessionClose.mixer.recordForced = false ∧
      p.mixerSessionClose.mixer.params = p.mixer.params ∧ p.mixerSessionClose.mixer.mute = p.mixer.mute ∧
      p.mixerSessionClose.mixer.clip = p.mixer.clip := by
  have recounted : p.mixerSessionClose.floorFrame = p.mixerCleared.floorFrame :=
    (Part.recountChain_sameFrame .B _).trans (Part.recountChain_sameFrame .A _)
  obtain ⟨params, mute, forced, clip⟩ := Part.mixer_of_frame recounted
  rw [Part.mixerCleared, Part.unheld_mixer] at params mute forced clip
  dsimp only at params mute forced clip
  obtain ⟨paramsFreed, muteFreed, -, clipFreed⟩ := Part.mixer_of_frame (p.freeAll_sameFrame (List.range 12))
  refine ⟨?_, forced, params.trans paramsFreed, mute.trans muteFreed, clip.trans clipFreed⟩
  rw [Part.mixerSessionClose_eq, (Part.recountChain_channels _ _).2, (Part.recountChain_channels _ _).2,
    Part.mixerCleared, Part.unheld_mixer]

/-! ### The director at a closing (R136) -/

theorem Part.directorSessionClose_director (p : Part) :
    p.directorSessionClose.director =
      { p.director with active := none, aimed := none, follow := .wide, candidate := none, hold := 0, idle := 0 } := by
  unfold Part.directorSessionClose
  dsimp only
  split
  · simp [Part.becomeNone, Part.setActive_director, Part.setFollow_director, Part.dropRecall, Director.clearCandidate]
  · rename_i nobody
    have nobody : p.director.active = none := by simpa using nobody
    simp [Part.setFollow_director, Part.dropRecall, Director.clearCandidate, nobody]

/-! ### The screens at a closing (R146) -/

/-- The grace timers, the plan, the privacy and the overrides are cleared. -/
def Screens.cleared (v : Screens) : Screens :=
  { v.clearOverrides with grace1 := none, grace2 := none, plan := 0, confidential := false }

/-- The screens of a closing, before they are computed again. -/
def Part.screensCleared (p : Part) : Part := ((p.closeShare .one).closeShare .two).modScreens Screens.cleared

theorem Part.screensCleared_screens (p : Part) :
    p.screensCleared.screens = ((p.closeShare .one).closeShare .two).screens.cleared := rfl

theorem Part.closeShare_slots (p : Part) :
    (p.closeShare .one).screens.slot1 = none ∧ (p.closeShare .two).screens.slot2 = none ∧
      (p.closeShare .two).screens.slot1 = p.screens.slot1 := by
  refine ⟨?_, ?_, ?_⟩ <;> unfold Part.closeShare <;> split <;> rename_i h
  · exact h
  · rfl
  · exact h
  · rfl
  · rfl
  · rfl

/-- The bus of each of these slots is cleared. -/
def Part.clearBuses (l : List Slot) (p : Part) : Part := l.foldl (fun q n => q.placeRecord (.shareBus n none)) p

theorem Part.clearBuses_screens (l : List Slot) (p : Part) :
    (p.clearBuses l).screens = { p.screens with queue := (p.clearBuses l).screens.queue } := by
  unfold Part.clearBuses
  induction l generalizing p with
  | nil => rfl
  | cons n l ih =>
    rw [List.foldl_cons, ih]
    rfl

theorem Part.screensSessionClose_eq (p : Part) :
    p.screensSessionClose =
      p.screensCleared.recomputeScreens.clearBuses ([Slot.one, Slot.two].filter fun n => (p.screens.slot n).isSome) := rfl

theorem Part.closeShares_slots (p : Part) :
    ((p.closeShare .one).closeShare .two).screens.slot1 = none ∧ ((p.closeShare .one).closeShare .two).screens.slot2 = none := by
  obtain ⟨slot1, -, -⟩ := p.closeShare_slots
  obtain ⟨-, slot2, kept⟩ := (p.closeShare .one).closeShare_slots
  exact ⟨kept.trans slot1, slot2⟩

theorem Part.screensCleared_override (p : Part) : ∀ screen ∈ p.screensCleared.screens.screens, screen.override = none := by
  rw [Part.screensCleared_screens]
  exact fun _ => Screens.clearOverrides_override

theorem Part.screensSessionClose_override (p : Part) :
    ∀ screen ∈ p.screensSessionClose.screens.screens, screen.override = none := by
  rw [p.screensSessionClose_eq, Part.clearBuses_screens]
  dsimp only
  exact Part.recomputeScreens_override p.screensCleared_override

/-- A closing leaves the shares, grace timers, plan and privacy cleared. -/
theorem Part.screensSessionClose_clear (p : Part) :
    p.screensSessionClose.screens.slot1 = none ∧ p.screensSessionClose.screens.slot2 = none ∧
      p.screensSessionClose.screens.grace1 = none ∧ p.screensSessionClose.screens.grace2 = none ∧
      p.screensSessionClose.screens.plan = 0 ∧ p.screensSessionClose.screens.confidential = false := by
  obtain ⟨slot1, slot2⟩ := p.closeShares_slots
  rw [p.screensSessionClose_eq, Part.clearBuses_screens, Part.recomputeScreens_screens, Part.screensCleared_screens]
  exact ⟨slot1, slot2, rfl, rfl, rfl, rfl⟩

/-! ### The steps of a closing -/

section
variable (cause : SessionCause) (d : Session) (p : Part)

/-- A closing up to the floor and priority. -/
def Part.unseated : Part := ((p.emptySession d cause).closeStandings.floorEvent Part.floorSessionClose).clearPriority

theorem Part.closeSession_eq (session : p.sched.session = some d) :
    p.closeSession cause =
      (((((p.unseated cause d).mixerSessionClose).directorSessionClose).screensSessionClose).pendBroadcast .A).pendBroadcast .B := by
  unfold Part.closeSession
  rw [session]
  rfl

theorem Part.unseated_sameFrame :
    (p.unseated cause d).floorFrame = (p.emptySession d cause).closeStandings.floorFrame := by
  have w := FloorWork.ofFrame (p.emptySession d cause).closeStandings
  exact w.clearPriority (w.floorEvent (fun _ h => w.floorSessionClose h) rfl)

/-- The floor event of a closing is its own work: nothing advances. -/
theorem Part.unseated_event :
    (p.unseated cause d) =
      ((p.emptySession d cause).closeStandings.floorSessionClose.endFloorEvent
        (p.emptySession d cause).closeStandings.floor.queue).clearPriority := by
  unfold Part.unseated Part.floorEvent
  rw [Part.autoAdvance_idle]
  simp [Part.emptySession_sched]

theorem Part.unseated_floor :
    ∃ placed, (p.unseated cause d).floor =
      { p.floor with
        speakers := [], queue := [], held := [], stack := [], holders := [], onsets := p.floor.onsets.map fun _ => 0
        headPlaced := placed } := by
  rw [Part.unseated_event, Part.clearPriority_floor]
  obtain ⟨placed, floor⟩ := Part.endFloorEvent_floor (p.emptySession d cause).closeStandings.floorSessionClose
    (p.emptySession d cause).closeStandings.floor.queue
  refine ⟨placed, ?_⟩
  rw [floor, Part.floorSessionClose_floor]
  simp

theorem Part.unseated_sizes : (p.unseated cause d).mixer.sizes = p.mixer.sizes := by
  rw [Part.unseated_event]
  simp [Part.floorSessionClose_sizes]

theorem Part.unseated_mixer :
    (p.unseated cause d).mixer.params = p.mixer.params ∧ (p.unseated cause d).mixer.mute = p.mixer.mute ∧
      (p.unseated cause d).mixer.clip = p.mixer.clip := by
  obtain ⟨params, mute, -, clip⟩ := Part.mixer_of_frame (p.unseated_sameFrame cause d)
  simp [params, mute, clip]

theorem Part.unseated_standing (x : Seat) : ((p.unseated cause d).seat x).standing = .out :=
  (Part.standing_of_frame (p.unseated_sameFrame cause d) x).trans (Part.closeStandings_standing _ x)

/-- What a closing queues after SESSION_CLOSED. -/
theorem Part.closeSession_later (session : p.sched.session = some d) :
    ∃ later, (p.closeSession cause).link =
      (p.link.notify (.sessionClosed d.bookingId cause d.openedAt p.sched.clock (attendanceList d.attendance))).notifyAll later := by
  have work : Work (p.emptySession d cause) (p.closeSession cause) := by
    rw [p.closeSession_eq cause d session]
    exact Work.pendBroadcast (Work.pendBroadcast (Work.screensSessionClose (Work.directorSessionClose (Work.mixerSessionClose
      (Work.clearPriority (Work.floorEvent (fun _ k => Work.floorSessionClose k) (Work.closeStandings (.refl _))))))))
  exact work.notes

end

/-- Settles O30, block by block. -/
theorem sessionCloses : Obligations.SessionCloses := by
  intro p cause d session channels ducks loud q
  have steps := p.closeSession_eq cause d session
  have sched : q.sched = _ := Part.closeSession_sched session cause
  have seats : q.seats = (p.unseated cause d).seats := by simp [q, steps]
  have floor : q.floor = (p.unseated cause d).floor := by simp [q, steps]
  have mixer : q.mixer = (p.unseated cause d).mixerSessionClose.mixer := by simp [q, steps]
  have director : q.director = (p.unseated cause d).mixerSessionClose.directorSessionClose.director := by simp [q, steps]
  have screens : q.screens = (p.unseated cause d).mixerSessionClose.directorSessionClose.screensSessionClose.screens := by
    simp [q, steps]
  have sizes : (p.unseated cause d).mixer.sizes = (12, 64, 64) := by
    rw [Part.unseated_sizes, Mixer.sizes, channels, ducks, loud]
  obtain ⟨placed, unseated⟩ := p.unseated_floor cause d
  obtain ⟨quiet, counts, speakers⟩ := Part.mixerSessionClose_quiet sizes
  obtain ⟨holder, forced, params, mute, clip⟩ := (p.unseated cause d).mixerSessionClose_keeps
  obtain ⟨paramsKept, muteKept, clipKept⟩ := p.unseated_mixer cause d
  obtain ⟨slot1, slot2, grace1, grace2, plan, confidential⟩ :=
    (p.unseated cause d).mixerSessionClose.directorSessionClose.screensSessionClose_clear
  have overrides := (p.unseated cause d).mixerSessionClose.directorSessionClose.screensSessionClose_override
  rw [sched, floor, unseated, mixer, director, Part.directorSessionClose_director, screens]
  refine ⟨rfl, rfl, rfl, rfl, fun x => ?_, rfl, rfl, rfl, rfl, rfl, fun n mem => ?_, rfl, rfl, rfl, quiet, holder, forced, counts,
    speakers, params.trans paramsKept, mute.trans muteKept, clip.trans clipKept, rfl, rfl, rfl, rfl, rfl, rfl, slot1, slot2, grace1,
    grace2, plan, confidential, overrides, fun c => Part.closeSession_broadcast cause c session,
    p.closeSession_later cause d session⟩
  · rw [Part.seat_congr seats, Part.unseated_standing]
  · obtain ⟨-, -, zero⟩ := List.mem_map.1 mem
    exact zero.symm

end Sys2Proof.Machine
end

section
/-!
PROOFS. Every step keeps every block within its bounds: a reset gives values within them, every request does so through its owning
block, and every event through the work that it takes.
-/
namespace Sys2Proof.Machine

variable {p : Part} {s : State}

/-! ### Device reset (R199, R200) -/

theorem Link.reset_safe (cause : ResetCause) (straps : BitVec 2) : (Link.reset cause straps).Safe where
  rx := trivial
  buffer := Nat.zero_le _
  notices := by simp [Link.reset, Config.noticeQueueSize]
  lost := Nat.zero_le _
  started := by simp [Link.reset, Config.allNotices]
  kinds := by simp [Link.reset, Config.allNotices]
  stats := by simp [Link.reset, Stats.reset, Stats.counters]
  highWater := by simp [Link.reset, Config.noticeQueueSize]

theorem SeatRec.reset_safe : SeatRec.reset.Safe := by
  constructor <;> simp [SeatRec.reset]

theorem Scheduler.reset_safe : Scheduler.reset.Safe := by
  constructor <;> simp [Scheduler.reset]

theorem Floor.reset_safe : Floor.reset.Safe := by
  constructor <;> simp [Floor.reset, Floor.saved]

theorem Mixer.reset_safe : Mixer.reset.Safe := by
  constructor <;> simp [Mixer.reset, Mixer.totalShare]

/-- The records that wait at a reset have ten different targets (R153, R154). -/
theorem Screens.reset_safe : Screens.reset.Safe := by
  refine ⟨?_, ?_, by decide⟩ <;> simp [Screens.reset]

theorem ChainCtl.reset_safe : ChainCtl.reset.Safe := by
  constructor <;> simp [ChainCtl.reset]

theorem Part.reset_safe (cause : ResetCause) (straps : BitVec 2) : (Part.reset cause straps).AllSafe where
  link := Link.reset_safe cause straps
  floor := Floor.reset_safe
  blocks :=
    { seatCount := List.length_replicate
      seats := fun _ m => List.eq_of_mem_replicate m ▸ SeatRec.reset_safe
      zones := List.length_replicate
      sched := Scheduler.reset_safe
      mixer := Mixer.reset_safe
      director := ⟨List.length_replicate⟩
      screens := Screens.reset_safe
      chainA := ChainCtl.reset_safe
      chainB := ChainCtl.reset_safe }

theorem Part.beginReset_safe (cause : ResetCause) (p : Part) : (p.beginReset cause).AllSafe := by
  have reset := Part.reset_safe cause p.link.baud
  exact ⟨{ reset.link with notices := Nat.zero_le _, highWater := Nat.zero_le _ }, reset.floor, { reset.blocks with }⟩

theorem Part.AllSafe.pinReset {becomesPin : Bool} (h : p.AllSafe) : (p.pinReset becomesPin).AllSafe := by
  unfold Part.pinReset
  (repeat' split)
  · exact Part.beginReset_safe .pin p
  · exact h
  · exact h
  · exact Part.beginReset_safe .pin p
  · exact h

theorem Part.AllSafe.endReset {straps : BitVec 2} (h : p.AllSafe) : (Part.endReset straps p).AllSafe := by
  unfold Part.endReset
  split
  · exact h
  · exact Part.reset_safe _ straps

/-! ### Events that the laws name no work of a block for -/

theorem Part.AllSafe.frameSent (h : p.AllSafe) : p.frameSent.AllSafe := by
  unfold Part.frameSent
  (repeat' split)
  · exact Part.beginReset_safe .request _
  · exact h.modLink (Link.replySent_safe h.link)
  · exact h.modLink (Link.noticeSent_safe h.link)
  · exact h

theorem Part.AllSafe.takeWaiting {x : Seat} {button : Button} (h : p.AllSafe) : (Part.takeWaiting x button p).AllSafe := by
  unfold Part.takeWaiting
  (repeat' split)
  · exact Part.AllSafe.takePress (h.requeue rfl rfl fun k => { k with })
  · exact h
  · exact h

theorem Part.AllSafe.chooseNext {c : Chain} (h : p.AllSafe) : (p.chooseNext c).AllSafe :=
  h.work (Work.chooseNext (.refl p)) (h.floor.of_eq (by simp))

theorem Part.AllSafe.pollFallsDue {x : Seat} (h : p.AllSafe) : (Part.pollFallsDue x p).AllSafe := by
  unfold Part.pollFallsDue
  split
  · exact h.chooseNext
  · exact h

theorem Part.AllSafe.broadcastSent {c : Chain} (h : p.AllSafe) : (p.modChain c ChainCtl.broadcastSent).AllSafe :=
  h.work (Work.modChain (fun _ k => k.broadcastSent) (.refl p)) (h.floor.of_eq (by simp))

theorem Part.AllSafe.recordSent (h : p.AllSafe) : (p.modScreens fun v => { v with sending := none }).AllSafe :=
  h.work (Work.modScreens (fun k => { k with }) (.refl p)) h.floor

/-! ### The effect of one command -/

/-- An outcome whose state, when it has one, is safe. -/
def Answered.Safe (o : Host.Outcome State Fault Refusal) : Prop := ∀ t, o = .next t → t.Safe

theorem next_safe {f : Part → Part} {pending : List Instr} {draws : Nat} (h : (f s.part).AllSafe) :
    Answered.Safe (.next { part := f s.part, pending, draws }) := by
  rintro _ ⟨⟩
  exact ⟨h.link, h.floor, h.blocks⟩

/-- A command whose effect on the part keeps the invariant. -/
theorem onPart_safe {f : Part → Part} (hf : ∀ {q : Part}, q.AllSafe → (f q).AllSafe) (h : s.part.AllSafe) :
    Answered.Safe (onPart f s) :=
  next_safe (hf h)

/-- A command of a running part, taken once nothing is due any more. -/
theorem onRunning_safe {f : Part → Part} (hf : ∀ {q : Part}, q.AllSafe → (f q).AllSafe) (h : s.part.AllSafe) :
    Answered.Safe (onPart (Part.whenRunning f) s) :=
  onPart_safe (Part.AllSafe.whenRunning fun _ => hf) h

/-- A request whose owning block keeps the invariant. -/
theorem onRequest_safe {f : Frame} {owner : List Byte → Part → Answer}
    (ho : ∀ {q : Part} (payload : List Byte), q.AllSafe → (owner payload q).Safe) (h : s.part.AllSafe) :
    Answered.Safe (onPart (Part.request f owner) s) :=
  onPart_safe (Part.AllSafe.request fun payload _ => ho payload) h

/-! ### Requests that change nothing at their owning block -/

theorem answerPing_safe (payload : List Byte) (h : p.AllSafe) : (answerPing payload p).Safe := by
  unfold answerPing
  split
  · exact h
  · exact h

theorem answerGetInfo_safe (payload : List Byte) (h : p.AllSafe) : (answerGetInfo payload p).Safe :=
  readThen_safe h fun _ _ => h

theorem answerDeviceReset_safe (payload : List Byte) (h : p.AllSafe) : (answerDeviceReset payload p).Safe :=
  readThen_safe h fun _ _ => h

theorem answerGetClock_safe (payload : List Byte) (h : p.AllSafe) : (answerGetClock payload p).Safe :=
  readThen_safe h fun _ _ => h

theorem answerListBookings_safe (payload : List Byte) (h : p.AllSafe) : (answerListBookings payload p).Safe :=
  readThen_safe h fun _ _ => checkThen_safe h fun _ _ => h

theorem answerGetSession_safe (payload : List Byte) (h : p.AllSafe) : (answerGetSession payload p).Safe := by
  refine readThen_safe h fun _ _ => ?_
  dsimp only
  split
  · exact h
  · exact h

theorem answerWake_safe (payload : List Byte) (h : p.AllSafe) : (answerWake payload p).Safe :=
  readThen_safe h fun _ _ => h

theorem answerGetSeat_safe (payload : List Byte) (h : p.AllSafe) : (answerGetSeat payload p).Safe :=
  readThen_safe h fun _ _ => checkThen_safe h fun _ _ => h

theorem answerGetFloor_safe (payload : List Byte) (h : p.AllSafe) : (answerGetFloor payload p).Safe :=
  readThen_safe h fun _ _ => h

theorem answerGetScreens_safe (payload : List Byte) (h : p.AllSafe) : (answerGetScreens payload p).Safe :=
  readThen_safe h fun _ _ => checkThen_safe h fun _ _ => h

theorem unknownKindRequest_safe {kind tag : Byte} {payload : List Byte} (h : s.part.AllSafe) :
    Answered.Safe (execUnknownKindRequest kind tag payload s) := by
  unfold execUnknownKindRequest
  split
  · exact onRunning_safe id h
  · exact onRequest_safe (fun _ => id) h

/-! ### Every command -/

theorem exec_safe (c : Instr) (h : s.part.AllSafe) : Answered.Safe (exec c s) := by
  cases c with
  | ping _ _ => exact onRequest_safe answerPing_safe h
  | getInfo _ _ => exact onRequest_safe answerGetInfo_safe h
  | getStats _ _ => exact onRequest_safe answerGetStats_safe h
  | deviceReset _ _ => exact onRequest_safe answerDeviceReset_safe h
  | setNotices _ _ => exact onRequest_safe answerSetNotices_safe h
  | setClock _ _ => exact onRequest_safe answerSetClock_safe h
  | getClock _ _ => exact onRequest_safe answerGetClock_safe h
  | addBooking _ _ => exact onRequest_safe answerAddBooking_safe h
  | removeBooking _ _ => exact onRequest_safe answerRemoveBooking_safe h
  | extendBooking _ _ => exact onRequest_safe answerExtendBooking_safe h
  | listBookings _ _ => exact onRequest_safe answerListBookings_safe h
  | getSession _ _ => exact onRequest_safe answerGetSession_safe h
  | checkIn _ _ => exact onRequest_safe answerCheckIn_safe h
  | endSession _ _ => exact onRequest_safe answerEndSession_safe h
  | setRoomDefaults _ _ => exact onRequest_safe answerSetRoomDefaults_safe h
  | setStandby _ _ => exact onRequest_safe answerSetStandby_safe h
  | wake _ _ => exact onRequest_safe answerWake_safe h
  | setSeat _ _ => exact onRequest_safe answerSetSeat_safe h
  | getSeat _ _ => exact onRequest_safe answerGetSeat_safe h
  | setZone _ _ => exact onRequest_safe answerSetZone_safe h
  | setStanding _ _ => exact onRequest_safe answerSetStanding_safe h
  | setName _ _ => exact onRequest_safe answerSetName_safe h
  | grant _ _ => exact onRequest_safe answerGrant_safe h
  | close _ _ => exact onRequest_safe answerClose_safe h
  | enqueue _ _ => exact onRequest_safe answerEnqueue_safe h
  | dequeue _ _ => exact onRequest_safe answerDequeue_safe h
  | moveRequest _ _ => exact onRequest_safe answerMoveRequest_safe h
  | getFloor _ _ => exact onRequest_safe answerGetFloor_safe h
  | setFloor _ _ => exact onRequest_safe answerSetFloor_safe h
  | priorityTake _ _ => exact onRequest_safe answerPriorityTake_safe h
  | priorityRelease _ _ => exact onRequest_safe answerPriorityRelease_safe h
  | floorReset _ _ => exact onRequest_safe answerFloorReset_safe h
  | extendSpeech _ _ => exact onRequest_safe answerExtendSpeech_safe h
  | seatPress _ _ => exact onRequest_safe answerSeatPress_safe h
  | setMix _ _ => exact onRequest_safe answerSetMix_safe h
  | getMixStatus _ _ => exact onRequest_safe answerGetMixStatus_safe h
  | muteRoom _ _ => exact onRequest_safe answerMuteRoom_safe h
  | setCamera _ _ => exact onRequest_safe answerSetCamera_safe h
  | setScreenPlan _ _ => exact onRequest_safe answerSetScreenPlan_safe h
  | setScreen _ _ => exact onRequest_safe answerSetScreen_safe h
  | shareStart _ _ => exact onRequest_safe answerShareStart_safe h
  | shareStop _ _ => exact onRequest_safe answerShareStop_safe h
  | getScreens _ _ => exact onRequest_safe answerGetScreens_safe h
  | screenRefresh _ _ => exact onRequest_safe answerScreenRefresh_safe h
  | setChain _ _ => exact onRequest_safe answerSetChain_safe h
  | getChain _ _ => exact onRequest_safe answerGetChain_safe h
  | chainRestart _ _ => exact onRequest_safe answerChainRestart_safe h
  | unknownKindRequest _ _ _ => exact unknownKindRequest_safe h
  | rxCharacter _ _ => exact onRunning_safe (fun k => k.modLink (Link.receive_safe k.link _ _)) h
  | rxTimeout => exact onPart_safe .takeFirst h
  | transmitFrameStart => exact onRunning_safe (fun k => k.modLink (Link.transmit_safe k.link)) h
  | transmitFrameDone => exact onRunning_safe .frameSent h
  | powerOn => exact onPart_safe (fun _ => Part.beginReset_safe .powerOn _) h
  | resetNLow => exact next_safe h.pinReset
  | resetEnd _ => exact onPart_safe .endReset h
  | blockCompletion _ _ => exact onRunning_safe .completeBlock h
  | denialTimerExpiry _ => exact onPart_safe .takeFirst h
  | settleEnd => exact onPart_safe .takeFirst h
  | activeSpeakerSwitch => exact onPart_safe .takeFirst h
  | activeSpeakerIdle => exact onPart_safe .takeFirst h
  | secondTick => exact onPart_safe .secondTick h
  | minuteBoundary => exact onPart_safe .takeBoundary h
  | clockWrap => exact onPart_safe .takeBoundary h
  | speechExpiry _ => exact onPart_safe .takeJob h
  | voiceSilenceClose _ => exact onPart_safe .takeJob h
  | signalGraceExpiry _ => exact onPart_safe .takeJob h
  | standbyTimerExpiry => exact onPart_safe .takeJob h
  | pressEvent _ _ => exact onRunning_safe .takeWaiting h
  | exchangeChoice _ => exact onRunning_safe .chooseNext h
  | attemptResponse _ _ _ =>
    exact onRunning_safe (fun k => k.work (Work.attemptAnswered (.refl _)) (attemptAnswered_safe k.floor)) h
  | holdLimitTimeout _ =>
    exact onRunning_safe (fun k => k.work (Work.attemptFailed (.refl _)) (attemptFailed_safe k.floor)) h
  | broadcastDone _ => exact onRunning_safe .broadcastSent h
  | turnaroundEnd _ =>
    exact onRunning_safe (fun k => k.work (Work.turnaroundEnded (.refl _)) (k.floor.of_eq (by simp))) h
  | slowPollDue _ => exact onRunning_safe .pollFallsDue h
  | pairLock _ _ => exact onRunning_safe (fun k => k.work (Work.pairLocked (.refl _)) (pairLocked_safe k.floor)) h
  | trainingAttemptEnd _ => exact onPart_safe .takeFirst h
  | lossOfLock _ _ => exact onRunning_safe (fun k => k.work (Work.lockLost (.refl _)) (lockLost_safe k.floor)) h
  | screenLinkTransmitStart =>
    exact onRunning_safe (fun k => k.work (Work.modScreens Screens.Safe.beginRecord (.refl _)) k.floor) h
  | screenLinkTransmitDone => exact onRunning_safe .recordSent h

/-- Settles O60: an empty queue leaves the state, and any command keeps the invariant of its part. -/
theorem everyStepStaysSafe : Obligations.EveryStepStaysSafe := by
  intro s t safe stepped
  unfold step at stepped
  have whole : s.part.AllSafe := ⟨safe.link, safe.floor, safe.blocks⟩
  split at stepped
  · cases stepped
    exact safe
  · rename_i c rest _
    exact exec_safe (s := { s with pending := rest }) c whole t stepped

end Sys2Proof.Machine
end

section
/-!
PROOFS. Opening a microphone (R48, R49, R73, R102) and closing it (R50, R75, R103, R130, R134, R151, R170), block by block.
-/
namespace Sys2Proof.Machine

/-! ### Closing at the mixer (R103) -/

theorem Part.closeWith_channels (e : Speaker) (cause : Option CloseCause) (p : Part) :
    (p.closeWith e cause).mixer.channels = p.mixer.channels.set e.channel none ∧
    (p.mixer.channels.getD e.channel none ≠ none → (p.closeWith e cause).mixer.holder ≠ some e.channel) ∧
    (p.mixer.channels.getD e.channel none = none → (p.closeWith e cause).mixer = p.mixer) := by
  obtain ⟨channels, free, holder⟩ := Part.mixerClose_spec e.seat e.channel e.lane ((p.chain (chainOf e.seat)).laneLive e.lane)
    ((p.delisted e cause).chainClose e.seat e.lane)
  have same : ((p.delisted e cause).chainClose e.seat e.lane).mixer = p.mixer := by simp [Part.delisted]
  rw [same] at channels free holder
  rw [Part.closeWith_mixer]
  refine ⟨channels, fun taken => ?_, fun none => by rw [free none, same]⟩
  rw [holder taken]
  split
  · simp
  · assumption

/-- Settles O42: a close is `Part.closeWith` of the entry that the seat's microphone has, whose laws say what each block keeps. -/
theorem microphoneCloses : Obligations.MicrophoneCloses := by
  intro p x cause e found
  obtain rfl : e.seat = x := (Part.speaker?_some found).2
  dsimp only
  obtain ⟨channels, holder, free⟩ := p.closeWith_channels e cause
  obtain ⟨ns, told, link⟩ := p.closeWith_tells e cause
  have director := p.closeWith_director e cause
  rw [Part.closeMic_eq found]
  refine ⟨p.closeWith_eq e cause, p.closeWith_floor e cause, channels, holder, free, p.closeWith_lanes e cause, fun active => ?_,
    fun other candidate => ?_, fun other none => ?_, fun c => ?_, ⟨ns, told, link⟩, ?_⟩
  · rw [director, if_pos active]
  · rw [director, if_neg other, if_pos candidate]
  · rw [director, if_neg other, if_neg none]
  · rintro rfl enabled room
    rw [← Part.closeMic_eq found]
    exact Part.closeMic_notices found c enabled room
  · simp

/-! ### The lowest free lane and channel (R48) -/

theorem Part.freeLane_lowest {p : Part} {c : Chain} {lane : Nat} (h : p.freeLane c = some lane) :
    lane < (p.chain c).laneCount ∧ ∀ n < lane, ∃ e ∈ p.floor.speakers, chainOf e.seat = c ∧ e.lane = n := by
  obtain ⟨-, mem, lower⟩ := List.find?_range_eq_some.1 h
  exact ⟨List.mem_range.1 mem, fun n lt => by simpa [Part.laneHeld] using lower n lt⟩

theorem Part.freeChannel_lowest {p : Part} {channel : Nat} (h : p.freeChannel = some channel) :
    ∀ n < channel, ∃ e ∈ p.floor.speakers, e.channel = n := by
  obtain ⟨-, -, lower⟩ := List.find?_range_eq_some.1 h
  exact fun n lt => by simpa using lower n lt

/-! ### Opening (R49) -/

/-- The entry of an opening: the next grant number, and the grant's speech time or what a restore carries (R49, R80). -/
def Part.openingEntry (p : Part) (x : Seat) (kind : Kind) (source : Source) (duringFreeze : Bool)
    (restored : Option (Option Nat × Bool)) (lane channel : Nat) : Speaker :=
  let (time, warned) := restored.getD (p.floor.preset.grantTime kind, false)
  ⟨x, kind, p.floor.grantSeq + 1, channel, lane, time, warned, duringFreeze, source, 0⟩

theorem Part.openMic_eq {p : Part} {x : Seat} {lane channel : Nat} (hl : p.freeLane (chainOf x) = some lane)
    (hc : p.freeChannel = some channel) (kind : Kind) (source : Source) (duringFreeze : Bool)
    (restored : Option (Option Nat × Bool)) :
    p.openMic x kind source duringFreeze restored =
      p.openWith (p.openingEntry x kind source duringFreeze restored lane channel) := by
  unfold Part.openMic
  rw [hl, hc]
  rfl

/-- An opening makes the channel's record new, with gain 0 (R102). -/
theorem Part.openWith_channels (e : Speaker) (p : Part) :
    ∃ c, (p.openWith e).mixer.channels = p.mixer.channels.set e.channel (some c) ∧ c.seat = e.seat ∧ c.envelope = 0 ∧
      c.gain = 0 := by
  have opened (q : Part) :
      ∃ c, (q.mixerOpen e.seat e.channel e.kind).mixer.channels = q.mixer.channels.set e.channel (some c) ∧ c.seat = e.seat ∧
        c.envelope = 0 ∧ c.gain = 0 := by
    unfold Part.mixerOpen
    rw [(Part.recountChain_channels _ _).1, (Part.recountSeat_channels _ _).1]
    exact ⟨_, updateAt_const _ _ _, rfl, rfl, rfl⟩
  unfold Part.openWith
  dsimp only
  split <;> simpa using opened (((p.modFloor (Floor.opened e)).notify _).chainOpen e.seat e.lane)

/-- The part with the entry of an opening in its lists, and with MIC_OPENED queued (R49). -/
def Part.enlisted (e : Speaker) (p : Part) : Part :=
  (p.modFloor (Floor.opened e)).notify (.micOpened e.seat e.kind e.grantNo e.channel e.lane e.remaining e.source)

/-- After that the opening is work of the other blocks. -/
theorem Part.openWith_work (e : Speaker) (p : Part) : Work (p.enlisted e) (p.openWith e) := by
  have handed : Work (p.enlisted e)
      (((((p.enlisted e).chainOpen e.seat e.lane).mixerOpen e.seat e.channel e.kind).reexamine e.seat).derive e.seat) :=
    Work.derive (Work.reexamine (Work.mixerOpen (Work.chainOpen (.refl _))))
  unfold Part.openWith
  dsimp only
  split
  · exact Work.deriveQueued handed
  · exact handed

/-- An opening queues MIC_OPENED first (R49). -/
theorem Part.openWith_notices (e : Speaker) (p : Part) (enabled : p.link.mask.getLsbD 6 = true)
    (room : p.link.notices.length < 32) :
    ∃ more, (p.openWith e).link.notices =
      p.link.notices ++ ⟨.micOpened e.seat e.kind e.grantNo e.channel e.lane e.remaining e.source, p.link.inRequest⟩ :: more := by
  obtain ⟨ns, notes⟩ := (p.openWith_work e).notes
  obtain ⟨more, queued⟩ := Link.notifyAll_notices ns (p.enlisted e).link
  have first : (p.enlisted e).link.notices =
      p.link.notices ++ [⟨.micOpened e.seat e.kind e.grantNo e.channel e.lane e.remaining e.source, p.link.inRequest⟩] :=
    Link.notify_notices_enabled enabled room
  exact ⟨more, by rw [notes, queued, first, List.append_assoc]; rfl⟩

/-- The floor after an opening: the seat leaves the queue, the held presses and the frames (R49, R73). -/
theorem Part.openWith_lists (e : Speaker) (p : Part) :
    (p.openWith e).floor =
      { p.floor with
        speakers := p.floor.speakers ++ [e]
        queue := p.floor.queue.filter fun d => d.seat ≠ e.seat
        held := p.floor.held.filter fun d => d.seat ≠ e.seat
        stack := p.floor.stack.map fun r => { r with saved := r.saved.filter fun d => d.seat ≠ e.seat }
        onsets := p.floor.onsets.set e.seat.val 0
        grantSeq := e.grantNo } := by
  rw [Part.openWith_floor, ← updateAt_const]
  rfl

/-- Settles O41: an opening is `Part.openWith` of the entry with the lowest free lane and channel. -/
theorem microphoneOpens : Obligations.MicrophoneOpens := by
  intro p x kind source duringFreeze restored lane channel hl hc
  obtain ⟨laneLow, laneHeld⟩ := Part.freeLane_lowest hl
  obtain ⟨channelLow, channelFree⟩ := Part.freeChannel_free hc
  have time : (if kind = .delegate ∧ 0 < p.floor.preset.speechLimit then some p.floor.preset.speechLimit else none) =
      p.floor.preset.grantTime kind := by
    cases kind <;> simp [FloorPreset.grantTime]
  dsimp only
  rw [time, Part.openMic_eq hl hc]
  cases restored <;>
    exact ⟨Part.openWith_lists _ p, laneLow, channelLow, fun e m => ⟨channelFree e m, Part.freeLane_free hl e m⟩, laneHeld,
      Part.freeChannel_lowest hc, Part.openWith_channels _ p, Part.openWith_notices _ p, by simp⟩

end Sys2Proof.Machine
end

section
/-!
PROOFS. The floor requests CLOSE, ENQUEUE, DEQUEUE, MOVE_REQUEST and SET_FLOOR (R59 to R63): what each answers, line by line.
-/
namespace Sys2Proof.Machine

/-! ### Requests that name one seat -/

theorem seatInSession_badSeat {n : Nat} (gt : 63 < n) (h : n < 256) (p : Part) (work : Seat → Answer) :
    seatInSession (u8 n) p work = refuse .badArg p := by
  refine (readThen_ok (readByte_last h)).trans ?_
  rw [seat?_of_gt gt]
  rfl

theorem seatInSession_seat (x : Seat) (p : Part) (work : Seat → Answer) :
    seatInSession (seatBytes x) p work = if p.isOpen then work x else refuse .noSession p := by
  refine (readThen_ok (readByte_last (seat_lt x))).trans ?_
  rw [seat?_val]
  rfl

theorem seatInSession_idle {p : Part} (idle : p.isOpen = false) (x : Seat) (work : Seat → Answer) :
    seatInSession (seatBytes x) p work = refuse .noSession p := by
  rw [seatInSession_seat, idle]
  rfl

theorem seatInSession_open {p : Part} (isOpen : p.isOpen = true) (x : Seat) (work : Seat → Answer) :
    seatInSession (seatBytes x) p work = work x := by
  rw [seatInSession_seat, if_pos isOpen]

/-- An event of the floor depends on what its work makes of the part alone. -/
theorem Part.floorEvent_congr {p : Part} {work other : Part → Part} (h : work p = other p) :
    p.floorEvent work = p.floorEvent other := by
  unfold Part.floorEvent
  rw [h]

/-! ### CLOSE (R59) -/

section
variable {s : State} (ready : s.part.Ready) (tag : Byte)
include ready

theorem exec_close_refused {payload : List Byte} {status : Status}
    (e : answerClose payload s.part.taken = refuse status s.part.taken) :
    exec (.close tag payload) s = s.refuses 0xA1 tag status.code :=
  request_refuses (f := ⟨0x21, tag, payload⟩) ready e

theorem exec_close_speaking {x : Seat} (isOpen : s.part.taken.isOpen = true) (speaking : s.part.taken.speaking x = true) :
    exec (.close tag (seatBytes x)) s =
      s.accepts 0xA1 tag [] (s.part.taken.floorEvent fun q => q.closeMic x (some .controller)) :=
  request_accepts (f := ⟨0x21, tag, seatBytes x⟩) (owner := answerClose) ready
    ((seatInSession_open isOpen x _).trans (if_pos speaking))

end

/-- Settles O34, line by line; the close takes the entry off the speaker list alone. -/
theorem closeAnswered : Obligations.CloseAnswered := by
  refine fun s tag ready => ⟨fun n gt h => exec_close_refused ready tag (status := .badArg) (seatInSession_badSeat gt h _ _),
    fun x => ⟨fun idle => exec_close_refused ready tag (status := .noSession) (seatInSession_idle idle x _),
      fun isOpen silent => exec_close_refused ready tag (status := .notFound) ?_, exec_close_speaking ready tag, ?_, ?_⟩⟩
  · exact (seatInSession_open isOpen x _).trans (if_neg (ne_true_of_eq_false silent))
  · rw [Part.closeMic_floor]
  · rw [Part.closeMic_floor]

/-! ### ENQUEUE (R60) -/

/-- What ENQUEUE answers for a seat in a session. -/
theorem answerEnqueue_open {p : Part} (isOpen : p.isOpen = true) (x : Seat) :
    answerEnqueue (seatBytes x) p =
      if ¬((p.seat x).link = .present ∧ (p.seat x).standing = .delegate) then refuse .refused p
      else if p.speaking x = true ∨ p.isQueued x = true then refuse .already p
      else if 32 ≤ p.floor.queue.length then refuse .full p
      else ok [] (p.floorEvent fun q => q.appendSeat x .controller) := by
  refine (seatInSession_open isOpen x _).trans ?_
  simp [Floor.queueFull, or_iff_not_imp_left]

/-- Settles O35, line by line. -/
theorem enqueueAnswered : Obligations.EnqueueAnswered := by
  intro s tag ready
  have asked (payload : List Byte) :
      exec (.enqueue tag payload) s = onPart (Part.request ⟨0x22, tag, payload⟩ answerEnqueue) s := rfl
  simp only [asked]
  refine ⟨fun n gt h => request_refuses (status := .badArg) ready (seatInSession_badSeat gt h _ _), fun x =>
    ⟨fun idle => request_refuses (status := .noSession) ready (seatInSession_idle idle x _), fun isOpen no => ?_,
      fun isOpen may waits => ?_, fun isOpen may new full => ?_, fun isOpen may new room => ?_⟩⟩
  · exact request_refuses (status := .refused) ready ((answerEnqueue_open isOpen x).trans (if_pos no))
  · refine request_refuses (status := .already) ready ((answerEnqueue_open isOpen x).trans ?_)
    rw [if_neg (not_not_intro may), if_pos waits]
  · refine request_refuses (status := .full) ready ((answerEnqueue_open isOpen x).trans ?_)
    rw [if_neg (not_not_intro may), if_neg new, if_pos full]
  · refine request_accepts ready ((answerEnqueue_open isOpen x).trans ?_)
    rw [if_neg (not_not_intro may), if_neg new, if_neg (Nat.not_le.2 room)]
    rfl

/-! ### DEQUEUE (R61) -/

theorem Part.denial_of_frame {p q : Part} (h : q.floorFrame = p.floorFrame) (x : Seat) :
    (q.seat x).denial = (p.seat x).denial := by
  show (q.seat x).unlit.denial = (p.seat x).unlit.denial
  rw [Part.unlit_of_frame h x]

/-- An event of the floor whose work leaves the frame leaves the pending-denial flags. -/
theorem Part.floorEvent_denial {p : Part} {work : Part → Part}
    (frame : ∀ q : Part, q.floorFrame = p.floorFrame → (work q).floorFrame = p.floorFrame) (x : Seat) :
    ((p.floorEvent work).seat x).denial = (p.seat x).denial :=
  Part.denial_of_frame (FloorWork.floorEvent (.ofFrame p) frame rfl) x

theorem State.accepts_seat {s t : State} {kind tag : Byte} {fields : List Byte} {p : Part}
    (h : s.accepts kind tag fields p = .next t) (x : Seat) : t.part.seat x = p.seat x := by
  cases h
  rfl

theorem State.refuses_seat {s t : State} {kind tag status : Byte} (h : s.refuses kind tag status = .next t) (x : Seat) :
    t.part.seat x = s.part.seat x := by
  cases h
  rfl

section
variable {s : State} (ready : s.part.Ready) (tag : Byte) (x : Seat)
include ready

theorem exec_dequeue_refused {payload : List Byte} {status : Status}
    (e : answerDequeue payload s.part.taken = refuse status s.part.taken) :
    exec (.dequeue tag payload) s = s.refuses 0xA3 tag status.code :=
  request_refuses (f := ⟨0x23, tag, payload⟩) ready e

theorem exec_dequeue_idle (idle : s.part.taken.isOpen = false) :
    exec (.dequeue tag (seatBytes x)) s = s.refuses 0xA3 tag 0x08 :=
  exec_dequeue_refused ready tag (status := .noSession) (seatInSession_idle idle x _)

variable (isOpen : s.part.taken.isOpen = true)
include isOpen

theorem exec_dequeue_queued (queued : s.part.taken.isQueued x = true) :
    exec (.dequeue tag (seatBytes x)) s = s.accepts 0xA3 tag [] (s.part.taken.floorEvent fun q => q.withdraw x) :=
  request_accepts (f := ⟨0x23, tag, seatBytes x⟩) (owner := answerDequeue) ready
    ((seatInSession_open isOpen x _).trans (if_pos queued))

variable (unqueued : s.part.taken.isQueued x = false)
include unqueued

theorem exec_dequeue_held (held : s.part.taken.isHeldPress x = true) :
    exec (.dequeue tag (seatBytes x)) s = s.accepts 0xA3 tag [] (s.part.taken.floorEvent fun q => q.unhold x) :=
  request_accepts (f := ⟨0x23, tag, seatBytes x⟩) (owner := answerDequeue) ready
    ((seatInSession_open isOpen x _).trans ((if_neg (ne_true_of_eq_false unqueued)).trans (if_pos held)))

theorem exec_dequeue_notFound (released : s.part.taken.isHeldPress x = false) :
    exec (.dequeue tag (seatBytes x)) s = s.refuses 0xA3 tag 0x05 :=
  exec_dequeue_refused ready tag (status := .notFound) ((seatInSession_open isOpen x _).trans
    ((if_neg (ne_true_of_eq_false unqueued)).trans (if_neg (ne_true_of_eq_false released))))

end

/-- DEQUEUE sets no pending-denial flag, whatever it answers. -/
theorem exec_dequeue_denial {s t : State} (ready : s.part.Ready) (tag : Byte) (x y : Seat)
    (h : exec (.dequeue tag (seatBytes x)) s = .next t) : (t.part.seat y).denial = (s.part.seat y).denial := by
  cases isOpen : s.part.taken.isOpen
  case false =>
    rw [exec_dequeue_idle ready tag x isOpen] at h
    rw [State.refuses_seat h]
  cases queued : s.part.taken.isQueued x
  case true =>
    rw [exec_dequeue_queued ready tag x isOpen queued] at h
    rw [State.accepts_seat h]
    exact Part.floorEvent_denial (fun _ k => FloorWork.withdraw (.ofFrame _) k) y
  cases held : s.part.taken.isHeldPress x
  case false =>
    rw [exec_dequeue_notFound ready tag x isOpen queued held] at h
    rw [State.refuses_seat h]
  case true =>
    rw [exec_dequeue_held ready tag x isOpen queued held] at h
    rw [State.accepts_seat h]
    exact Part.floorEvent_denial (fun _ k => FloorWork.unhold (.ofFrame _) k) y

/-! ### MOVE_REQUEST (R62) -/

/-- What MOVE_REQUEST answers to a seat and a position in range. -/
theorem answerMoveRequest_written (p : Part) (x : Seat) {position : Nat} (low : 1 ≤ position) (high : position ≤ 255) :
    answerMoveRequest (seatBytes x ++ u8 position) p =
      if !p.isOpen then refuse .noSession p
      else if p.isQueued x then
        ok (u8 (min position p.floor.queue.length))
          (p.floorEvent fun q => (q.modFloor (Floor.move x position)).deriveQueued)
      else refuse .notFound p := by
  refine (readThen_ok (readTwo_written (seat_lt x) (by omega))).trans ?_
  simp only [seat?_val, within_of_mem (And.intro low high)]
  rfl

theorem answerMoveRequest_badValue (p : Part) {n position : Nat} (hn : n < 256) (hp : position < 256)
    (bad : 63 < n ∨ position = 0) : answerMoveRequest (u8 n ++ u8 position) p = refuse .badArg p := by
  refine (readThen_ok (readTwo_written hn hp)).trans ?_
  dsimp only
  rcases bad with gt | zero
  · rw [seat?_of_gt gt]
    rfl
  · rw [within_of_not_mem (show ¬(1 ≤ position ∧ position ≤ 255) by omega)]
    cases seat? n <;> rfl

theorem Floor.move_found {f : Floor} {x : Seat} {e : QueueEntry} (found : (f.queue.find? fun e => e.seat = x) = some e)
    (position : Nat) :
    f.move x position =
      let rest := f.queue.filter fun e => e.seat ≠ x
      { f with queue := rest.take (position - 1) ++ e :: rest.drop (position - 1) } := by
  unfold Floor.move
  rw [found]

/-- Settles O36: DEQUEUE by the list that holds the seat, MOVE_REQUEST by the entry that it finds. -/
theorem queueEditsAnswered : Obligations.QueueEditsAnswered := by
  intro s tag ready
  have asked (payload : List Byte) :
      exec (.moveRequest tag payload) s = onPart (Part.request ⟨0x24, tag, payload⟩ answerMoveRequest) s := rfl
  simp only [asked]
  refine ⟨fun n gt h => exec_dequeue_refused ready tag (status := .badArg) (seatInSession_badSeat gt h _ _),
    fun x => ⟨exec_dequeue_idle ready tag x, exec_dequeue_notFound ready tag x, exec_dequeue_queued ready tag x,
      exec_dequeue_held ready tag x, fun t y => exec_dequeue_denial ready tag x y⟩,
    fun n position hn hp bad => request_refuses (status := .badArg) ready (answerMoveRequest_badValue _ hn hp bad),
    fun x position low high => ⟨fun idle => ?_, fun isOpen unqueued => ?_, fun e isOpen found => ?_⟩⟩
  · refine request_refuses (status := .noSession) ready ((answerMoveRequest_written _ x low high).trans ?_)
    rw [idle]
    rfl
  · refine request_refuses (status := .notFound) ready ((answerMoveRequest_written _ x low high).trans ?_)
    rw [isOpen, unqueued]
    rfl
  · have queued : s.part.taken.isQueued x = true :=
      Part.isQueued_iff.2 ⟨e, List.mem_of_find?_eq_some found, by simpa using List.find?_some found⟩
    refine request_accepts ready ((answerMoveRequest_written _ x low high).trans ?_)
    rw [isOpen, if_neg (by simp), if_pos queued]
    refine congrArg (ok _) (Part.floorEvent_congr ?_)
    unfold Part.modFloor
    rw [Floor.move_found found]

/-! ### SET_FLOOR (R63) -/

/-- Bytes of a preset out of range spell no preset within Table 2-1. -/
theorem floorBytes_ne {f g : FloorPreset} (limit : f.limit < 256) (speech : f.speechLimit < 65536) (lead : f.warnLead < 256)
    (hold : f.voiceHold < 256) (bias : f.chairBias < 256) (out : ¬f.Fits) (fits : g.Fits) : floorBytes g ≠ floorBytes f := by
  intro same
  have numbers := (floorBytes_eq_bytes fits _ _ _ _ _ _ _ _ _ _ _ _ _).1 same
  simp only [FloorPreset.numbers, FloorNumbers.mk.injEq] at numbers
  obtain ⟨-, hlimit, -, -, -, -, hspeech, hlead, -, hhold, -, hbias⟩ := numbers
  rw [toNat_ofNat_byte limit] at hlimit
  rw [toNat_ofNat_byte lead] at hlead
  rw [toNat_ofNat_byte hold] at hhold
  rw [toNat_ofNat_byte bias] at hbias
  have time : g.speechLimit = f.speechLimit := by
    rw [hspeech, toNat_ofNat_byte (by omega), BitVec.toNat_ofNat]
    omega
  exact out ⟨hlimit ▸ fits.limit, time ▸ fits.speechLimit, hlead ▸ fits.warnLead, hhold ▸ fits.voiceHold,
    hbias ▸ fits.chairBias⟩

section
variable {s : State} (ready : s.part.Ready) (tag : Byte)
include ready

theorem exec_setFloor_unspelled {bytes : List Byte} (len : bytes.length = 13)
    (none : ∀ g : FloorPreset, g.Fits → floorBytes g ≠ bytes) : exec (.setFloor tag bytes) s = s.refuses 0xA6 tag 0x03 :=
  request_refuses (f := ⟨0x26, tag, bytes⟩) (owner := answerSetFloor) (status := .badArg) ready
    ((readFloor_spells len).readThen_none none _ _)

variable {f : FloorPreset} (fits : f.Fits)
include fits

theorem exec_setFloor_idle (idle : s.part.isOpen = false) :
    exec (.setFloor tag (floorBytes f)) s = s.refuses 0xA6 tag 0x08 :=
  request_refuses (f := ⟨0x26, tag, floorBytes f⟩) (owner := answerSetFloor) (status := .noSession) ready
    (((readFloor_spells (floorBytes_length f)).readThen_some fits rfl _ _).trans (if_neg (ne_true_of_eq_false idle)))

theorem exec_setFloor_open (isOpen : s.part.isOpen = true) :
    exec (.setFloor tag (floorBytes f)) s = s.acceptsWaking 0xA6 tag [] (s.part.taken.floorEvent fun q => q.setFloor f) :=
  request_acceptsWaking (f := ⟨0x26, tag, floorBytes f⟩) (owner := answerSetFloor) ready
    (((readFloor_spells (floorBytes_length f)).readThen_some fits rfl _ _).trans (if_pos isOpen))

end

/-- Settles O37: a payload of 13 bytes is answered by the preset that its bytes spell. -/
theorem floorPresetReplaced : Obligations.FloorPresetReplaced := by
  intro s tag f ready
  exact ⟨exec_setFloor_idle ready tag, exec_setFloor_open ready tag,
    fun limit speech lead hold bias out => exec_setFloor_unspelled ready tag (floorBytes_length f)
      fun g => floorBytes_ne limit speech lead hold bias out,
    fun bytes => exec_setFloor_unspelled ready tag⟩

end Sys2Proof.Machine
end

section
/-!
PROOFS. GRANT (R58), line by line, with the chair's opening (R52) and the replacement of a delegate (R53).
-/
namespace Sys2Proof.Machine

/-! ### Lines 5 to 9 of R58 -/

section
variable {p : Part} {x : Seat}

theorem Part.grantSeat_chair (chair : (p.seat x).standing = .chair) :
    p.grantSeat x =
      if (p.openChair x .controller).1 = .denied then (.noResource, none, p)
      else (.ok, some .opened, (p.openChair x .controller).2) :=
  if_pos chair

variable (delegate : (p.seat x).standing = .delegate)
include delegate

theorem Part.grantSeat_free (free : p.resourcesFree x = true) :
    p.grantSeat x = (.ok, some .opened, p.openMic x .delegate .controller p.frozen none) := by
  simp [Part.grantSeat, delegate, free]

variable (busy : p.resourcesFree x = false)
include busy

theorem Part.grantSeat_waiting (waits : p.floor.preset.mode = .queued ∨ p.isQueued x = true) :
    p.grantSeat x = (.noResource, none, p) := by
  simp [Part.grantSeat, delegate, busy, waits]

theorem Part.grantSeat_deny (deny : p.floor.preset.overflow = .deny) : p.grantSeat x = (.noResource, none, p) := by
  simp [Part.grantSeat, delegate, busy, deny]

variable (mode : p.floor.preset.mode ≠ .queued) (unqueued : p.isQueued x = false)
include mode unqueued

theorem Part.grantSeat_queue (queue : p.floor.preset.overflow = .queue) :
    p.grantSeat x =
      if 32 ≤ p.floor.queue.length then (.full, none, p) else (.ok, some .queued, p.appendSeat x .controller) := by
  simp [Part.grantSeat, delegate, busy, mode, unqueued, queue, Floor.queueFull]

theorem Part.grantSeat_replaces (replace : p.floor.preset.overflow = .replaceOldest) {e : Speaker} (old : p.replaced x = some e) :
    p.grantSeat x = (.ok, some .opened, p.replaceWith e x .controller p.frozen) := by
  simp [Part.grantSeat, delegate, busy, mode, unqueued, replace, old]

theorem Part.grantSeat_noneToReplace (replace : p.floor.preset.overflow = .replaceOldest) (none : p.replaced x = none) :
    p.grantSeat x = (.noResource, .none, p) := by
  simp [Part.grantSeat, delegate, busy, mode, unqueued, replace, none]

end

/-! ### The request -/

/-- A seat to which GRANT can open a microphone (R58, line 2). -/
def Part.grantable (p : Part) (x : Seat) : Prop :=
  (p.seat x).link = .present ∧ ((p.seat x).standing = .delegate ∨ (p.seat x).standing = .chair)

theorem Part.grantable_passes {p : Part} {x : Seat} (may : p.grantable x) :
    ¬(decide ((p.seat x).link ≠ .present) || !(p.seat x).standing.speaks) = true := by
  obtain ⟨present, speaks⟩ := may
  rw [← Standing.speaks_iff] at speaks
  simp [present, speaks]

section
variable {s : State} (ready : s.part.Ready) (tag : Byte)
include ready

theorem exec_grant_refused {payload : List Byte} {status : Status}
    (e : answerGrant payload s.part.taken = refuse status s.part.taken) :
    exec (.grant tag payload) s = s.refuses 0xA0 tag status.code :=
  request_refuses (f := ⟨0x20, tag, payload⟩) ready e

variable {x : Seat} (isOpen : s.part.taken.isOpen = true)
include isOpen

theorem exec_grant_ungrantable (no : ¬s.part.taken.grantable x) :
    exec (.grant tag (seatBytes x)) s = s.refuses 0xA0 tag 0x04 := by
  refine exec_grant_refused ready tag (status := .refused) ((seatInSession_open isOpen x _).trans (if_pos ?_))
  rw [Part.grantable, ← Standing.speaks_iff] at no
  simpa [or_iff_not_imp_left] using no

variable (may : s.part.taken.grantable x)
include may

theorem exec_grant_speaking (speaking : s.part.taken.speaking x = true) :
    exec (.grant tag (seatBytes x)) s = s.refuses 0xA0 tag 0x0A :=
  exec_grant_refused ready tag (status := .already) ((seatInSession_open isOpen x _).trans
    ((if_neg (Part.grantable_passes may)).trans (if_pos speaking)))

variable (silent : s.part.taken.speaking x = false)
include silent

/-- GRANT is refused where lines 5 to 9 of R58 give no outcome. -/
theorem exec_grant_denied {status : Status} {q : Part} (g : s.part.taken.grantSeat x = (status, none, q)) :
    exec (.grant tag (seatBytes x)) s = s.refuses 0xA0 tag status.code := by
  refine exec_grant_refused ready tag ((seatInSession_open isOpen x _).trans
    ((if_neg (Part.grantable_passes may)).trans ((if_neg (ne_true_of_eq_false silent)).trans ?_)))
  rw [g]

/-- GRANT does what lines 5 to 9 of R58 say, as one event of the floor. -/
theorem exec_grant_granted {status : Status} {outcome : Granted} (work : Part → Part)
    (g : s.part.taken.grantSeat x = (status, some outcome, work s.part.taken)) :
    exec (.grant tag (seatBytes x)) s =
      s.accepts 0xA0 tag (u8 outcome.ctorIdx) (s.part.taken.floorEvent work) := by
  refine request_accepts (f := ⟨0x20, tag, seatBytes x⟩) (owner := answerGrant) ready ((seatInSession_open isOpen x _).trans
    ((if_neg (Part.grantable_passes may)).trans ((if_neg (ne_true_of_eq_false silent)).trans ?_)))
  rw [g]
  exact congrArg (ok _) (Part.floorEvent_congr (congrArg (fun r => r.2.2) g))

theorem exec_grant_chair (chair : (s.part.taken.seat x).standing = .chair) :
    exec (.grant tag (seatBytes x)) s =
      if (s.part.taken.openChair x .controller).1 = .denied then s.refuses 0xA0 tag 0x09
      else s.accepts 0xA0 tag [0] (s.part.taken.floorEvent fun q => (q.openChair x .controller).2) := by
  have g := Part.grantSeat_chair chair
  split
  · rename_i denied
    exact exec_grant_denied ready tag isOpen may silent (g.trans (if_pos denied))
  · rename_i opens
    exact exec_grant_granted ready tag isOpen may silent (fun q => (q.openChair x .controller).2) (g.trans (if_neg opens))

theorem exec_grant_queue (delegate : (s.part.taken.seat x).standing = .delegate) (busy : s.part.taken.resourcesFree x = false)
    (mode : s.part.taken.floor.preset.mode ≠ .queued) (queue : s.part.taken.floor.preset.overflow = .queue)
    (unqueued : s.part.taken.isQueued x = false) :
    exec (.grant tag (seatBytes x)) s =
      if 32 ≤ s.part.taken.floor.queue.length then s.refuses 0xA0 tag 0x07
      else s.accepts 0xA0 tag [1] (s.part.taken.floorEvent fun q => q.appendSeat x .controller) := by
  have g := Part.grantSeat_queue delegate busy mode unqueued queue
  split
  · rename_i full
    exact exec_grant_denied ready tag isOpen may silent (g.trans (if_pos full))
  · rename_i room
    exact exec_grant_granted ready tag isOpen may silent (fun q => q.appendSeat x .controller) (g.trans (if_neg room))

end

/-! ### A chair's opening and the entry replaced (R52, R53) -/

theorem Part.speaker?_once {p : Part} (once : (p.floor.speakers.map Speaker.seat).Nodup) {e : Speaker} (m : e ∈ p.floor.speakers) :
    p.speaker? e.seat = some e := by
  cases found : p.speaker? e.seat with
  | none => exact absurd ⟨e, m, rfl⟩ (Part.speaker?_none found)
  | some d =>
    obtain ⟨md, same⟩ := Part.speaker?_some found
    rw [List.inj_on_of_nodup_map once md m same]

/-- With one entry per seat, a close of an entry is a close of its seat. -/
theorem Part.closeMic_entry {p : Part} (once : (p.floor.speakers.map Speaker.seat).Nodup) {e : Speaker}
    (m : e ∈ p.floor.speakers) (cause : Option CloseCause) : p.closeMic e.seat cause = p.closeWith e cause :=
  Part.closeMic_eq (Part.speaker?_once once m) cause

theorem find?_first {α : Type} {test : α → Bool} {front back : List α} {e : α} (passes : test e = true)
    (fail : ∀ d ∈ front, test d = false) : (front ++ e :: back).find? test = some e := by
  rw [List.find?_append, List.find?_eq_none.2 fun d m => by simp [fail d m], List.find?_cons_of_pos passes]
  rfl

section
variable {p : Part} {x : Seat} (source : Source)

theorem Part.openChair_freeLane (free : (p.freeLane (chainOf x)).isSome = true) :
    p.openChair x source = (.opened, p.openMic x .chair source false none) := if_pos free

theorem Part.openChair_denied (taken : (p.freeLane (chainOf x)).isSome = false)
    (none : ∀ e ∈ p.floor.speakers, ¬(e.kind = .delegate ∧ chainOf e.seat = chainOf x)) :
    p.openChair x source = (.denied, p) := by
  have no : p.newestDelegateOn (chainOf x) = .none := List.find?_eq_none.2 fun e m => by simpa using none e (by simpa using m)
  unfold Part.openChair
  rw [taken, no]
  rfl

theorem Part.openChair_preempts (taken : (p.freeLane (chainOf x)).isSome = false) {front back : List Speaker} {e : Speaker}
    (list : p.floor.speakers = front ++ e :: back) (near : e.kind = .delegate ∧ chainOf e.seat = chainOf x)
    (newest : ∀ d ∈ back, ¬(d.kind = .delegate ∧ chainOf d.seat = chainOf x)) :
    p.openChair x source =
      (.opened, ((p.closeWith e (some .lanePreempted)).requeuePreempted e).openMic x .chair source false none) := by
  have found : p.newestDelegateOn (chainOf x) = some e := by
    unfold Part.newestDelegateOn
    rw [list, List.reverse_append, List.reverse_cons, List.append_assoc]
    exact find?_first (by simpa using near) fun d m => by simpa using newest d (by simpa using m)
  unfold Part.openChair
  rw [taken, found]
  rfl

theorem queuedSource_eq (source : Source) :
    queuedSource source = if source = .chair ∨ source = .auto then .button else source := by
  cases source <;> rfl

/-- The preempted delegate at the head of the queue, or named in QUEUE_FULL (R52). -/
theorem Part.requeuePreempted_eq (e : Speaker) (p : Part) :
    p.requeuePreempted e =
      if 32 ≤ p.floor.queue.length then p.notify (.queueFull e.seat)
      else
        Part.deriveQueued { p with
          floor := { p.floor with
            queue := ⟨e.seat, p.floor.enqueueSeq + 1, if e.source = .chair ∨ e.source = .auto then .button else e.source⟩ ::
              p.floor.queue
            enqueueSeq := p.floor.enqueueSeq + 1 } } := by
  unfold Part.requeuePreempted Floor.queueFull
  simp only [decide_eq_true_eq, queuedSource_eq]
  rfl

/-- The oldest delegate overall, while the chain has a free lane (R53). -/
theorem Part.replaced_oldest (free : (p.freeLane (chainOf x)).isSome = true) {front back : List Speaker} {e : Speaker}
    (list : p.floor.speakers = front ++ e :: back) (delegate : e.kind = .delegate)
    (oldest : ∀ d ∈ front, d.kind ≠ .delegate) :
    p.replaced x = some e := by
  unfold Part.replaced Part.oldestDelegate
  rw [if_pos free, list]
  exact find?_first (by simpa using delegate) fun d m => by simpa using oldest d m

/-- The oldest delegate on the chain, while the chain has no free lane (R53). -/
theorem Part.replaced_oldestNear (taken : (p.freeLane (chainOf x)).isSome = false) {front back : List Speaker} {e : Speaker}
    (list : p.floor.speakers = front ++ e :: back) (near : e.kind = .delegate ∧ chainOf e.seat = chainOf x)
    (oldest : ∀ d ∈ front, ¬(d.kind = .delegate ∧ chainOf d.seat = chainOf x)) : p.replaced x = some e := by
  unfold Part.replaced Part.oldestDelegateOn
  rw [if_neg (ne_true_of_eq_false taken), list]
  exact find?_first (by simpa using near) fun d m => by simpa using oldest d m

theorem Part.replaced_none (free : (p.freeLane (chainOf x)).isSome = true)
    (none : ∀ e ∈ p.floor.speakers, e.kind ≠ .delegate) : p.replaced x = .none := by
  unfold Part.replaced Part.oldestDelegate
  rw [if_pos free]
  exact List.find?_eq_none.2 fun e m => by simpa using none e m

theorem Part.replaced_noneNear (taken : (p.freeLane (chainOf x)).isSome = false)
    (none : ∀ e ∈ p.floor.speakers, ¬(e.kind = .delegate ∧ chainOf e.seat = chainOf x)) : p.replaced x = .none := by
  unfold Part.replaced Part.oldestDelegateOn
  rw [if_neg (ne_true_of_eq_false taken)]
  exact List.find?_eq_none.2 fun e m => by simpa using none e m

end

/-- Settles O33: the request line by line, the end of a floor event, the auto-advance pass, and the two ways of making room. -/
theorem grantAnswered : Obligations.GrantAnswered := by
  refine ⟨fun s tag ready => ⟨fun n gt h => exec_grant_refused ready tag (status := .badArg) (seatInSession_badSeat gt h _ _),
    fun x => ?_⟩, Part.floorEvent_spec, Part.autoAdvance_spec, fun p x source once => ?_⟩
  · dsimp only
    have frozen : s.part.taken.frozen = !s.part.taken.floor.stack.isEmpty := rfl
    simp only [← Part.resourcesFree_iff, Bool.not_eq_true, ← frozen]
    refine ⟨fun idle => exec_grant_refused ready tag (status := .noSession) (seatInSession_idle idle x _),
      exec_grant_ungrantable ready tag, exec_grant_speaking ready tag, fun isOpen may silent => ?_⟩
    have denied := @exec_grant_denied s ready tag x isOpen may silent .noResource s.part.taken
    refine ⟨exec_grant_chair ready tag isOpen may silent, fun delegate free => ?_, fun delegate busy mode => ?_,
      fun delegate busy queued => ?_, exec_grant_queue ready tag isOpen may silent,
      fun delegate busy mode policy unqueued => ⟨fun e old => ?_, fun none => ?_⟩, fun delegate busy mode deny => ?_⟩
    · exact exec_grant_granted ready tag isOpen may silent
        (fun q => q.openMic x .delegate .controller s.part.taken.frozen none) (Part.grantSeat_free delegate free)
    · exact denied (Part.grantSeat_waiting delegate busy (.inl mode))
    · exact denied (Part.grantSeat_waiting delegate busy (.inr queued))
    · exact exec_grant_granted ready tag isOpen may silent
        (fun q => q.replaceWith e x .controller s.part.taken.frozen)
        (Part.grantSeat_replaces delegate busy mode unqueued policy old)
    · exact denied (Part.grantSeat_noneToReplace delegate busy mode unqueued policy none)
    · exact denied (Part.grantSeat_deny delegate busy deny)
  · have entry {front back : List Speaker} {e : Speaker} (list : p.floor.speakers = front ++ e :: back) (cause : CloseCause) :
        p.closeMic e.seat (some cause) = p.closeWith e (some cause) :=
      Part.closeMic_entry once (by rw [list]; simp) _
    refine ⟨Part.openChair_freeLane source, Part.openChair_denied source, fun front e back taken list near newest => ?_,
      fun front e back list delegate => ⟨fun free => Part.replaced_oldest free list delegate,
        fun taken near => Part.replaced_oldestNear taken list near, fun duringFreeze => ?_⟩,
      Part.replaced_none, Part.replaced_noneNear, rfl⟩
    · dsimp only
      rw [entry list, ← Part.requeuePreempted_eq]
      exact Part.openChair_preempts source taken list near newest
    · rw [entry list]
      rfl

end Sys2Proof.Machine
end

section
/-!
PROOFS. Chair priority: the requests PRIORITY_TAKE, PRIORITY_RELEASE and FLOOR_RESET (R85), and what a take, a retake, a release, a
pop with its restores and a floor reset leave in the resume stack and the holder set (R74 to R82).
-/
namespace Sys2Proof.Machine

/-! ### The requests (R85) -/

theorem inSession_idle {p : Part} (idle : p.isOpen = false) (work : Answer) : inSession [] p work = refuse .noSession p :=
  (readThen_ok readNothing_nil).trans (if_neg (ne_true_of_eq_false idle))

theorem inSession_open {p : Part} (isOpen : p.isOpen = true) (work : Answer) : inSession [] p work = work :=
  (readThen_ok readNothing_nil).trans (if_pos isOpen)

theorem Part.takeOrRetake_marked {p : Part} {h : Holder} (marked : p.floor.markedFrame h = true) :
    p.takeOrRetake h = p.retake h := if_pos marked

theorem Part.takeOrRetake_unmarked {p : Part} {h : Holder} (unmarked : ¬p.floor.markedFrame h = true) :
    p.takeOrRetake h = p.take h := if_neg unmarked

section
variable {s : State} (ready : s.part.Ready) (tag : Byte)
include ready

theorem exec_priority_idle (idle : s.part.taken.isOpen = false) :
    exec (.priorityTake tag []) s = s.refuses 0xA7 tag 0x08 ∧ exec (.priorityRelease tag []) s = s.refuses 0xA8 tag 0x08 ∧
    exec (.floorReset tag []) s = s.refuses 0xA9 tag 0x08 :=
  ⟨request_refuses (f := ⟨0x27, tag, []⟩) (owner := answerPriorityTake) (status := .noSession) ready (inSession_idle idle _),
    request_refuses (f := ⟨0x28, tag, []⟩) (owner := answerPriorityRelease) (status := .noSession) ready (inSession_idle idle _),
    request_refuses (f := ⟨0x29, tag, []⟩) (owner := answerFloorReset) (status := .noSession) ready (inSession_idle idle _)⟩

variable (isOpen : s.part.taken.isOpen = true)
include isOpen

theorem exec_floorReset_open :
    exec (.floorReset tag []) s = s.accepts 0xA9 tag [] (s.part.taken.floorEvent Part.floorReset) :=
  request_accepts (f := ⟨0x29, tag, []⟩) (owner := answerFloorReset) ready (inSession_open isOpen _)

theorem exec_priorityTake_holding (holds : s.part.taken.holds .controller = true) :
    exec (.priorityTake tag []) s = s.refuses 0xA7 tag 0x0A :=
  request_refuses (f := ⟨0x27, tag, []⟩) (owner := answerPriorityTake) (status := .already) ready
    ((inSession_open isOpen _).trans (if_pos holds))

/-- PRIORITY_TAKE by a room controller that holds nothing, as one event of the floor. -/
theorem exec_priorityTake_works (holds : ¬s.part.taken.holds .controller = true) {work : Part → Part}
    (does : s.part.taken.takeOrRetake .controller = work s.part.taken) :
    exec (.priorityTake tag []) s = s.accepts 0xA7 tag [] (s.part.taken.floorEvent work) :=
  request_accepts (f := ⟨0x27, tag, []⟩) (owner := answerPriorityTake) ready
    ((inSession_open isOpen _).trans ((if_neg holds).trans (congrArg (ok []) (Part.floorEvent_congr does))))

theorem exec_priorityRelease_unheld (holds : ¬s.part.taken.holds .controller = true) :
    exec (.priorityRelease tag []) s = s.refuses 0xA8 tag 0x05 :=
  request_refuses (f := ⟨0x28, tag, []⟩) (owner := answerPriorityRelease) (status := .notFound) ready
    ((inSession_open isOpen _).trans (if_neg holds))

theorem exec_priorityRelease_holding (holds : s.part.taken.holds .controller = true) :
    exec (.priorityRelease tag []) s =
      s.accepts 0xA8 tag [] (s.part.taken.floorEvent fun q => q.release .controller) :=
  request_accepts (f := ⟨0x28, tag, []⟩) (owner := answerPriorityRelease) ready
    ((inSession_open isOpen _).trans (if_pos holds))

end

/-! ### Joining and leaving the holder set (R71) -/

theorem Part.join_floor (h : Holder) (p : Part) :
    (p.join h).floor = { p.floor with holders := p.floor.holders ++ [(h, .framed)] } := by
  simp [Part.join]

theorem Part.leave_floor (h : Holder) (p : Part) :
    (p.leave h).floor = { p.floor with holders := p.floor.holders.filter fun k => k.1 ≠ h } := by
  simp [Part.leave]

/-- Joining can queue a ring for the taker, and leaves every lane (R71, R170). -/
theorem Part.join_lanes (h : Holder) (p : Part) (c : Chain) : ((p.join h).chain c).lanes = (p.chain c).lanes := by
  have joined : (p.modFloor fun f => { f with holders := f.holders ++ [(h, .framed)] }).chain c = p.chain c :=
    Part.modFloor_chain _ c p
  cases h with
  | controller => exact congrArg ChainCtl.lanes joined
  | seat x => exact (Part.derive_lanes x _ c).trans (congrArg ChainCtl.lanes joined)

/-! ### Room on a full stack (R76, R77) -/

theorem Part.makeRoom_fits {p : Part} (fits : p.floor.stack.length < 4) : p.makeRoom = p := if_pos fits

section
variable {p : Part} (full : 4 ≤ p.floor.stack.length)
include full

theorem Part.makeRoom_clearFloor (policy : p.floor.preset.stackPolicy = .clearFloor) : p.makeRoom = p.floorReset := by
  unfold Part.makeRoom
  rw [if_neg (Nat.not_lt.2 full), policy]

theorem Part.makeRoom_discardOldest (policy : p.floor.preset.stackPolicy = .discardOldest) : p.makeRoom = p.discardBottom := by
  unfold Part.makeRoom
  rw [if_neg (Nat.not_lt.2 full), policy]

end

/-- A discarded frame leaves its holder in the holder set (R76). -/
theorem Floor.dropBottom_holderCount (frame : ResumeFrame) (f : Floor) :
    (f.dropBottom frame).holders.length = f.holders.length := by
  unfold Floor.dropBottom
  dsimp only
  split
  · rfl
  · exact List.length_map _

/-- The work of R76 on the frame given, up to its notices. -/
def Part.dropped (frame : ResumeFrame) (p : Part) : Part :=
  let seats := frame.saved.map Saved.seat
  let removed := p.modFloor (Floor.dropBottom frame)
  Part.notifyPriority .discarded (some frame.holder) []
    (if seats.isEmpty then removed else removed.notify (.resumeLost frame.holder .discarded seats))

section
variable {p : Part} {kept : List ResumeFrame} {bottom : ResumeFrame} (stack : p.floor.stack = kept ++ [bottom])
include stack

theorem Part.discardBottom_floor_concat :
    p.discardBottom.floor = { p.floor with
      stack := kept
      holders :=
        if bottom.released = true then p.floor.holders
        else p.floor.holders.map fun k => if k.1 = bottom.holder then (k.1, .unframed) else k } := by
  rw [discardBottom_floor, stack, List.getLast?_concat]
  simp [Floor.dropBottom, stack]

/-- The bottom frame dropped and told of, before its seats are examined again. -/
theorem Part.discardBottom_eq :
    p.discardBottom =
      ((p.dropped bottom).reexamineSeats (bottom.saved.map Saved.seat)).deriveSeats (bottom.saved.map Saved.seat) := by
  unfold Part.discardBottom
  rw [stack, List.getLast?_concat]
  rfl

theorem Part.dropped_link :
    (p.dropped bottom).link =
      (if bottom.saved = [] then p.link
        else p.link.notify (.resumeLost bottom.holder .discarded (bottom.saved.map Saved.seat))).notify
          (.priorityChanged .discarded (some bottom.holder) [] kept.length p.floor.holders.length) := by
  have depth : (p.floor.dropBottom bottom).stack = kept := by simp [Floor.dropBottom, stack]
  by_cases none : bottom.saved = [] <;>
    simp [Part.dropped, Part.notifyPriority, none, depth, Floor.dropBottom_holderCount]

/-- The dropped seats are named, then the frame's holder; what the shares of the dropped seats tell follows (R76, R151). -/
theorem Part.discardBottom_tells :
    ∃ shares : List Notice,
      let lost :=
        if bottom.saved = [] then p.link
        else p.link.notify (.resumeLost bottom.holder .discarded (bottom.saved.map Saved.seat))
      p.discardBottom.link =
        (lost.notify (.priorityChanged .discarded (some bottom.holder) [] kept.length p.floor.holders.length)).notifyAll
          shares := by
  obtain ⟨shares, link⟩ :=
    (Work.reexamineSeats (seats := bottom.saved.map Saved.seat) (Work.refl (p.dropped bottom))).notes
  refine ⟨shares, ?_⟩
  dsimp only
  rw [Part.discardBottom_eq stack, (Part.deriveSeats_frame _ _).2.1, link, Part.dropped_link stack]

end

/-! ### Taking (R75) -/

theorem Part.chairMic_eq (h : Holder) (p : Part) :
    p.chairMic h = match h with
      | .controller => p
      | .seat x => if p.speaking x = true then p else (p.openChair x .chair).2 := by
  cases h <;> rfl

/-- What a frame pushed now saves: every DELEGATE entry, oldest first (R72, R75). -/
def Floor.savedDelegates (f : Floor) : List Saved := (f.speakers.filter fun e => e.kind = .delegate).map Speaker.saved

theorem Floor.savedDelegates_seats (f : Floor) : f.savedDelegates.map Saved.seat = f.delegateSeats := by
  unfold Floor.savedDelegates
  rw [List.map_map]
  rfl

theorem Floor.mem_delegateSeats {f : Floor} {x : Seat} :
    x ∈ f.delegateSeats ↔ ∃ e ∈ f.speakers, e.kind = .delegate ∧ e.seat = x := by
  simp [Floor.delegateSeats, and_assoc]

/-- Steps 2 and 3 of R75: the frame is pushed, and the microphones of the seats it saves are closed. -/
def Part.pushed (h : Holder) (p : Part) : Part :=
  (p.modFloor fun f => { f with stack := ⟨h, false, p.floor.savedDelegates⟩ :: f.stack }).closeSeats
    (p.floor.savedDelegates.map Saved.seat) none

/-- Steps 2 to 4 of R75, on a stack with room. -/
def Part.taking (h : Holder) (p : Part) : Part :=
  ((p.pushed h).join h).notify (.priorityChanged .taken (some h) (p.floor.savedDelegates.map Saved.seat)
    (p.floor.stack.length + 1) (p.floor.holders.length + 1))

theorem Part.pushed_floor (h : Holder) (p : Part) :
    (p.pushed h).floor = { p.floor with
      stack := ⟨h, false, p.floor.savedDelegates⟩ :: p.floor.stack
      speakers := p.floor.speakers.filter fun e =>
        !(p.floor.speakers.any fun d => d.kind = .delegate && d.seat = e.seat) } := by
  unfold Part.pushed
  rw [Part.closeSeats_floor, Floor.savedDelegates_seats]
  refine congrArg (fun l => ({ p.floor with stack := _, speakers := l } : Floor)) (List.filter_congr fun e _ => ?_)
  rw [Bool.eq_iff_iff]
  simp [Floor.mem_delegateSeats]

theorem Part.taking_floor (h : Holder) (p : Part) :
    (p.taking h).floor = { p.floor with
      stack := ⟨h, false, p.floor.savedDelegates⟩ :: p.floor.stack
      holders := p.floor.holders ++ [(h, .framed)]
      speakers := p.floor.speakers.filter fun e =>
        !(p.floor.speakers.any fun d => d.kind = .delegate && d.seat = e.seat) } := by
  unfold Part.taking
  rw [Part.notify_floor, Part.join_floor, Part.pushed_floor]

/-- A take is these steps on the room it has made, and then the chair's microphone. -/
theorem Part.take_eq (h : Holder) (p : Part) : p.take h = (p.makeRoom.taking h).chairMic h := by
  have counts : ((p.makeRoom.pushed h).join h).floor.stack.length = p.makeRoom.floor.stack.length + 1 ∧
      ((p.makeRoom.pushed h).join h).floor.holders.length = p.makeRoom.floor.holders.length + 1 := by
    simp [Part.join_floor, Part.pushed_floor]
  unfold Part.taking
  rw [← counts.1, ← counts.2]
  rfl

/-- Every saved seat has left the mixer, the director and its lane (R75, R103, R130). -/
theorem Part.taking_settles {p : Part} (h : Holder) (once : (p.floor.speakers.map Speaker.seat).Nodup) {e : Speaker}
    (m : e ∈ p.floor.speakers) (delegate : e.kind = .delegate) :
    let q := p.taking h
    q.mixer.channels.getD e.channel none = none ∧ q.director.active ≠ some e.seat ∧ q.director.candidate ≠ some e.seat ∧
    ∀ l, (q.chain (chainOf e.seat)).lanes[e.lane]? = some l → l.assigned = none := by
  have saved : e.seat ∈ p.floor.savedDelegates.map Saved.seat := by
    rw [Floor.savedDelegates_seats]
    exact Floor.mem_delegateSeats.2 ⟨e, m, delegate, rfl⟩
  obtain ⟨channel, active, candidate, lane⟩ := Part.closeSeats_settles (p.floor.savedDelegates.map Saved.seat) none
    (p.modFloor fun f => { f with stack := ⟨h, false, p.floor.savedDelegates⟩ :: f.stack }) saved
    (Part.speaker?_once once m)
  obtain ⟨-, -, -, -, -, -, mixer, director, -⟩ := Part.join_frame h (p.pushed h)
  refine ⟨mixer ▸ channel, director ▸ active, director ▸ candidate, fun l => ?_⟩
  rw [Part.taking, Part.notify_chain, Part.join_lanes]
  exact lane l

/-- The closes of a take tell of the active speaker and of shares alone; PRIORITY_CHANGED follows (R75). -/
theorem Part.taking_tells (h : Holder) (p : Part) :
    ∃ closes : List Notice, (∀ n ∈ closes, n.ofClose) ∧
      (p.taking h).link = (p.link.notifyAll closes).notify (.priorityChanged .taken (some h)
        (p.floor.savedDelegates.map Saved.seat) (p.floor.stack.length + 1) (p.floor.holders.length + 1)) := by
  obtain ⟨closes, tell, link⟩ := Part.closeSeats_none_tells (p.floor.savedDelegates.map Saved.seat)
    (p.modFloor fun f => { f with stack := ⟨h, false, p.floor.savedDelegates⟩ :: f.stack })
  refine ⟨closes, tell, ?_⟩
  simp only [Part.taking, Part.pushed, Part.notify_link, Part.join_frame, link, Part.modFloor_link]

/-! ### Retaking (R74) -/

/-- A retake before the chair's microphone. -/
def Part.retaking (h : Holder) (p : Part) : Part :=
  ((p.modFloor fun f =>
    { f with stack := f.stack.map fun r => if r.holder = h then { r with released := false } else r }).join h).notifyPriority
      .retaken (some h) []

theorem Part.retake_eq (h : Holder) (p : Part) : p.retake h = (p.retaking h).chairMic h := rfl

theorem Part.retaking_floor (h : Holder) (p : Part) :
    (p.retaking h).floor = { p.floor with
      stack := p.floor.stack.map fun r => if r.holder = h then { r with released := false } else r
      holders := p.floor.holders ++ [(h, .framed)] } := by
  unfold Part.retaking Part.notifyPriority
  rw [Part.notify_floor, Part.join_floor]
  rfl

theorem Part.retaking_link (h : Holder) (p : Part) :
    (p.retaking h).link =
      p.link.notify (.priorityChanged .retaken (some h) [] p.floor.stack.length (p.floor.holders.length + 1)) := by
  simp [Part.retaking, Part.notifyPriority, Part.join_floor]

/-! ### Releasing (R78) -/

theorem Part.release_unheld {p : Part} {h : Holder} (none : (p.floor.holders.find? fun k => k.1 = h) = none) :
    p.release h = p := by
  unfold Part.release Floor.condition?
  rw [none]
  rfl

theorem Part.release_unframed {p : Part} {h : Holder} (holder : (p.floor.holders.find? fun k => k.1 = h) = some (h, .unframed)) :
    p.release h = (p.leave h).notifyPriority .ended (some h) [] := by
  unfold Part.release Floor.condition?
  rw [holder]
  rfl

section
variable {p : Part} {h : Holder} (holder : (p.floor.holders.find? fun k => k.1 = h) = some (h, .framed))
include holder

theorem Part.release_onTop (top : (p.floor.stack.head?.any fun r => r.holder = h) = true) :
    p.release h = (p.leave h).pop := by
  unfold Part.release Floor.condition?
  rw [holder]
  exact if_pos top

theorem Part.release_below (below : ¬(p.floor.stack.head?.any fun r => r.holder = h) = true) :
    p.release h =
      ((p.modFloor fun f =>
        { f with stack := f.stack.map fun r => if r.holder = h then { r with released := true } else r }).leave h).notifyPriority
          .releasePending (some h) [] := by
  unfold Part.release Floor.condition?
  rw [holder]
  exact if_neg below

end

/-- What a release that pops no frame leaves and tells. -/
theorem Part.leave_notifyPriority (action : PriorityAction) (h : Holder) (p : Part) :
    ((p.leave h).notifyPriority action (some h) []).floor =
      { p.floor with holders := p.floor.holders.filter fun k => k.1 ≠ h } ∧
    ((p.leave h).notifyPriority action (some h) []).link =
      p.link.notify (.priorityChanged action (some h) [] p.floor.stack.length
        (p.floor.holders.filter fun k => k.1 ≠ h).length) := by
  simp only [Part.notifyPriority, Part.notify_floor, Part.notify_link, Part.leave_floor, Part.leave_frame, and_self]

/-! ### Restoring the saved speakers (R80) -/

section
variable {r : Restore} {e : Saved}

theorem Restore.seat_fits (fits : (r.part.seat e.seat).link = .present ∧ r.part.resourcesFree e.seat = true) :
    r.seat e =
      ⟨(r.part.openMic e.seat .delegate e.source r.part.frozen (some (e.remaining, e.warned))).reexamine e.seat, r.placed,
        r.dropped⟩ := by
  simp [Restore.seat, fits]

variable (lacks : ¬((r.part.seat e.seat).link = .present ∧ r.part.resourcesFree e.seat = true))
include lacks

theorem Restore.seat_drops (unqueued : r.part.isQueued e.seat = false) (full : 32 ≤ r.part.floor.queue.length) :
    r.seat e = ⟨(r.part.derive e.seat).reexamine e.seat, r.placed, r.dropped ++ [e.seat]⟩ := by
  simp [Restore.seat, lacks, unqueued, Floor.queueFull, full]

theorem Restore.seat_places (waits : r.part.isQueued e.seat = true ∨ r.part.floor.queue.length < 32) :
    r.seat e =
      ⟨(((r.part.modFloor (Floor.placeHead r.placed e)).derive e.seat).deriveQueued).reexamine e.seat, r.placed + 1,
        r.dropped⟩ := by
  have room : ¬(!r.part.isQueued e.seat && r.part.floor.queueFull) = true := by
    rcases waits with queued | room
    · simp [queued]
    · simp [Floor.queueFull, room]
  simp [Restore.seat, lacks, room]

end

theorem Part.isQueued_eq_find? (p : Part) (x : Seat) : (p.floor.queue.find? fun d => d.seat = x).isSome = p.isQueued x := by
  rw [Bool.eq_iff_iff]
  simp [Part.isQueued]

/-- A saved seat placed in the head region, written out. -/
theorem Part.placeHead_eq (k : Nat) (e : Saved) (p : Part) :
    p.modFloor (Floor.placeHead k e) =
      let f := p.floor
      let again := if e.source = .chair ∨ e.source = .auto then .button else e.source
      let entry := (f.queue.find? fun d => d.seat = e.seat).getD ⟨e.seat, f.enqueueSeq + 1, again⟩
      let others := f.queue.filter fun d => d.seat ≠ e.seat
      { p with
        floor := { f with
          held := f.held.filter fun d => d.seat ≠ e.seat
          queue := others.take k ++ entry :: others.drop k
          enqueueSeq := if p.isQueued e.seat = true then f.enqueueSeq else f.enqueueSeq + 1
          headPlaced := true } } := by
  unfold Part.modFloor Floor.placeHead
  simp only [queuedSource_eq, Part.isQueued_eq_find?]
  rfl

/-! ### Popping frames (R79) -/

theorem Part.openMic_stackDepth {x : Seat} {kind : Kind} {source : Source} {freeze : Bool} {restored : Option (Option Nat × Bool)}
    (p : Part) : (p.openMic x kind source freeze restored).floor.stack.length = p.floor.stack.length := by
  unfold Part.openMic
  split
  · dsimp only
    rw [Part.openWith_floor]
    exact List.length_map _
  · rfl

/-- A restore leaves the number of frames: a seat that opens leaves its frame, and the frame stays (R73). -/
theorem Restore.seat_stackDepth (r : Restore) (e : Saved) :
    (r.seat e).part.floor.stack.length = r.part.floor.stack.length := by
  unfold Restore.seat
  dsimp only
  (repeat' split)
  · simp [Part.openMic_stackDepth]
  · simp
  · simp [Floor.placeHead, Floor.dropHeld]

theorem Restore.seats_stackDepth (saved : List Saved) (r : Restore) :
    (saved.foldl Restore.seat r).part.floor.stack.length = r.part.floor.stack.length := by
  induction saved generalizing r with
  | nil => rfl
  | cons e saved ih => rw [List.foldl_cons, ih, Restore.seat_stackDepth]

theorem Part.restoreFrame_stackDepth (frame : ResumeFrame) (p : Part) :
    (p.restoreFrame frame).floor.stack.length = p.floor.stack.length := by
  unfold Part.restoreFrame
  dsimp only
  split <;> exact Restore.seats_stackDepth _ _

theorem Part.restoreFrame_eq (frame : ResumeFrame) (p : Part) :
    p.restoreFrame frame =
      let done := frame.saved.foldl Restore.seat ⟨p, 0, []⟩
      if done.dropped = [] then done.part else done.part.notify (.resumeLost frame.holder .queueFull done.dropped) := by
  unfold Part.restoreFrame
  simp only [List.isEmpty_iff]

/-- Steps 1 and 2 of R79: the top frame removed, PRIORITY_CHANGED, and the frame's saved speakers restored. -/
def Part.popTop (top : ResumeFrame) (rest : List ResumeFrame) (p : Part) : Part :=
  Part.restoreFrame top
    ((p.modFloor fun f => { f with stack := rest }).notifyPriority .released (some top.holder) (top.saved.map Saved.seat))

theorem Part.popTop_stackDepth (top : ResumeFrame) (rest : List ResumeFrame) (p : Part) :
    (p.popTop top rest).floor.stack.length = rest.length := Part.restoreFrame_stackDepth _ _

section
variable {p : Part} {top : ResumeFrame}

theorem Part.pop_last (stack : p.floor.stack = [top]) : p.pop = (p.popTop top []).processHeld := by
  unfold Part.pop
  rw [stack, List.length_singleton, Part.popWith, stack]
  rfl

theorem Part.pop_next {next : ResumeFrame} {more : List ResumeFrame} (stack : p.floor.stack = top :: next :: more) :
    p.pop = if next.released = true then (p.popTop top (next :: more)).pop else p.popTop top (next :: more) := by
  unfold Part.pop
  rw [stack, Part.popTop_stackDepth, List.length_cons, Part.popWith, stack]
  rfl

end

/-! ### Floor reset (R82) -/

theorem Part.floorReset_closes {p : Part} {e : Speaker} (m : e ∈ p.floorReset.floor.speakers) : e.kind = .chair := by
  rw [floorReset_floor, Part.closeSeats_floor] at m
  obtain ⟨listed, unclosed⟩ := List.mem_filter.1 m
  rcases k : e.kind with _ | _
  · exact absurd (Floor.mem_delegateSeats.2 ⟨e, listed, k, rfl⟩) (by simpa using unclosed)
  · rfl

/-- What a floor reset clears, and the counts it leaves. -/
theorem Part.floorReset_lists (p : Part) :
    let f := p.floorReset.floor
    (f.stack = [] ∧ f.holders = [] ∧ f.queue = [] ∧ f.held = []) ∧
    f.grantSeq = p.floor.grantSeq ∧ f.enqueueSeq = p.floor.enqueueSeq ∧ f.onsets = p.floor.onsets := by
  dsimp only
  rw [floorReset_floor, Part.closeSeats_floor]
  exact ⟨⟨rfl, rfl, rfl, rfl⟩, rfl, rfl, rfl⟩

/-- Settles O38: the requests by the lines of R85, then a take and a retake before the chair's microphone, the room made on a full
stack, the release by the holder's condition, the pop frame by frame, the restore by its three cases, and the floor reset. -/
theorem priorityRequests : Obligations.PriorityRequests := by
  refine ⟨fun s tag ready => ?_, fun p h => ⟨?_, ?_, Part.makeRoom_fits, Part.makeRoom_clearFloor, ?_⟩,
    fun p h => ⟨Part.release_unheld, ?_, ?_, ?_⟩, fun p top rest stack => ⟨?_, ?_⟩, fun r e => ?_, fun p => ?_⟩
  · exact ⟨exec_priority_idle ready tag, exec_priorityTake_holding ready tag,
      fun isOpen holds marked => exec_priorityTake_works ready tag isOpen holds (Part.takeOrRetake_marked marked),
      fun isOpen holds unmarked => exec_priorityTake_works ready tag isOpen holds (Part.takeOrRetake_unmarked unmarked),
      exec_priorityRelease_unheld ready tag, exec_priorityRelease_holding ready tag, exec_floorReset_open ready tag⟩
  case refine_2 =>
    intro pushed closed joined lit q
    have steps : q = p.makeRoom.taking h := by cases h <;> rfl
    clear_value q
    subst steps
    exact ⟨(p.take_eq h).trans (Part.chairMic_eq h _), fun once e => Part.taking_settles h once,
      Part.taking_floor h _, Part.taking_tells h _⟩
  case refine_3 =>
    exact ⟨p.retaking h, (p.retake_eq h).trans (Part.chairMic_eq h _), p.retaking_floor h, p.retaking_link h⟩
  case refine_4 =>
    intro kept bottom stack three policy
    dsimp only
    rw [Part.makeRoom_discardOldest (by simp [stack, three]) policy, ← three]
    exact ⟨Part.discardBottom_floor_concat stack, Part.discardBottom_tells stack⟩
  case refine_5 =>
    intro unframed
    dsimp only
    rw [Part.release_unframed unframed]
    exact Part.leave_notifyPriority .ended h p
  case refine_6 =>
    intro framed below
    dsimp only
    rw [Part.release_below framed below, (Part.leave_notifyPriority .releasePending h _).1,
      (Part.leave_notifyPriority .releasePending h _).2]
    simp
  case refine_7 =>
    intro framed top
    cases h <;> exact Part.release_onTop framed top
  case refine_8 =>
    rintro rfl
    exact (Part.pop_last stack).trans (congrArg Part.processHeld (Part.restoreFrame_eq _ _))
  case refine_9 =>
    rintro next more rfl
    dsimp only
    rw [Part.pop_next stack]
    unfold Part.popTop
    rw [Part.restoreFrame_eq]
    rfl
  case refine_10 =>
    dsimp only
    rw [← Part.resourcesFree_iff, ← Part.placeHead_eq]
    exact ⟨Restore.seat_fits, Restore.seat_drops, Restore.seat_places⟩
  case refine_11 =>
    obtain ⟨⟨stack, holders, queue, held⟩, grantSeq, enqueueSeq, onsets⟩ := p.floorReset_lists
    exact ⟨stack, holders, queue, held, fun e m => Part.floorReset_closes m, p.floorReset_speakers, grantSeq, enqueueSeq, onsets⟩

end Sys2Proof.Machine
end

section
/-!
PROOFS. EXTEND_SPEECH (R94): the lines of its table in order, and the entry that an extension leaves.
-/
namespace Sys2Proof.Machine

/-! ### EXTEND_SPEECH (R94) -/

theorem readSeatSeconds_written {n seconds : Nat} (hn : n < 256) (hs : seconds < 65536) :
    (do return (← readByte, ← readWord) : Reader (Nat × Nat)) (u8 n ++ u16 seconds) = .ok ((n, seconds), []) := by
  rw [bindByte hn, bindWord_last hs, Reader.pure_run]

/-- Line 1 of R94. -/
theorem answerExtendSpeech_badValue (p : Part) {n seconds : Nat} (hn : n < 256) (hs : seconds < 65536)
    (bad : 63 < n ∨ seconds = 0 ∨ 600 < seconds) : answerExtendSpeech (u8 n ++ u16 seconds) p = refuse .badArg p := by
  refine (readThen_ok (readSeatSeconds_written hn hs)).trans ?_
  dsimp only
  rcases bad with gt | range
  · rw [seat?_of_gt gt]
    rfl
  · rw [within_of_not_mem (show ¬(1 ≤ seconds ∧ seconds ≤ 600) by omega)]
    cases seat? n <;> rfl

section
variable (p : Part) (x : Seat) {seconds : Nat} (low : 1 ≤ seconds) (high : seconds ≤ 600)
include low high

/-- Lines 2 to 5 of R94, for a seat and a number of seconds in range. -/
theorem answerExtendSpeech_written :
    answerExtendSpeech (seatBytes x ++ u16 seconds) p =
      if p.isOpen then
        match p.speaker? x with
        | none => refuse .notFound p
        | some e =>
          match e.remaining with
          | none => refuse .noLimit p
          | some r =>
            ok (u16 (min (r + seconds) 3600 - r) ++ u16 (min (r + seconds) 3600))
              (p.floorEvent fun q => q.extendEntry x (min (r + seconds) 3600))
      else refuse .noSession p := by
  refine (readThen_ok (readSeatSeconds_written (seat_lt x) (by omega))).trans ?_
  simp only [seat?_val, within_of_mem (And.intro low high)]
  show (if !p.isOpen then refuse .noSession p else _) = _
  cases p.isOpen <;> rfl

variable {p x}

theorem answerExtendSpeech_idle (idle : p.isOpen = false) :
    answerExtendSpeech (seatBytes x ++ u16 seconds) p = refuse .noSession p :=
  (answerExtendSpeech_written p x low high).trans (if_neg (ne_true_of_eq_false idle))

variable (isOpen : p.isOpen = true)
include isOpen

theorem answerExtendSpeech_silent (silent : p.speaker? x = none) :
    answerExtendSpeech (seatBytes x ++ u16 seconds) p = refuse .notFound p := by
  rw [answerExtendSpeech_written p x low high, if_pos isOpen, silent]

variable {e : Speaker} (found : p.speaker? x = some e)
include found

theorem answerExtendSpeech_unlimited (unlimited : e.remaining = none) :
    answerExtendSpeech (seatBytes x ++ u16 seconds) p = refuse .noLimit p := by
  rw [answerExtendSpeech_written p x low high, if_pos isOpen, found]
  dsimp only
  rw [unlimited]

theorem answerExtendSpeech_limited {r : Nat} (limited : e.remaining = some r) :
    answerExtendSpeech (seatBytes x ++ u16 seconds) p =
      ok (u16 (min (r + seconds) 3600 - r) ++ u16 (min (r + seconds) 3600))
        (p.floorEvent fun q => q.extendEntry x (min (r + seconds) 3600)) := by
  rw [answerExtendSpeech_written p x low high, if_pos isOpen, found]
  dsimp only
  rw [limited]

end

/-- The entry's time is stored, and its warned flag clears above the warn lead in force. -/
theorem Part.extendEntry_eq (x : Seat) (time : Nat) (p : Part) :
    p.extendEntry x time =
      Part.derive x { p with
        floor := { p.floor with
          speakers := p.floor.speakers.map fun e =>
            if e.seat = x then
              { e with remaining := some time, warned := if p.floor.preset.warnLead < time then false else e.warned }
            else e } } := by
  have flag (e : Speaker) :
      (e.warned && decide (time ≤ p.floor.preset.warnLead)) =
        if p.floor.preset.warnLead < time then false else e.warned := by
    by_cases above : p.floor.preset.warnLead < time
    · simp [above]
    · simp [above, Nat.not_lt.1 above]
  unfold Part.extendEntry Part.modFloor Floor.modSpeaker
  simp only [flag]

/-- Settles O39, by the lines of R94 in order. -/
theorem speechExtended : Obligations.SpeechExtended := by
  intro s tag ready
  have asked (payload : List Byte) :
      exec (.extendSpeech tag payload) s = onPart (Part.request ⟨0x2A, tag, payload⟩ answerExtendSpeech) s := rfl
  simp only [asked]
  refine ⟨fun n seconds hn hs bad => request_refuses (status := .badArg) ready (answerExtendSpeech_badValue _ hn hs bad),
    fun x seconds low high => ⟨fun idle => ?_, fun isOpen silent => ?_, fun e isOpen found unlimited => ?_,
      fun e r isOpen found limited => ?_⟩⟩
  · exact request_refuses (status := .noSession) ready (answerExtendSpeech_idle low high idle)
  · exact request_refuses (status := .notFound) ready (answerExtendSpeech_silent low high isOpen silent)
  · exact request_refuses (status := .noLimit) ready (answerExtendSpeech_unlimited low high isOpen found unlimited)
  · refine request_accepts ready ((answerExtendSpeech_limited low high isOpen found limited).trans ?_)
    exact congrArg (ok _) (Part.floorEvent_congr (Part.extendEntry_eq x _ _))

end Sys2Proof.Machine
end

section
/-!
PROOFS. The frame of the floor requests: what their answers leave of a part, whatever their payload and whatever they answer.
-/
namespace Sys2Proof.Machine

/-! ### Answers that keep a property of the part -/

/-- An answer to a request that is no wake event, after whose work the part has a property. -/
structure Answer.Keeps (P : Part → Prop) (a : Answer) : Prop where
  noWake : a.wake = false
  kept : P a.part

section
variable {P : Part → Prop} {p : Part}

theorem refuse_keeps {status : Status} (h : P p) : (refuse status p).Keeps P := ⟨rfl, h⟩

theorem ok_keeps {fields : List Byte} (h : P p) : (ok fields p).Keeps P := ⟨rfl, h⟩

theorem readThen_keeps {α : Type} {read : Reader α} {payload : List Byte} {work : α → Answer} (h : P p)
    (hw : ∀ a, (work a).Keeps P) : (readThen read payload p work).Keeps P := by
  unfold readThen
  split
  · exact hw _
  · exact refuse_keeps h

theorem checkThen_keeps {α : Type} {value : Option α} {work : α → Answer} (h : P p) (hw : ∀ a, (work a).Keeps P) :
    (checkThen value p work).Keeps P := by
  unfold checkThen
  split
  · exact hw _
  · exact refuse_keeps h

theorem seatInSession_keeps {payload : List Byte} {work : Seat → Answer} (h : P p) (hw : ∀ x, (work x).Keeps P) :
    (seatInSession payload p work).Keeps P := by
  refine readThen_keeps h fun _ => checkThen_keeps h fun x => ?_
  split
  · exact hw x
  · exact refuse_keeps h

theorem inSession_keeps {payload : List Byte} {work : Answer} (h : P p) (hw : work.Keeps P) :
    (inSession payload p work).Keeps P := by
  refine readThen_keeps h fun _ => ?_
  split
  · exact hw
  · exact refuse_keeps h

/-- Taking a request and storing its reply write fields of the link that the frame blanks: what the answer keeps, the request
keeps. -/
theorem FloorWork.request {s t : State} {f : Frame} {owner : List Byte → Part → Answer} (w : FloorWork P)
    (ready : s.part.Ready) (h : onPart (Part.request f owner) s = .next t) (now : P s.part)
    (keeps : ∀ {p : Part} (payload : List Byte), P p → (owner payload p).Keeps P) : P t.part := by
  obtain ⟨noWake, kept⟩ := keeps f.payload (w s.part s.part.taken rfl now)
  cases h
  show P (Part.request f owner s.part)
  rw [ready.request, if_neg (ne_true_of_eq_false noWake)]
  exact w (owner f.payload s.part.taken).part _ rfl kept

/-! ### The answers of the floor requests -/

/-- An event of the floor, answered OK. -/
theorem FloorWork.okEvent (w : FloorWork P) {fields : List Byte} {work : Part → Part} (hw : ∀ q, P q → P (work q)) (h : P p) :
    (ok fields (p.floorEvent work)).Keeps P := ok_keeps (w.floorEvent hw h)

theorem FloorWork.grantSeat (w : FloorWork P) {x : Seat} (h : P p) : P (p.grantSeat x).2.2 := by
  unfold Part.grantSeat
  dsimp only
  (repeat' split) <;> dsimp only <;> with_reducible first
    | exact w.openChair h
    | exact w.openMic h
    | exact w.appendSeat h
    | exact w.replaceWith h
    | exact h

theorem Floor.move_preset (x : Seat) (position : Nat) (f : Floor) : (f.move x position).preset = f.preset := by
  unfold Floor.move
  dsimp only
  split <;> rfl

section
variable (w : FloorWork P) (payload : List Byte) (h : P p)
include w h

theorem FloorWork.answerGrant : (answerGrant payload p).Keeps P := by
  refine seatInSession_keeps h fun x => ?_
  dsimp only
  split
  · exact refuse_keeps h
  split
  · exact refuse_keeps h
  split
  · exact w.okEvent (fun _ k => w.grantSeat k) h
  · exact refuse_keeps h

theorem FloorWork.answerClose : (answerClose payload p).Keeps P := by
  refine seatInSession_keeps h fun x => ?_
  split
  · exact w.okEvent (fun _ k => w.closeMic k) h
  · exact refuse_keeps h

theorem FloorWork.answerEnqueue : (answerEnqueue payload p).Keeps P := by
  refine seatInSession_keeps h fun x => ?_
  (repeat' split)
  · exact refuse_keeps h
  · exact refuse_keeps h
  · exact refuse_keeps h
  · exact w.okEvent (fun _ k => w.appendSeat k) h

theorem FloorWork.answerDequeue : (answerDequeue payload p).Keeps P := by
  refine seatInSession_keeps h fun x => ?_
  (repeat' split)
  · exact w.okEvent (fun _ k => w.withdraw k) h
  · exact w.okEvent (fun _ k => w.unhold k) h
  · exact refuse_keeps h

theorem FloorWork.answerMoveRequest : (answerMoveRequest payload p).Keeps P := by
  refine readThen_keeps h fun _ => checkThen_keeps h fun (x, position) => ?_
  dsimp only
  (repeat' split)
  · exact refuse_keeps h
  · exact w.okEvent (fun q k => w.deriveQueued (w.modFloor (Floor.move_preset x position q.floor) k)) h
  · exact refuse_keeps h

theorem FloorWork.answerPriorityTake : (answerPriorityTake payload p).Keeps P := by
  refine inSession_keeps h ?_
  split
  · exact refuse_keeps h
  · exact w.okEvent (fun _ k => w.takeOrRetake k) h

theorem FloorWork.answerFloorReset : (answerFloorReset payload p).Keeps P :=
  inSession_keeps h (w.okEvent (fun _ k => w.floorReset k) h)

theorem FloorWork.answerExtendSpeech : (answerExtendSpeech payload p).Keeps P := by
  refine readThen_keeps h fun _ => checkThen_keeps h fun (x, seconds) => ?_
  dsimp only
  (repeat' split)
  · exact refuse_keeps h
  · exact refuse_keeps h
  · exact refuse_keeps h
  · exact w.okEvent (fun _ k => w.extendEntry k) h

/-- A release can process held presses, and deny them (R81). -/
theorem FloorWork.answerPriorityRelease (denied : ∀ x q, P q → P (q.deny x)) : (answerPriorityRelease payload p).Keeps P := by
  refine inSession_keeps h ?_
  split
  · exact w.okEvent (fun _ k => w.release denied k) h
  · exact refuse_keeps h

end
end

/-- A denial writes the pending-denial flag and its timer, and the indicators that follow. -/
theorem Part.deny_forgiven {b p : Part} (x : Seat) (h : p.floorFrame.forgiven = b.floorFrame.forgiven) :
    (p.deny x).floorFrame.forgiven = b.floorFrame.forgiven := by
  refine FloorWork.derive (.ofForgiven b) (Eq.trans ?_ h)
  have seats := map_updateAt (f := fun r : SeatRec => { r with denial := true, denialMs := 1000 })
    (g := fun r => { r.unlit with denial := false, denialMs := 0 }) (fun _ => rfl) p.seats x.val
  simp only [Part.forgiven, Part.floorFrame, Part.modSeat, List.map_map, Function.comp_def, seats]

/-- Settles O40: the answer of each request keeps every property that the frame decides; that of PRIORITY_RELEASE keeps those that
a denial keeps besides. -/
theorem floorRequestsFrame : Obligations.FloorRequestsFrame := by
  intro s t tag payload c ready h
  refine ⟨fun command => ?_, ?_⟩
  · have w := FloorWork.ofFrame s.part
    rcases command with rfl | rfl | rfl | rfl | rfl | rfl | rfl | rfl
    · exact w.request (f := ⟨0x20, tag, payload⟩) ready h rfl w.answerGrant
    · exact w.request (f := ⟨0x21, tag, payload⟩) ready h rfl w.answerClose
    · exact w.request (f := ⟨0x22, tag, payload⟩) ready h rfl w.answerEnqueue
    · exact w.request (f := ⟨0x23, tag, payload⟩) ready h rfl w.answerDequeue
    · exact w.request (f := ⟨0x24, tag, payload⟩) ready h rfl w.answerMoveRequest
    · exact w.request (f := ⟨0x27, tag, payload⟩) ready h rfl w.answerPriorityTake
    · exact w.request (f := ⟨0x29, tag, payload⟩) ready h rfl w.answerFloorReset
    · exact w.request (f := ⟨0x2A, tag, payload⟩) ready h rfl w.answerExtendSpeech
  · rintro rfl
    have w := FloorWork.ofForgiven s.part
    exact w.request (f := ⟨0x28, tag, payload⟩) ready h rfl fun payload k =>
      w.answerPriorityRelease payload k fun x _ => Part.deny_forgiven x

end Sys2Proof.Machine
end

section
/-!
PROOFS. A second tick: one second at a speaker list entry (R89, R90, R96), the present flags and the attendance list (R97, R99), and
the jobs of the tick in their order (R18, R39, R55, R57, R91, R152).
-/
namespace Sys2Proof.Machine

/-! ### One second at an entry (R89, R90, R96) -/

/-- The warning test after the decrement (R90). -/
theorem Speaker.warnDue_countSecond {e : Speaker} {lead : Nat} :
    e.countSecond.warnDue lead = true ↔
      e.warned = false ∧ ∃ t, e.remaining.map (fun t => t - 1) = some t ∧ 0 < lead ∧ t ≤ lead := by
  cases k : e.remaining <;> simp [Speaker.warnDue, Speaker.countSecond, k]

/-- A write to a seat's entry leaves the entries of the other seats. -/
theorem Floor.modSpeaker_others {x : Seat} {g : Speaker → Speaker} (seat : ∀ e, e.seat = x → (g e).seat = x) (f : Floor) :
    ((f.modSpeaker x g).speakers.filter fun e => e.seat ≠ x) = f.speakers.filter fun e => e.seat ≠ x := by
  unfold Floor.modSpeaker
  dsimp only
  induction f.speakers with
  | nil => rfl
  | cons d es ih =>
    by_cases own : d.seat = x
    · simpa [own, seat d own] using ih
    · simpa [own] using ih

theorem Part.modSession_open {p : Part} {d : Session} (session : p.sched.session = some d) (f : Session → Session) :
    p.modSession f = { p with sched := { p.sched with session := some (f d) } } := by
  unfold Part.modSession Part.modSched
  dsimp only
  rw [session]
  rfl

theorem Part.modSession_idle {p : Part} (session : p.sched.session = none) (f : Session → Session) : p.modSession f = p := by
  unfold Part.modSession Part.modSched
  dsimp only
  rw [session, Option.map_none, ← session]

theorem Session.credit_attendance (x : Seat) (d : Session) :
    d.credit x =
      { d with attendance := d.attendance.modify x.val fun a => { a with seconds := countUpTo 65535 a.seconds } } := by
  unfold Session.credit
  rw [updateAt_eq_modify]

section
variable {p : Part} {x : Seat} {e : Speaker} (found : p.speaker? x = some e)
include found

/-- What a second writes at an entry, before the seat is derived again. -/
theorem Part.tickEntry_eq :
    p.tickEntry x =
      let stored := (p.modSession (Session.credit x)).modFloor (Floor.modSpeaker x fun _ => e.countSecond)
      let lead := p.floor.preset.warnLead
      Part.derive x
        (if e.countSecond.warnDue lead then
          (stored.modFloor (Floor.modSpeaker x fun d => { d with warned := true })).notify
            (.speechWarning x e.grantNo (e.countSecond.remaining.getD 0) lead)
        else stored) := by
  unfold Part.tickEntry
  rw [found]
  dsimp only
  split <;> rfl

theorem Part.tickEntry_sched : (p.tickEntry x).sched = (p.modSession (Session.credit x)).sched := by
  rw [Part.tickEntry_eq found]
  dsimp only
  split <;> simp

theorem Part.tickEntry_link :
    (p.tickEntry x).link =
      if e.countSecond.warnDue p.floor.preset.warnLead then
        p.link.notify (.speechWarning x e.grantNo (e.countSecond.remaining.getD 0) p.floor.preset.warnLead)
      else p.link := by
  rw [Part.tickEntry_eq found]
  dsimp only
  split <;> simp

/-- A second at an entry leaves the entries of the other seats, the queue and the frames. -/
theorem Part.tickEntry_floor :
    ((p.tickEntry x).floor.speakers.filter fun e => e.seat ≠ x) = (p.floor.speakers.filter fun e => e.seat ≠ x) ∧
    (p.tickEntry x).floor.queue = p.floor.queue ∧ (p.tickEntry x).floor.stack = p.floor.stack := by
  have seat := (Part.speaker?_some found).2
  have counted := Floor.modSpeaker_others (g := fun _ => e.countSecond) (fun _ _ => seat) p.floor
  rw [Part.tickEntry_eq found]
  dsimp only
  simp only [Part.derive_frame]
  split
  · exact ⟨(Floor.modSpeaker_others (g := fun d => { d with warned := true }) (fun _ own => own) _).trans counted, rfl, rfl⟩
  · exact ⟨counted, rfl, rfl⟩

/-- The entry after its second, with the flag that the warning test sets. -/
theorem Part.tickEntry_own :
    (p.tickEntry x).speaker? x =
      some { e with
        remaining := e.remaining.map fun t => t - 1
        warned := if e.countSecond.warnDue p.floor.preset.warnLead = true then true else e.warned } := by
  refine (Part.speaker_tickEntry found).trans ?_
  cases e.countSecond.warnDue p.floor.preset.warnLead
  · rw [Bool.or_false]
    rfl
  · rw [Bool.or_true]
    rfl

theorem Part.tickEntry_warns (due : e.countSecond.warnDue p.floor.preset.warnLead = true)
    (enabled : p.link.mask.getLsbD 12 = true) (room : p.link.notices.length < 32) :
    (p.tickEntry x).link.notices =
      p.link.notices ++ [⟨.speechWarning x e.grantNo ((e.remaining.map fun t => t - 1).getD 0) p.floor.preset.warnLead,
        p.link.inRequest⟩] := by
  rw [Part.tickEntry_link found, if_pos due]
  exact Link.notify_notices_enabled enabled room

theorem Part.tickEntry_quiet (quiet : ¬e.countSecond.warnDue p.floor.preset.warnLead = true) :
    (p.tickEntry x).link = p.link := by
  rw [Part.tickEntry_link found, if_neg quiet]

/-- The seat is credited one second, up to 65535 (R96, R97). -/
theorem Part.tickEntry_credits {d : Session} (session : p.sched.session = some d) :
    (p.tickEntry x).sched.session =
      some { d with attendance := d.attendance.modify x.val fun a => { a with seconds := countUpTo 65535 a.seconds } } := by
  rw [Part.tickEntry_sched found, Part.modSession_open session, Session.credit_attendance]

end

/-! ### The attendance record and its list (R97, R99) -/

/-- The record after the present flags of a tick (R97). -/
def markedRecord (record : List Attendance) (seats : List SeatRec) : List Attendance :=
  List.zipWith (fun a r => { a with present := a.present || (r.link = .present && r.standing.speaks) }) record seats

/-- A seat's pair of the record after the present flags of a tick: a flag already set stays set (R97). -/
theorem markedRecord_getElem? {p : Part} (record : List Attendance) (len : p.seats.length = 64) (x : Seat) :
    (markedRecord record p.seats)[x.val]? =
      record[x.val]?.map fun a =>
        { a with
          present :=
            if (p.seat x).link = .present ∧ ((p.seat x).standing = .delegate ∨ (p.seat x).standing = .chair) then true
            else a.present } := by
  have listed : p.seats[x.val]? = some (p.seat x) := by
    have inTable : x.val < p.seats.length := by
      rw [len]
      exact x.isLt
    simp [Part.seat, inTable]
  unfold markedRecord
  simp only [List.getElem?_zipWith, listed, ← Standing.speaks_iff]
  cases record[x.val]? with
  | none => rfl
  | some a =>
    by_cases here : (p.seat x).link = .present ∧ (p.seat x).standing.speaks = true <;> simp [here]

/-- A list of pairs by number, read from the record number by number. -/
theorem filterMap_zip_finRange {α β γ : Type} (n : Nat) (name : Fin n → α) (record : List β) (pick : α × β → Option γ) :
    (((List.finRange n).map name).zip record).filterMap pick =
      (List.finRange n).filterMap fun i => record[i.val]?.bind fun b => pick (name i, b) := by
  induction n generalizing record with
  | zero => rfl
  | succ n ih =>
    rw [List.finRange_succ, List.map_cons, List.map_map]
    cases record with
    | nil => simp
    | cons b record =>
      simp only [List.zip_cons_cons, List.filterMap_cons, ih (name ∘ Fin.succ) record, List.filterMap_map]
      rfl

theorem attendanceList_eq (record : List Attendance) :
    attendanceList record =
      (List.finRange 64).filterMap fun x =>
        match record[x.val]? with
        | some a => if 0 < a.seconds ∨ a.present = true then some (x, a.seconds) else none
        | none => none := by
  have named := filterMap_zip_finRange 64 id record fun x =>
    if 0 < x.2.seconds || x.2.present then some (x.1, x.2.seconds) else none
  rw [List.map_id] at named
  refine named.trans (List.filterMap_congr fun x _ => ?_)
  cases record[x.val]? <;> simp

/-! ### The jobs of a tick -/

theorem TickJob.isStep_iff (j : TickJob) :
    j.isStep = true ↔ (∃ x, j = .expiry x ∨ j = .silence x) ∨ (∃ n, j = .graceEnd n) ∨ j = .standbyEnd := by
  cases j <;> simp [TickJob.isStep]

theorem Part.standbyCounts_iff {p : Part} :
    p.standbyCounts = true ↔ p.sched.standby = .awake ∧ p.sched.session = none ∧ 0 < p.sched.delay := by
  cases standby : p.sched.standby <;> simp [Part.standbyCounts, Part.inStandby, Part.isOpen, standby]

theorem Part.tickPlan_open {p : Part} (isOpen : p.isOpen = true) :
    p.tickPlan = (p.floor.speakers.map Speaker.seat).map .entry ++ [.present] ++ (p.floor.speakers.map Speaker.seat).map .voice ++
      [.floorEnd p.floor.queue, .grace .one, .grace .two, .standby] := by
  simp [Part.tickPlan, isOpen, Floor.speakerSeats]

theorem Part.tickPlan_idle {p : Part} (idle : p.isOpen = false) : p.tickPlan = [.grace .one, .grace .two, .standby] := by
  simp [Part.tickPlan, idle]

/-- Settles O44: a second at an entry, the plan of a tick with its present flags, the tick as the run of its jobs, and each job by
what it counts. -/
theorem speechSecondCounted : Obligations.SpeechSecondCounted := by
  refine ⟨fun p x e found => ?_, fun p => ⟨Part.tickPlan_open, Part.tickPlan_idle, fun none => ?_, fun d session _ seats => ?_⟩,
    fun s moved rest running jobs owed => ?_, fun p j rest jobs => ⟨fun step => ?_, fun go => ?_⟩,
    fun p x => ⟨Part.runJob_silentSeat, fun e => Part.runJob_entry, fun e found => ⟨fun stays => ?_, fun counts => ?_⟩⟩,
    Part.runJob_floorEnd, fun p n => ⟨fun stopped => ?_, fun t running => ?_⟩, fun p => ⟨fun stays => ?_, fun counts => ?_⟩,
    attendanceList_eq⟩
  · obtain ⟨others, queue, stack⟩ := Part.tickEntry_floor found
    dsimp only
    simp only [← Speaker.warnDue_countSecond]
    exact ⟨Part.tickEntry_own found, others, queue, stack, Part.tickEntry_warns found, Part.tickEntry_quiet found,
      fun d => Part.tickEntry_credits found, by simp⟩
  · exact Part.modSession_idle none _
  · exact ⟨markedRecord d.attendance p.seats, Part.modSession_open session _, markedRecord_getElem? d.attendance seats⟩
  · refine congrArg s.to ((Part.secondTick_due running jobs owed).trans ?_)
    cases moved <;> rfl
  · rw [Part.runJobs_cons jobs, if_pos (j.isStep_iff.2 step)]
  · rw [Part.runJobs_cons jobs, if_neg (mt j.isStep_iff.1 go)]
  · exact Part.runJob_voiceStays found fun ⟨held, quiet⟩ =>
      have ⟨kind, source⟩ := Part.voiceHeld_iff.1 held
      stays ⟨kind, source, quiet⟩
  · obtain ⟨kind, source, quiet⟩ := counts
    exact Part.runJob_voiceCounts found (Part.voiceHeld_iff.2 ⟨kind, source⟩) quiet
  · rw [Part.runJob_grace, stopped]
  · rw [Part.runJob_grace, running]
    cases n <;> rfl
  · rw [Part.runJob_standby, if_neg (mt Part.standbyCounts_iff.1 stays)]
  · exact (Part.runJob_standby p).trans (if_pos (Part.standbyCounts_iff.2 counts))

end Sys2Proof.Machine
end

section
/-!
PROOFS. SET_MIX (R123) and MUTE_ROOM (R117), and the duck counts and loudspeaker states that a recount leaves (R121, R122).
-/
namespace Sys2Proof.Machine

/-! ### SET_MIX (R123) -/

/-- Bytes of a mixing preset out of range spell no preset within Table 2-1. -/
theorem mixBytes_ne {m g : MixPreset} (gate : m.gate < 65536) (attack : m.attack < 256) (release : m.release < 256)
    (master : m.master < 256) (record : m.record < 256) (duck : m.duck < 256) (out : ¬m.Fits) (fits : g.Fits) :
    mixBytes g ≠ mixBytes m := by
  intro same
  have spelled := (mixBytes_eq_bytes fits _ _ _ _ _ _ _).1 same
  rw [← (u16_eq_bytes gate _ _).1 rfl, toNat_ofNat_byte attack, toNat_ofNat_byte release, toNat_ofNat_byte master,
    toNat_ofNat_byte record, toNat_ofNat_byte duck] at spelled
  exact out ((show g = m from spelled) ▸ fits)

section
variable {s : State} (ready : s.part.Ready) (tag : Byte)
include ready

theorem exec_setMix_unspelled {bytes : List Byte} (len : bytes.length = 7)
    (none : ∀ g : MixPreset, g.Fits → mixBytes g ≠ bytes) : exec (.setMix tag bytes) s = s.refuses 0xB0 tag 0x03 :=
  request_refuses (f := ⟨0x30, tag, bytes⟩) (owner := answerSetMix) (status := .badArg) ready
    ((readMix_spells len).readThen_none none _ _)

variable {m : MixPreset} (fits : m.Fits)
include fits

theorem exec_setMix_idle (idle : s.part.isOpen = false) : exec (.setMix tag (mixBytes m)) s = s.refuses 0xB0 tag 0x08 :=
  request_refuses (f := ⟨0x30, tag, mixBytes m⟩) (owner := answerSetMix) (status := .noSession) ready
    (((readMix_spells (mixBytes_length m)).readThen_some fits rfl _ _).trans (if_neg (ne_true_of_eq_false idle)))

theorem exec_setMix_open (isOpen : s.part.isOpen = true) :
    exec (.setMix tag (mixBytes m)) s = s.acceptsWaking 0xB0 tag [] (s.part.taken.setMix m) :=
  request_acceptsWaking (f := ⟨0x30, tag, mixBytes m⟩) (owner := answerSetMix) ready
    (((readMix_spells (mixBytes_length m)).readThen_some fits rfl _ _).trans (if_pos isOpen))

end

/-! ### MUTE_ROOM (R117) -/

/-- What MUTE_ROOM does with the number that it reads. -/
theorem answerMuteRoom_written {n : Nat} (h : n < 256) (p : Part) :
    answerMuteRoom (u8 n) p =
      checkThen (flag? n) p fun mute => okWake [] { p with mixer := { p.mixer with mute := mute } } :=
  readThen_ok (readByte_last h)

section
variable {s : State} (ready : s.part.Ready) (tag : Byte) {n : Nat}
include ready

theorem exec_muteRoom_choice (h : n < 2) :
    exec (.muteRoom tag (u8 n)) s =
      s.acceptsWaking 0xB2 tag [] { s.part.taken with mixer := { s.part.mixer with mute := n = 0 } } := by
  have choice : flag? n = some (decide (n = 0)) := by
    match n, h with
    | 0, _ => rfl
    | 1, _ => rfl
  refine request_acceptsWaking (f := ⟨0x32, tag, u8 n⟩) (owner := answerMuteRoom) ready
    ((answerMuteRoom_written (by omega) _).trans ?_)
  rw [choice, checkThen_some]
  rfl

theorem exec_muteRoom_badChoice (bad : 1 < n) (h : n < 256) :
    exec (.muteRoom tag (u8 n)) s = s.refuses 0xB2 tag 0x03 := by
  refine request_refuses (f := ⟨0x32, tag, u8 n⟩) (owner := answerMuteRoom) (status := .badArg) ready
    ((answerMuteRoom_written h _).trans ?_)
  rw [flag?_of_gt bad, checkThen_none]

end

/-! ### Recounts (R121, R122) -/

section
variable {p : Part} (ducks : p.mixer.ducks.length = 64) (loud : p.mixer.loud.length = 64)
include ducks loud

/-- A recount of a chain queues SPEAKER_STATE for its own PRESENT seats whose state is new, in seat order. -/
theorem Part.recountChain_chain (c : Chain) :
    (p.recountChain c).chain c =
      (chainSeats c).foldl (init := p.chain c) fun k x =>
        if p.mixer.loudNew x ≠ p.mixer.loud.getD x.val .normal ∧ (p.seat x).link = .present then
          k.queueItem x (.speakerState (p.mixer.loudNew x))
        else k := by
  obtain ⟨-, -, -, -, -, chains⟩ := p.recountChain_spec c ducks loud
  rw [chains]
  refine List.foldl_ext _ _ _ fun k x mem => ?_
  have own : chainOf x = c := (mem_chainSeats c x).1 mem
  simp only [Part.spoken, own, true_and]

/-- A recount of a chain leaves the other chain. -/
theorem Part.recountChain_otherChain {c other : Chain} (ne : other ≠ c) : (p.recountChain c).chain other = p.chain other := by
  obtain ⟨-, -, -, -, -, chains⟩ := p.recountChain_spec c ducks loud
  rw [chains]
  refine (List.foldl_ext _ (fun k _ => k) _ fun k x mem => ?_).trans (List.foldl_fixed _)
  have foreign : chainOf x ≠ other := fun e => ne (e.symm.trans ((mem_chainSeats c x).1 mem))
  exact if_neg fun k => foreign k.2.1

/-- After a recount of a chain its seats have the counts and states of the channels as they stand. -/
theorem Part.recountChain_counts {c : Chain} {y : Seat} (own : chainOf y = c) :
    (p.recountChain c).mixer.ducks.getD y.val 0 = (p.recountChain c).mixer.duckCount y ∧
      (p.recountChain c).mixer.loud.getD y.val .normal = (p.recountChain c).mixer.loudNew y := by
  obtain ⟨whole, -, -, counts, states, -⟩ := p.recountChain_spec c ducks loud
  have channels : (p.recountChain c).mixer.channels = p.mixer.channels := by rw [whole]
  have params : (p.recountChain c).mixer.params = p.mixer.params := by rw [whole]
  rw [Mixer.duckCount_congr channels params, Mixer.loudNew_congr channels params, counts, states, if_pos own, if_pos own]
  exact ⟨rfl, rfl⟩

/-- The same after a seat of the chain has been counted first, as an opening and a close do (log 19). -/
theorem Part.recounted_counts {x y : Seat} (same : chainOf y = chainOf x) :
    let q := (p.recountSeat x).recountChain (chainOf x)
    q.mixer.ducks.getD y.val 0 = q.mixer.duckCount y ∧ q.mixer.loud.getD y.val .normal = q.mixer.loudNew y := by
  obtain ⟨-, ducks', loud', -⟩ := p.recountSeat_spec x ducks loud
  exact Part.recountChain_counts ducks' loud' same

end

/-- The part with the channel record that an opening makes (R102), before its seats are counted again. -/
def Part.channelOpened (x : Seat) (ch : Nat) (kind : Kind) (p : Part) : Part :=
  p.modMixer fun m =>
    { m with
      channels := updateAt (fun _ => some ⟨x, 0, 0, (p.seat x).trim, p.biasOf kind, 0, some m.changes⟩) m.channels ch
      changes := m.changes + 1 }

theorem Part.mixerOpen_eq (x : Seat) (ch : Nat) (kind : Kind) (p : Part) :
    p.mixerOpen x ch kind = ((p.channelOpened x ch kind).recountSeat x).recountChain (chainOf x) := rfl

theorem Part.mixerClose_taken {p : Part} {ch : Nat} (taken : p.mixer.channels.getD ch none ≠ none) (x : Seat) (lane : Nat)
    (live : Bool) :
    p.mixerClose x ch lane live = ((p.modMixer (Mixer.free ch lane live)).recountSeat x).recountChain (chainOf x) :=
  if_neg (by simpa [Mixer.channel?, Option.isNone_iff_eq_none] using taken)

/-- Settles O47: SET_MIX by the preset that its bytes spell, MUTE_ROOM by its number, and the recount of a chain, which an opening
and a close end with. -/
theorem mixRequests : Obligations.MixRequests := by
  refine ⟨fun s tag ready => ⟨fun m fits => ⟨exec_setMix_idle ready tag fits, exec_setMix_open ready tag fits⟩,
    fun m gate attack release master record duck out => exec_setMix_unspelled ready tag (mixBytes_length m)
      fun g => mixBytes_ne gate attack release master record duck out,
    fun n => exec_muteRoom_choice ready tag, fun n => exec_muteRoom_badChoice ready tag⟩,
    fun p ducks loud => ⟨fun c => ?_, fun x y ch same => ⟨fun kind => ?_, fun lane live taken => ?_⟩⟩⟩
  · obtain ⟨whole, -, -, counts, states, -⟩ := p.recountChain_spec c ducks loud
    exact ⟨whole, fun x => ⟨counts x, states x⟩, Part.recountChain_chain ducks loud c,
      fun other => Part.recountChain_otherChain ducks loud⟩
  · dsimp only
    rw [Part.mixerOpen_eq]
    exact Part.recounted_counts (p := p.channelOpened x ch kind) ducks loud same
  · obtain ⟨freeDucks, freeLoud⟩ := p.mixer.free_counts ch lane live
    dsimp only
    rw [Part.mixerClose_taken taken]
    exact Part.recounted_counts (p := p.modMixer (Mixer.free ch lane live)) (freeDucks ▸ ducks) (freeLoud ▸ loud) same

end Sys2Proof.Machine
end

section
/-!
PROOFS. The gain computation of a block completion (R105 to R112): the channel records that it leaves, and the last-mic holder.
-/
namespace Sys2Proof.Machine

/-! ### A block completion at a quiet part -/

theorem exec_blockCompletion {s : State} (quiet : s.part.Quiet) (audio : List LaneAudio) (changedAt : List Nat) :
    exec (.blockCompletion audio changedAt) s = .next { s with part := s.part.completeBlock audio changedAt } := by
  show onPart (Part.whenRunning (Part.completeBlock audio changedAt)) s = _
  unfold onPart
  rw [quiet.whenRunning]

/-- The mixer with the outputs of the completed block, and with its OPEN channels measured (R105 to R108). -/
def Part.measuredMixer (p : Part) (audio : List LaneAudio) (changedAt : List Nat) : Mixer :=
  { p.mixer.output (p.channelSum audio changedAt) with
    channels := p.mixer.channels.zipIdx.map fun (r, ch) => r.map (p.measure audio changedAt ch) }

theorem Part.completeBlock_mixer (audio : List LaneAudio) (changedAt : List Nat) (p : Part) :
    (p.completeBlock audio changedAt).mixer = (p.measuredMixer audio changedAt).install := rfl

/-! ### Channel records, one by one -/

/-- A channel with its share gain and its effective gain (R109 to R111). -/
def Mixer.withGains (m : Mixer) (ch : Nat) (c : Channel) : Channel :=
  { c with
    share := shareGain m.params.gate m.holder m.openChannels ch c
    gain := shareGain m.params.gate m.holder m.openChannels ch c * c.trim / 16 }

theorem Mixer.install_channels (m : Mixer) :
    m.install.channels = m.channels.zipIdx.map fun x => x.1.map (m.withGains x.2) := rfl

theorem getElem?_numbered (g : Nat → Channel → Channel) (xs : List (Option Channel)) (ch : Nat) :
    (xs.zipIdx.map fun x => x.1.map (g x.2))[ch]? = xs[ch]?.map (Option.map (g ch)) := by
  rw [List.getElem?_map, List.getElem?_zipIdx, Option.map_map]
  simp [Function.comp_def]

theorem Mixer.install_channel_some {m : Mixer} {ch : Nat} {d : Channel} :
    m.install.channels[ch]? = some (some d) ↔ ∃ c, m.channels[ch]? = some (some c) ∧ m.withGains ch c = d := by
  rw [Mixer.install_channels, getElem?_numbered]
  simp

/-- The record of a channel after a completion: it is OPEN as before, measured, and given its gains. -/
theorem Part.completeBlock_channel (audio : List LaneAudio) (changedAt : List Nat) (p : Part) (ch : Nat) :
    (p.completeBlock audio changedAt).mixer.channels[ch]? =
      p.mixer.channels[ch]?.map (Option.map fun c =>
        (p.measuredMixer audio changedAt).withGains ch (p.measure audio changedAt ch c)) := by
  have measured : (p.measuredMixer audio changedAt).channels[ch]? = _ :=
    getElem?_numbered (p.measure audio changedAt) p.mixer.channels ch
  rw [Part.completeBlock_mixer, Mixer.install_channels, getElem?_numbered, measured, Option.map_map, Option.map_comp_map]
  rfl

/-- No channel opens, closes or changes its seat at a completion. -/
theorem Part.completeBlock_channelSeats (audio : List LaneAudio) (changedAt : List Nat) (p : Part) :
    (p.completeBlock audio changedAt).mixer.channels.map (Option.map Channel.seat) =
      p.mixer.channels.map (Option.map Channel.seat) := by
  refine List.ext_getElem? fun ch => ?_
  rw [List.getElem?_map, List.getElem?_map, Part.completeBlock_channel, Option.map_map]
  congr 1
  funext r
  cases r <;> rfl

/-! ### The OPEN channels -/

theorem Mixer.openChannels_eq (m : Mixer) : m.openChannels = openOf m.channels.zipIdx := rfl

/-- The OPEN channels after the gain computation are those measured, with their gains. -/
theorem Mixer.install_open (m : Mixer) :
    m.install.channels.filterMap id = m.openChannels.map fun x => m.withGains x.1 x.2 := by
  rw [Mixer.install_channels, Mixer.openChannels_eq, List.filterMap_map, List.map_filterMap]
  refine List.filterMap_congr fun x _ => ?_
  obtain ⟨r, ch⟩ := x
  cases r <;> rfl

/-- A numbered OPEN channel is the record that stands at its number. -/
theorem Mixer.mem_openChannels {m : Mixer} {ch : Nat} {c : Channel} :
    (ch, c) ∈ m.openChannels ↔ m.channels[ch]? = some (some c) := by
  rw [Mixer.openChannels_eq, List.mem_filterMap]
  constructor
  · rintro ⟨⟨r, n⟩, mem, same⟩
    obtain ⟨d, rfl, pair⟩ := Option.map_eq_some_iff.1 same
    cases pair
    exact List.mk_mem_zipIdx_iff_getElem?.1 mem
  · exact fun stands => ⟨(some c, ch), List.mk_mem_zipIdx_iff_getElem?.2 stands, rfl⟩

/-- The OPEN channels stand in channel order. -/
theorem Mixer.openChannels_sorted (m : Mixer) : m.openChannels.Pairwise fun a b => a.1 < b.1 := by
  have numbers : m.channels.zipIdx.Pairwise fun a b => a.2 < b.2 := by
    rw [← List.pairwise_map (f := Prod.snd), List.zipIdx_map_snd]
    exact List.pairwise_lt_range'
  rw [Mixer.openChannels_eq, openOf, List.pairwise_filterMap]
  refine numbers.imp fun {a b} lt x hx y hy => ?_
  obtain ⟨_, -, rfl⟩ := Option.map_eq_some_iff.1 hx
  obtain ⟨_, -, rfl⟩ := Option.map_eq_some_iff.1 hy
  exact lt

theorem Channel.weight_eq (c : Channel) : c.weight = (if c.envelope = 0 then 1 else c.envelope) * c.bias := by
  unfold Channel.weight
  split <;> congr 1 <;> omega

/-! ### The last-mic holder (R109) -/

/-- The louder of the channel found so far and another one: the other one only when it is at or above the gate, and greater. -/
def louder (gate : Nat) (best : Option (Nat × Channel)) (x : Nat × Channel) : Option (Nat × Channel) :=
  if x.2.envelope < gate ∨ ∃ b ∈ best, x.2.envelope ≤ b.2.envelope then best else some x

theorem loudestAbove_eq (gate : Nat) (channels : List (Nat × Channel)) :
    loudestAbove gate channels = channels.foldl (louder gate) none := by
  unfold loudestAbove
  refine List.foldl_ext _ _ _ fun best x _ => ?_
  by_cases quiet : x.2.envelope < gate
  · simp [louder, quiet]
  · rcases best with _ | b
    · simp [louder, quiet]
    · by_cases greater : b.2.envelope < x.2.envelope <;> simp [louder, quiet, greater]

/-- A channel that no later one exceeds stays the one found. -/
theorem foldl_louder_stays (gate : Nat) {x : Nat × Channel} {back : List (Nat × Channel)}
    (most : ∀ y ∈ back, y.2.envelope ≤ x.2.envelope) : back.foldl (louder gate) (some x) = some x := by
  induction back with
  | nil => rfl
  | cons y back ih =>
    obtain ⟨first, rest⟩ := List.forall_mem_cons.1 most
    have stays : louder gate (some x) y = some x := if_pos (.inr ⟨x, rfl, first⟩)
    rw [List.foldl_cons, stays, ih rest]

/-- What is found among channels below a level is below it. -/
theorem foldl_louder_below {gate level : Nat} {front : List (Nat × Channel)} {best : Option (Nat × Channel)}
    (start : ∀ b ∈ best, b.2.envelope < level) (below : ∀ y ∈ front, y.2.envelope < level) :
    ∀ b ∈ front.foldl (louder gate) best, b.2.envelope < level := by
  induction front generalizing best with
  | nil => exact start
  | cons y front ih =>
    obtain ⟨first, rest⟩ := List.forall_mem_cons.1 below
    refine ih (fun b found => ?_) rest
    unfold louder at found
    split at found
    · exact start b found
    · cases found
      exact first

/-- With every channel below the gate none is found. -/
theorem loudestAbove_none {gate : Nat} {channels : List (Nat × Channel)} (quiet : ∀ x ∈ channels, x.2.envelope < gate) :
    loudestAbove gate channels = none := by
  rw [loudestAbove_eq]
  exact (List.foldl_ext _ (fun best _ => best) _ fun best x mem => if_pos (.inl (quiet x mem))).trans (List.foldl_fixed _)

/-- The greatest channel at or above the gate is found, the lowest-numbered of equals (R109). -/
theorem loudestAbove_greatest {gate : Nat} {channels : List (Nat × Channel)} (sorted : channels.Pairwise fun a b => a.1 < b.1)
    {x : Nat × Channel} (mem : x ∈ channels) (above : gate ≤ x.2.envelope)
    (greatest : ∀ y ∈ channels, y.2.envelope < x.2.envelope ∨ (y.2.envelope = x.2.envelope ∧ x.1 ≤ y.1)) :
    loudestAbove gate channels = some x := by
  obtain ⟨front, back, rfl⟩ := List.append_of_mem mem
  obtain ⟨-, -, between⟩ := List.pairwise_append.1 sorted
  have before : ∀ y ∈ front, y.2.envelope < x.2.envelope := fun y m =>
    (greatest y (List.mem_append_left _ m)).resolve_right fun equal =>
      absurd (between y m x List.mem_cons_self) (Nat.not_lt.2 equal.2)
  have after : ∀ y ∈ back, y.2.envelope ≤ x.2.envelope := fun y m =>
    (greatest y (List.mem_append_right _ (List.mem_cons_of_mem _ m))).elim Nat.le_of_lt fun equal => equal.1.le
  have taken : louder gate (front.foldl (louder gate) none) x = some x := by
    refine if_neg ?_
    rintro (quiet | ⟨b, found, least⟩)
    · exact absurd quiet (Nat.not_lt.2 above)
    · exact absurd (foldl_louder_below (by simp) before b found) (Nat.not_lt.2 least)
  rw [loudestAbove_eq, List.foldl_append, List.foldl_cons, taken]
  exact foldl_louder_stays gate after

section
variable {m : Mixer}

/-- The greatest envelope at or above the gate takes the last-mic holder. -/
theorem Mixer.install_holder_loudest {ch : Nat} {d : Channel} (stands : m.install.channels[ch]? = some (some d))
    (above : m.params.gate ≤ d.envelope)
    (greatest : ∀ (k : Nat) (e : Channel), m.install.channels[k]? = some (some e) →
      e.envelope < d.envelope ∨ (e.envelope = d.envelope ∧ ch ≤ k)) : m.install.holder = some ch := by
  obtain ⟨c, before, rfl⟩ := Mixer.install_channel_some.1 stands
  have found : loudestAbove m.params.gate m.openChannels = some (ch, c) :=
    loudestAbove_greatest m.openChannels_sorted (Mixer.mem_openChannels.2 before) above fun y mem =>
      greatest y.1 (m.withGains y.1 y.2) (Mixer.install_channel_some.2 ⟨y.2, Mixer.mem_openChannels.1 mem, rfl⟩)
  unfold Mixer.install
  simp only [found]

/-- With every envelope below the gate the holder stays, or is none when no channel is OPEN. -/
theorem Mixer.install_holder_quiet (quiet : ∀ e ∈ m.install.channels.filterMap id, e.envelope < m.params.gate) :
    m.install.holder = if m.install.channels.filterMap id = [] then none else m.holder := by
  rw [Mixer.install_open] at quiet ⊢
  have none : loudestAbove m.params.gate m.openChannels = none :=
    loudestAbove_none fun x mem => quiet (m.withGains x.1 x.2) (List.mem_map.2 ⟨x, mem, rfl⟩)
  unfold Mixer.install
  simp only [none, List.isEmpty_iff, List.map_eq_nil_iff]

end

/-! ### The share gains (R109, R110) -/

section
variable (m : Mixer) (ch : Nat) (c : Channel)

theorem Mixer.withGains_share_heard (heard : ∃ x ∈ m.install.channels.filterMap id, m.params.gate ≤ x.envelope) :
    (m.withGains ch c).share = 32768 * c.weight / ((m.install.channels.filterMap id).map Channel.weight).sum := by
  rw [Mixer.install_open] at heard ⊢
  rw [List.map_map]
  exact if_pos (by simpa [Mixer.withGains] using heard)

theorem Mixer.withGains_share_quiet (quiet : ¬∃ x ∈ m.install.channels.filterMap id, m.params.gate ≤ x.envelope) :
    (m.withGains ch c).share =
      m.holder.elim (32768 / (m.install.channels.filterMap id).length) fun h => if h = ch then 32768 else 0 := by
  rw [Mixer.install_open] at quiet ⊢
  refine (if_neg (by simpa [Mixer.withGains] using quiet)).trans ?_
  rw [List.length_map]
  cases m.holder <;> rfl

end

/-- The effective gain (R111). -/
theorem Mixer.withGains_gain (m : Mixer) (ch : Nat) (c : Channel) :
    (m.withGains ch c).gain = (m.withGains ch c).share * c.trim / 16 := rfl

/-! ### The measured channels (R106 to R108) -/

/-- The envelope moves toward the block mean by the attack or the release shift. -/
theorem Part.measure_envelope (p : Part) (audio : List LaneAudio) (changedAt : List Nat) (ch : Nat) (c : Channel) :
    let mean := min 32767 (((p.channelInput audio changedAt ch c).map Int.natAbs).sum / 16)
    (p.measure audio changedAt ch c).envelope =
      if c.envelope < mean then c.envelope + (mean - c.envelope) / 2 ^ p.mixer.params.attack
      else c.envelope - (c.envelope - mean) / 2 ^ p.mixer.params.release := rfl

theorem Part.measure_trim (p : Part) (audio : List LaneAudio) (changedAt : List Nat) (ch : Nat) (c : Channel) :
    (p.measure audio changedAt ch c).trim = (p.seat c.seat).trim := rfl

theorem Part.measure_bias (p : Part) (audio : List LaneAudio) (changedAt : List Nat) {ch : Nat} {e : Speaker}
    (found : (p.floor.speakers.find? fun e => e.channel = ch) = some e) (c : Channel) :
    (p.measure audio changedAt ch c).bias = if e.kind = .chair then p.floor.preset.chairBias else 1 := by
  unfold Part.measure
  simp only [found, Option.map_some, Option.getD_some]
  cases e.kind <;> rfl

/-- Settles O46: a completion installs the gains of the measured channels, whose laws say each part. -/
theorem gainsComputed : Obligations.GainsComputed := by
  refine fun s audio changedAt quiet => ⟨_, exec_blockCompletion quiet audio changedAt,
    Part.completeBlock_channelSeats audio changedAt s.part, fun ch c d before after => ?_,
    fun ch d => Mixer.install_holder_loudest (m := s.part.measuredMixer audio changedAt),
    Mixer.install_holder_quiet (m := s.part.measuredMixer audio changedAt)⟩
  obtain rfl : (s.part.measuredMixer audio changedAt).withGains ch (s.part.measure audio changedAt ch c) = d := by
    rw [Part.completeBlock_channel, before] at after
    simpa using after
  refine ⟨Part.measure_envelope s.part audio changedAt ch c, Part.measure_trim s.part audio changedAt ch c,
    Mixer.withGains_gain _ ch _, fun e found => Part.measure_bias s.part audio changedAt found c, ?_⟩
  simp only [← Channel.weight_eq]
  split
  · rename_i heard
    exact Mixer.withGains_share_heard _ ch _ heard
  · rename_i below
    refine (Mixer.withGains_share_quiet _ ch _ below).trans ?_
    show s.part.mixer.holder.elim _ _ = _
    cases s.part.mixer.holder <;> rfl

end Sys2Proof.Machine
end

section
/-!
PROOFS. The channel sum of a completed block (R103, R104, R113, R170), the record that a close keeps for it, and the outputs formed
from it (R114 to R118).
-/
namespace Sys2Proof.Machine

/-! ### Samples scaled by a gain or a level -/

theorem gained_scales (gain : Nat) (xs : List Int) : gained gain xs = xs.map fun x : Int => (x * (gain : Int)) / 32768 :=
  List.map_congr_left fun _ _ => Int.fdiv_eq_ediv_of_nonneg _ (by decide)

/-- A sample scaled by a level (R114, R115), before saturation. -/
def levelled (level : Nat) (x : Int) : Int := (x * level) / 128

theorem scaled_eq (level : Nat) (sum : List Int) : scaled level sum = sum.map (levelled level) :=
  List.map_congr_left fun _ _ => Int.fdiv_eq_ediv_of_nonneg _ (by decide)

theorem saturates_iff (x : Int) : saturates x = true ↔ x < -32768 ∨ 32767 < x := by
  simp [saturates]

/-! ### The outputs (R114 to R116, R118) -/

section
variable (m : Mixer) (sum : List Int)

/-- The room output is silent while it is muted or the room is in standby (R117, R118). -/
def Mixer.roomSilent : Bool := m.block.mute || m.block.outputForced

theorem Mixer.output_room :
    (m.output sum).roomOut =
      if m.roomSilent then List.replicate 16 0 else sum.map fun x => saturate (levelled m.block.master x) := by
  show (if m.roomSilent then List.replicate 16 0 else (scaled m.block.master sum).map saturate) = _
  rw [scaled_eq, List.map_map]
  rfl

theorem Mixer.output_record :
    (m.output sum).recordOut =
      if m.block.recordForced || m.block.outputForced then List.replicate 16 0
      else sum.map fun x => saturate (levelled m.block.record x) := by
  show (if m.block.recordForced || m.block.outputForced then List.replicate 16 0
    else (scaled m.block.record sum).map saturate) = _
  rw [scaled_eq, List.map_map]
  rfl

/-- A block with a saturated ROOM sample counts one clip (R116). -/
theorem Mixer.output_clip :
    (m.output sum).clip =
      if m.roomSilent = false ∧ ∃ x ∈ sum, levelled m.block.master x < -32768 ∨ 32767 < levelled m.block.master x then
        countUpTo 65535 m.clip
      else m.clip := by
  show (if !m.roomSilent && (scaled m.block.master sum).any saturates then countUpTo 65535 m.clip else m.clip) = _
  refine if_congr ?_ rfl rfl
  rw [scaled_eq]
  simp only [Bool.and_eq_true, Bool.not_eq_true', List.any_map, List.any_eq_true, Function.comp_apply, saturates_iff]

end

/-! ### What a completion installs and what it leaves (R112) -/

section
variable (audio : List LaneAudio) (changedAt : List Nat) (p : Part)

/-- The settings in force become those of the next block, and stay in force. -/
theorem Part.completeBlock_settings :
    let m := p.mixer
    let n := (p.completeBlock audio changedAt).mixer
    n.block = ⟨m.params.master, m.params.record, m.mute, m.recordForced, m.outputForced⟩ ∧ n.params = m.params ∧
      n.mute = m.mute := ⟨rfl, rfl, rfl⟩

/-- The floor, the screens, the zones and the clock, but for the count of completions, are left. -/
theorem Part.completeBlock_leaves :
    let q := p.completeBlock audio changedAt
    q.floor = p.floor ∧ q.screens = p.screens ∧ q.zones = p.zones ∧
      q.sched = { p.sched with completions := (p.sched.completions + 1) % 1000 } := ⟨rfl, rfl, rfl, rfl⟩

end

/-! ### A close within the block (R103, R113) -/

/-- A recount leaves the records of the channels closed within the block. -/
theorem Part.recountSeat_closed (x : Seat) (p : Part) : (p.recountSeat x).mixer.closed = p.mixer.closed := by
  unfold Part.recountSeat
  dsimp only
  split <;> simp [Part.modMixer]

theorem Part.recountChain_closed (c : Chain) (p : Part) : (p.recountChain c).mixer.closed = p.mixer.closed := by
  unfold Part.recountChain
  induction chainSeats c generalizing p with
  | nil => rfl
  | cons x xs ih => rw [List.foldl_cons, ih, Part.recountSeat_closed]

/-- A close keeps the record of a channel that was heard in the block so far; one opened since the last completion has gain 0. -/
theorem Mixer.free_closed {m : Mixer} {ch : Nat} {r : Channel} (taken : m.channels.getD ch none = some r) (lane : Nat)
    (live : Bool) :
    (m.free ch lane live).closed =
      if r.openedAt = none then m.closed ++ [⟨chainOf r.seat, lane, live, r.gain, m.changes⟩] else m.closed := by
  unfold Mixer.free Mixer.channel?
  simp only [taken, Option.isNone_iff_eq_none]

theorem ChainCtl.laneLive_eq (k : ChainCtl) (lane : Nat) :
    k.laneLive lane =
      (decide (k.state = .active) && (k.lanes[lane]?).any fun l => l.assigned.any fun y => l.transmitting = [y]) := by
  unfold ChainCtl.laneLive
  rcases k.lanes[lane]? with _ | ⟨_ | y, t⟩ <;> simp

theorem Part.closeMic_closed {p : Part} {x : Seat} {e : Speaker} {r : Channel} (cause : CloseCause)
    (found : (p.floor.speakers.find? fun e => e.seat = x) = some e) (taken : p.mixer.channels.getD e.channel none = some r) :
    (p.closeMic x (some cause)).mixer.closed =
      if r.openedAt = none then
        p.mixer.closed ++ [⟨chainOf r.seat, e.lane, (p.chain (chainOf x)).laneLive e.lane, r.gain, p.mixer.changes⟩]
      else p.mixer.closed := by
  obtain rfl : e.seat = x := (Part.speaker?_some found).2
  have same : ((p.delisted e (some cause)).chainClose e.seat e.lane).mixer = p.mixer := by simp [Part.delisted]
  rw [Part.closeMic_eq found, Part.closeWith_mixer, Part.mixerClose_taken (by rw [same, taken]; simp),
    Part.recountChain_closed, Part.recountSeat_closed, Part.modMixer_mixer, same, Mixer.free_closed taken]

/-- Settles O45: the sums position by position, the record of a close, and the outputs and settings of a completion. -/
theorem blockOutputsFormed : Obligations.BlockOutputsFormed := by
  refine ⟨gained_scales, fun p audio changedAt => ?_, fun p x cause e r found taken => ?_, fun s audio changedAt quiet => ?_⟩
  · intro received input
    have heard : p.inputSample audio changedAt = input := by
      funext ch r k
      rcases found : p.floor.speakers.find? fun e => e.channel = ch with _ | e
      · simp only [Part.inputSample, input, found]
      · simp only [Part.inputSample, input, found]
        exact if_congr (and_congr_left' (ChainCtl.laneLive_iff _ _)) rfl rfl
    have sum := p.channelSum_eq audio changedAt
    rw [heard] at sum
    exact ⟨fun ch r => heard ▸ p.channelInput_eq audio changedAt ch r, sum⟩
  · dsimp only
    rw [Part.closeMic_closed cause found taken, ChainCtl.laneLive_eq]
  · obtain ⟨block, params, mute⟩ := Part.completeBlock_settings audio changedAt s.part
    exact ⟨_, exec_blockCompletion quiet audio changedAt, Mixer.output_room _ _, Mixer.output_record _ _, Mixer.output_clip _ _,
      block, params, mute, Part.completeBlock_leaves audio changedAt s.part⟩

end Sys2Proof.Machine
end

section
/-!
PROOFS. SET_CAMERA (R138): the values that its reading accepts; and the camera and preset of a seat (R131).
-/
namespace Sys2Proof.Machine

/-! ### The camera settings (R138) -/

/-- The values of SET_CAMERA that R138 accepts. -/
def CameraSettings.inRange (stripe settle hold idle forget : Nat) : Prop :=
  stripe ≤ 2 ∧ settle ≤ 3000 ∧ 250 ≤ hold ∧ hold ≤ 5000 ∧ 1 ≤ idle ∧ idle ≤ 60 ∧ forget ≤ 1

/-- What SET_CAMERA's numbers say, before a value is checked: none where one is refused. -/
def cameraSettings? (stripe settle hold idle forget : Nat) : Option CameraSettings := do
  let stripe ← [Stripe.block, .pairs, .interleave][stripe]?
  let settle ← within 0 3000 settle
  let hold ← within 250 5000 hold
  let idle ← within 1 60 idle
  let forget ← flag? forget
  return ⟨stripe, settle, hold, idle, forget⟩

theorem flag?_of_le {n : Nat} (h : n ≤ 1) : flag? n = some (decide (n = 0)) := by
  rcases Nat.le_one_iff_eq_zero_or_eq_one.1 h with rfl | rfl <;> rfl

theorem stripe?_of_le {n : Nat} (h : n ≤ 2) :
    [Stripe.block, .pairs, .interleave][n]? = some (if n = 0 then .block else if n = 1 then .pairs else .interleave) :=
  match n, h with
  | 0, _ | 1, _ | 2, _ => rfl

section
variable {stripe settle hold idle forget : Nat}

theorem readCamera_written (hs : stripe < 256) (ht : settle < 65536) (hh : hold < 65536) (hi : idle < 256)
    (hf : forget < 256) :
    readCamera (u8 stripe ++ u16 settle ++ u16 hold ++ u8 idle ++ u8 forget) =
      .ok (cameraSettings? stripe settle hold idle forget, []) := by
  unfold readCamera
  simp only [List.append_assoc]
  rw [bindByte hs, bindWord ht, bindWord hh, bindByte hi, bindByte_last hf, Reader.pure_run]
  rfl

theorem cameraSettings?_accepts (h : CameraSettings.inRange stripe settle hold idle forget) :
    cameraSettings? stripe settle hold idle forget =
      some ⟨if stripe = 0 then .block else if stripe = 1 then .pairs else .interleave, settle, hold, idle,
        decide (forget = 0)⟩ := by
  obtain ⟨hs, ht, hlow, hhigh, ilow, ihigh, hf⟩ := h
  simp only [cameraSettings?, stripe?_of_le hs, within_of_mem (And.intro (Nat.zero_le settle) ht),
    within_of_mem (And.intro hlow hhigh), within_of_mem (And.intro ilow ihigh), flag?_of_le hf]
  rfl

theorem cameraSettings?_refuses (h : ¬CameraSettings.inRange stripe settle hold idle forget) :
    cameraSettings? stripe settle hold idle forget = none := by
  unfold cameraSettings?
  by_cases hs : stripe ≤ 2
  swap
  · rw [List.getElem?_eq_none (by simp; omega)]; rfl
  by_cases ht : settle ≤ 3000
  swap
  · rw [within_of_not_mem fun mem => ht mem.2]
    simp
  by_cases hh : 250 ≤ hold ∧ hold ≤ 5000
  swap
  · rw [within_of_not_mem hh]
    simp
  by_cases hi : 1 ≤ idle ∧ idle ≤ 60
  swap
  · rw [within_of_not_mem hi]
    simp
  have hf : 1 < forget := Nat.lt_of_not_le fun hf => h ⟨hs, ht, hh.1, hh.2, hi.1, hi.2, hf⟩
  rw [flag?_of_gt hf]
  simp

end

/-- The settings replaced, with the presets forgotten by the number of the choice. -/
theorem Director.setCamera_choice (d : Director) (stripe : Stripe) (settle hold idle forget : Nat) :
    d.setCamera ⟨stripe, settle, hold, idle, decide (forget = 0)⟩ =
      { d with
        stripe := stripe
        settleTime := settle
        switchHold := hold
        idleTime := idle
        current := if forget = 0 then d.current.map fun _ => none else d.current } := by
  unfold Director.setCamera
  simp only [decide_eq_true_eq]

/-! ### The camera and preset of a seat (R131) -/

theorem Part.shotFor_entry {p : Part} {x : Seat} {shot : Shot} (entry : (p.seat x).shot = some shot) : p.shotFor x = shot := by
  rw [Part.shotFor, entry, Option.getD_some]

theorem Part.shotFor_default {p : Part} {x : Seat} (absent : (p.seat x).shot = none) :
    p.shotFor x = ⟨p.director.stripe.camera x, x.val + 1⟩ := by
  rw [Part.shotFor, absent, Option.getD_none]

/-- The stripe default stays below 4 cameras for each of the 64 seats. -/
theorem Stripe.camera_val (m : Stripe) (x : Seat) :
    (m.camera x).val =
      match m with
      | .block => x.val / 16
      | .pairs => x.val % 2 + 2 * (x.val / 32)
      | .interleave => x.val % 4 := by
  have seats := x.isLt
  cases m with
  | block => exact Nat.mod_eq_of_lt (by omega)
  | pairs => exact Nat.mod_eq_of_lt (by omega)
  | interleave => exact Nat.mod_eq_of_lt (by omega)

/-- Settles O48: the reading accepts exactly the values in range, and a choice reads the entry or the stripe default. -/
theorem cameraSettingsReplaced : Obligations.CameraSettingsReplaced := by
  refine ⟨fun s tag stripe settle hold idle forget ready hs ht hh hi hf => ?_, fun p x =>
    ⟨fun shot => Part.shotFor_entry, fun absent => ?_⟩⟩
  · have read : ∀ p work, readThen readCamera (u8 stripe ++ u16 settle ++ u16 hold ++ u8 idle ++ u8 forget) p work =
        work (cameraSettings? stripe settle hold idle forget) := fun _ _ => readThen_ok (readCamera_written hs ht hh hi hf)
    show onPart (Part.request ⟨0x34, tag, _⟩ answerSetCamera) s = _
    split
    · rename_i fits
      refine request_acceptsWaking ready ((read _ _).trans ?_)
      rw [cameraSettings?_accepts fits, checkThen_some, Part.modDirector, Director.setCamera_choice]
      rfl
    · rename_i bad
      refine request_refuses (status := .badArg) ready ((read _ _).trans ?_)
      rw [cameraSettings?_refuses bad, checkThen_none]
  · rw [Part.shotFor_default absent]
    exact ⟨rfl, Stripe.camera_val _ x⟩

end Sys2Proof.Machine
end

section
/-!
PROOFS. The camera director's due steps and its hand-overs: the lines of R132, the re-check of a settle (R133), the switch (R128,
R132), and the active speaker that becomes NONE (R129, R130, R134, R136).
-/
namespace Sys2Proof.Machine

/-! ### Hand-overs (R135) -/

theorem Part.setActive_eq (p : Part) (a : Option Seat) :
    p.setActive a =
      if p.director.active = a then p
      else
        Part.recomputeScreens { p with
          director := { p.director with active := a }, screens := { p.screens with active := a } } := rfl

theorem Part.setFollow_eq (p : Part) (f : Follow) :
    p.setFollow f =
      if p.director.follow = f then p
      else
        Part.recomputeScreens { p with
          director := { p.director with follow := f }, screens := { p.screens with follow := f } } := rfl

theorem Part.setActive_same {p : Part} {a : Option Seat} (same : p.director.active = a) : p.setActive a = p := if_pos same

theorem Part.sendRecall_eq (p : Part) (shot : Shot) :
    p.sendRecall shot =
      { p with
        screens := { p.screens with queue := Machine.placeRecord (.cameraRecall shot.camera shot.preset) p.screens.queue }
        director := { p.director with current := p.director.current.set shot.camera.val (some shot.preset) } } := by
  unfold Part.sendRecall
  rw [← updateAt_const]
  rfl

/-! ### The lines of R132 -/

/-- A camera stands at a preset: it is the current one, and no pending recall names the camera (R132). -/
theorem Director.standsAt_iff (d : Director) (shot : Shot) :
    d.standsAt shot = true ↔
      d.current.getD shot.camera.val none = some shot.preset ∧ ∀ r, d.aimed = some r → r.shot.camera ≠ shot.camera := by
  unfold Director.standsAt
  rcases d.aimed with _ | r <;> simp

theorem Director.aimed_any_iff (d : Director) (shot : Shot) :
    (d.aimed.any fun r => r.shot = shot) = true ↔ ∃ r, d.aimed = some r ∧ r.shot = shot := by
  simp [Option.any_eq_true]

/-- Lines 3 and 4 of R132, and no other, send a recall. -/
theorem Part.recallSent_iff (p : Part) (shot : Shot) :
    p.recallSent shot = true ↔
      (∀ r, p.director.aimed = some r → r.shot ≠ shot) ∧ ¬p.director.standsAt shot = true := by
  unfold Part.recallSent
  rw [Bool.and_eq_true, Bool.not_eq_true', Bool.not_eq_true', ← Bool.not_eq_true, ← Bool.not_eq_true, Director.aimed_any_iff]
  simp only [not_exists, not_and, ne_eq]

section
variable {p : Part} {shot : Shot} (x : Seat)

/-- Line 1: the pending recall of the same camera and preset is kept for the new seat. -/
theorem Part.aim_pending {r : Recall} (aimed : p.director.aimed = some r) (same : r.shot = shot) :
    p.aim x shot = { p with director := { p.director with aimed := some { r with seat := x } } } := by
  refine (if_pos ((p.director.aimed_any_iff shot).2 ⟨r, aimed, same⟩)).trans ?_
  simp only [Part.modDirector, aimed, Option.map_some]

section
variable (new : ∀ r, p.director.aimed = some r → r.shot ≠ shot)
include new

theorem Part.aim_new :
    p.aim x shot =
      if p.director.standsAt shot = true then p.dropRecall.setFollow (.cam shot.camera)
      else if p.director.settleTime = 0 then (p.dropRecall.sendRecall shot).setFollow (.cam shot.camera)
      else
        let cut := if p.director.follow = .cam shot.camera then p.dropRecall.setFollow .wide else p.dropRecall
        (cut.sendRecall shot).modDirector fun d => { d with aimed := some ⟨shot, x, d.settleTime⟩ } :=
  if_neg fun pending =>
    have ⟨r, aimed, same⟩ := (p.director.aimed_any_iff shot).1 pending
    new r aimed same

/-- Line 2: the camera stands at the preset. -/
theorem Part.aim_stands (stands : p.director.standsAt shot = true) :
    p.aim x shot = p.dropRecall.setFollow (.cam shot.camera) :=
  (Part.aim_new x new).trans (if_pos stands)

variable (moves : ¬p.director.standsAt shot = true)
include moves

/-- Line 3: without a settle time the camera is recalled and followed at once. -/
theorem Part.aim_at_once (unsettled : p.director.settleTime = 0) :
    p.aim x shot = (p.dropRecall.sendRecall shot).setFollow (.cam shot.camera) :=
  (Part.aim_new x new).trans ((if_neg moves).trans (if_pos unsettled))

/-- Line 4: screens that follow the camera are cut to the wide source, and the recall settles. -/
theorem Part.aim_settles (settles : p.director.settleTime ≠ 0) :
    p.aim x shot =
      let cut := if p.director.follow = .cam shot.camera then p.dropRecall.setFollow .wide else p.dropRecall
      (cut.sendRecall shot).modDirector fun d => { d with aimed := some ⟨shot, x, p.director.settleTime⟩ } := by
  refine (Part.aim_new x new).trans ((if_neg moves).trans ((if_neg settles).trans ?_))
  dsimp only
  split <;> simp only [Part.sendRecall_eq, Part.setFollow_director, Part.modDirector] <;> rfl

end

end

/-! ### The end of a settle (R133) -/

theorem Part.settleEnded_choice {p : Part} {r : Recall} (aimed : p.director.aimed = some r) (ended : r.settle = 0)
    (active : p.director.active = some r.seat) :
    p.settleEnded =
      if p.shotFor r.seat = r.shot then p.dropRecall.setFollow (.cam r.shot.camera)
      else p.dropRecall.aim r.seat (p.shotFor r.seat) := by
  unfold Part.settleEnded
  simp only [aimed, ended, active, ne_eq, not_true_eq_false, if_false, if_true]
  split
  · rename_i same
    rw [same]
  · rfl

/-! ### A seat becomes active speaker (R132) -/

/-- The part with its active speaker set and its camera aimed, before the notice. -/
def Part.switched (x : Seat) (p : Part) : Part :=
  Part.aim x (p.shotFor x) ((p.setActive (some x)).modDirector fun d => { d with idle := 0 })

/-- A new active speaker changes no seat's camera and preset. -/
theorem Part.shotFor_active (p : Part) (a : Option Seat) (x : Seat) :
    ((p.setActive a).modDirector fun d => { d with idle := 0 }).shotFor x = p.shotFor x := by
  unfold Part.shotFor Part.seat
  simp [Part.setActive_director]

/-- A new active speaker does not change whether a recall is sent. -/
theorem Part.recallSent_active (p : Part) (a : Option Seat) (shot : Shot) :
    ((p.setActive a).modDirector fun d => { d with idle := 0 }).recallSent shot = p.recallSent shot := by
  unfold Part.recallSent Director.standsAt
  simp only [Part.modDirector_director, Part.setActive_director]

section
variable (p : Part) (x : Seat)

theorem Part.becomeActive_eq :
    p.becomeActive x =
      (p.switched x).notify (.activeSpeaker (some x) p.director.active .switch (some (p.shotFor x))
        (p.recallSent (p.shotFor x)) (p.switched x).director.follow) := by
  unfold Part.becomeActive Part.switched
  dsimp only
  rw [Part.shotFor_active, Part.recallSent_active]

theorem Part.switched_keeps :
    (p.switched x).director.active = some x ∧ (p.switched x).director.idle = 0 ∧ (p.switched x).floor = p.floor ∧
      (p.switched x).mixer = p.mixer ∧ (p.switched x).sched = p.sched ∧ (p.switched x).owed = p.owed := by
  obtain ⟨active, idle, -, floor, mixer, sched, owed⟩ :=
    Part.aim_keeps x (p.shotFor x) ((p.setActive (some x)).modDirector fun d => { d with idle := 0 })
  unfold Part.switched
  rw [active, idle, floor, mixer, sched, owed]
  simp [Part.setActive_director]

theorem Part.switched_link : (p.switched x).link = p.link := by
  simp [Part.switched]

end

/-- A hold count that has reached the switch hold makes the candidate active speaker. -/
theorem Part.switchDue_held {p : Part} {x : Seat} (candidate : p.director.candidate = some x)
    (held : p.director.switchHold ≤ p.director.hold) :
    p.switchDue =
      { p.switched x with
        director := { (p.switched x).director with candidate := none, hold := 0 }
        link := p.link.notify (.activeSpeaker (some x) p.director.active .switch (some (p.shotFor x))
          (p.recallSent (p.shotFor x)) (p.switched x).director.follow) } := by
  unfold Part.switchDue
  simp only [candidate, if_pos held]
  rw [Part.becomeActive_eq, ← Part.switched_link p x]
  rfl

/-! ### The active speaker becomes NONE (R134) -/

/-- The part without an active speaker and a pending recall, on the wide source, before the notice. -/
def Part.unspoken (p : Part) : Part := ((p.setActive none).dropRecall).setFollow .wide

section
variable (p : Part)

theorem Part.unspoken_keeps :
    p.unspoken.director.active = none ∧ p.unspoken.director.aimed = none ∧ p.unspoken.director.follow = .wide ∧
      p.unspoken.director.current = p.director.current ∧ p.unspoken.floor = p.floor ∧ p.unspoken.mixer = p.mixer ∧
      p.unspoken.sched = p.sched := by
  simp [Part.unspoken, Part.setFollow_director, Part.setActive_director, Part.dropRecall]

theorem Part.unspoken_link : p.unspoken.link = p.link := by
  simp [Part.unspoken]

theorem Part.becomeNone_eq (cause : ActiveCause) :
    p.becomeNone cause =
      { p.unspoken with link := p.link.notify (.activeSpeaker none p.director.active cause none false .wide) } := by
  rw [← Part.unspoken_link]
  rfl

end

section
variable {p : Part}

/-- An idle count that has reached the idle time ends the active speaker (R129). -/
theorem Part.idleDue_reached (active : p.director.active.isSome = true)
    (reached : p.director.idleTime * 1000 ≤ p.director.idle) :
    p.idleDue =
      { p.unspoken with
        director := { p.unspoken.director with idle := 0 }
        link := p.link.notify (.activeSpeaker none p.director.active .idle none false .wide) } := by
  refine (if_pos (by simp [active, reached])).trans ?_
  rw [Part.becomeNone_eq]
  rfl

/-- The close of the active speaker's microphone (R130). -/
theorem Part.directorClose_active {x : Seat} (active : p.director.active = some x) :
    p.directorClose x =
      { p.unspoken with
        director := { p.unspoken.director with candidate := none, hold := 0, idle := 0 }
        link := p.link.notify (.activeSpeaker none p.director.active .micClosed none false .wide) } := by
  refine (if_pos active).trans ?_
  rw [Part.becomeNone_eq]
  rfl

/-- The close of the candidate's microphone (R130). -/
theorem Part.directorClose_candidate {x : Seat} (other : p.director.active ≠ some x)
    (candidate : p.director.candidate = some x) :
    p.directorClose x = { p with director := { p.director with candidate := none, hold := 0 } } :=
  (if_neg other).trans (if_pos candidate)

theorem Part.directorClose_other {x : Seat} (other : p.director.active ≠ some x)
    (unchosen : p.director.candidate ≠ some x) : p.directorClose x = p :=
  (if_neg other).trans (if_neg unchosen)

end

/-- A session's closing tells of an active speaker that it ends (R136). -/
theorem Part.directorSessionClose_eq (p : Part) :
    p.directorSessionClose =
      { p.unspoken with
        director := { p.unspoken.director with candidate := none, hold := 0, idle := 0 }
        link :=
          if p.director.active.isSome = true then
            p.link.notify (.activeSpeaker none p.director.active .sessionEnd none false .wide)
          else p.link } := by
  unfold Part.directorSessionClose
  by_cases active : p.director.active.isSome = true
  · simp only [if_pos active, Part.becomeNone_eq]
    rfl
  · have nobody : p.setActive none = p := Part.setActive_same (by simpa using active)
    simp only [if_neg active]
    rw [← Part.unspoken_link, Part.unspoken, nobody]
    rfl

/-! ### The commands of the due steps (log 2) -/

/-- The command of a due step that is first in line takes that step alone. -/
theorem onPart_takeFirst {s : State} {o : Owed} {rest : List Owed} (running : s.part.power = .running)
    (jobs : s.part.tickJobs = []) (owed : s.part.owed = o :: rest) :
    onPart (Part.takeFirst o) s = s.to (({ s.part with owed := rest }).takeOwed o) :=
  congrArg s.to (Part.takeFirst_first running jobs owed)

/-- Settles O49: each due step by what its operation does, and each line of R132 by its own lemma. -/
theorem directorStepsTaken : Obligations.DirectorStepsTaken := by
  refine ⟨fun s r rest running jobs owed aimed ended active => ?_, fun s x rest running jobs owed candidate held => ?_,
    fun p => ⟨fun s rest running jobs owed same active reached => ?_,
      fun x => ⟨Part.directorClose_active, Part.directorClose_candidate, Part.directorClose_other⟩,
      Part.directorSessionClose_eq p, p.unspoken_keeps⟩,
    fun p a f => ⟨p.setActive_eq a, p.setFollow_eq f⟩,
    fun p x shot => ⟨fun r => Part.aim_pending x, fun new => ⟨fun stands => ?_, fun moves unsettled => ?_,
      fun moves settles => ?_⟩⟩⟩
  · exact (onPart_takeFirst running jobs owed).trans (congrArg s.to (Part.settleEnded_choice aimed ended active))
  · intro p d shot stands recalled active aimed
    have sent : decide recalled = p.recallSent shot :=
      Bool.eq_iff_iff.2 (decide_eq_true_iff.trans
        ((and_congr_right' (not_congr (d.standsAt_iff shot).symm)).trans (p.recallSent_iff shot).symm))
    refine ⟨?_, p.switched_keeps x⟩
    rw [sent]
    exact (onPart_takeFirst running jobs owed).trans (congrArg s.to (Part.switchDue_held candidate held))
  · subst same
    exact (onPart_takeFirst running jobs owed).trans (congrArg s.to (Part.idleDue_reached active reached))
  · exact Part.aim_stands x new ((p.director.standsAt_iff shot).2 stands)
  · rw [Part.aim_at_once x new (mt (p.director.standsAt_iff shot).1 moves) unsettled, Part.sendRecall_eq]
    rfl
  · rw [Part.aim_settles x new (mt (p.director.standsAt_iff shot).1 moves) settles]
    simp only [Part.sendRecall_eq]
    rfl

end Sys2Proof.Machine
end

section
/-!
PROOFS. The director's counts at a block completion (R126, R128, R129), the steps that they make due, and the seat chosen (R127).
-/
namespace Sys2Proof.Machine

/-! ### The counts (R126, R128, R129) -/

section
variable (d : Director) (chosen : Option Seat)

/-- The hold count writes the candidate and itself alone. -/
theorem Director.countHold_keeps :
    d.countHold chosen = { d with candidate := (d.countHold chosen).candidate, hold := (d.countHold chosen).hold } := by
  unfold Director.countHold
  (repeat' split) <;> rfl

/-- The idle count writes itself alone. -/
theorem Director.countIdle_eq :
    d.countIdle chosen = { d with idle := if d.active.isSome = true ∧ chosen = none then d.idle + 1 else 0 } := by
  unfold Director.countIdle
  simp only [Bool.and_eq_true, Option.isNone_iff_eq_none]
  split <;> rfl

/-- A completion's counts, each by its own step. -/
theorem Director.count_eq :
    d.count chosen =
      { d with
        aimed := d.aimed.map fun r => { r with settle := r.settle - 1 }
        candidate := (d.countSettle.countHold chosen).candidate
        hold := (d.countSettle.countHold chosen).hold
        idle := if d.active.isSome = true ∧ chosen = none then d.idle + 1 else 0 } := by
  rw [Director.count, Director.countIdle_eq, Director.countHold_keeps]
  rfl

end

section
variable {d : Director} {x : Seat}

/-- Nobody, or the active speaker, clears the candidate (R128). -/
theorem Director.countHold_cleared {chosen : Option Seat} (h : chosen = none ∨ chosen = d.active) :
    d.countHold chosen = d.clearCandidate := by
  rcases chosen with _ | x
  · rfl
  · exact if_pos (h.resolve_left (by simp)).symm

/-- The stored candidate chosen again counts one more (R128). -/
theorem Director.countHold_again (other : d.active ≠ some x) (same : d.candidate = some x) :
    d.countHold (some x) = { d with hold := d.hold + 1 } := (if_neg other).trans (if_pos same)

/-- Another seat becomes the candidate and counts from 1 (R128). -/
theorem Director.countHold_new (other : d.active ≠ some x) (new : d.candidate ≠ some x) :
    d.countHold (some x) = { d with candidate := some x, hold := 1 } := (if_neg other).trans (if_neg new)

end

/-! ### The steps that the counts make due (R126, R128, R129) -/

section
variable {chosen : Option Seat} {d : Director}

theorem Director.settle_mem_due : .settle ∈ d.due chosen ↔ ∃ r, d.aimed = some r ∧ r.settle = 0 := by
  simp [Director.due, Option.any_eq_true]

theorem Director.switch_mem_due : .switch ∈ d.due chosen ↔ chosen ≠ none ∧ d.candidate ≠ none ∧ d.switchHold ≤ d.hold := by
  simp [Director.due, Option.isSome_iff_ne_none, and_assoc]

theorem Director.idle_mem_due : .idle ∈ d.due chosen ↔ chosen = none ∧ d.active ≠ none ∧ d.idleTime * 1000 ≤ d.idle := by
  simp [Director.due, Option.isSome_iff_ne_none, and_assoc]

end

/-- A step of the director is due at a completion only by the director's counts. -/
theorem Part.director_mem_due {chosen : Option Seat} {p : Part} {o : Owed} (own : o = .settle ∨ o = .switch ∨ o = .idle) :
    o ∈ p.due chosen ↔ o ∈ p.director.due chosen := by
  rw [Part.mem_due]
  refine ⟨?_, fun due => .inr (.inl due)⟩
  rintro (⟨y, -, rfl⟩ | director | ⟨-, rfl⟩ | ⟨-, rfl⟩ | ⟨-, rfl⟩ | sched)
  · simp at own
  · exact director
  · simp at own
  · simp at own
  · simp at own
  · rcases Scheduler.due_mem sched with rfl | rfl | rfl <;> simp at own

/-! ### The seat chosen (R127) -/

section
variable {m : Mixer}

/-- The seat of the greatest channel at or above the gate is chosen, the lowest-numbered of equals. -/
theorem Mixer.chosen_loudest {ch : Nat} {d : Channel} (stands : m.channels[ch]? = some (some d))
    (above : m.params.gate ≤ d.envelope)
    (greatest : ∀ (k : Nat) (c : Channel), m.channels[k]? = some (some c) →
      c.envelope < d.envelope ∨ (c.envelope = d.envelope ∧ ch ≤ k)) : m.chosen = some d.seat := by
  have found : loudestAbove m.params.gate m.openChannels = some (ch, d) :=
    loudestAbove_greatest m.openChannels_sorted (Mixer.mem_openChannels.2 stands) above fun y mem =>
      greatest y.1 y.2 (Mixer.mem_openChannels.1 mem)
  rw [Mixer.chosen, found, Option.map_some]

/-- With every envelope below the gate nobody is chosen. -/
theorem Mixer.chosen_quiet (quiet : ∀ c ∈ m.channels.filterMap id, c.envelope < m.params.gate) : m.chosen = none := by
  have none : loudestAbove m.params.gate m.openChannels = none := loudestAbove_none fun x mem =>
    quiet x.2 (List.mem_filterMap.2 ⟨some x.2, List.mem_of_getElem? (Mixer.mem_openChannels.1 mem), rfl⟩)
  rw [Mixer.chosen, none, Option.map_none]

end

section
variable (audio : List LaneAudio) (changedAt : List Nat) (p : Part)

/-- The director counts the seat chosen from the gains just computed. -/
theorem Part.completeBlock_director :
    (p.completeBlock audio changedAt).director = p.director.count (p.completeBlock audio changedAt).mixer.chosen := by
  simp [Part.completeBlock, Part.countMs]

theorem Part.completeBlock_owes :
    (p.completeBlock audio changedAt).owed =
      (p.completeBlock audio changedAt).due (p.completeBlock audio changedAt).mixer.chosen := rfl

end

/-- Settles O50: the counts by the seat chosen, which is read off the envelopes, and what they make due. -/
theorem directorCounts : Obligations.DirectorCounts := by
  refine ⟨fun d chosen => ?_, fun s audio changedAt quiet =>
    ⟨_, (s.part.completeBlock audio changedAt).mixer.chosen, exec_blockCompletion quiet audio changedAt,
      fun ch d => Mixer.chosen_loudest, Mixer.chosen_quiet, Part.completeBlock_director audio changedAt s.part, ?_⟩⟩
  · rw [Director.count_eq]
    refine ⟨rfl, fun clears => ?_, fun x chose other same => ?_, fun x chose other new => ?_, rfl, rfl, rfl, rfl⟩
    · rw [Director.countHold_cleared (d := d.countSettle) clears]
      exact ⟨rfl, rfl⟩
    · rw [chose, Director.countHold_again (d := d.countSettle) other same]
      exact ⟨same, rfl⟩
    · rw [chose, Director.countHold_new (d := d.countSettle) other new]
      exact ⟨rfl, rfl⟩
  · dsimp only
    rw [Part.completeBlock_owes, Part.director_mem_due (by simp), Part.director_mem_due (by simp),
      Part.director_mem_due (by simp)]
    exact ⟨Director.settle_mem_due, Director.switch_mem_due, Director.idle_mem_due⟩

end Sys2Proof.Machine
end

section
/-!
PROOFS. The source of a screen (R141 to R143).
-/
namespace Sys2Proof.Machine

section
variable {v : Screens} {i : Fin 8} {screen : Screen} (h : v.screens[i.val]? = some screen)
include h

theorem Screens.classOf_of_getElem? : v.classOf i = screen.cls := by
  rw [Screens.classOf, h]
  rfl

/-- The mode in force: the override when present, and otherwise the mode in the plan in force (R141, R142). -/
theorem Screens.modeOf_of_getElem? :
    v.modeOf i = screen.override.getD ((v.plans.getD v.plan.val []).getD i.val .auto) := by
  obtain ⟨cls, override, source⟩ := screen
  rw [Screens.modeOf, h]
  cases override <;> rfl

end

theorem Screens.active_any_iff (v : Screens) (test : Seat → Bool) :
    v.active.any test = true ↔ ∃ x, v.active = some x ∧ test x = true := by
  rw [Option.any_eq_true]

/-- Settles O51: standby and the class as they stand, then the mode in force, mode by mode. -/
theorem screenSourceDecided : Obligations.ScreenSourceDecided := by
  intro p i screen h
  dsimp only
  have standby : p.inStandby = true ↔ p.sched.standby = .standby := decide_eq_true_iff
  have hidden : (p.screens.confidential && p.screens.classOf i = .external) = true ↔
      p.screens.confidential = true ∧ screen.cls = .external := by
    rw [Screens.classOf_of_getElem? h, Bool.and_eq_true, decide_eq_true_iff]
  unfold Part.decideSource
  simp only [standby, hidden, Screens.modeOf_of_getElem? h]
  congr 2
  cases screen.override.getD ((p.screens.plans.getD p.screens.plan.val []).getD i.val .auto) with
  | fixed source => rfl
  | followSpeaker zone =>
    cases zone with
    | none => rfl
    | some z => simp only [Screens.active_any_iff]; rfl
  | followShare preferred fallback => cases preferred <;> rfl
  | auto => rfl

end Sys2Proof.Machine
end

section
/-!
PROOFS. The screen link queue and its transmission (R153), and SCREEN_REFRESH (R158).
-/
namespace Sys2Proof.Machine

/-! ### The screen link (R153) -/

theorem placeRecord_replaces {r : LinkRecord} {queue : List LinkRecord} (waits : ∃ x ∈ queue, r.sameTarget x = true) :
    placeRecord r queue = queue.map fun x => if r.sameTarget x then r else x := if_pos (List.any_eq_true.2 waits)

theorem placeRecord_appends {r : LinkRecord} {queue : List LinkRecord} (new : ∀ x ∈ queue, r.sameTarget x = false) :
    placeRecord r queue = queue ++ [r] := if_neg (by simpa using new)

theorem Screens.beginRecord_idle {v : Screens} {r : LinkRecord} {rest : List LinkRecord} (idle : v.sending = none)
    (first : v.queue = r :: rest) : v.beginRecord = { v with queue := rest, sending := some r } := by
  rw [Screens.beginRecord, idle, first]

theorem Screens.beginRecord_nothing {v : Screens} (none : v.sending.isSome = true ∨ v.queue = []) : v.beginRecord = v := by
  unfold Screens.beginRecord
  split
  · rename_i idle first
    simp [idle, first] at none
  · rfl

section
variable {s : State} (quiet : s.part.Quiet)
include quiet

theorem exec_screenLinkTransmitStart :
    exec .screenLinkTransmitStart s = s.to { s.part with screens := s.part.screens.beginRecord } :=
  congrArg s.to (quiet.whenRunning _)

theorem exec_screenLinkTransmitDone :
    exec .screenLinkTransmitDone s = s.to { s.part with screens := { s.part.screens with sending := none } } :=
  congrArg s.to (quiet.whenRunning _)

end

/-! ### SCREEN_REFRESH (R158) -/

/-- Records placed one after another write the queue alone. -/
theorem Part.foldl_placeRecord (records : List LinkRecord) (p : Part) :
    records.foldl (fun q r => q.placeRecord r) p =
      { p with screens := { p.screens with queue := records.foldl (fun q r => Machine.placeRecord r q) p.screens.queue } } := by
  induction records generalizing p with
  | nil => rfl
  | cons r records ih => rw [List.foldl_cons, ih]; rfl

/-- The records of a refresh: every route, and both share buses (R158). -/
def Screens.refreshRecords (v : Screens) : List LinkRecord :=
  (List.finRange 8).map (fun i => LinkRecord.route i (v.sourceOf i)) ++
    [.shareBus .one (v.slot1.map Share.input), .shareBus .two (v.slot2.map Share.input)]

theorem Part.refreshScreens_eq (p : Part) :
    p.refreshScreens =
      { p with screens := { p.screens with
        queue := p.screens.refreshRecords.foldl (fun q r => Machine.placeRecord r q) p.screens.queue } } := by
  rw [← Part.foldl_placeRecord, Screens.refreshRecords, List.foldl_append, List.foldl_map]
  rfl

theorem exec_screenRefresh {s : State} (ready : s.part.Ready) (tag : Byte) :
    exec (.screenRefresh tag []) s = s.accepts 0xBA tag [] s.part.taken.refreshScreens :=
  request_accepts (f := ⟨0x3A, tag, []⟩) (owner := answerScreenRefresh) ready (readThen_ok readNothing_nil)

/-- Settles O54: a record by the targets that wait, the link by what it sends, and the refresh as its records one by one. -/
theorem screenLinkRecords : Obligations.ScreenLinkRecords := by
  refine ⟨fun r queue => ⟨placeRecord_appends, fun waits => ?_⟩,
    fun s quiet => ⟨fun r rest idle first => ?_, fun nothing => ?_, exec_screenLinkTransmitDone quiet⟩,
    fun s tag ready => ?_⟩
  · rw [placeRecord_replaces waits]
    exact ⟨List.length_map _, fun k => List.getElem?_map⟩
  · rw [exec_screenLinkTransmitStart quiet, Screens.beginRecord_idle idle first]
  · rw [exec_screenLinkTransmitStart quiet, Screens.beginRecord_nothing nothing]
    rfl
  · dsimp only
    rw [exec_screenRefresh ready tag, Part.refreshScreens_eq]
    rfl

end Sys2Proof.Machine
end

section
/-!
PROOFS. SHARE_START and SHARE_STOP (R157), and how a share starts and ends (R149, R150).
-/
namespace Sys2Proof.Machine

/-! ### The slots of a share (R148) -/

/-- The slots and the grace timers stand beside the screens and the queue of the screen link. -/
theorem Screens.slots_beside (screens : List Screen) (queue : List LinkRecord) (v : Screens) (n : Slot) :
    ({ v with screens := screens, queue := queue } : Screens).slot n = v.slot n ∧
    ({ v with screens := screens, queue := queue } : Screens).grace n = v.grace n := by
  cases n <;> exact ⟨rfl, rfl⟩

@[simp] theorem Part.recomputeScreens_slot (n : Slot) (p : Part) :
    p.recomputeScreens.screens.slot n = p.screens.slot n := by
  rw [Part.recomputeScreens_screens, (Screens.slots_beside _ _ _ n).1]

@[simp] theorem Part.recomputeScreens_grace (n : Slot) (p : Part) :
    p.recomputeScreens.screens.grace n = p.screens.grace n := by
  rw [Part.recomputeScreens_screens, (Screens.slots_beside _ _ _ n).2]

@[simp] theorem Part.placeRecord_slot (r : LinkRecord) (n : Slot) (p : Part) :
    (p.placeRecord r).screens.slot n = p.screens.slot n := (Screens.slots_beside _ _ _ n).1

@[simp] theorem Part.placeRecord_grace (r : LinkRecord) (n : Slot) (p : Part) :
    (p.placeRecord r).screens.grace n = p.screens.grace n := (Screens.slots_beside _ _ _ n).2

@[simp] theorem Part.recomputeScreens_starts (p : Part) : p.recomputeScreens.screens.starts = p.screens.starts := by
  rw [Part.recomputeScreens_screens]

@[simp] theorem Part.recomputeScreens_older (p : Part) : p.recomputeScreens.screens.older = p.screens.older := by
  rw [Part.recomputeScreens_screens]

theorem Screens.slotOf_isSome_iff (v : Screens) (x : Seat) :
    (v.slotOf x).isSome = true ↔ (v.slot1.any fun h => h.seat = x) = true ∨ (v.slot2.any fun h => h.seat = x) = true := by
  unfold Screens.slotOf
  split
  · simp [*]
  · split <;> simp [*]

/-! ### The slot that a request gets (R149) -/

section
variable {p : Part} (x : Seat) (source : Source)

theorem Part.grantShare_slotOne (one : p.screens.slot1 = none) :
    p.grantShare x source = some (.one, p.takeSlot .one x source) := by
  simp [Part.grantShare, Screens.freeSlot, one]

theorem Part.grantShare_slotTwo (one : p.screens.slot1.isSome = true) (two : p.screens.slot2 = none) :
    p.grantShare x source = some (.two, p.takeSlot .two x source) := by
  have taken : p.screens.slot1 ≠ none := Option.isSome_iff_ne_none.1 one
  simp [Part.grantShare, Screens.freeSlot, taken, two]

variable {h1 h2 : Share} (one : p.screens.slot1 = some h1) (two : p.screens.slot2 = some h2)
include one two

theorem Part.grantShare_deny (policy : p.screens.policy = .deny) : p.grantShare x source = none := by
  simp [Part.grantShare, Screens.freeSlot, one, two, policy]

theorem Part.grantShare_takeover (policy : p.screens.policy = .takeover) {n : Slot} {h : Share}
    (older : p.screens.older = some n) (held : p.screens.slot n = some h) :
    p.grantShare x source = some (n, (p.freeShare n h .takenOver).takeSlot n x source) := by
  simp [Part.grantShare, Screens.freeSlot, one, two, policy, older, held]

end

/-! ### SHARE_START (R157) -/

theorem answerShareStart_badSeat {n : Nat} (gt : 63 < n) (h : n < 256) (p : Part) :
    answerShareStart (u8 n) p = refuse .badArg p := by
  unfold answerShareStart
  rw [readThen_ok (readByte_last h), seat?_of_gt gt, checkThen_none]

/-- SHARE_START of a seat, once its number is read. -/
theorem answerShareStart_seat (x : Seat) (p : Part) :
    answerShareStart (seatBytes x) p =
      if !p.isOpen then refuse .noSession p
      else if (p.screens.slotOf x).isSome then refuse .already p
      else if !p.mayShare x then refuse .refused p
      else
        match p.grantShare x .controller with
        | some (n, q) => ok (slotBytes n) q
        | none => refuse .full p := by
  refine (readThen_ok (readByte_last (seat_lt x))).trans ?_
  rw [seat?_val]
  rfl

/-! ### SHARE_STOP (R157) -/

theorem slot?_of_not_mem {n : Nat} (h : n = 0 ∨ 2 < n) : slot? n = none := by
  match n, h with
  | 0, _ => rfl
  | n + 3, _ => rfl

theorem answerShareStop_badSlot {n : Nat} (bad : n = 0 ∨ 2 < n) (h : n < 256) (p : Part) :
    answerShareStop (u8 n) p = refuse .badArg p := by
  unfold answerShareStop
  rw [readThen_ok (readByte_last h), slot?_of_not_mem bad, checkThen_none]

/-- SHARE_STOP of a slot, once its number is read. -/
theorem answerShareStop_slot (n : Slot) (p : Part) :
    answerShareStop (slotBytes n) p =
      if !p.isOpen then refuse .noSession p
      else if (p.screens.slot n).isSome then ok [] (p.endShare n .controller)
      else refuse .notFound p := by
  cases n <;> exact readThen_ok (readByte_last (by decide))

/-! ### The requests at a ready part -/

section
variable {s : State} (ready : s.part.Ready) (tag : Byte) {payload : List Byte}
include ready

theorem exec_shareStart_refuses {status : Status} (e : answerShareStart payload s.part.taken = refuse status s.part.taken) :
    exec (.shareStart tag payload) s = s.refuses 0xB7 tag status.code :=
  request_refuses (f := ⟨0x37, tag, payload⟩) ready e

theorem exec_shareStart_accepts {fields : List Byte} {q : Part} (e : answerShareStart payload s.part.taken = ok fields q) :
    exec (.shareStart tag payload) s = s.accepts 0xB7 tag fields q :=
  request_accepts (f := ⟨0x37, tag, payload⟩) ready e

theorem exec_shareStop_refuses {status : Status} (e : answerShareStop payload s.part.taken = refuse status s.part.taken) :
    exec (.shareStop tag payload) s = s.refuses 0xB8 tag status.code :=
  request_refuses (f := ⟨0x38, tag, payload⟩) ready e

theorem exec_shareStop_accepts {fields : List Byte} {q : Part} (e : answerShareStop payload s.part.taken = ok fields q) :
    exec (.shareStop tag payload) s = s.accepts 0xB8 tag fields q :=
  request_accepts (f := ⟨0x38, tag, payload⟩) ready e

end

/-! ### Starting and ending a share (R149, R150) -/

/-- A slot taken: what is written, and the screens computed again (R149). -/
theorem Part.takeSlot_eq (n : Slot) (x : Seat) (source : Source) (p : Part) :
    p.takeSlot n x source =
      ({ p with
        screens := { p.screens.setSlot n (some ⟨x, (p.seat x).input.getD 0, p.screens.starts + 1, source⟩) with
          starts := p.screens.starts + 1
          older := if (p.screens.slot (otherSlot n)).isSome then some (otherSlot n) else none
          queue := Machine.placeRecord (.shareBus n (some ((p.seat x).input.getD 0))) p.screens.queue }
        link := p.link.notify
          (.shareChanged n .started x ((p.seat x).input.getD 0) (p.screens.starts + 1) source none) }).recomputeScreens := by
  cases n <;> rfl

theorem Part.endShare_held {n : Slot} {p : Part} {h : Share} (held : p.screens.slot n = some h) (cause : ShareCause) :
    p.endShare n cause = ((p.freeShare n h cause).recomputeScreens).placeRecord (.shareBus n none) := by
  rw [Part.endShare, held]

section
variable (p : Part) (n : Slot)

theorem Part.takeSlot_screens (x : Seat) (source : Source) :
    (p.takeSlot n x source).screens.slot n = some ⟨x, (p.seat x).input.getD 0, p.screens.starts + 1, source⟩ ∧
    (p.takeSlot n x source).screens.starts = p.screens.starts + 1 ∧
    (p.takeSlot n x source).screens.slot (otherSlot n) = p.screens.slot (otherSlot n) ∧
    (p.takeSlot n x source).screens.older = if (p.screens.slot (otherSlot n)).isSome then some (otherSlot n) else none := by
  rw [Part.takeSlot_eq, Part.recomputeScreens_slot, Part.recomputeScreens_slot, Part.recomputeScreens_starts,
    Part.recomputeScreens_older]
  cases n <;> exact ⟨rfl, rfl, rfl, rfl⟩

theorem Part.freeShare_screens (h : Share) (cause : ShareCause) :
    (p.freeShare n h cause).screens.slot n = none ∧ (p.freeShare n h cause).screens.grace n = none ∧
    (p.freeShare n h cause).screens.slot (otherSlot n) = p.screens.slot (otherSlot n) := by
  cases n <;> exact ⟨rfl, rfl, rfl⟩

end

/-- After an end the slot is free and its grace timer stopped, and the notice of the end is the only one (R150). -/
theorem Part.endShare_leaves {p : Part} {n : Slot} {h : Share} (held : p.screens.slot n = some h) (cause : ShareCause) :
    (p.endShare n cause).screens.slot n = none ∧ (p.endShare n cause).screens.grace n = none ∧
    (p.endShare n cause).screens.slot (otherSlot n) = p.screens.slot (otherSlot n) ∧
    (p.endShare n cause).link =
      p.link.notify (.shareChanged n .ended h.seat h.input h.startNo h.source (some cause)) := by
  rw [Part.endShare_held held, Part.placeRecord_slot, Part.placeRecord_slot, Part.placeRecord_grace,
    Part.recomputeScreens_slot, Part.recomputeScreens_slot, Part.recomputeScreens_grace]
  obtain ⟨free, stopped, other⟩ := p.freeShare_screens n h cause
  exact ⟨free, stopped, other, by simp [Part.freeShare]⟩

/-- Settles O53: the requests by the lines of R157, then a start and an end by what each writes before the screens are computed
again, which keeps the slots. -/
theorem sharesStartAndEnd : Obligations.SharesStartAndEnd := by
  refine ⟨fun s tag ready => ⟨fun n gt h => ?_, fun x => ?_, fun n bad h => ?_, fun n => ?_⟩, fun p n x source => ?_,
    fun p n cause h held => ?_⟩
  · exact exec_shareStart_refuses ready tag (answerShareStart_badSeat gt h _)
  · dsimp only
    rw [← Screens.slotOf_isSome_iff]
    refine ⟨fun closed => exec_shareStart_refuses (status := .noSession) ready tag ?_,
      fun opened holds => exec_shareStart_refuses (status := .already) ready tag ?_,
      fun opened free fails => exec_shareStart_refuses (status := .refused) ready tag ?_,
      fun opened free conditions => ?_⟩
    · simp [answerShareStart_seat, closed]
    · simp [answerShareStart_seat, opened, holds]
    · have bars : ¬s.part.taken.mayShare x = true := fun may =>
        fails ((Part.mayShare_iff _ x).1 (Bool.and_eq_true_iff.2 ⟨opened, may⟩)).2
      simp [answerShareStart_seat, opened, free, bars]
    · have may : s.part.taken.mayShare x = true :=
        (Bool.and_eq_true_iff.1 ((Part.mayShare_iff _ x).2 ⟨opened, conditions⟩)).2
      have granted {n : Slot} {q : Part} (grant : s.part.taken.grantShare x .controller = some (n, q)) :
          exec (.shareStart tag (seatBytes x)) s = s.accepts 0xB7 tag (slotBytes n) q :=
        exec_shareStart_accepts ready tag (by simp [answerShareStart_seat, opened, free, may, grant])
      have full (grant : s.part.taken.grantShare x .controller = none) :
          exec (.shareStart tag (seatBytes x)) s = s.refuses 0xB7 tag 0x07 :=
        exec_shareStart_refuses (status := .full) ready tag (by simp [answerShareStart_seat, opened, free, may, grant])
      exact ⟨fun one => granted (Part.grantShare_slotOne x _ one),
        fun one two => granted (Part.grantShare_slotTwo x _ one two), fun h1 h2 one two =>
        ⟨fun policy => full (Part.grantShare_deny x _ one two policy),
          fun policy older => granted (Part.grantShare_takeover x _ one two policy older one),
          fun policy older => granted (Part.grantShare_takeover x _ one two policy older two)⟩⟩
  · exact exec_shareStop_refuses ready tag (answerShareStop_badSlot bad h _)
  · dsimp only
    refine ⟨fun closed => exec_shareStop_refuses (status := .noSession) ready tag ?_,
      fun opened free => exec_shareStop_refuses (status := .notFound) ready tag ?_,
      fun opened holds => exec_shareStop_accepts ready tag ?_⟩ <;> rw [answerShareStop_slot]
    · simp [closed]
    · simp [opened, free]
    · simp [opened, holds]
  · obtain ⟨held, starts, other, older⟩ := p.takeSlot_screens n x source
    refine ⟨?_, held, starts, other, older, by simp⟩
    rw [Part.takeSlot_eq]
    cases n <;> rfl
  · have kept : (p.endShare n cause).floor = p.floor ∧ (p.endShare n cause).seats = p.seats ∧
        (p.endShare n cause).sched = p.sched ∧ (p.endShare n cause).mixer = p.mixer := by simp
    obtain ⟨free, stopped, other, told⟩ := Part.endShare_leaves held cause
    intro q v freed shown
    have first : p.freeShare n h cause = freed := by cases n <;> rfl
    have ended : q = shown.placeRecord (.shareBus n none) :=
      (Part.endShare_held held cause).trans (congrArg (fun r : Part => r.recomputeScreens.placeRecord (.shareBus n none)) first)
    exact ⟨first, ended, free, stopped, other, told, kept⟩

end Sys2Proof.Machine
end

section
/-!
PROOFS. The payloads of SET_SCREEN_PLAN (R155) and SET_SCREEN (R156): what their fields spell, and where their reading stops.
-/
namespace Sys2Proof.Machine

/-! ### Screen modes (R141, R190) -/

/-- What a written source is read as where a fallback stands: none for a share (R141). -/
def ScreenSource.asFallback : ScreenSource → Option ScreenSource
  | .share _ => none
  | source => some source

/-- A source is written as its number in the list of 8.1. -/
theorem sourceBytes_number (source : ScreenSource) :
    ∃ n < 256, sourceBytes source = u8 n ∧ source? n = some source ∧ fallback? n = source.asFallback := by
  cases source with
  | blank => exact ⟨0, by decide, rfl, rfl, rfl⟩
  | signage => exact ⟨1, by decide, rfl, rfl, rfl⟩
  | roomPc => exact ⟨2, by decide, rfl, rfl, rfl⟩
  | wide => exact ⟨3, by decide, rfl, rfl, rfl⟩
  | cam c =>
    refine ⟨4 + c.val, by omega, rfl, ?_⟩
    match c with
    | 0 | 1 | 2 | 3 => exact ⟨rfl, rfl⟩
  | share slot =>
    cases slot with
    | one => exact ⟨8, by decide, rfl, rfl, rfl⟩
    | two => exact ⟨9, by decide, rfl, rfl, rfl⟩

theorem source?_of_ge {n : Nat} (h : 10 ≤ n) : source? n = none := List.getElem?_eq_none h

theorem slot?_slotBytes (slot : Slot) : ∃ n < 256, slotBytes slot = u8 n ∧ slot? n = some slot := by
  cases slot with
  | one => exact ⟨1, by decide, rfl, rfl⟩
  | two => exact ⟨2, by decide, rfl, rfl⟩

/-- What a written mode is read as: none for a fallback that is a share (R141). -/
def ScreenMode.accepted : ScreenMode → Option ScreenMode
  | .followShare slot fallback => fallback.asFallback.map fun s => .followShare slot s
  | mode => some mode

theorem ScreenMode.accepted_of_fits {mode : ScreenMode} (fits : mode.Fits) : mode.accepted = some mode := by
  unfold ScreenMode.accepted ScreenSource.asFallback
  split
  · split
    · exact fits.elim
    · rfl
  · rfl

/-- The fields of FOLLOW_SHARE, whatever their values. -/
theorem readMode_followShare {slot source : Nat} (hn : slot < 256) (hs : source < 256) (rest : List Byte) :
    readMode (u8 2 ++ u8 slot ++ u8 source ++ rest) =
      .ok ((slot? slot).bind fun n => (fallback? source).map fun s => .followShare n s, rest) := by
  unfold readMode
  simp only [List.append_assoc]
  rw [bindByte (by decide)]
  refine (bindByte hn _).trans ((bindByte hs rest).trans ?_)
  rw [Reader.pure_run]
  cases slot? slot <;> cases fallback? source <;> rfl

theorem readMode_fixed {source : Nat} (h : source < 256) (rest : List Byte) :
    readMode (u8 0 ++ u8 source ++ rest) = .ok ((source? source).map .fixed, rest) := by
  unfold readMode
  rw [List.append_assoc, bindByte (by decide)]
  exact bindByte h rest

theorem readMode_followZone {zone : Nat} (h : zone < 256) (rest : List Byte) :
    readMode (u8 1 ++ u8 1 ++ u8 zone ++ rest) = .ok ((below 8 zone).map fun z => .followSpeaker (some z), rest) := by
  unfold readMode
  simp only [List.append_assoc]
  rw [bindByte (by decide)]
  exact Reader.bind_ok (readOpt_some (readByte_u8 h rest))

/-- A mode is read as it was written, but for a fallback that R141 leaves out. -/
theorem readMode_modeBytes (mode : ScreenMode) (rest : List Byte) :
    readMode (modeBytes mode ++ rest) = .ok (mode.accepted, rest) := by
  cases mode with
  | fixed source =>
    obtain ⟨n, lt, bytes, number, -⟩ := sourceBytes_number source
    rw [modeBytes, bytes, readMode_fixed lt, number]
    rfl
  | followSpeaker zone =>
    cases zone with
    | none => rfl
    | some z =>
      rw [modeBytes, optBytes, ← List.append_assoc, readMode_followZone (by omega), below_of_lt z.isLt]
      rfl
  | followShare slot fallback =>
    obtain ⟨k, klt, kbytes, knumber⟩ := slot?_slotBytes slot
    obtain ⟨n, lt, bytes, -, number⟩ := sourceBytes_number fallback
    rw [modeBytes, bytes, kbytes, readMode_followShare klt lt, knumber, number]
    rfl
  | auto => rfl

/-- Whole bytes of a mode with a source, a zone, a slot or a fallback out of range (R141, R155). -/
def ModeUndefined (bytes : List Byte) : Prop :=
  (∃ k, 9 < k ∧ k < 256 ∧ bytes = u8 0 ++ u8 k) ∨ (∃ z, 7 < z ∧ z < 256 ∧ bytes = u8 1 ++ u8 1 ++ u8 z) ∨
    ∃ n k, n < 256 ∧ k < 256 ∧ (n = 0 ∨ 2 < n ∨ 7 < k) ∧ bytes = u8 2 ++ u8 n ++ u8 k

theorem readMode_undefined {bytes : List Byte} (bad : ModeUndefined bytes) (rest : List Byte) :
    readMode (bytes ++ rest) = .ok (none, rest) := by
  rcases bad with ⟨k, gt, h, rfl⟩ | ⟨z, gt, h, rfl⟩ | ⟨n, k, hn, hk, out, rfl⟩
  · rw [readMode_fixed h, source?_of_ge gt]
    rfl
  · rw [readMode_followZone h, below_of_le (by omega)]
    rfl
  · rw [readMode_followShare hn hk]
    rcases or_assoc.2 out with slot | fallback
    · rw [slot?_of_not_mem slot]
      rfl
    · rw [fallback?, if_neg (by omega)]
      cases slot? n <;> rfl

theorem modeStops_selector {mode : Nat} (gt : 3 < mode) (h : mode < 256) (rest : List Byte) : ModeStops (u8 mode ++ rest) :=
  .selector _ rest (by rwa [toNat_ofNat_byte h])

theorem modeBytes_read (mode : ScreenMode) : ModeRead (modeBytes mode) := by
  cases mode with
  | fixed source =>
    obtain ⟨n, -, bytes, -⟩ := sourceBytes_number source
    rw [modeBytes, bytes]
    exact .fixed _
  | followSpeaker zone =>
    cases zone with
    | none => exact .followSpeaker
    | some z => exact .followZone _
  | followShare slot fallback =>
    obtain ⟨k, -, kbytes, -⟩ := slot?_slotBytes slot
    obtain ⟨n, -, bytes, -⟩ := sourceBytes_number fallback
    rw [modeBytes, kbytes, bytes]
    exact .followShare _ _
  | auto => exact .auto

/-! ### Values that all check -/

theorem screenClass?_eq_some {n : Nat} {v : ScreenClass} :
    [ScreenClass.internal, .external][n]? = some v ↔ v.ctorIdx = n :=
  getElem?_eq_some_code (fun a => by cases a <;> rfl)
    (fun n a => by rcases n with _ | _ | n <;> cases a <;> simp [ScreenClass.ctorIdx]) n v

theorem every_none {α β : Type} {check : α → Option β} {a : α} {xs : List α} (mem : a ∈ xs) (fails : check a = none) :
    every check xs = none := by
  induction mem with
  | head xs => rw [every, fails]; rfl
  | tail x _ ih => rw [every, ih]; cases check x <;> rfl

/-! ### SET_SCREEN_PLAN, part PLAN (R155) -/

/-- The plan's number and eight modes, each read as some value. -/
theorem readPlanPart_plan {n : Nat} (hn : n < 256) {bytes : List Byte} {modes : List (Option ScreenMode)}
    (read : readMany readMode 8 bytes = .ok (modes, [])) :
    readPlanPart (u8 0 ++ u8 n ++ bytes) =
      .ok ((below 4 n).bind fun n => (every id modes).map fun modes => .plan n modes, []) := by
  unfold readPlanPart
  rw [List.append_assoc, bindByte (by decide)]
  refine (bindByte hn _).trans ((Reader.bind_ok read).trans ?_)
  rw [Reader.pure_run]
  cases below 4 n <;> cases every id modes <;> rfl

theorem readMany_modeBytes {modes : List ScreenMode} (count : modes.length = 8) :
    readMany readMode 8 (modes.flatMap modeBytes) = .ok (modes.map ScreenMode.accepted, []) := by
  have read := readMany_flatMap modes (fun mode _ => readMode_modeBytes mode) []
  rwa [count, List.append_nil] at read

/-- Modes with one among them whose values are out of range. -/
theorem readMany_undefined {bytes : List Byte} (bad : ModeUndefined bytes) (before after : List ScreenMode) :
    readMany readMode (before.length + 1 + after.length)
        (before.flatMap modeBytes ++ bytes ++ after.flatMap modeBytes) =
      .ok (before.map ScreenMode.accepted ++ none :: after.map ScreenMode.accepted, []) := by
  have read := readMany_flatMap (read := readMode) (write := fun mode : Option ScreenMode => mode.elim bytes modeBytes)
    (value := fun mode : Option ScreenMode => mode.bind ScreenMode.accepted) (before.map some ++ none :: after.map some)
    (fun mode _ rest => match mode with
      | none => readMode_undefined bad rest
      | some mode => readMode_modeBytes mode rest) []
  simpa [List.flatMap_map, Function.comp_def, Nat.add_right_comm _ 1, ← Nat.add_assoc] using read

theorem readPlanPart_written (n : Fin 4) {modes : List ScreenMode} (count : modes.length = 8) (fit : ∀ m ∈ modes, m.Fits) :
    readPlanPart (u8 0 ++ u8 n.val ++ modes.flatMap modeBytes) = .ok (some (.plan n modes), []) := by
  have all : every id (modes.map ScreenMode.accepted) = some modes :=
    (every_eq_some (code := some) fun _ _ => eq_comm).2
      (List.map_congr_left fun m mem => (ScreenMode.accepted_of_fits (fit m mem)).symm)
  rw [readPlanPart_plan (by omega) (readMany_modeBytes count), below_of_lt n.isLt, all]
  rfl

theorem readPlanPart_badPlan {n : Nat} (gt : 3 < n) (h : n < 256) {modes : List ScreenMode} (count : modes.length = 8) :
    readPlanPart (u8 0 ++ u8 n ++ modes.flatMap modeBytes) = .ok (none, []) := by
  rw [readPlanPart_plan h (readMany_modeBytes count), below_of_le gt]
  rfl

theorem readPlanPart_undefined {n : Nat} (h : n < 256) {bytes : List Byte} (bad : ModeUndefined bytes)
    {before after : List ScreenMode} (count : before.length + after.length = 7) :
    readPlanPart (u8 0 ++ u8 n ++ before.flatMap modeBytes ++ bytes ++ after.flatMap modeBytes) = .ok (none, []) := by
  have read := readMany_undefined bad before after
  rw [show before.length + 1 + after.length = 8 by omega] at read
  rw [List.append_assoc, List.append_assoc, ← List.append_assoc (before.flatMap modeBytes), readPlanPart_plan h read,
    every_none (a := none) (by simp) rfl]
  cases below 4 n <;> rfl

theorem readPlanPart_stopsAtSelector {n mode : Nat} (gt : 3 < mode) (h : mode < 256) {before : List ScreenMode}
    (short : before.length < 8) (rest : List Byte) :
    readPlanPart (u8 0 ++ u8 n ++ before.flatMap modeBytes ++ u8 mode ++ rest) = .error .badArg := by
  have stops := readPlanPart_stopsAtMode (BitVec.ofNat 8 n) (modes := before.map modeBytes) (by simpa using short)
    (fun bytes mem => by obtain ⟨mode, -, rfl⟩ := List.mem_map.1 mem; exact modeBytes_read mode)
    (modeStops_selector gt h rest)
  simpa [u8, List.flatMap_def] using stops

/-! ### SET_SCREEN_PLAN, part SETUP (R155) -/

/-- What the numbers of SETUP say: none where one is out of range. -/
def screenSetup? (classes : List Nat) (policy requiresFloor graceTime : Nat) : Option PlanPart := do
  let classes ← every (fun n => [ScreenClass.internal, .external][n]?) classes
  let policy ← [SharePolicy.takeover, .deny][policy]?
  let requiresFloor ← flag? requiresFloor
  let graceTime ← within 0 10 graceTime
  return .setup classes policy requiresFloor graceTime

theorem readPlanPart_setup {classes : List Nat} {policy requiresFloor graceTime : Nat} (count : classes.length = 8)
    (hc : ∀ k ∈ classes, k < 256) (hp : policy < 256) (hr : requiresFloor < 256) (hg : graceTime < 256) :
    readPlanPart (u8 1 ++ classes.flatMap u8 ++ u8 policy ++ u8 requiresFloor ++ u8 graceTime) =
      .ok (screenSetup? classes policy requiresFloor graceTime, []) := by
  have read (rest : List Byte) := readMany_flatMap classes (fun k mem rest => readByte_u8 (hc k mem) rest) rest
  simp only [count, List.map_id'] at read
  unfold readPlanPart
  simp only [List.append_assoc]
  rw [bindByte (by decide)]
  refine (Reader.bind_ok (read _)).trans ?_
  rw [bindByte hp, bindByte hr, bindByte_last hg, Reader.pure_run]
  rfl

theorem screenSetup?_accepts (classes : List ScreenClass) (policy : SharePolicy) (requiresFloor : Bool) {graceTime : Nat}
    (h : graceTime ≤ 10) :
    screenSetup? (classes.map ScreenClass.ctorIdx) policy.ctorIdx (if requiresFloor then 0 else 1) graceTime =
      some (.setup classes policy requiresFloor graceTime) := by
  have each : every (fun n => [ScreenClass.internal, .external][n]?) (classes.map ScreenClass.ctorIdx) = some classes :=
    (every_eq_some fun _ _ => screenClass?_eq_some).2 rfl
  have stored : [SharePolicy.takeover, .deny][policy.ctorIdx]? = some policy := by cases policy <;> rfl
  have flag : flag? (if requiresFloor then 0 else 1) = some requiresFloor := by cases requiresFloor <;> rfl
  rw [screenSetup?, each, stored, flag, within_of_mem ⟨Nat.zero_le _, h⟩]
  rfl

theorem screenSetup?_refuses {classes : List Nat} {policy requiresFloor graceTime : Nat}
    (out : (∃ k ∈ classes, 1 < k) ∨ 1 < policy ∨ 1 < requiresFloor ∨ 10 < graceTime) :
    screenSetup? classes policy requiresFloor graceTime = none := by
  unfold screenSetup?
  rcases out with ⟨k, mem, gt⟩ | gt | gt | gt
  · rw [every_none (check := fun n => [ScreenClass.internal, .external][n]?) mem (List.getElem?_eq_none gt)]
    rfl
  · rw [show [SharePolicy.takeover, .deny][policy]? = none from List.getElem?_eq_none gt]
    simp
  · rw [flag?_of_gt gt]
    simp
  · rw [within_of_not_mem (by omega)]
    simp

theorem readPlanPart_badPart {n : Nat} (gt : 1 < n) (h : n < 256) (rest : List Byte) :
    readPlanPart (u8 n ++ rest) = .error .badArg := readPlanPart_stops (by rwa [toNat_ofNat_byte h]) rest

/-! ### SET_SCREEN (R156) -/

/-- The screen's number and an optional mode, read as some value. -/
theorem readOverride_read {n : Nat} (h : n < 256) {bytes : List Byte} {mode : Option (Option ScreenMode)}
    (read : readOpt readMode bytes = .ok (mode, [])) :
    readOverride (u8 n ++ bytes) =
      .ok ((below 8 n).bind fun i => (readOverride.optional? mode).map fun mode => (i, mode), []) := by
  unfold readOverride
  rw [bindByte h, Reader.bind_ok read, Reader.pure_run]
  cases below 8 n <;> cases readOverride.optional? mode <;> rfl

theorem readOpt_modeBytes (mode : Option ScreenMode) :
    readOpt readMode (optBytes modeBytes mode) = .ok (mode.map ScreenMode.accepted, []) := by
  rw [← List.append_nil (optBytes modeBytes mode)]
  exact readOpt_optBytes mode (fun mode _ => readMode_modeBytes mode) []

theorem readOverride_written (i : Fin 8) {mode : Option ScreenMode} (fits : ∀ m ∈ mode, m.Fits) :
    readOverride (u8 i.val ++ optBytes modeBytes mode) = .ok (some (i, mode), []) := by
  rw [readOverride_read (by omega) (readOpt_modeBytes mode), below_of_lt i.isLt]
  cases mode with
  | none => rfl
  | some mode => rw [Option.map_some, ScreenMode.accepted_of_fits (fits mode rfl)]; rfl

theorem readOverride_badScreen {n : Nat} (gt : 7 < n) (h : n < 256) (mode : Option ScreenMode) :
    readOverride (u8 n ++ optBytes modeBytes mode) = .ok (none, []) := by
  rw [readOverride_read h (readOpt_modeBytes mode), below_of_le gt]
  rfl

theorem readOverride_undefined {n : Nat} (h : n < 256) {bytes : List Byte} (bad : ModeUndefined bytes) :
    readOverride (u8 n ++ u8 1 ++ bytes) = .ok (none, []) := by
  have read := readMode_undefined bad []
  rw [List.append_nil] at read
  rw [List.append_assoc, readOverride_read h (readOpt_some read)]
  cases below 8 n <;> rfl

theorem readOverride_stopsAtSelector {n mode : Nat} (gt : 3 < mode) (h : mode < 256) (rest : List Byte) :
    readOverride (u8 n ++ u8 1 ++ u8 mode ++ rest) = .error .badArg :=
  readOverride_stopsAtMode _ (modeStops_selector gt h rest)

theorem readOverride_stopsAtPresence {n presence : Nat} (gt : 1 < presence) (h : presence < 256) (rest : List Byte) :
    readOverride (u8 n ++ u8 presence ++ rest) = .error .badArg :=
  readOverride_stops _ (by rwa [toNat_ofNat_byte h]) rest

end Sys2Proof.Machine
end

section
/-!
PROOFS. SET_SCREEN_PLAN (R155) and SET_SCREEN (R156), the recomputation of the screens (R144), and the re-examination of a share
(R151).
-/
namespace Sys2Proof.Machine

/-! ### What the requests write (R155, R156) -/

section
variable (p : Part)

theorem Part.setPlan_eq (n : Fin 4) (modes : List ScreenMode) :
    p.setPlan n modes =
      if p.screens.plan = n then
        Part.recomputeScreens { p with screens := { p.screens with plans := p.screens.plans.set n.val modes } }
      else { p with screens := { p.screens with plans := p.screens.plans.set n.val modes } } := by
  rw [← updateAt_const]
  rfl

/-- The part with the settings of SETUP stored (R155). -/
def Part.setupStored (classes : List ScreenClass) (policy : SharePolicy) (requiresFloor : Bool) (graceTime : Nat) : Part :=
  { p with screens := { p.screens with
    screens := List.zipWith (fun screen cls => { screen with cls := cls }) p.screens.screens classes
    policy := policy
    requiresFloor := requiresFloor
    graceTime := graceTime } }

/-- The part with the screens computed again when SETUP changes a class (R144, R155). -/
def Part.setupShown (classes : List ScreenClass) (policy : SharePolicy) (requiresFloor : Bool) (graceTime : Nat) : Part :=
  if p.screens.screens.map Screen.cls = classes then p.setupStored classes policy requiresFloor graceTime
  else (p.setupStored classes policy requiresFloor graceTime).recomputeScreens

theorem Part.setSetup_eq (classes : List ScreenClass) (policy : SharePolicy) (requiresFloor : Bool) (graceTime : Nat) :
    p.setSetup classes policy requiresFloor graceTime =
      if requiresFloor = true ∧ p.screens.requiresFloor = false then
        (p.setupShown classes policy requiresFloor graceTime).reexamineAll
      else p.setupShown classes policy requiresFloor graceTime := by
  have turnedOn : (requiresFloor && !p.screens.requiresFloor) = true ↔
      requiresFloor = true ∧ p.screens.requiresFloor = false := by
    rw [Bool.and_eq_true, Bool.not_eq_true']
  rw [Part.setSetup]
  simp only [turnedOn]
  rfl

theorem Screens.overridden_iff (v : Screens) (i : Fin 8) :
    v.overridden i = true ↔ ∃ screen, v.screens[i.val]? = some screen ∧ screen.override ≠ none := by
  rw [Screens.overridden, Option.isSome_iff_exists]
  simp only [Option.bind_eq_some_iff, Option.ne_none_iff_exists']
  exact ⟨fun ⟨mode, screen, found, has⟩ => ⟨screen, found, mode, has⟩,
    fun ⟨screen, found, mode, has⟩ => ⟨mode, screen, found, has⟩⟩

theorem Part.setOverride_writes {i : Fin 8} {mode : Option ScreenMode} (h : mode ≠ none ∨ p.screens.overridden i = true) :
    p.setOverride i mode =
      Part.recomputeScreens { p with screens := { p.screens with
        screens := p.screens.screens.modify i.val fun screen => { screen with override := mode } } } := by
  rw [← updateAt_eq_modify]
  refine if_neg fun nothing => ?_
  simp only [Bool.and_eq_true, Option.isNone_iff_eq_none, Bool.not_eq_true'] at nothing
  obtain ⟨clear, bare⟩ := nothing
  rcases h with set | has
  · exact set clear
  · rw [bare] at has
    contradiction

theorem Part.setOverride_nothing {i : Fin 8} {mode : Option ScreenMode} (clear : mode = none)
    (bare : ¬p.screens.overridden i = true) : p.setOverride i mode = p :=
  if_pos (by simp [clear, bare])

end

/-! ### The requests at a ready part -/

section
variable {s : State} (ready : s.part.Ready) (tag : Byte) {payload : List Byte}
include ready

theorem exec_setScreenPlan_badArg (read : readPlanPart payload = .ok (none, []) ∨ readPlanPart payload = .error .badArg) :
    exec (.setScreenPlan tag payload) s = s.refuses 0xB5 tag 0x03 :=
  request_refuses (f := ⟨0x35, tag, payload⟩) (owner := answerSetScreenPlan) (status := .badArg) ready
    (read.elim (fun ok => readThen_ok ok) fun stop => readThen_error stop)

theorem exec_setScreen_accepts {i : Fin 8} {mode : Option ScreenMode}
    (read : readOverride payload = .ok (some (i, mode), [])) :
    exec (.setScreen tag payload) s = s.acceptsWaking 0xB6 tag [] (s.part.taken.setOverride i mode) :=
  request_acceptsWaking (f := ⟨0x36, tag, payload⟩) (owner := answerSetScreen) ready (readThen_ok read)

theorem exec_setScreen_badArg (read : readOverride payload = .ok (none, []) ∨ readOverride payload = .error .badArg) :
    exec (.setScreen tag payload) s = s.refuses 0xB6 tag 0x03 :=
  request_refuses (f := ⟨0x36, tag, payload⟩) (owner := answerSetScreen) (status := .badArg) ready
    (read.elim (fun ok => readThen_ok ok) fun stop => readThen_error stop)

theorem exec_setScreenPlan_plan (n : Fin 4) {modes : List ScreenMode} (count : modes.length = 8)
    (fit : ∀ m ∈ modes, m.Fits) :
    exec (.setScreenPlan tag (u8 0 ++ u8 n.val ++ modes.flatMap modeBytes)) s =
      s.acceptsWaking 0xB5 tag [] (s.part.taken.setPlan n modes) :=
  request_acceptsWaking (f := ⟨0x35, tag, u8 0 ++ u8 n.val ++ modes.flatMap modeBytes⟩) (owner := answerSetScreenPlan) ready
    (readThen_ok (readPlanPart_written n count fit))

theorem exec_setScreenPlan_setup {classes : List ScreenClass} (policy : SharePolicy) (requiresFloor : Bool) {graceTime : Nat}
    (count : classes.length = 8) (h : graceTime ≤ 10) :
    exec (.setScreenPlan tag
        (u8 1 ++ classes.flatMap (fun k => u8 k.ctorIdx) ++ u8 policy.ctorIdx ++ flagBytes requiresFloor ++ u8 graceTime)) s =
      s.acceptsWaking 0xB5 tag [] (s.part.taken.setSetup classes policy requiresFloor graceTime) := by
  have read := readPlanPart_setup (classes := classes.map ScreenClass.ctorIdx) (policy := policy.ctorIdx)
    (requiresFloor := if requiresFloor then 0 else 1) (graceTime := graceTime) (by simpa using count)
    (fun k mem => by obtain ⟨c, -, rfl⟩ := List.mem_map.1 mem; cases c <;> decide) (by cases policy <;> decide)
    (by cases requiresFloor <;> decide) (by omega)
  rw [screenSetup?_accepts classes policy requiresFloor h, List.flatMap_map] at read
  exact request_acceptsWaking (f := ⟨0x35, tag, _⟩) (owner := answerSetScreenPlan) ready (readThen_ok read)

end

/-! ### The recomputation (R144) -/

/-- A recomputation of eight screens, with its sources and its ROUTE records written out. -/
theorem Part.recomputeScreens_eq {p : Part} (count : p.screens.screens.length = 8) :
    p.recomputeScreens =
      { p with
        screens := { p.screens with
          screens := List.zipWith (fun screen i => { screen with source := p.decideSource i }) p.screens.screens (List.finRange 8)
          queue := (List.finRange 8).foldl (init := p.screens.queue) fun queue i =>
            if (p.screens.screens[i.val]?).map Screen.source = some (p.decideSource i) then queue
            else Machine.placeRecord (.route i (p.decideSource i)) queue } } := by
  obtain ⟨only, shown, beyond, queue⟩ := p.recomputeScreens_spec
  have screens : p.recomputeScreens.screens.screens =
      List.zipWith (fun screen i => { screen with source := p.decideSource i }) p.screens.screens (List.finRange 8) := by
    refine List.ext_getElem? fun k => ?_
    rw [List.getElem?_zipWith]
    rcases Nat.lt_or_ge k 8 with lt | ge
    · rw [shown ⟨k, lt⟩, List.getElem?_eq_getElem (by omega), List.getElem?_eq_getElem (by simpa using lt)]
      simp
    · rw [beyond k ge, List.getElem?_eq_none (by omega)]
  have routed (i : Fin 8) (records : List LinkRecord) :
      p.routed i records =
        if (p.screens.screens[i.val]?).map Screen.source = some (p.decideSource i) then records
        else Machine.placeRecord (.route i (p.decideSource i)) records := by
    rw [Part.routed, Screens.sourceOf, List.getElem?_eq_getElem (by omega), Option.map_some, Option.getD_some]
    exact if_congr (by rw [Option.some_inj, eq_comm]) rfl rfl
  rw [only, screens, queue]
  simp only [routed]

/-! ### The re-examination of a share (R151) -/

section
variable {p : Part} {x : Seat}

theorem Part.reexamine_none (one : ∀ h, p.screens.slot1 = some h → h.seat ≠ x)
    (two : ∀ h, p.screens.slot2 = some h → h.seat ≠ x) : p.reexamine x = p := by
  rw [Part.reexamine, Screens.slotOf_none one two]

variable {n : Slot} {h : Share} (own : p.screens.slotOf x = some n) (held : p.screens.slot n = some h)
include own held

theorem Part.reexamine_ends {cause : ShareCause} (fault : p.shareFault x h = some cause) :
    p.reexamine x = p.endShare n cause := by
  simp only [Part.reexamine, own, held, Option.bind_some, fault]

theorem Part.reexamine_stays (sound : p.shareFault x h = none) : p.reexamine x = p := by
  simp only [Part.reexamine, own, held, Option.bind_some, sound]

end

/-- The slot that holds a share is its seat's, slot 1 before slot 2 (R148). -/
theorem Screens.slotOf_held {v : Screens} {n : Slot} {h : Share} (held : v.slot n = some h)
    (first : n = .two → ∀ g, v.slot1 = some g → g.seat ≠ h.seat) : v.slotOf h.seat = some n := by
  cases n with
  | one => exact Screens.slotOf_one held rfl
  | two => exact Screens.slotOf_two held rfl (first rfl)

theorem Standing.not_speaks_iff (t : Standing) : t.speaks = false ↔ t = .out ∨ t = .listener := by
  cases t <;> simp [Standing.speaks]

/-- The lines of R151 by their conditions. -/
theorem Part.shareFault_lines (p : Part) (x : Seat) (h : Share) :
    p.shareFault x h =
      if (p.seat x).link = .silent ∨ (p.seat x).link = .absent then some .seatLost
      else if (p.seat x).standing = .out ∨ (p.seat x).standing = .listener then some .standingLost
      else if (p.seat x).input ≠ some h.input ∨ ((p.seat x).link = .present ∧ (p.seat x).unitType ≠ some .presenter) then
        some .inputChanged
      else if (p.seat x).link ≠ .held ∧ p.screens.requiresFloor = true ∧ (p.seat x).standing = .delegate ∧
          p.speaking x = false ∧ ¬∃ f ∈ p.floor.stack, ∃ e ∈ f.saved, e.seat = x then some .floorLeft
      else none := by
  have outside : p.inFloor x = false ↔ p.speaking x = false ∧ ¬∃ f ∈ p.floor.stack, ∃ e ∈ f.saved, e.seat = x := by
    rw [← Bool.not_eq_true, Part.inFloor_iff, not_or, Bool.not_eq_true]
  rw [Part.shareFault]
  simp only [Bool.or_eq_true, Bool.and_eq_true, Bool.not_eq_true', decide_eq_true_eq, Standing.not_speaks_iff, outside,
    and_assoc]

theorem Part.reexamineAll_eq (p : Part) :
    p.reexamineAll =
      let first := match p.screens.slot1 with
        | some h => p.reexamine h.seat
        | none => p
      match p.screens.slot2 with
      | some h => first.reexamine h.seat
      | none => first := by
  unfold Part.reexamineAll
  cases p.screens.slot1 <;> cases p.screens.slot2 <;> rfl

/-- Settles O52: the requests by what their payloads are read as, the recomputation screen by screen, and the re-examination by
the lines of R151. -/
theorem screenSettingsReplaced : Obligations.ScreenSettingsReplaced := by
  refine ⟨fun s tag ready => ⟨fun n modes count fit => ?_, fun n modes gt h count => ?_,
      fun n before after bytes h bad count => ?_, fun n mode before rest h short gt small => ?_,
      fun classes policy requiresFloor graceTime count h => ?_,
      fun classes policy requiresFloor graceTime count hc hp hr hg out => ?_, fun n payload gt h => ?_,
      fun i mode fits => ⟨fun writes => ?_, fun clear bare => ?_⟩, fun n mode gt h => ?_, fun n bytes h bad => ?_,
      fun n mode rest _ gt h => ?_, fun n presence rest _ gt h => ?_⟩,
    fun p count => Part.recomputeScreens_eq count,
    fun p => ⟨fun x one two => Part.reexamine_none one two, fun x n h held seat first => ?_, p.reexamineAll_eq⟩⟩
  · rw [exec_setScreenPlan_plan ready tag n count fit, Part.setPlan_eq]
    rfl
  · exact exec_setScreenPlan_badArg ready tag (.inl (readPlanPart_badPlan gt h count))
  · exact exec_setScreenPlan_badArg ready tag (.inl (readPlanPart_undefined h bad count))
  · exact exec_setScreenPlan_badArg ready tag (.inr (readPlanPart_stopsAtSelector gt small short rest))
  · rw [exec_setScreenPlan_setup ready tag policy requiresFloor count h, Part.setSetup_eq]
    rfl
  · refine exec_setScreenPlan_badArg ready tag (.inl ?_)
    rw [readPlanPart_setup count hc hp hr hg, screenSetup?_refuses out]
  · exact exec_setScreenPlan_badArg ready tag (.inr (readPlanPart_badPart gt h payload))
  · rw [exec_setScreen_accepts ready tag (readOverride_written i fits),
      Part.setOverride_writes s.part.taken (writes.imp_right (Screens.overridden_iff _ i).2)]
    rfl
  · rw [exec_setScreen_accepts ready tag (readOverride_written i fits),
      Part.setOverride_nothing s.part.taken clear fun has => bare ((Screens.overridden_iff _ i).1 has)]
  · exact exec_setScreen_badArg ready tag (.inl (readOverride_badScreen gt h mode))
  · exact exec_setScreen_badArg ready tag (.inl (readOverride_undefined h bad))
  · exact exec_setScreen_badArg ready tag (.inr (readOverride_stopsAtSelector gt h rest))
  · exact exec_setScreen_badArg ready tag (.inr (readOverride_stopsAtPresence gt h rest))
  · subst seat
    have own := Screens.slotOf_held held first
    dsimp only
    refine ⟨fun lost => Part.reexamine_ends own held ?_, fun here out => Part.reexamine_ends own held ?_,
      fun here speaks changed => Part.reexamine_ends own held ?_,
      fun here speaks same left => Part.reexamine_ends own held ?_, fun here speaks same stays =>
      Part.reexamine_stays own held ?_⟩ <;> rw [Part.shareFault_lines]
    · rw [if_pos lost]
    · rw [if_neg here, if_pos out]
    · rw [if_neg here, if_neg speaks, if_pos changed]
    · rw [if_neg here, if_neg speaks, if_neg same, if_pos left]
    · rw [if_neg here, if_neg speaks, if_neg same, if_neg stays]

end Sys2Proof.Machine
end

section
/-!
PROOFS. Link states through the work of a chain: what a change of link state, a training, a retrain and the OFF sequence leave in
the seat table (R2, R167, R169, R173), and a chain on which nobody speaks while it trains (R67).
-/
namespace Sys2Proof.Machine

/-! ### Link states (R2, R169) -/

/-- The floor's work leaves the link states. -/
theorem FloorWork.ofLinks (links : Seat → LinkState) : FloorWork fun q => ∀ x, (q.seat x).link = links x :=
  fun _ _ frame h x => (congrArg SeatRec.link (Part.unlit_of_frame frame x)).trans (h x)

theorem Part.seat_of_short {p : Part} {x : Seat} (short : p.seats.length ≤ x.val) : p.seat x = .reset :=
  List.getD_eq_default _ _ short

/-- A write to a seat that keeps its link state keeps every seat's. -/
theorem Part.modSeat_linkState {f : SeatRec → SeatRec} (same : ∀ r, (f r).link = r.link) (x y : Seat) (p : Part) :
    ((p.modSeat x f).seat y).link = (p.seat y).link := by
  rw [Part.seat_modSeat]
  split
  · exact same _
  · rfl

theorem FloorWork.deny_linkStates {links : Seat → LinkState} (x : Seat) {q : Part} (h : ∀ y, (q.seat y).link = links y) :
    ∀ y, ((q.deny x).seat y).link = links y := by
  refine (FloorWork.ofLinks links).derive fun y => ?_
  rw [Part.modSeat_linkState, h]
  exact fun _ => rfl

section
variable {P : Part → Prop} {p : Part}

theorem FloorWork.floorLost (w : FloorWork P) {x : Seat} (h : P p) : P (p.floorLost x) := by
  have removed := w.derive (s := x) (w.modFloor (f := fun f => ((f.dequeue x).dropHeld x).setOnset x 0) rfl
    (w.closeMic (s := x) (cause := some .seatLost) h))
  unfold Part.floorLost
  dsimp only
  split
  · exact w.deriveQueued removed
  · exact removed

theorem FloorWork.leaveSaved (w : FloorWork P) {x : Seat} (h : P p) : P (p.leaveSaved x) := by
  unfold Part.leaveSaved
  split
  · exact w.derive (w.reexamine (w.modFloor rfl h))
  · exact h

theorem FloorWork.lostSeat (w : FloorWork P) (deny : ∀ s q, P q → P (q.deny s)) {x : Seat} (h : P p) : P (p.lostSeat x) := by
  unfold Part.lostSeat
  exact w.release deny (w.leaveSaved (w.floorLost h))

end

/-- Making a seat ABSENT changes no other seat's link state: not even a press resolved at the release of its priority does (R83). -/
theorem Part.becomeAbsent_linkState (x y : Seat) (p : Part) :
    ((p.becomeAbsent x).seat y).link = if y = x then .absent else (p.seat y).link := by
  have w := FloorWork.ofLinks fun y => if y = x then .absent else (p.seat y).link
  have linked {q : Part} (same : ∀ y, q.seat y = p.seat y) (y : Seat) :
      ((q.modSeat x fun r => { r with link := .absent }).seat y).link = if y = x then .absent else (p.seat y).link := by
    rw [Part.seat_modSeat, same]
    by_cases own : y = x
    · subst own
      rw [if_pos rfl]
      split
      · rfl
      · rename_i short
        rw [← same, Part.seat_of_short (by simpa using short)]
        rfl
    · rw [if_neg own, if_neg fun e => own e.1.symm]
  unfold Part.becomeAbsent
  refine w.reexamine (w.floorEvent (fun q => w.lostSeat fun s q => FloorWork.deny_linkStates s) (w.derive fun y => ?_)) y
  rw [Part.modSeat_linkState]
  · exact linked (fun y => by simp [Part.modChainSeat]) y
  · exact fun _ => rfl

theorem Part.becomeAbsentAll_linkState (seats : List Seat) (y : Seat) (p : Part) :
    ((p.becomeAbsentAll seats).seat y).link = if y ∈ seats then .absent else (p.seat y).link := by
  unfold Part.becomeAbsentAll
  induction seats generalizing p with
  | nil => rfl
  | cons x seats ih =>
    rw [List.foldl_cons, ih, Part.becomeAbsent_linkState]
    by_cases mem : y ∈ seats <;> by_cases same : y = x <;> simp [mem, same]

/-- With the reachable seats of a chain made ABSENT, all its seats are (R163, R173). -/
theorem Part.becomeAbsentAll_reachable {p q : Part} (same : ∀ y, q.seat y = p.seat y) (c : Chain) (x : Seat) :
    ((q.becomeAbsentAll (p.reachable c)).seat x).link = if chainOf x = c then .absent else (p.seat x).link := by
  have reachable : x ∈ p.reachable c ↔ chainOf x = c ∧ (p.seat x).link ≠ .absent := by
    simp [Part.reachable, mem_chainSeats]
  rw [Part.becomeAbsentAll_linkState, same]
  by_cases own : chainOf x = c <;> by_cases absent : (p.seat x).link = .absent <;> simp [reachable, own, absent]

theorem Part.becomeHeld_seats (x : Seat) (p : Part) :
    (p.becomeHeld x).seats = (p.modSeat x fun r => { r with link := .held }).seats :=
  (Part.reexamine_frame x _).2.1

/-- Seats made HELD one after another (R167). -/
theorem Part.becomeHeldAll_linkState {p : Part} (count : p.seats.length = 64) (seats : List Seat) (y : Seat) :
    ((seats.foldl (fun q x => q.becomeHeld x) p).seat y).link = if y ∈ seats then .held else (p.seat y).link := by
  induction seats generalizing p with
  | nil => rfl
  | cons x seats ih =>
    have kept : (p.becomeHeld x).seats.length = 64 := by rw [Part.becomeHeld_seats]; simpa using count
    have written : (p.becomeHeld x).seat y = (p.modSeat x fun r => { r with link := .held }).seat y :=
      congrArg (fun seats => seats.getD y.val SeatRec.reset) (Part.becomeHeld_seats x p)
    rw [List.foldl_cons, ih kept, written, Part.seat_modSeat, count]
    have short : y.val < 64 := y.isLt
    by_cases mem : y ∈ seats <;> by_cases same : y = x <;> simp [mem, same, short, Ne.symm]

/-! ### A chain in training (R67, R167) -/

/-- The floor's work leaves a chain's state. -/
theorem FloorWork.ofChainState (c : Chain) (state : ChainState) : FloorWork fun q => (q.chain c).state = state :=
  FloorWork.ofChain (fun _ _ e h => (congrArg ChainCtl.state e).trans h) c

theorem FloorWork.floorRetrain {P : Part → Prop} {p : Part} (w : FloorWork P) {c : Chain} (h : P p) : P (p.floorRetrain c) := by
  have preset (seats : List Seat) (f : Floor) : (seats.foldl (fun g x => g.setOnset x 0) f).preset = f.preset := by
    induction seats generalizing f with
    | nil => rfl
    | cons x seats ih => exact ih _
  unfold Part.floorRetrain
  exact w.modFloor (preset _ _) (w.closeSeats h)

/-- A chain in training, with no microphone of its seats open. -/
structure Part.Mute (c : Chain) (q : Part) : Prop where
  training : (q.chain c).state = .training
  silent : ∀ e ∈ q.floor.speakers, chainOf e.seat ≠ c

/-- A chain in training has no lane (R160), so none of its seats opens. -/
theorem Part.Mute.openMic {c : Chain} {q : Part} (h : q.Mute c) (x : Seat) (kind : Kind) (source : Source) (freeze : Bool)
    (restored : Option (Option Nat × Bool)) : (q.openMic x kind source freeze restored).Mute c := by
  refine ⟨(FloorWork.ofChainState c .training).openMic h.training, ?_⟩
  unfold Part.openMic
  split
  · rename_i lane channel free _
    have foreign : chainOf x ≠ c := by
      rintro rfl
      have none : q.freeLane (chainOf x) = none := by
        simp [Part.freeLane, ChainCtl.laneCount, h.training]
      rw [none] at free
      cases free
    dsimp only
    rw [Part.openWith_floor]
    intro e mem
    rcases List.mem_append.1 mem with old | new
    · exact h.silent e old
    · rw [List.mem_singleton.1 new]
      exact foreign
  · exact h.silent

theorem Part.Mute.advanceWith {c : Chain} (n : Nat) {q : Part} (h : q.Mute c) : (q.advanceWith n).Mute c := by
  induction n generalizing q with
  | zero => exact h
  | succ n ih =>
    unfold Part.advanceWith
    split
    · split
      · exact ih (h.openMic _ _ _ _ _)
      · exact h
    · exact h

theorem Part.Mute.floorEvent {c : Chain} {work : Part → Part} {q : Part} (h : (work q).Mute c) : (q.floorEvent work).Mute c := by
  have passed : (work q).autoAdvance.Mute c := by
    unfold Part.autoAdvance
    split
    · exact h.advanceWith 32
    · exact h
  unfold Part.floorEvent
  refine ⟨(FloorWork.ofChainState c .training).endFloorEvent passed.training, ?_⟩
  unfold Part.endFloorEvent
  split
  · exact passed.silent
  · exact passed.silent

theorem Floor.foldl_setOnset (seats : List Seat) (f : Floor) :
    seats.foldl (fun g x => g.setOnset x 0) f = { f with onsets := seats.foldl (fun o x => o.set x.val 0) f.onsets } := by
  induction seats generalizing f with
  | nil => rfl
  | cons x seats ih =>
    rw [List.foldl_cons, ih, Floor.setOnset, updateAt_const]
    rfl

theorem Part.floorRetrain_floor (c : Chain) (p : Part) :
    (p.floorRetrain c).floor =
      { p.floor with
        speakers := p.floor.speakers.filter fun e => e.seat ∉ p.floor.speakerSeats.filter fun x => chainOf x = c
        onsets := (chainSeats c).foldl (fun o x => o.set x.val 0) p.floor.onsets } := by
  unfold Part.floorRetrain
  dsimp only
  rw [Part.modFloor_floor, Floor.foldl_setOnset, Part.closeSeats_floor]

theorem Part.train_mute (c : Chain) (cause : ChainCause) (p : Part) : (p.train c cause).Mute c := by
  have trained : ((p.modChain c (ChainCtl.beginTraining cause)).chain c).state = .training := by
    rw [Part.chain_modChain, if_pos rfl]
    rfl
  have muted : ((p.modChain c (ChainCtl.beginTraining cause)).floorRetrain c).Mute c := by
    refine ⟨(FloorWork.ofChainState c .training).floorRetrain trained, ?_⟩
    rw [Part.floorRetrain_floor]
    intro e mem own
    obtain ⟨listed, kept⟩ := List.mem_filter.1 mem
    have closes : e.seat ∈ (p.modChain c (ChainCtl.beginTraining cause)).floor.speakerSeats.filter fun x => chainOf x = c :=
      List.mem_filter.2 ⟨List.mem_map_of_mem listed, by simpa using own⟩
    exact of_decide_eq_true kept closes
  have event := muted.floorEvent
  exact ⟨(FloorWork.ofChainState c .training).notify _ event.training, event.silent⟩

theorem Part.train_linkState (c : Chain) (cause : ChainCause) (x : Seat) (p : Part) :
    ((p.train c cause).seat x).link = (p.seat x).link := by
  have w := FloorWork.ofLinks fun x => (p.seat x).link
  unfold Part.train
  exact w.notify _ (w.floorEvent (fun _ => w.floorRetrain) fun x => by simp) x

theorem Part.retrain_linkState {p : Part} (count : p.seats.length = 64) (c : Chain) (cause : ChainCause) (x : Seat) :
    ((p.retrain c cause).seat x).link =
      if chainOf x = c ∧ (p.seat x).link = .present then .held else (p.seat x).link := by
  have kept : (p.modChain c ChainCtl.abandon).seats.length = 64 := by simpa using count
  unfold Part.retrain
  dsimp only
  rw [Part.train_linkState, Part.becomeHeldAll_linkState kept]
  simp [mem_chainSeats]

/-! ### The OFF sequence (R173) -/

theorem Part.switchOff_state (c : Chain) (p : Part) : ((p.switchOff c).chain c).state = .off := by
  have w := FloorWork.ofChainState c .off
  unfold Part.switchOff
  refine w.notify _ (w.floorEvent (fun _ => id) ?_)
  rw [Part.chain_modChain, if_pos rfl]

theorem Part.switchOff_linkState (c : Chain) (x : Seat) (p : Part) :
    ((p.switchOff c).seat x).link = if chainOf x = c then .absent else (p.seat x).link := by
  have w := FloorWork.ofLinks fun x => if chainOf x = c then .absent else (p.seat x).link
  unfold Part.switchOff
  refine w.notify _ (w.floorEvent (fun _ => id) fun x => ?_) x
  rw [Part.modChain_seat]
  exact Part.becomeAbsentAll_reachable (fun y => Part.modChain_seat _ _ y p) c x

end Sys2Proof.Machine
end

section
/-!
PROOFS. Training step by step: locks, the end of an attempt, a loss of lock (R162, R163, R164, R167).
-/
namespace Sys2Proof.Machine

@[simp] theorem Part.owed_chain (p : Part) (owed : List Owed) (c : Chain) :
    ({ p with owed := owed } : Part).chain c = p.chain c := by
  cases c <;> rfl

theorem onPart_whenRunning {s : State} (quiet : s.part.Quiet) (f : Part → Part) :
    onPart (Part.whenRunning f) s = s.to (f s.part) := congrArg s.to (quiet.whenRunning f)

/-! ### The end of an attempt (R162, R163) -/

section
variable {p : Part} {c : Chain}

/-- An attempt with the control pair and lane pair 1 ends in enumeration: with the pairs it tried, or degraded to one (R162). -/
theorem ChainCtl.trained_eq (k : ChainCtl) (control : k.training.control = true) (lane1 : k.training.lane1 = true) :
    k.trained =
      { k with
        state := .enumerating
        pairs := some (if k.training.lane2 = true ∨ k.training.pairs < 2 then k.training.pairs else 1)
        degraded := !(k.training.lane2 || k.training.pairs < 2)
        enumerated := []
        exchange := some (.addressed (.enumerate 0) [] k.settings.retries ((k.settings.hold + 1) * 16)) } := by
  have whole : k.training.allLocked = (k.training.lane2 || decide (k.training.pairs < 2)) := by
    simp [Training.allLocked, control, lane1]
  unfold ChainCtl.trained ChainCtl.beginEnumeration
  simp only [whole, Bool.or_eq_true, decide_eq_true_eq]

/-- An attempt whose pairs have all locked ends with the pair count it tried, and not degraded (R162). -/
theorem ChainCtl.trained_whole {k : ChainCtl} (whole : k.training.allLocked = true) :
    k.trained =
      { k with
        state := .enumerating
        pairs := some k.training.pairs
        degraded := false
        enumerated := []
        exchange := some (.addressed (.enumerate 0) [] k.settings.retries ((k.settings.hold + 1) * 16)) } := by
  unfold ChainCtl.trained ChainCtl.beginEnumeration
  rw [whole]
  rfl

theorem Training.allLocked_pairs {t : Training} (whole : t.allLocked = true) : t.control = true ∧ t.lane1 = true := by
  simp only [Training.allLocked, Bool.and_eq_true] at whole
  exact whole.1

theorem Part.endAttempt_trains (control : (p.chain c).training.control = true) (lane1 : (p.chain c).training.lane1 = true) :
    p.endAttempt c = p.modChain c ChainCtl.trained := by
  simp [Part.endAttempt, control, lane1]

theorem Part.endAttempt_fails (missing : (p.chain c).training.control = false ∨ (p.chain c).training.lane1 = false) :
    p.endAttempt c = p.failedAttempt c := by
  unfold Part.endAttempt
  rcases missing with missing | missing <;> simp [missing]

/-- What a chain's write does depends on the chain's own record alone. -/
theorem Part.modChain_congr {f g : ChainCtl → ChainCtl} (same : f (p.chain c) = g (p.chain c)) :
    p.modChain c f = p.modChain c g := by
  cases c
  · exact congrArg (fun k => { p with chainA := k }) same
  · exact congrArg (fun k => { p with chainB := k }) same

theorem Part.attemptTimeout_due (training : (p.chain c).state = .training) (due : 50 ≤ (p.chain c).training.ms) :
    p.attemptTimeout c = p.endAttempt c := by
  simp [Part.attemptTimeout, training, due]

/-! ### Locks, and loss of lock -/

theorem Part.pairLocked_elsewhere (other : (p.chain c).state ≠ .training) (pair : Pair) : p.pairLocked c pair = p := if_neg other

theorem Part.pairLocked_training (training : (p.chain c).state = .training) (pair : Pair) :
    let locked := (p.chain c).training.setLock pair true
    let q := p.modChain c fun k => { k with training := locked }
    p.pairLocked c pair = if locked.allLocked then q.endAttempt c else q := by
  intro locked q
  have written : (p.modChain c fun k => { k with training := k.training.setLock pair true }) = q := Part.modChain_congr rfl
  have recorded : (q.chain c).training = locked := by rw [Part.chain_modChain, if_pos rfl]
  unfold Part.pairLocked
  dsimp only
  rw [if_pos training, written, recorded]

theorem ChainCtl.inForce_iff (pair : Pair) (k : ChainCtl) :
    k.inForce pair = true ↔ pair = .control ∨ (pair = .lane1 ∧ ∃ n, k.pairs = some n ∧ 1 ≤ n) ∨
      (pair = .lane2 ∧ ∃ n, k.pairs = some n ∧ 2 ≤ n) := by
  cases pair <;> simp [ChainCtl.inForce, Option.any_eq_true_iff_get, Option.eq_some_iff_get_eq]

theorem Part.lockLost_active (active : (p.chain c).state = .active) (pair : Pair) :
    p.lockLost c pair = if (p.chain c).inForce pair then p.retrain c .lockLost else p := by
  simp [Part.lockLost, active]

theorem Part.lockLost_enumerating (enumerating : (p.chain c).state = .enumerating) (pair : Pair) :
    p.lockLost c pair = p.failedAttempt c := by
  simp [Part.lockLost, enumerating]

theorem Part.lockLost_training (training : (p.chain c).state = .training) (pair : Pair) :
    p.lockLost c pair = p.modChain c fun k => { k with training := k.training.setLock pair false } := by
  simp [Part.lockLost, training]

theorem Part.lockLost_stopped (stopped : (p.chain c).state = .off ∨ (p.chain c).state = .failed) (pair : Pair) :
    p.lockLost c pair = p := by
  rcases stopped with stopped | stopped <;> simp [Part.lockLost, stopped]

/-! ### A failed attempt (R163) -/

theorem Part.failedAttempt_next (left : (p.chain c).attempt < (p.chain c).settings.attempts) :
    p.failedAttempt c = p.modChain c (ChainCtl.beginAttempt ((p.chain c).attempt + 1)) := if_pos left

theorem Part.failedAttempt_linkState (last : (p.chain c).settings.attempts ≤ (p.chain c).attempt) {x : Seat}
    (own : chainOf x = c) : ((p.failedAttempt c).seat x).link = .absent := by
  obtain ⟨failed, -⟩ := Part.failedAttempt_failed last
  rw [failed, Part.notifyChain, Part.notify_seat, Part.becomeAbsentAll_reachable fun y => Part.modChain_seat _ _ y p]
  exact if_pos own

end

/-- Settles O56: each event by the state of the chain it meets; an attempt that fails goes on to the next, or ends the chain with
its seats made ABSENT. -/
theorem trainingSteps : Obligations.TrainingSteps := by
  refine ⟨fun s c pair quiet => ?_, fun s c rest running jobs owed => ?_, fun s c pair quiet => ?_, fun p c => ⟨fun left => ?_,
    fun last => ?_⟩⟩
  · intro k locked p
    have ran : exec (.pairLock c pair) s = s.to (s.part.pairLocked c pair) := onPart_whenRunning quiet _
    rw [ran]
    refine ⟨fun other => congrArg s.to (Part.pairLocked_elsewhere other pair), fun training partly => ?_,
      fun training whole => ?_⟩
    · rw [Part.pairLocked_training training]
      exact congrArg s.to (if_neg (by simpa using partly))
    · have recorded : (p.chain c).training = locked := by rw [Part.chain_modChain, if_pos rfl]
      obtain ⟨control, lane1⟩ := Training.allLocked_pairs whole
      have ended : p.endAttempt c = p.modChain c ChainCtl.trained :=
        Part.endAttempt_trains (recorded ▸ control) (recorded ▸ lane1)
      rw [Part.pairLocked_training training]
      refine congrArg s.to ((if_pos whole).trans (ended.trans (Part.modChain_congr ?_)))
      rw [ChainCtl.trained_whole (recorded ▸ whole), recorded]
  · intro k t p training due
    have taken : exec (.trainingAttemptEnd c) s = s.to (p.attemptTimeout c) := onPart_takeFirst running jobs owed
    have same : p.chain c = k := Part.owed_chain _ _ _
    rw [taken, Part.attemptTimeout_due (same ▸ training) (same ▸ due)]
    refine ⟨fun control lane1 => congrArg s.to ?_, fun missing => congrArg s.to (Part.endAttempt_fails (same ▸ missing))⟩
    refine (Part.endAttempt_trains (same ▸ control) (same ▸ lane1)).trans (Part.modChain_congr ?_)
    rw [ChainCtl.trained_eq _ (same ▸ control) (same ▸ lane1), same]
  · intro k inForce
    have ran : exec (.lossOfLock c pair) s = s.to (s.part.lockLost c pair) := onPart_whenRunning quiet _
    have force : (s.part.chain c).inForce pair = true ↔ inForce := ChainCtl.inForce_iff pair _
    rw [ran]
    refine ⟨fun active lost => congrArg s.to ((Part.lockLost_active active pair).trans (if_pos (force.2 lost))),
      fun active spare => congrArg s.to ((Part.lockLost_active active pair).trans (if_neg fun f => spare (force.1 f))),
      fun enumerating => congrArg s.to (Part.lockLost_enumerating enumerating pair),
      fun training => congrArg s.to (Part.lockLost_training training pair),
      fun stopped => congrArg s.to (Part.lockLost_stopped stopped pair)⟩
  · rw [Part.failedAttempt_next left]
    exact Part.modChain_congr rfl
  · obtain ⟨failed, muted⟩ := Part.failedAttempt_failed last
    rw [Part.chain_modChain, if_pos rfl] at muted
    refine ⟨⟨failed, muted.pairs, muted.cause, muted.attempt, muted.degraded, muted.lanes⟩, ?_,
      fun x own => Part.failedAttempt_linkState last own⟩
    rw [failed]
    exact (FloorWork.ofChainState c .failed).notify _ muted.state

end Sys2Proof.Machine
end

section
/-!
PROOFS. SET_CHAIN (R173) and CHAIN_RESTART (R174): what their reading accepts, and what they answer.
-/
namespace Sys2Proof.Machine

/-! ### The chain settings (R161) -/

theorem chain?_eq_some {n : Nat} {c : Chain} : chain? n = some c ↔ c.ctorIdx = n :=
  getElem?_eq_some_code (by intro c; cases c <;> rfl) (fun n c => by rcases n with _ | _ | n <;> cases c <;> simp [Chain.ctorIdx])
    n c

/-- The numbers of a SET_CHAIN. -/
structure ChainNumbers where
  chain : Nat
  enabled : Nat
  pairs : Nat
  attempts : Nat
  hold : Nat
  retries : Nat
  silent : Nat

/-- The numbers of a chain and its settings. -/
def ChainSettings.numbers (c : Chain) (k : ChainSettings) : ChainNumbers :=
  ⟨c.ctorIdx, flagCode k.enabled, k.pairs, k.attempts, k.hold, k.retries, k.silent⟩

/-- The bytes of these numbers. -/
def ChainNumbers.bytes (x : ChainNumbers) : List Byte :=
  u8 x.chain ++ u8 x.enabled ++ u8 x.pairs ++ u8 x.attempts ++ u8 x.hold ++ u8 x.retries ++ u8 x.silent

/-- Every number fits its byte. -/
structure ChainNumbers.InBytes (x : ChainNumbers) : Prop where
  chain : x.chain < 256
  enabled : x.enabled < 256
  pairs : x.pairs < 256
  attempts : x.attempts < 256
  hold : x.hold < 256
  retries : x.retries < 256
  silent : x.silent < 256

/-- The chain and the settings that these numbers name, when each of them is in range. -/
def ChainNumbers.settings? (x : ChainNumbers) : Option (Chain × ChainSettings) := do
  let c ← chain? x.chain
  let enabled ← flag? x.enabled
  let pairs ← within 1 2 x.pairs
  let attempts ← within 1 8 x.attempts
  let hold ← within 0 63 x.hold
  let retries ← within 0 3 x.retries
  let silent ← within 1 15 x.silent
  return (c, ⟨enabled, pairs, attempts, hold, retries, silent⟩)

theorem ChainNumbers.settings?_eq_some {x : ChainNumbers} {c : Chain} {k : ChainSettings} :
    x.settings? = some (c, k) ↔ k.Fits ∧ k.numbers c = x := by
  constructor
  · intro h
    obtain ⟨d, hd, h⟩ := Option.bind_eq_some_iff.1 h
    obtain ⟨enabled, he, h⟩ := Option.bind_eq_some_iff.1 h
    obtain ⟨pairs, hp, h⟩ := Option.bind_eq_some_iff.1 h
    obtain ⟨attempts, ha, h⟩ := Option.bind_eq_some_iff.1 h
    obtain ⟨hold, hh, h⟩ := Option.bind_eq_some_iff.1 h
    obtain ⟨retries, hr, h⟩ := Option.bind_eq_some_iff.1 h
    obtain ⟨silent, hs, h⟩ := Option.bind_eq_some_iff.1 h
    obtain ⟨rfl, rfl⟩ := Prod.mk.inj (Option.some_inj.1 h)
    obtain ⟨pairsRange, hp⟩ := within_eq_some.1 hp
    obtain ⟨attemptsRange, ha⟩ := within_eq_some.1 ha
    obtain ⟨holdRange, hh⟩ := within_eq_some.1 hh
    obtain ⟨retriesRange, hr⟩ := within_eq_some.1 hr
    obtain ⟨silentRange, hs⟩ := within_eq_some.1 hs
    refine ⟨⟨pairsRange, attemptsRange, holdRange.2, retriesRange.2, silentRange⟩, ?_⟩
    simp only [ChainSettings.numbers, chain?_eq_some.1 hd, flag?_eq_some.1 he, hp, ha, hh, hr, hs]
  · rintro ⟨⟨pairs, attempts, hold, retries, silent⟩, rfl⟩
    have chain := chain?_eq_some.2 (Eq.refl c.ctorIdx)
    have enabled := flag?_eq_some.2 (Eq.refl (flagCode k.enabled))
    simp only [ChainNumbers.settings?, ChainSettings.numbers, chain, enabled, within_of_mem pairs, within_of_mem attempts,
      within_of_mem (And.intro (Nat.zero_le _) hold), within_of_mem (And.intro (Nat.zero_le _) retries), within_of_mem silent]
    rfl

theorem ChainNumbers.settings?_eq_none {x : ChainNumbers}
    (bad : ∀ (c : Chain) (k : ChainSettings), k.Fits → k.numbers c ≠ x) : x.settings? = none := by
  refine Option.eq_none_iff_forall_ne_some.2 fun (c, k) h => ?_
  obtain ⟨fits, same⟩ := ChainNumbers.settings?_eq_some.1 h
  exact bad c k fits same

theorem readChainSettings_bytes {x : ChainNumbers} (h : x.InBytes) : readChainSettings x.bytes = .ok (x.settings?, []) := by
  obtain ⟨chain, enabled, pairs, attempts, hold, retries, silent⟩ := h
  unfold readChainSettings ChainNumbers.bytes
  simp only [List.append_assoc]
  rw [bindByte chain, bindByte enabled, bindByte pairs, bindByte attempts, bindByte hold, bindByte retries, bindByte_last silent,
    Reader.pure_run]
  rfl

theorem chainCode_lt (c : Chain) : c.ctorIdx < 256 := by
  cases c <;> decide

@[simp] theorem Part.taken_chain (p : Part) (c : Chain) : p.taken.chain c = p.chain c := by
  cases c <;> rfl

theorem Part.setChain_eq (c : Chain) (k : ChainSettings) (p : Part) :
    let before := (p.chain c).settings.enabled
    let set := p.modChain c fun x => { x with settings := k }
    p.setChain c k =
      if before = true ∧ k.enabled = false then set.switchOff c
      else if before = false ∧ k.enabled = true ∧ (p.chain c).state = .off then set.train c .controller
      else set := by
  unfold Part.setChain
  simp only [Bool.and_eq_true, Bool.not_eq_true', decide_eq_true_eq, and_assoc]

/-- CHAIN_RESTART of a chain, once its number is read. -/
theorem answerChainRestart_chain (c : Chain) (p : Part) :
    answerChainRestart (u8 c.ctorIdx) p =
      if (p.chain c).state = .off then refuse .refused p else okWake [] (p.restartChain c) := by
  refine (readThen_ok (readByte_last (chainCode_lt c))).trans ?_
  rw [chain?_eq_some.2 rfl, checkThen_some]

/-! ### The requests at a ready part -/

section
variable {s : State} (ready : s.part.Ready) (tag : Byte)
include ready

theorem exec_setChain_accepts {x : ChainNumbers} (bytes : x.InBytes) {c : Chain} {k : ChainSettings}
    (named : x.settings? = some (c, k)) :
    exec (.setChain tag x.bytes) s = s.acceptsWaking 0xBC tag [] (s.part.taken.setChain c k) := by
  refine request_acceptsWaking (f := ⟨0x3C, tag, x.bytes⟩) (owner := answerSetChain) ready ?_
  refine (readThen_ok (readChainSettings_bytes bytes)).trans ?_
  rw [named, checkThen_some]

theorem exec_setChain_refuses {x : ChainNumbers} (bytes : x.InBytes) (bad : x.settings? = none) :
    exec (.setChain tag x.bytes) s = s.refuses 0xBC tag 0x03 := by
  refine request_refuses (f := ⟨0x3C, tag, x.bytes⟩) (owner := answerSetChain) (status := .badArg) ready ?_
  refine (readThen_ok (readChainSettings_bytes bytes)).trans ?_
  rw [bad, checkThen_none]

theorem exec_setChain_fits (c : Chain) {k : ChainSettings} (fits : k.Fits) :
    exec (.setChain tag (k.numbers c).bytes) s = s.acceptsWaking 0xBC tag [] (s.part.taken.setChain c k) := by
  have named := ChainNumbers.settings?_eq_some.2 ⟨fits, Eq.refl (k.numbers c)⟩
  obtain ⟨pairs, attempts, hold, retries, silent⟩ := fits
  have bytes : (k.numbers c).InBytes :=
    ⟨chainCode_lt c, flagCode_lt _, Nat.lt_of_le_of_lt pairs.2 (by decide), Nat.lt_of_le_of_lt attempts.2 (by decide),
      Nat.lt_of_le_of_lt hold (by decide), Nat.lt_of_le_of_lt retries (by decide), Nat.lt_of_le_of_lt silent.2 (by decide)⟩
  exact exec_setChain_accepts ready tag bytes named

theorem exec_setChain_unfit {c : Chain} {k : ChainSettings} (bytes : (k.numbers c).InBytes) (unfit : ¬k.Fits) :
    exec (.setChain tag (k.numbers c).bytes) s = s.refuses 0xBC tag 0x03 := by
  refine exec_setChain_refuses ready tag bytes (ChainNumbers.settings?_eq_none fun d l fits same => unfit ?_)
  obtain ⟨-, -, pairs, attempts, hold, retries, silent⟩ := ChainNumbers.mk.inj same
  exact ⟨pairs ▸ fits.pairs, attempts ▸ fits.attempts, hold ▸ fits.hold, retries ▸ fits.retries, silent ▸ fits.silent⟩

theorem exec_setChain_badByte {x : ChainNumbers} (bytes : x.InBytes) (bad : 1 < x.chain ∨ 1 < x.enabled) :
    exec (.setChain tag x.bytes) s = s.refuses 0xBC tag 0x03 := by
  refine exec_setChain_refuses ready tag bytes (ChainNumbers.settings?_eq_none fun d l _ same => ?_)
  subst same
  have chain : d.ctorIdx ≤ 1 := by cases d <;> decide
  have flag : flagCode l.enabled ≤ 1 := by cases l.enabled <;> decide
  exact bad.elim (Nat.not_lt_of_le chain) (Nat.not_lt_of_le flag)

theorem exec_chainRestart_off {c : Chain} (off : (s.part.chain c).state = .off) :
    exec (.chainRestart tag (u8 c.ctorIdx)) s = s.refuses 0xBE tag 0x04 := by
  refine request_refuses (f := ⟨0x3E, tag, u8 c.ctorIdx⟩) (owner := answerChainRestart) (status := .refused) ready ?_
  rw [answerChainRestart_chain]
  exact if_pos (by simpa using off)

theorem exec_chainRestart_on {c : Chain} (on : (s.part.chain c).state ≠ .off) :
    exec (.chainRestart tag (u8 c.ctorIdx)) s = s.acceptsWaking 0xBE tag [] (s.part.taken.restartChain c) := by
  refine request_acceptsWaking (f := ⟨0x3E, tag, u8 c.ctorIdx⟩) (owner := answerChainRestart) ready ?_
  rw [answerChainRestart_chain]
  exact if_neg (by simpa using on)

theorem exec_chainRestart_badChain {n : Nat} (gt : 1 < n) (h : n < 256) :
    exec (.chainRestart tag (u8 n)) s = s.refuses 0xBE tag 0x03 := by
  refine request_refuses (f := ⟨0x3E, tag, u8 n⟩) (owner := answerChainRestart) (status := .badArg) ready ?_
  refine (readThen_ok (readByte_last h)).trans ?_
  rw [show chain? n = none from List.getElem?_eq_none gt, checkThen_none]

end

theorem Part.restartChain_active {p : Part} {c : Chain} (active : (p.chain c).state = .active) :
    p.restartChain c = p.retrain c .controller := if_pos active

theorem Part.restartChain_other {p : Part} {c : Chain} (other : (p.chain c).state ≠ .active) :
    p.restartChain c = p.train c .controller := if_neg other

/-! ### What a training, the OFF sequence and a seat made ABSENT write -/

/-- The work of a training at the floor: the closes, and then the onset counts (R67). -/
theorem Part.floorRetrain_eq (c : Chain) (p : Part) :
    let closed := ((p.floor.speakers.map Speaker.seat).filter fun x => chainOf x = c).foldl
      (fun q x => q.closeMic x (some .chainRetrain)) p
    p.floorRetrain c =
      { closed with
        floor := { closed.floor with onsets := (chainSeats c).foldl (fun o x => o.set x.val 0) closed.floor.onsets } } := by
  intro closed
  exact congrArg (fun f => ({ closed with floor := f } : Part)) (Floor.foldl_setOnset (chainSeats c) closed.floor)

theorem Part.modChainSeat_eq (x : Seat) (f : ChainSeat → ChainSeat) (p : Part) :
    p.modChainSeat x f = p.modChain (chainOf x) fun k => { k with seats := k.seats.modify (x.val % 32) f } :=
  Part.modChain_congr (congrArg (fun seats => { p.chain (chainOf x) with seats := seats }) (updateAt_eq_modify _ _ _))

theorem Part.modSeat_modSeat (x : Seat) (f g : SeatRec → SeatRec) (p : Part) :
    (p.modSeat x f).modSeat x g = p.modSeat x fun r => g (f r) := by
  unfold Part.modSeat
  simp only [updateAt_eq_modify, List.modify_modify_eq]
  rfl

/-- What the seat table writes for a seat made ABSENT (R2). -/
theorem Part.seatTableLink_absent (x : Seat) (p : Part) :
    p.seatTableLink x .absent =
      (p.modSeat x fun r =>
        { r with
          link := .absent
          speakPressed := false, auxPressed := false, voice := false, signal := false, denial := false, denialMs := 0 }).derive x :=
  congrArg (Part.derive x) (Part.modSeat_modSeat x _ _ p)

/-- What a seat made ABSENT or SILENT leaves (R66). -/
theorem Part.floorLost_floor (x : Seat) (p : Part) :
    (p.floorLost x).floor =
      { p.floor with
        speakers := p.floor.speakers.filter fun e => e.seat ≠ x
        queue := p.floor.queue.filter fun e => e.seat ≠ x
        held := p.floor.held.filter fun e => e.seat ≠ x
        onsets := p.floor.onsets.set x.val 0 } := by
  have floor : (p.floorLost x).floor = (((p.closeMic x (some .seatLost)).floor.dequeue x).dropHeld x).setOnset x 0 := by
    unfold Part.floorLost
    dsimp only
    split <;> simp
  rw [floor, Part.closeMic_floor, Floor.setOnset, updateAt_const]
  rfl

theorem Part.floorLost_link (x : Seat) (p : Part) : (p.floorLost x).link = (p.closeMic x (some .seatLost)).link := by
  unfold Part.floorLost
  dsimp only
  split <;> simp

/-- A seat made ABSENT, block by block: its chain, the seat table, the floor with the priority mechanism,
the screen router (R169). -/
theorem Part.becomeAbsent_eq (x : Seat) (p : Part) :
    let listed := (p.modChain (chainOf x) (ChainCtl.dropSeat x)).modChain (chainOf x) fun k =>
      { k with seats := k.seats.modify (x.val % 32) fun t => { t with fault := false } }
    let released := (listed.modSeat x fun r =>
      { r with
        link := .absent
        speakPressed := false, auxPressed := false, voice := false, signal := false, denial := false, denialMs := 0 }).derive x
    p.becomeAbsent x = (released.floorEvent (Part.lostSeat x)).reexamine x := by
  unfold Part.becomeAbsent
  dsimp only
  rw [Part.modChainSeat_eq, Part.seatTableLink_absent]

/-- Settles O55: the requests by what they read; a training, a retrain, the OFF sequence and a seat made ABSENT by what their steps
write, and by what the floor's work leaves of a chain's state and of the link states. -/
theorem chainRequests : Obligations.ChainRequests := by
  refine ⟨fun s tag c ready => ⟨fun k => ?_, fun n enabled pairs attempts hold retries silent hn he hp ha hh hr hs bad => ?_,
    exec_chainRestart_off ready tag, fun active => ?_, fun other => ?_, fun n => exec_chainRestart_badChain ready tag⟩,
    fun p c cause => ?_, fun p x => ⟨p.becomeAbsent_eq x, p.floorLost_floor x, fun e found enabled room => ?_⟩⟩
  · intro before set payload
    refine ⟨fun fits => (exec_setChain_fits ready tag c fits).trans ?_, fun hp ha hh hr hs unfit =>
      exec_setChain_unfit (c := c) ready tag ⟨chainCode_lt c, flagCode_lt _, hp, ha, hh, hr, hs⟩ unfit⟩
    rw [Part.setChain_eq, Part.taken_chain]
  · have refused := exec_setChain_badByte (x := ⟨n, enabled, pairs, attempts, hold, retries, silent⟩) ready tag
      ⟨hn, he, hp, ha, hh, hr, hs⟩ bad
    exact refused
  · rw [exec_chainRestart_on ready tag (by simp [active]), Part.restartChain_active (by simpa using active)]
  · rw [exec_chainRestart_on ready tag (by rcases other with h | h | h <;> simp [h]),
      Part.restartChain_other (by rcases other with h | h | h <;> simp [h])]
  · intro abandoned told present reachable begun speakers silenced
    have floor : begun.floor = p.floor := Part.modChain_floor c _ p
    have work : silenced begun = begun.floorRetrain c := by
      rw [Part.floorRetrain_eq, floor]
    have trained : p.train c cause = told [] (begun.floorEvent silenced) := by
      rw [Part.floorEvent_congr work]
      rfl
    have mute := p.train_mute c cause
    refine ⟨trained, mute.training, mute.silent, ?_, ?_, rfl, fun count => Part.retrain_linkState count c cause, rfl,
      p.switchOff_state c, fun _ x => p.switchOff_linkState c x⟩
    · rw [work, Part.floorRetrain_floor, floor]
    · rw [work, Part.floorRetrain_floor, floor]
  · rw [Part.floorLost_link]
    exact Part.closeMic_notices found .seatLost enabled room

end Sys2Proof.Machine
end

section
/-!
PROOFS. Attempts of an addressed exchange and their retries (R182, R183), and what the end of an exchange writes in its chain's record
(R170, R184).
-/
namespace Sys2Proof.Machine

theorem Part.modChain_modChain (c : Chain) (f g : ChainCtl → ChainCtl) (p : Part) :
    (p.modChain c f).modChain c g = p.modChain c fun k => g (f k) := by
  cases c <;> rfl

/-! ### Attempts (R182, R183) -/

section
variable {p : Part} {c : Chain} {sent : Sent} {beats : List Text} {retries hold : Nat}

theorem Part.attemptFailed_retries (run : (p.chain c).exchange = some (.addressed sent beats (retries + 1) hold)) :
    p.attemptFailed c =
      p.modChain c fun k => { k.countRetry with exchange := some (.addressed sent beats retries hold) } := by
  simp only [Part.attemptFailed, run]

theorem Part.attemptFailed_last (run : (p.chain c).exchange = some (.addressed sent beats 0 hold)) :
    p.attemptFailed c = p.exchangeFailed c sent := by
  simp only [Part.attemptFailed, run]

variable (run : (p.chain c).exchange = some (.addressed sent beats retries hold)) (answer : UnitAnswer)
include run

theorem Part.attemptAnswered_good : p.attemptAnswered c true answer = p.exchangeSucceeded c sent answer := by
  simp only [Part.attemptAnswered, run, if_true]

theorem Part.attemptAnswered_bad : p.attemptAnswered c false answer = p.attemptFailed c := by
  simp only [Part.attemptAnswered, run, Bool.false_eq_true, if_false]

end

/-! ### Items after their exchange (R184) -/

theorem Item.is_iff {i : Item} {x : Seat} {kind : ItemKind} : i.is x kind = true ↔ i.seat = x ∧ i.payload.kind = kind := by
  simp [Item.is]

theorem ChainCtl.modItem_eq (x : Seat) (kind : ItemKind) (f : Item → Item) (k : ChainCtl) :
    k.modItem x kind f =
      { k with items := k.items.map fun i => if i.seat = x ∧ i.payload.kind = kind then f i else i } := by
  simp only [ChainCtl.modItem, Item.is_iff]

section
variable {k : ChainCtl} {x : Seat} {kind : ItemKind}

/-- A renewed item stays, with a new attempt count. -/
theorem ChainCtl.itemSent_renewed (renewed : ∃ i ∈ k.items, i.is x kind = true ∧ i.renewed = true) :
    k.itemSent x kind = k.modItem x kind fun i => { i with renewed := false, attempts := 0 } :=
  if_pos (by simpa using renewed)

theorem ChainCtl.itemSent_sent (sent : ∀ i ∈ k.items, i.is x kind = true → i.renewed = false) :
    k.itemSent x kind = k.removeItems fun i => i.is x kind :=
  if_neg (by simpa using sent)

theorem ChainCtl.itemSent_exchange : (k.itemSent x kind).exchange = k.exchange := by
  unfold ChainCtl.itemSent
  split
  · rfl
  · have same := ChainCtl.removeItems_unlisted (fun i => i.is x kind) k
    exact (congrArg ChainCtl.exchange same : (ChainCtl.unlisted _).exchange = k.unlisted.exchange)

end

/-! ### What a stale refresh adds (R179) -/

theorem ChainCtl.mem_keep {x : Seat} {payload : Payload} {k : ChainCtl} {i : Item} (mem : i ∈ (k.keep x payload).items) :
    i ∈ k.items ∨ i.payload = payload := by
  unfold ChainCtl.keep at mem
  split at mem
  · obtain ⟨old, listed, rfl⟩ := List.mem_map.1 mem
    split
    · exact .inr rfl
    · exact .inl listed
  · rcases List.mem_append.1 mem with listed | new
    · exact .inl listed
    · exact .inr (congrArg Item.payload (List.mem_singleton.1 new))

theorem ChainCtl.mem_staleRefreshWith {n : Nat} {k : ChainCtl} {i : Item} (mem : i ∈ (k.staleRefreshWith n).items) :
    i ∈ k.items ∨ i.payload = .refresh := by
  induction n generalizing k with
  | zero => exact .inl mem
  | succ n ih =>
    unfold ChainCtl.staleRefreshWith at mem
    split at mem
    · exact .inl mem
    · split at mem
      · rename_i rest _ _
        exact (ih mem).elim (ChainCtl.mem_keep (k := { k with stale := rest })) .inr
      · exact .inl mem

/-- Of the items that go, none is left but a REFRESH that the stale refresh has brought. -/
theorem ChainCtl.mem_removeItems {gone : Item → Bool} {k : ChainCtl} {i : Item} (mem : i ∈ (k.removeItems gone).items)
    (goes : gone i = true) : i.payload = .refresh := by
  unfold ChainCtl.removeItems at mem
  split at mem
  · refine (ChainCtl.mem_staleRefreshWith mem).resolve_left fun kept => ?_
    simpa [goes] using (List.mem_filter.1 kept).2
  · rename_i none
    exact absurd (List.any_eq_true.2 ⟨i, mem, goes⟩) none

/-! ### The transmitting sets (R170) -/

theorem ChainCtl.micTaken_lane (x : Seat) (mic : Option Nat) (n : Nat) (k : ChainCtl) :
    (k.micTaken x mic).lanes[n]? = (k.lanes[n]?).map fun l =>
      { l with transmitting := if mic = some n then insertSeat x (l.transmitting.erase x) else l.transmitting.erase x } := by
  cases mic with
  | none => simp [ChainCtl.micTaken, ChainCtl.stopTransmitting]
  | some lane =>
    simp only [ChainCtl.micTaken, ChainCtl.stopTransmitting, updateAt_eq_modify, List.getElem?_modify, List.getElem?_map,
      Option.some.injEq]
    by_cases told : lane = n <;> simp [told, Function.comp_def]

theorem ChainCtl.micAcknowledged_beside (x : Seat) (payload : Payload) (k : ChainCtl) :
    (k.micAcknowledged x payload).exchange = k.exchange ∧ (k.micAcknowledged x payload).items = k.items := by
  cases payload <;> exact ⟨rfl, rfl⟩

end Sys2Proof.Machine
end

section
/-!
PROOFS. A seat's failures and successes (R166, R168), and the seat that becomes SILENT or returns, block by block (R2, R169).
-/
namespace Sys2Proof.Machine

/-! ### A seat's record after a write -/

theorem Part.modSeat_written {p : Part} (count : p.seats.length = 64) (x : Seat) (f : SeatRec → SeatRec) :
    (p.modSeat x f).seat x = f (p.seat x) := by
  rw [Part.seat_modSeat, count, if_pos ⟨rfl, x.isLt⟩]

/-- A field that a write keeps is as it was. -/
theorem Part.modSeat_field {α : Type} {field : SeatRec → α} {f : SeatRec → SeatRec} (same : ∀ r, field (f r) = field r)
    (x y : Seat) (p : Part) : field ((p.modSeat x f).seat y) = field (p.seat y) := by
  rw [Part.seat_modSeat]
  split
  · exact same _
  · rfl

/-- SEAT_STATE with a seat's failure count written: the count is no part of it (R172). -/
theorem Part.notifySeat_failures (x : Seat) (count : Nat → Nat) (event : SeatEvent) (link : LinkState) (p : Part) :
    let q := p.modSeat x fun r => { r with failures := count r.failures }
    q.notifySeat x event link =
      q.notify (.seatState x event link (p.seat x).unitType (p.seat x).serial
        ((p.chain (chainOf x)).seats.getD (x.val % 32) ⟨false, false, 0⟩).fault) := by
  have kept {α : Type} (field : SeatRec → α) (same : ∀ r n, field { r with failures := n } = field r) :=
    Part.modSeat_field (f := fun r => { r with failures := count r.failures }) (fun r => same r _) x x p
  unfold Part.notifySeat
  dsimp only
  rw [kept SeatRec.unitType fun _ _ => rfl, kept SeatRec.serial fun _ _ => rfl, Part.modSeat_chain]
  rfl

/-! ### Link states (R2, R169) -/

theorem FloorWork.ofLink (x : Seat) (link : LinkState) : FloorWork fun q => (q.seat x).link = link :=
  fun _ _ frame h => (congrArg SeatRec.link (Part.unlit_of_frame frame x)).trans h

theorem FloorWork.deny_link {x : Seat} {link : LinkState} (y : Seat) {q : Part} (h : (q.seat x).link = link) :
    ((q.deny y).seat x).link = link := by
  have denied := (Part.modSeat_linkState (f := fun r => { r with denial := true, denialMs := 1000 }) (fun _ => rfl) y x q).trans h
  exact (FloorWork.ofLink x link).derive denied

/-- What the seat table writes for a seat made SILENT (R2). -/
theorem Part.seatTableLink_silent (x : Seat) (p : Part) :
    p.seatTableLink x .silent =
      (p.modSeat x fun r =>
        { r with
          link := .silent
          speakPressed := false, auxPressed := false, voice := false, signal := false, denial := false, denialMs := 0 }).derive x :=
  congrArg (Part.derive x) (Part.modSeat_modSeat x _ _ p)

section
variable {p : Part} (count : p.seats.length = 64) (x : Seat)
include count

theorem Part.becomeSilent_link : ((p.becomeSilent x).seat x).link = .silent := by
  have w := FloorWork.ofLink x .silent
  unfold Part.becomeSilent
  refine w.reexamine (w.floorEvent (fun _ => w.lostSeat fun y _ => FloorWork.deny_link y) ?_)
  rw [Part.seatTableLink_silent]
  refine w.derive ?_
  rw [Part.modSeat_written (by simpa using count)]

theorem Part.becomePresent_link : ((p.becomePresent x).seat x).link = .present := by
  have w := FloorWork.ofLink x .present
  unfold Part.becomePresent
  refine w.queueItem (w.reexamine (w.queueItem (w.floorEvent (fun _ => id) (w.queueItem ?_))))
  rw [Part.modSeat_written (by simpa using count)]

end

section
variable (x : Seat) (p : Part)

/-- The floor's work for a seat made SILENT or ABSENT: its microphone closes, and it leaves the queue and the held presses (R66). -/
theorem Part.floorLost_eq :
    let closed := p.closeMic x (some .seatLost)
    let left := Part.derive x { closed with
      floor := { closed.floor with
        queue := closed.floor.queue.filter fun e => e.seat ≠ x
        held := closed.floor.held.filter fun e => e.seat ≠ x
        onsets := closed.floor.onsets.set x.val 0 } }
    p.floorLost x = if p.isQueued x = true then left.deriveQueued else left := by
  intro closed left
  have removed : (closed.modFloor fun f => ((f.dequeue x).dropHeld x).setOnset x 0).derive x = left := by
    unfold Floor.setOnset
    simp only [updateAt_const]
    rfl
  unfold Part.floorLost
  dsimp only
  rw [removed]

/-- The frames that a seat made SILENT or ABSENT leaves (R73). -/
theorem Part.leaveSaved_eq :
    p.leaveSaved x =
      if (∃ r ∈ p.floor.stack, ∃ e ∈ r.saved, e.seat = x) then
        (Part.reexamine x { p with
          floor := { p.floor with
            stack := p.floor.stack.map fun r => { r with saved := r.saved.filter fun e => e.seat ≠ x } } }).derive x
      else p := by
  have saved : p.isSaved x = true ↔ ∃ r ∈ p.floor.stack, ∃ e ∈ r.saved, e.seat = x := by
    simp [Part.isSaved, ResumeFrame.saves]
  unfold Part.leaveSaved
  simp only [saved]
  rfl

/-- A seat made SILENT, block by block: its chain, the seat table, the floor with the priority mechanism, the screen router
(R168, R169). -/
theorem Part.becomeSilent_eq :
    let listed := (p.modChain (chainOf x) (ChainCtl.dropSeat x)).modChain (chainOf x) fun k =>
      { k with seats := k.seats.modify (x.val % 32) fun t => { t with sincePoll := 100 } }
    let released := (listed.modSeat x fun r =>
      { r with
        link := .silent
        speakPressed := false, auxPressed := false, voice := false, signal := false, denial := false, denialMs := 0 }).derive x
    p.becomeSilent x = (released.floorEvent (Part.lostSeat x)).reexamine x := by
  unfold Part.becomeSilent
  dsimp only
  rw [Part.modChainSeat_eq, Part.seatTableLink_silent]
  rfl

/-- A seat that is PRESENT again, block by block: its chain, the seat table, the floor, the mixer, the screen router, its chain
(R169). -/
theorem Part.becomePresent_eq :
    let due := (p.modChain (chainOf x) fun k =>
      { k with seats := k.seats.modify (x.val % 32) fun t => { t with sincePoll := 100 } }).modSeat x fun r =>
      { r with link := .present }
    let floor := (due.queueItem x .refresh).floorEvent id
    let seen := (floor.queueItem x (.speakerState (floor.mixer.loud.getD x.val .normal))).reexamine x
    p.becomePresent x = seen.queueItem x (seen.micPayload x) := by
  unfold Part.becomePresent
  dsimp only
  rw [Part.modChainSeat_eq]
  rfl

end

/-! ### Failures (R166, R168) -/

section
variable {p : Part} {c : Chain} {x : Seat}

/-- A seat whose consecutive failure count has risen (R168). -/
def Part.countedFailure (x : Seat) (p : Part) : Part := p.modSeat x fun r => { r with failures := countUpTo 15 r.failures }

theorem Part.countedFailure_told (event : SeatEvent) (link : LinkState) :
    (p.countedFailure x).notifySeat x event link =
      (p.countedFailure x).notify (.seatState x event link (p.seat x).unitType (p.seat x).serial
        ((p.chain (chainOf x)).seats.getD (x.val % 32) ⟨false, false, 0⟩).fault) :=
  Part.notifySeat_failures x (countUpTo 15) event link p

theorem Part.seatFailed_counts (count : p.seats.length = 64) (present : (p.seat x).link = .present)
    (below : countUpTo 15 (p.seat x).failures < (p.chain c).settings.silent) :
    p.seatFailed c x = (p.countedFailure x).countRun c := by
  have counted := Part.modSeat_written count x fun r => { r with failures := countUpTo 15 r.failures }
  simp only [Part.seatFailed, present, counted]
  exact if_neg (Nat.not_le_of_lt below)

theorem Part.seatFailed_silences (count : p.seats.length = 64) (present : (p.seat x).link = .present)
    (reached : (p.chain c).settings.silent ≤ countUpTo 15 (p.seat x).failures) :
    p.seatFailed c x = (((p.countedFailure x).notifySeat x .silent .silent).becomeSilent x).countRun c := by
  have counted := Part.modSeat_written count x fun r => { r with failures := countUpTo 15 r.failures }
  simp only [Part.seatFailed, present, counted]
  exact if_pos reached

theorem Part.seatFailed_silent (silent : (p.seat x).link = .silent) : p.seatFailed c x = p.countedFailure x := by
  simp only [Part.seatFailed, silent, Part.countedFailure]

theorem Part.seatFailed_unreached (gone : (p.seat x).link = .held ∨ (p.seat x).link = .absent) : p.seatFailed c x = p := by
  rcases gone with gone | gone <;> simp only [Part.seatFailed, gone]

/-! ### Successes (R166, R168) -/

/-- The failure run and a seat's failure count cleared. -/
def Part.clearedFailures (c : Chain) (x : Seat) (p : Part) : Part :=
  (p.modChain c fun k => { k with failureRun := 0 }).modSeat x fun r => { r with failures := 0 }

theorem Part.seatSucceeded_reached (reached : (p.seat x).link ≠ .silent) :
    p.seatSucceeded c x = p.clearedFailures c x := if_neg reached

theorem Part.seatSucceeded_returns (silent : (p.seat x).link = .silent) :
    p.seatSucceeded c x = ((p.clearedFailures c x).notifySeat x .returned .present).becomePresent x := if_pos silent

theorem Part.clearedFailures_chain : (p.clearedFailures c x).chain c = { p.chain c with failureRun := 0 } := by
  unfold Part.clearedFailures
  rw [Part.modSeat_chain, Part.modChain_chain_same]

theorem Part.clearedFailures_seat (count : p.seats.length = 64) :
    (p.clearedFailures c x).seat x = { p.seat x with failures := 0 } := by
  refine (Part.modSeat_written (by simpa using count) x _).trans ?_
  rw [Part.modChain_seat]

theorem Part.clearedFailures_told (event : SeatEvent) (link : LinkState) :
    (p.clearedFailures c x).notifySeat x event link =
      (p.clearedFailures c x).notify (.seatState x event link (p.seat x).unitType (p.seat x).serial
        ((p.chain (chainOf x)).seats.getD (x.val % 32) ⟨false, false, 0⟩).fault) := by
  have seats : ((p.modChain c fun k => { k with failureRun := 0 }).chain (chainOf x)).seats = (p.chain (chainOf x)).seats := by
    rw [Part.chain_modChain]
    split <;> rfl
  rw [← seats, ← Part.modChain_seat c (fun k => { k with failureRun := 0 }) x p]
  exact Part.notifySeat_failures x (fun _ => 0) event link _

end

end Sys2Proof.Machine
end

section
/-!
PROOFS. What a poll's response hands on (R3, R4, R152, R172, R187, R188), and the lanes of a microphone that opens or closes (R170).
-/
namespace Sys2Proof.Machine

/-! ### The signal-present flag at the screen router (R152) -/

section
variable {p : Part} {x : Seat}

theorem Part.signalChanged_none (one : ∀ h, p.screens.slot1 = some h → h.seat ≠ x)
    (two : ∀ h, p.screens.slot2 = some h → h.seat ≠ x) (present : Bool) : p.signalChanged x present = p := by
  rw [Part.signalChanged, Screens.slotOf_none one two]

variable {n : Slot} (own : p.screens.slotOf x = some n)
include own

theorem Part.signalChanged_returns : p.signalChanged x true = p.modScreens (Screens.setGrace n none) := by
  simp only [Part.signalChanged, own, if_true]

theorem Part.signalChanged_runs (running : (p.screens.grace n).isSome = true) : p.signalChanged x false = p := by
  simp only [Part.signalChanged, own, running, Bool.false_eq_true, if_true, if_false]

variable (stopped : p.screens.grace n = none)
include stopped

theorem Part.signalChanged_ends (atOnce : p.screens.graceTime = 0) : p.signalChanged x false = p.endShare n .signalLost := by
  simp only [Part.signalChanged, own, stopped, atOnce, Option.isSome_none, Bool.false_eq_true, if_true, if_false]

theorem Part.signalChanged_starts (later : p.screens.graceTime ≠ 0) :
    p.signalChanged x false = p.modScreens (Screens.setGrace n (some p.screens.graceTime)) := by
  simp only [Part.signalChanged, own, stopped, later, Option.isSome_none, Bool.false_eq_true, if_false]

end

theorem Part.signalChanged_chain (x : Seat) (present : Bool) (p : Part) (c : Chain) :
    (p.signalChanged x present).chain c = p.chain c := Part.chain_congr (by simp) (by simp) c

theorem Part.modScreens_setGrace (n : Slot) (time : Option Nat) (p : Part) :
    p.modScreens (Screens.setGrace n time) =
      { p with
        screens := match n with
          | .one => { p.screens with grace1 := time }
          | .two => { p.screens with grace2 := time } } := by
  cases n <;> rfl

/-! ### The report of a poll (R3, R4, R172, R188) -/

theorem FloorWork.resolveVoice {P : Part → Prop} {p : Part} (w : FloorWork P) {x : Seat} (h : P p) : P (p.resolveVoice x) := by
  unfold Part.resolveVoice
  split
  · exact w.requestDelegate h
  · exact h

theorem FloorWork.voiceReport {P : Part → Prop} {p : Part} (w : FloorWork P) {x : Seat} {voice : Bool} (h : P p) :
    P (p.voiceReport x voice) := by
  have onset (n : Nat) : P (p.modFloor (Floor.setOnset x n)) := w.modFloor rfl h
  unfold Part.voiceReport
  split
  · split
    · exact w.modFloor rfl h
    · exact h
  · split
    · exact onset 0
    · split
      · exact onset 1
      · dsimp only
        split
        · exact w.resolveVoice (onset 2)
        · exact onset 2
      · exact h

/-- A poll's response at the seat table: what the floor and the screen router make of it, and the presses behind those that wait. -/
theorem Part.pollReport_eq (x : Seat) (answer : UnitAnswer) (p : Part) :
    let heard := (p.modSeat x (SeatRec.report answer)).floorEvent (Part.voiceReport x answer.voice)
    let seen := if (p.seat x).signal = answer.signal then heard else heard.signalChanged x answer.signal
    p.pollReport x answer =
      { seen with
        presses := seen.presses ++ List.replicate answer.speakPresses.val ⟨x, .speak⟩ ++
          List.replicate answer.auxPresses.val ⟨x, .aux⟩ } := by
  intro heard seen
  rw [List.append_assoc]
  rfl

theorem Part.pollReport_presses (x : Seat) (answer : UnitAnswer) (p : Part) :
    (p.pollReport x answer).presses =
      p.presses ++ List.replicate answer.speakPresses.val ⟨x, .speak⟩ ++ List.replicate answer.auxPresses.val ⟨x, .aux⟩ := by
  rw [Part.pollReport_eq]
  dsimp only
  split <;> simp [Part.floorEvent]

/-- A poll's response keeps what neither the list nor the lanes' assignments of a chain decide. -/
theorem Part.pollReport_chain {P : ChainCtl → Prop} (decided : ∀ a b : ChainCtl, b.unlisted = a.unlisted → P a → P b) (x : Seat)
    (answer : UnitAnswer) {p : Part} {c : Chain} (h : P (p.chain c)) : P ((p.pollReport x answer).chain c) := by
  have w := FloorWork.ofChain decided c
  have heard : P (((p.modSeat x (SeatRec.report answer)).floorEvent (Part.voiceReport x answer.voice)).chain c) :=
    w.floorEvent (fun _ => w.voiceReport) (by simpa using h)
  have beside (q : Part) (presses : List Press) : ({ q with presses := presses } : Part).chain c = q.chain c := by
    cases c <;> rfl
  rw [Part.pollReport_eq, beside]
  split
  · exact heard
  · rwa [Part.signalChanged_chain]

theorem Part.reportFault_same {p : Part} {x : Seat} {fault : Bool}
    (same : fault = ((p.chain (chainOf x)).seats.getD (x.val % 32) ⟨false, false, 0⟩).fault) : p.reportFault x fault = p :=
  if_pos same.symm

/-- A changed fault flag is stored and told (R172). -/
theorem Part.reportFault_changed {p : Part} {x : Seat} {fault : Bool} (count : (p.chain (chainOf x)).seats.length = 32)
    (changed : fault ≠ ((p.chain (chainOf x)).seats.getD (x.val % 32) ⟨false, false, 0⟩).fault) :
    p.reportFault x fault =
      (p.modChain (chainOf x) fun k => { k with seats := k.seats.modify (x.val % 32) fun t => { t with fault := fault } }).notify
        (.seatState x .fault (p.seat x).link (p.seat x).unitType (p.seat x).serial fault) := by
  have stored : (((p.chain (chainOf x)).seats.modify (x.val % 32) fun t => { t with fault := fault }).getD (x.val % 32)
      ⟨false, false, 0⟩).fault = fault := by
    rw [← updateAt_eq_modify, getD_updateAt, if_pos ⟨rfl, by omega⟩]
  refine (if_neg changed.symm).trans ?_
  rw [Part.modChainSeat_eq]
  unfold Part.notifySeat ChainCtl.seatAt position
  rw [Part.modChain_seat, Part.modChain_chain_same, stored]

theorem Part.reportFault_chain (x : Seat) (fault : Bool) (p : Part) (c : Chain) :
    ((p.reportFault x fault).chain c).exchange = (p.chain c).exchange ∧
      ((p.reportFault x fault).chain c).pointer = (p.chain c).pointer := by
  unfold Part.reportFault
  split
  · exact ⟨rfl, rfl⟩
  · rw [Part.modChainSeat_eq]
    unfold Part.notifySeat
    rw [Part.notify_chain, Part.chain_modChain]
    split <;> exact ⟨rfl, rfl⟩

/-! ### Lanes (R170) -/

/-- A lane given to a seat's microphone, or freed. -/
theorem Part.assignLane_eq (x : Seat) (lane : Nat) (seat : Option Seat) (p : Part) :
    (p.modChain (chainOf x) fun k =>
      { k with lanes := updateAt (fun l : Lane => { l with assigned := seat }) k.lanes lane }) =
      p.modChain (chainOf x) fun k => { k with lanes := k.lanes.modify lane fun l => { l with assigned := seat } } := by
  simp only [updateAt_eq_modify]

theorem Part.chainOpen_eq (x : Seat) (lane : Nat) (p : Part) :
    let assigned := p.modChain (chainOf x) fun k =>
      { k with lanes := k.lanes.modify lane fun l => { l with assigned := some x } }
    p.chainOpen x lane = if (p.seat x).link = .present then assigned.queueItem x (.micOpen lane) else assigned := by
  unfold Part.chainOpen Part.queueIfPresent
  rw [Part.assignLane_eq, Part.modChain_seat]

theorem Part.chainClose_eq (x : Seat) (lane : Nat) (p : Part) :
    let freed := p.modChain (chainOf x) fun k =>
      { k with lanes := k.lanes.modify lane fun l => { l with assigned := none } }
    p.chainClose x lane = if (p.seat x).link = .present then freed.queueItem x .micClosed else freed := by
  unfold Part.chainClose Part.queueIfPresent
  rw [Part.assignLane_eq, Part.modChain_seat]

end Sys2Proof.Machine
end

section
/-!
PROOFS. The end of an enumeration (R164, R165), and the exchanges of a chain as a whole (R182 to R188).
-/
namespace Sys2Proof.Machine

/-! ### The end of an enumeration (R165) -/

/-- A unit found: it is recorded, a new serial is told, and its seat becomes PRESENT. -/
theorem Part.settleFound_eq {p : Part} (count : p.seats.length = 64) (x : Seat) (u : FoundUnit) :
    let recorded := p.modSeat x fun r => { r with unitType := some u.unitType, serial := some u.serial, failures := 0 }
    let noticed :=
      if (p.seat x).serial ≠ none ∧ (p.seat x).serial ≠ some u.serial then
        recorded.notify (.seatState x .changed .present (some u.unitType) (some u.serial)
          ((p.chain (chainOf x)).seats.getD (x.val % 32) ⟨false, false, 0⟩).fault)
      else recorded
    p.settleFound x u = if (p.seat x).link = .present then noticed else noticed.becomePresent x := by
  intro recorded noticed
  have changed : ((p.seat x).serial.any fun old => old ≠ u.serial) = true ↔
      (p.seat x).serial ≠ none ∧ (p.seat x).serial ≠ some u.serial := by
    cases (p.seat x).serial <;> simp
  have told : recorded.notifySeat x .changed .present =
      recorded.notify (.seatState x .changed .present (some u.unitType) (some u.serial)
        ((p.chain (chainOf x)).seats.getD (x.val % 32) ⟨false, false, 0⟩).fault) := by
    unfold Part.notifySeat
    rw [Part.modSeat_written count, Part.modSeat_chain]
    rfl
  unfold Part.settleFound
  simp only [changed]
  rw [told]

/-- The seats of a chain beyond the units found, that are to become ABSENT. -/
theorem Part.reachable_beyond (c : Chain) (n : Nat) (p : Part) :
    ((p.reachable c).filter fun x => n ≤ position x) =
      (chainSeats c).filter fun x => (p.seat x).link ≠ .absent ∧ n ≤ x.val % 32 := by
  simp only [Part.reachable, List.filter_filter, Bool.decide_and, Bool.and_comm]
  rfl

theorem Part.pendBroadcast_active {p : Part} {c : Chain} (active : (p.chain c).state = .active) :
    p.pendBroadcast c = p.modChain c fun k => { k with broadcast := some p.sessionTitle } :=
  Part.modChain_congr (if_pos active)

/-- A chain that has settled is in service through the floor's pass. -/
theorem Part.settledPass_state (c : Chain) (overlength : Bool) (p : Part) :
    (((p.modChain c (ChainCtl.settled overlength)).floorEvent id).chain c).state = .active := by
  refine (FloorWork.ofChainState c .active).floorEvent (fun _ => id) ?_
  rw [Part.modChain_chain_same]
  rfl

/-- The end of an enumeration: the units found, the seats made ABSENT, the floor's pass, CHAIN_STATE, and the session title. -/
theorem Part.settle_eq (c : Chain) (overlength : Bool) (p : Part) :
    let units := (p.chain c).enumerated
    let found := units.zipIdx.foldl (fun q u => q.settleFound (seatAt c u.2) u.1) p
    let missing := (chainSeats c).filter fun x => (found.seat x).link ≠ .absent ∧ units.length ≤ x.val % 32
    let passed := ((missing.foldl (fun q x => q.becomeAbsent x) found).modChain c (ChainCtl.settled overlength)).floorEvent id
    p.settle c overlength =
      (passed.notifyChain c missing).modChain c fun k => { k with broadcast := some passed.sessionTitle } := by
  intro units found missing passed
  have active : ((passed.notifyChain c missing).chain c).state = .active :=
    (FloorWork.ofChainState c .active).notify _ (Part.settledPass_state c overlength _)
  refine Eq.trans ?_ (Part.pendBroadcast_active active)
  unfold Part.settle
  dsimp only
  rw [Part.reachable_beyond]
  rfl

theorem Part.settle_state (c : Chain) (overlength : Bool) (p : Part) : ((p.settle c overlength).chain c).state = .active := by
  rw [Part.settle_eq, Part.modChain_chain_same]
  exact (FloorWork.ofChainState c .active).notify _ (Part.settledPass_state c overlength _)

/-! ### A unit that answers its enumeration (R164) -/

section
variable {p : Part} {c : Chain} {n : Nat} {answer : UnitAnswer}

theorem Part.enumerated_last (last : answer.endOfChain = true) :
    p.enumerated c n answer =
      (p.modChain c fun k => { k with enumerated := k.enumerated ++ [⟨answer.unitType, answer.serial⟩] }).settle c false :=
  if_pos last

theorem Part.enumerated_overlong (more : answer.endOfChain = false) (full : 31 ≤ n) :
    p.enumerated c n answer =
      (p.modChain c fun k => { k with enumerated := k.enumerated ++ [⟨answer.unitType, answer.serial⟩] }).settle c true :=
  (if_neg (ne_true_of_eq_false more)).trans (if_pos full)

theorem Part.enumerated_next (more : answer.endOfChain = false) (room : n < 31) :
    p.enumerated c n answer =
      p.modChain c fun k =>
        ChainCtl.beginEnumeration (n + 1) { k with enumerated := k.enumerated ++ [⟨answer.unitType, answer.serial⟩] } :=
  ((if_neg (ne_true_of_eq_false more)).trans (if_neg (Nat.not_le_of_lt room))).trans (Part.modChain_modChain _ _ _ p)

end

/-! ### A good response (R184, R187) -/

section
variable {p : Part} {c : Chain} {x : Seat}

theorem Part.itemSucceeded_eq (reached : (p.seat x).link ≠ .silent) (payload : Payload) (answer : UnitAnswer) :
    p.exchangeSucceeded c (.item x payload) answer =
      (p.modChain c fun k =>
        ChainCtl.itemSent x payload.kind (ChainCtl.micAcknowledged x payload { k with exchange := none })).clearedFailures c x := by
  rw [← Part.seatSucceeded_reached (by rwa [Part.modChain_seat])]
  exact congrArg (Part.seatSucceeded c x) (Part.modChain_modChain c _ _ p)

/-- An item taken by the unit of a PRESENT seat: its exchange is over, and the item leaves the list when it was not renewed. -/
theorem Part.itemSucceeded_ends (count : p.seats.length = 64) (present : (p.seat x).link = .present) (payload : Payload)
    (answer : UnitAnswer) :
    let q := p.exchangeSucceeded c (.item x payload) answer
    (q.chain c).exchange = none ∧ (q.chain c).failureRun = 0 ∧ (q.seat x).failures = 0 ∧ (q.seat x).link = .present ∧
      ((∀ i ∈ (p.chain c).items, i.is x payload.kind = true → i.renewed = false) →
        ∀ i ∈ (q.chain c).items, i.seat = x → i.payload.kind = payload.kind → payload.kind = .refresh) := by
  dsimp only
  rw [Part.itemSucceeded_eq (by rw [present]; decide), Part.clearedFailures_chain, Part.modChain_chain_same,
    Part.clearedFailures_seat (by simpa using count), Part.modChain_seat]
  obtain ⟨exchange, items⟩ := ChainCtl.micAcknowledged_beside x payload { p.chain c with exchange := none }
  refine ⟨ChainCtl.itemSent_exchange.trans exchange, rfl, rfl, present, fun once i mem own kind => ?_⟩
  have gone := ChainCtl.itemSent_sent (by rwa [items])
  have refresh := ChainCtl.mem_removeItems (gone ▸ mem) (Item.is_iff.2 ⟨own, kind⟩)
  rw [← kind, refresh]
  rfl

/-- The exchange of a poll over, with its toggle turned and the poll pointer moved on (R180, R187). -/
def Part.pollTurned (c : Chain) (x : Seat) (p : Part) : Part :=
  ((p.endExchange c).modChain (chainOf x) fun k =>
    { k with seats := k.seats.modify (x.val % 32) fun t => { t with toggle := !t.toggle } }).modChain c fun k =>
    { k with pointer := (x.val % 32 + 1) % 32 }

theorem Part.pollSucceeded_eq (toggle : Bool) (answer : UnitAnswer) :
    p.exchangeSucceeded c (.poll x toggle) answer =
      (((p.pollTurned c x).seatSucceeded c x).pollReport x answer).reportFault x answer.fault := by
  unfold Part.pollTurned
  rw [← Part.modChainSeat_eq]
  rfl

theorem Part.pollTurned_chain :
    ((p.pollTurned c x).chain c).exchange = none ∧ ((p.pollTurned c x).chain c).pointer = (x.val % 32 + 1) % 32 := by
  unfold Part.pollTurned Part.endExchange
  rw [Part.modChain_chain_same, Part.chain_modChain, Part.modChain_chain_same]
  split <;> exact ⟨rfl, rfl⟩

/-- A poll answered by a PRESENT seat: its exchange is over, the pointer moves on, and its presses wait. -/
theorem Part.pollSucceeded_ends (present : (p.seat x).link = .present) (toggle : Bool) (answer : UnitAnswer) :
    let q := p.exchangeSucceeded c (.poll x toggle) answer
    (q.chain c).exchange = none ∧ (q.chain c).pointer = (x.val % 32 + 1) % 32 ∧
      q.presses =
        p.presses ++ List.replicate answer.speakPresses.val ⟨x, .speak⟩ ++ List.replicate answer.auxPresses.val ⟨x, .aux⟩ := by
  dsimp only
  have reached : ((p.pollTurned c x).seat x).link ≠ .silent := by simp [Part.pollTurned, Part.endExchange, present]
  rw [Part.pollSucceeded_eq, Part.seatSucceeded_reached reached]
  obtain ⟨exchange, pointer⟩ := Part.reportFault_chain x answer.fault (((p.pollTurned c x).clearedFailures c x).pollReport x answer) c
  have cleared : (((p.pollTurned c x).clearedFailures c x).chain c).exchange = none ∧
      (((p.pollTurned c x).clearedFailures c x).chain c).pointer = (x.val % 32 + 1) % 32 := by
    rw [Part.clearedFailures_chain]
    exact Part.pollTurned_chain
  obtain ⟨ended, moved⟩ := Part.pollReport_chain (P := fun k => k.exchange = none ∧ k.pointer = (x.val % 32 + 1) % 32)
    (fun a b same h =>
      ⟨(congrArg ChainCtl.exchange same : b.unlisted.exchange = a.unlisted.exchange).trans h.1,
        (congrArg ChainCtl.pointer same : b.unlisted.pointer = a.unlisted.pointer).trans h.2⟩) x answer cleared
  refine ⟨exchange.trans ended, pointer.trans moved, ?_⟩
  simp [Part.pollReport_presses, Part.clearedFailures, Part.pollTurned, Part.endExchange]

end

/-- Settles O58: the attempts by what is left of their retries; the seat, the poll, the lanes and the settling of an enumeration each
by the equations of its operations. -/
theorem attemptsResolved : Obligations.AttemptsResolved := by
  refine ⟨fun s c sent beats retries hold answer quiet run => ?_, fun p c x => ?_, fun p c x => ?_, fun p c x answer => ?_,
    fun p x answer => ⟨p.pollReport_eq x answer, Part.reportFault_same, fun changed count => Part.reportFault_changed count changed⟩,
    fun p x => ⟨fun present one two => Part.signalChanged_none one two present, fun slot h held seat first => ?_⟩,
    fun k x => ⟨fun mic n => k.micTaken_lane x mic n, fun kind => ⟨fun renewed => ?_, fun once => ?_⟩⟩,
    fun p x lane => ⟨p.chainOpen_eq x lane, p.chainClose_eq x lane⟩,
    fun p c overlength => ⟨p.settle_eq c overlength, p.settle_state c overlength, fun x u count => Part.settleFound_eq count x u⟩⟩
  · have timeout : exec (.holdLimitTimeout c) s = s.to (s.part.attemptFailed c) := onPart_whenRunning quiet _
    have bad : exec (.attemptResponse c false answer) s = s.to (s.part.attemptFailed c) :=
      (onPart_whenRunning quiet _).trans (congrArg s.to (Part.attemptAnswered_bad run answer))
    have good : exec (.attemptResponse c true answer) s = s.to (s.part.exchangeSucceeded c sent answer) :=
      (onPart_whenRunning quiet _).trans (congrArg s.to (Part.attemptAnswered_good run answer))
    rw [timeout, bad, good]
    refine ⟨fun n left => ?_, fun spent => ?_, rfl, fun x payload item present _ count => ?_, fun x toggle poll present _ => ?_,
      fun position found more room => ?_⟩
    · subst left
      exact and_self_iff.2 (congrArg s.to (Part.attemptFailed_retries run))
    · subst spent
      exact and_self_iff.2 (congrArg s.to (Part.attemptFailed_last run))
    · subst item
      exact ⟨_, rfl, Part.itemSucceeded_ends count present payload answer⟩
    · subst poll
      exact ⟨_, rfl, Part.pollSucceeded_ends present toggle answer⟩
    · subst found
      exact congrArg s.to ((Part.enumerated_next more room).trans (Part.modChain_modChain c _ _ _))
  · refine ⟨fun _ => rfl, fun _ => rfl, fun payload => ?_, fun _ _ _ => ?_⟩ <;>
      exact congrArg (Part.seatFailed c x) (Part.modChain_congr (ChainCtl.modItem_eq x _ _ _))
  · refine ⟨fun count present => ⟨Part.seatFailed_counts count present, fun reached => ?_⟩, Part.seatFailed_silent,
      Part.seatFailed_unreached, Part.seatSucceeded_reached, fun silent _ => ?_,
      fun count => ⟨Part.becomeSilent_link count x, Part.becomePresent_link count x⟩, p.becomeSilent_eq x, p.floorLost_eq x,
      p.leaveSaved_eq x, p.becomePresent_eq x⟩
    · rw [Part.seatFailed_silences count present reached, Part.countedFailure_told]
      rfl
    · rw [Part.seatSucceeded_returns silent, Part.clearedFailures_told]
      rfl
  · refine ⟨fun toggle => Part.pollSucceeded_eq toggle answer, fun payload => ?_, fun ring lane loud => rfl,
      fun last n => Part.enumerated_last last, fun more n full => Part.enumerated_overlong more full⟩
    cases payload <;> rfl
  · subst seat
    have own := Screens.slotOf_held held first
    exact ⟨(Part.signalChanged_returns own).trans (p.modScreens_setGrace slot none), Part.signalChanged_runs own,
      Part.signalChanged_ends own, fun stopped later =>
        (Part.signalChanged_starts own stopped later).trans (p.modScreens_setGrace slot _)⟩
  · obtain ⟨i, mem, same, again⟩ := renewed
    exact (ChainCtl.itemSent_renewed ⟨i, mem, Item.is_iff.2 same, again⟩).trans (ChainCtl.modItem_eq x kind _ k)
  · exact ChainCtl.itemSent_sent fun i mem same => once i mem (Item.is_iff.1 same)

end Sys2Proof.Machine
end

section
/-!
PROOFS. Requests and the frames that they stand for (catalogue 11.8), and the outcome of every command: a next state with the same
queue, and none at all for a part held in reset but for the events of reset (R199).
-/
namespace Sys2Proof.Machine

/-! ### Kinds and requests (R189, R193) -/

theorem Frame.of_kind {f : Frame} {n : Nat} (h : f.kind.toNat = n) : (⟨BitVec.ofNat 8 n, f.tag, f.payload⟩ : Frame) = f := by
  subst h
  simp

theorem commandOfFrame_unknown {f : Frame} (h : isRequestKind f.kind = false) :
    commandOfFrame f = .unknownKindRequest f.kind f.tag f.payload := by
  unfold isRequestKind at h
  unfold commandOfFrame
  split
  case h_48 => rfl
  all_goals
    rename_i k
    rw [k] at h
    exact absurd h (by decide)

theorem commandOfFrame_frame (f : Frame) : (commandOfFrame f).frame? = some f := by
  unfold commandOfFrame
  split
  case h_48 => rfl
  all_goals
    rename_i k
    exact congrArg some (Frame.of_kind k)

/-- A well-formed command is no request of unknown kind with a kind of the catalogue. -/
theorem wf_unknownKind {kind tag : Byte} {payload : List Byte} (wf : (Instr.unknownKindRequest kind tag payload).wf = true) :
    isRequestKind kind = false := by
  simp only [Instr.wf, Bool.and_eq_true, Bool.not_eq_true'] at wf
  exact wf.1

/-- Settles O6: kind by kind. -/
theorem frameSpellsItsRequest : Obligations.FrameSpellsItsRequest := by
  refine ⟨fun c f wf frame => ?_, commandOfFrame_frame⟩
  cases c <;> cases frame
  case unknownKindRequest kind tag payload => exact commandOfFrame_unknown (f := ⟨kind, tag, payload⟩) (wf_unknownKind wf)
  all_goals rfl

/-! ### What a request runs -/

/-- The owning block's answer to a request, by its command; every other command stands for the answer to an unknown kind. -/
def answerOf (c : Instr) : List Byte → Part → Answer :=
  match c with
  | .ping _ _ => answerPing
  | .getInfo _ _ => answerGetInfo
  | .getStats _ _ => answerGetStats
  | .deviceReset _ _ => answerDeviceReset
  | .setNotices _ _ => answerSetNotices
  | .setClock _ _ => answerSetClock
  | .getClock _ _ => answerGetClock
  | .addBooking _ _ => answerAddBooking
  | .removeBooking _ _ => answerRemoveBooking
  | .extendBooking _ _ => answerExtendBooking
  | .listBookings _ _ => answerListBookings
  | .getSession _ _ => answerGetSession
  | .checkIn _ _ => answerCheckIn
  | .endSession _ _ => answerEndSession
  | .setRoomDefaults _ _ => answerSetRoomDefaults
  | .setStandby _ _ => answerSetStandby
  | .wake _ _ => answerWake
  | .setSeat _ _ => answerSetSeat
  | .getSeat _ _ => answerGetSeat
  | .setZone _ _ => answerSetZone
  | .setStanding _ _ => answerSetStanding
  | .setName _ _ => answerSetName
  | .grant _ _ => answerGrant
  | .close _ _ => answerClose
  | .enqueue _ _ => answerEnqueue
  | .dequeue _ _ => answerDequeue
  | .moveRequest _ _ => answerMoveRequest
  | .getFloor _ _ => answerGetFloor
  | .setFloor _ _ => answerSetFloor
  | .priorityTake _ _ => answerPriorityTake
  | .priorityRelease _ _ => answerPriorityRelease
  | .floorReset _ _ => answerFloorReset
  | .extendSpeech _ _ => answerExtendSpeech
  | .seatPress _ _ => answerSeatPress
  | .setMix _ _ => answerSetMix
  | .getMixStatus _ _ => answerGetMixStatus
  | .muteRoom _ _ => answerMuteRoom
  | .setCamera _ _ => answerSetCamera
  | .setScreenPlan _ _ => answerSetScreenPlan
  | .setScreen _ _ => answerSetScreen
  | .shareStart _ _ => answerShareStart
  | .shareStop _ _ => answerShareStop
  | .getScreens _ _ => answerGetScreens
  | .screenRefresh _ _ => answerScreenRefresh
  | .setChain _ _ => answerSetChain
  | .getChain _ _ => answerGetChain
  | .chainRestart _ _ => answerChainRestart
  | _ => answerUnknownKind

section
variable {c : Instr} {f : Frame}

/-- A request runs its owning block's answer on its frame; an ill-formed one, of a kind that is not unknown, does nothing. -/
theorem exec_of_frame (frame : c.frame? = some f) (s : State) :
    exec c s = onPart (Part.request f (answerOf c)) s ∨
      (exec c s = onPart (Part.whenRunning fun p => p) s ∧ c.wf = false) := by
  cases c <;> cases frame
  case unknownKindRequest kind tag payload =>
    by_cases known : isRequestKind kind = true
    · exact .inr ⟨if_pos known, by simp [Instr.wf, known]⟩
    · exact .inl (if_neg known)
  all_goals exact .inl rfl

theorem exec_request (wf : c.wf = true) (frame : c.frame? = some f) (s : State) :
    exec c s = onPart (Part.request f (answerOf c)) s := by
  rcases exec_of_frame frame s with h | ⟨-, ill⟩
  · exact h
  · rw [wf] at ill
    cases ill

end

/-! ### The outcome of every command -/

/-- A part held in reset takes nothing. -/
theorem Part.whenRunning_held {p : Part} {cause : ResetCause} (held : p.power = .held cause) (f : Part → Part) :
    Part.whenRunning f p = p := by
  simp [Part.whenRunning, held]

/-- A command that leaves a part held in reset as it is. -/
def Part.Idles (f : Part → Part) : Prop := ∀ (p : Part) (cause : ResetCause), p.power = .held cause → f p = p

theorem Part.whenRunning_idles (f : Part → Part) : Part.Idles (Part.whenRunning f) := fun _ _ held => Part.whenRunning_held held f

theorem Part.takeFirst_idles (o : Owed) : Part.Idles (Part.takeFirst o) := fun p _ held => by simp [Part.takeFirst, held]

theorem Part.takeJob_idles (j : TickJob) : Part.Idles (Part.takeJob j) := fun p _ held => by simp [Part.takeJob, held]

theorem Part.secondTick_idles : Part.Idles Part.secondTick := fun p _ held => by simp [Part.secondTick, held]

theorem Part.takeBoundary_idles (o : Owed) : Part.Idles (Part.takeBoundary o) := fun p _ held => by
  simp [Part.takeBoundary, held]

/-- An effect on the part alone leaves the queue, and the whole state of a held part when it idles there. -/
theorem onPart_answers {s : State} {f : Part → Part} (idles : Part.Idles f) :
    (∃ t, onPart f s = .next t ∧ t.pending = s.pending) ∧ ∀ cause, s.part.power = .held cause → onPart f s = .next s := by
  refine ⟨⟨_, rfl, rfl⟩, fun cause held => ?_⟩
  unfold onPart
  rw [idles s.part cause held]

/-- Every command but the events of reset is an effect on the part that idles while the part is held. -/
theorem exec_onPart {c : Instr} (on : c ≠ .powerOn) (low : c ≠ .resetNLow) (ends : ∀ straps, c ≠ .resetEnd straps) (s : State) :
    ∃ f, exec c s = onPart f s ∧ Part.Idles f := by
  have running (f : Part → Part) : ∃ g, onPart (Part.whenRunning f) s = onPart g s ∧ Part.Idles g :=
    ⟨_, rfl, Part.whenRunning_idles f⟩
  cases c
  case powerOn => exact absurd rfl on
  case resetNLow => exact absurd rfl low
  case resetEnd straps => exact absurd rfl (ends straps)
  case rxTimeout | denialTimerExpiry | settleEnd | activeSpeakerSwitch | activeSpeakerIdle | trainingAttemptEnd =>
    exact ⟨_, rfl, Part.takeFirst_idles _⟩
  case speechExpiry | voiceSilenceClose | signalGraceExpiry | standbyTimerExpiry => exact ⟨_, rfl, Part.takeJob_idles _⟩
  case secondTick => exact ⟨_, rfl, Part.secondTick_idles⟩
  case minuteBoundary | clockWrap => exact ⟨_, rfl, Part.takeBoundary_idles _⟩
  case unknownKindRequest kind tag payload =>
    rcases exec_of_frame (c := .unknownKindRequest kind tag payload) rfl s with h | ⟨h, -⟩ <;> rw [h] <;> exact running _
  all_goals exact running _

/-- Settles O2: the events of reset each write the part alone, and RESET_N_LOW the count of its free value besides. -/
theorem everyCommandAnswersNext : Obligations.EveryCommandAnswersNext := by
  intro c s
  have held_cts (cause : ResetCause) (held : s.part.power = .held cause) : s.part.cts = false := by simp [Part.cts, held]
  have next : ∃ t, exec c s = .next t ∧ t.pending = s.pending := by
    by_cases on : c = .powerOn
    · subst on
      exact ⟨_, rfl, rfl⟩
    by_cases low : c = .resetNLow
    · subst low
      exact ⟨_, rfl, rfl⟩
    by_cases ends : ∃ straps, c = .resetEnd straps
    · obtain ⟨straps, rfl⟩ := ends
      exact ⟨_, rfl, rfl⟩
    obtain ⟨f, run, idles⟩ := exec_onPart on low (not_exists.1 ends) s
    exact run ▸ (onPart_answers idles).1
  refine ⟨next, fun cause held => ⟨held_cts cause held, fun on low ends => ?_⟩⟩
  obtain ⟨f, run, idles⟩ := exec_onPart on low ends s
  exact run ▸ (onPart_answers idles).2 cause held

end Sys2Proof.Machine
end

section
/-!
PROOFS. The first two stages of R193: unknown kinds, payloads of a wrong length, and presence bytes and selectors with undefined
values.
-/
namespace Sys2Proof.Machine

/-- The kinds with a fixed length are request kinds of the catalogue, and those lie below 0x80. -/
theorem requestLength_some {kind : Byte} {n : Nat} (h : requestLength kind = some n) :
    isRequestKind kind = true ∧ kind.toNat < 0x80 := by
  obtain ⟨before, after, table, -⟩ := List.lookup_eq_some_iff.1 h
  have all : ∀ x ∈ before ++ (kind.toNat, n) :: after, isRequestKind (BitVec.ofNat 8 x.1) = true ∧ x.1 < 0x80 := by
    rw [← table]
    decide
  simpa using all (kind.toNat, n) (by simp)

theorem requestLength_unknown {kind : Byte} (h : isRequestKind kind = false) : requestLength kind = none := by
  rw [Option.eq_none_iff_forall_ne_some]
  intro n fixed
  rw [(requestLength_some fixed).1] at h
  cases h

section
variable {c : Instr} {f : Frame} {n : Nat} (p : Part)

theorem FixedLength.two : FixedLength (do return (← readByte, ← readByte) : Reader (Nat × Nat)) 2 :=
  .bind .byte fun _ => .bind .byte fun _ => .pure _

/-- A request of fixed length whose payload has another length is turned away (R193). -/
theorem answerOf_badLength (wf : c.wf = true) (frame : c.frame? = some f) (fixed : requestLength f.kind = some n)
    (ne : f.payload.length ≠ n) : answerOf c f.payload p = refuse .badLength p := by
  cases c <;> cases frame
  case unknownKindRequest =>
    rw [requestLength_unknown (wf_unknownKind wf)] at fixed
    cases fixed
  all_goals cases fixed
  case getInfo | deviceReset | getClock | getSession | checkIn | endSession | wake | priorityTake | priorityRelease | floorReset |
      screenRefresh =>
    exact readThen_badLength (.pure _) ne p _
  case getStats | listBookings | getSeat | grant | close | enqueue | dequeue | getMixStatus | muteRoom | shareStart | shareStop |
      getScreens | chainRestart =>
    exact readThen_badLength .byte ne p _
  case setStandby | moveRequest | getChain => exact readThen_badLength .two ne p _
  case removeBooking => exact readThen_badLength .word ne p _
  case setNotices => exact readThen_badLength .quad ne p _
  case setFloor => exact readThen_badLength .floor ne p _
  case setMix => exact readThen_badLength .mix ne p _
  case setStanding => exact readThen_badLength (.bind .byte fun _ => .bind .byte fun _ => .pure _) ne p _
  case setClock => exact readThen_badLength (.bind .word fun _ => .bind .word fun _ => .bind .byte fun _ => .pure _) ne p _
  case extendBooking => exact readThen_badLength (.bind .word fun _ => .bind .byte fun _ => .pure _) ne p _
  case extendSpeech => exact readThen_badLength (.bind .byte fun _ => .bind .word fun _ => .pure _) ne p _
  case seatPress => exact readThen_badLength (.bind .byte fun _ => .bind .byte fun _ => .bind .byte fun _ => .pure _) ne p _
  case setRoomDefaults =>
    exact readThen_badLength (.bind .floor fun _ => .bind .mix fun _ => .bind .byte fun _ => .bind .byte fun _ =>
      .bind .byte fun _ => .bind .byte fun _ => .bind .byte fun _ => .pure _) ne p _
  case setCamera =>
    exact readThen_badLength (.bind .byte fun _ => .bind .word fun _ => .bind .word fun _ => .bind .byte fun _ =>
      .bind .byte fun _ => .pure _) ne p _
  case setChain =>
    exact readThen_badLength (.bind .byte fun _ => .bind .byte fun _ => .bind .byte fun _ => .bind .byte fun _ =>
      .bind .byte fun _ => .bind .byte fun _ => .bind .byte fun _ => .pure _) ne p _

/-- The request of a frame, so that its owning block is known from its kind (O6). -/
theorem eq_commandOfFrame (wf : c.wf = true) (frame : c.frame? = some f) : c = commandOfFrame f :=
  (frameSpellsItsRequest.1 c f wf frame).symm

/-- A payload of varying length that is cut, or goes on after its fields, is turned away (R193). -/
theorem answerOf_cut {whole : List Byte} (read : PayloadRead f.kind whole) (ne : f.payload ≠ whole)
    (cut : f.payload <+: whole ∨ whole <+: f.payload) : answerOf (commandOfFrame f) f.payload p = refuse .badLength p := by
  obtain ⟨kind, tag, payload⟩ := f
  cases read with
  | addBooking front title roster chairs back hf ht hr hc hb => exact (Reads.addBooking hf ht hr hc hb).badLength ne cut p _
  | setSeat seat role trim camera input => exact (Reads.setSeat seat role trim camera input).badLength ne cut p _
  | setZone zone definition => exact (Reads.setZone zone definition).badLength ne cut p _
  | setName seat name short => exact (Reads.setName seat short).badLength ne cut p _
  | getFloor part defined => exact (Reads.getFloor defined).badLength ne cut p _
  | setPlan plan modes count modesRead => exact (Reads.setPlan plan count modesRead).badLength ne cut p _
  | setSetup settings count => exact (Reads.setSetup count).badLength ne cut p _
  | clearScreen screen => exact (Reads.clearScreen screen).badLength ne cut p _
  | setScreen screen mode modeRead => exact (Reads.setScreen screen modeRead).badLength ne cut p _

/-- A presence byte or a selector with an undefined value ends the reading (R193). -/
theorem answerOf_stops (stops : PayloadStops f.kind f.payload) :
    answerOf (commandOfFrame f) f.payload p = refuse .badArg p := by
  obtain ⟨kind, tag, payload⟩ := f
  cases stops with
  | camera seat role trim presence rest bad => exact readThen_error (readSeatSettings_stopsAtCamera seat role trim bad rest)
  | input seat role trim camera presence rest bad =>
    exact readThen_error (readSeatSettings_stopsAtInput seat role trim camera bad rest)
  | zone zone presence rest bad => exact readThen_error (readZone_stops zone bad rest)
  | floorPart part rest bad => exact readThen_error (readFloorPart_stops bad rest)
  | planPart part rest bad => exact readThen_error (readPlanPart_stops bad rest)
  | planMode plan modes rest short modesRead stop => exact readThen_error (readPlanPart_stopsAtMode plan short modesRead stop)
  | screen screen presence rest bad => exact readThen_error (readOverride_stops screen bad rest)
  | screenMode screen rest stop => exact readThen_error (readOverride_stopsAtMode screen stop)

end

section
variable {c : Instr} {f : Frame} {s : State}

/-- A well-formed request that its owning block turns away. -/
theorem exec_refuses (wf : c.wf = true) (frame : c.frame? = some f) (ready : s.part.Ready) {status : Status}
    (answer : answerOf c f.payload s.part.taken = refuse status s.part.taken) :
    exec c s = s.refuses (replyKind f.kind) f.tag status.code :=
  (exec_request wf frame s).trans (request_refuses ready answer)

/-- The reply to a kind below 0x80, as every kind of the catalogue is (R193). -/
theorem replyKind_low {kind : Byte} (h : kind.toNat < 0x80) : replyKind kind = kind + 0x80 := if_pos h

theorem PayloadRead.low {kind : Byte} {whole : List Byte} (h : PayloadRead kind whole) : kind.toNat < 0x80 := by
  cases h <;> decide

theorem PayloadStops.low {kind : Byte} {payload : List Byte} (h : PayloadStops kind payload) : kind.toNat < 0x80 := by
  cases h <;> decide

end

/-- Settles O4, by what the readers of each request do with its payload. -/
theorem malformedRequestsAnswered : Obligations.MalformedRequestsAnswered := by
  intro s ready
  refine ⟨fun kind tag payload unknown => ?_, fun c f n wf frame fixed ne => ?_, fun tag payload long => ?_,
    fun c f whole wf frame read ne cut => ?_, fun c f wf frame stops => ?_⟩
  · have run : exec (.unknownKindRequest kind tag payload) s = onPart (Part.request ⟨kind, tag, payload⟩ answerUnknownKind) s :=
      if_neg (ne_true_of_eq_false unknown)
    exact run.trans (request_refuses (status := .unknownKind) ready rfl)
  · rw [← replyKind_low (requestLength_some fixed).2]
    exact exec_refuses (status := .badLength) wf frame ready (answerOf_badLength _ wf frame fixed ne)
  · exact request_refuses (f := ⟨0x01, tag, payload⟩) (owner := answerPing) (status := .badLength) ready
      (if_neg (Nat.not_le_of_lt long))
  · rw [← replyKind_low read.low]
    refine exec_refuses (status := .badLength) wf frame ready ?_
    rw [eq_commandOfFrame wf frame]
    exact answerOf_cut _ read ne cut
  · rw [← replyKind_low stops.low]
    refine exec_refuses (status := .badArg) wf frame ready ?_
    rw [eq_commandOfFrame wf frame]
    exact answerOf_stops _ stops

end Sys2Proof.Machine
end

section
/-!
PROOFS. What processing a request leaves (R192, R193): an owning block that does not answer OK leaves the part, and none takes frames
from the buffer.
-/
namespace Sys2Proof.Machine

/-! ### The request buffer under the work of the blocks -/

theorem Link.notifyAll_buffer (ns : List Notice) (l : Link) : (l.notifyAll ns).buffer = l.buffer := by
  induction ns generalizing l with
  | nil => rfl
  | cons n ns ih =>
    refine (ih (l.notify n)).trans ?_
    unfold Link.notify
    (repeat' split) <;> rfl

/-- A block reaches the link through notices alone, which stand in another queue (R195). -/
theorem Work.buffer {p q : Part} (w : Work p q) : q.link.buffer = p.link.buffer := by
  obtain ⟨ns, link⟩ := w.notes
  rw [link, Link.notifyAll_buffer]

/-! ### Answers that leave the part or do their work -/

/-- An answer to a request at a part: turned away with the part as it was, or OK with the same frames in the buffer. -/
inductive Answer.Settled (p : Part) (a : Answer) : Prop
  | refused (same : a = refuse a.status p)
  | done (accepted : a.status = .ok) (buffer : a.part.link.buffer = p.link.buffer)

section
variable {p : Part}

theorem Answer.Settled.buffer {a : Answer} (h : a.Settled p) : a.part.link.buffer = p.link.buffer := by
  rcases h with same | ⟨-, buffer⟩
  · rw [same]
    rfl
  · exact buffer

theorem refuse_settled (status : Status) : (refuse status p).Settled p := .refused rfl

theorem ok_settled {fields : List Byte} {q : Part} (h : q.link.buffer = p.link.buffer) : (ok fields q).Settled p := .done rfl h

theorem okWake_settled {fields : List Byte} {q : Part} (h : q.link.buffer = p.link.buffer) : (okWake fields q).Settled p :=
  .done rfl h

theorem readThen_settled {α : Type} {read : Reader α} {payload : List Byte} {work : α → Answer}
    (h : ∀ a, (work a).Settled p) : (readThen read payload p work).Settled p := by
  unfold readThen
  split
  · exact h _
  · exact refuse_settled _

theorem checkThen_settled {α : Type} {value : Option α} {work : α → Answer} (h : ∀ a, (work a).Settled p) :
    (checkThen value p work).Settled p := by
  unfold checkThen
  split
  · exact h _
  · exact refuse_settled _

/-- A request whose fields are read and then checked. -/
theorem readCheck_settled {α β : Type} {read : Reader α} {value : α → Option β} {payload : List Byte} {work : α → β → Answer}
    (h : ∀ a b, (work a b).Settled p) : (readThen read payload p fun a => checkThen (value a) p (work a)).Settled p :=
  readThen_settled fun a => checkThen_settled (h a)

theorem seatInSession_settled {payload : List Byte} {work : Seat → Answer} (h : ∀ x, (work x).Settled p) :
    (seatInSession payload p work).Settled p := by
  refine readCheck_settled fun _ x => ?_
  split
  · exact h x
  · exact refuse_settled _

theorem inSession_settled {payload : List Byte} {work : Answer} (h : work.Settled p) : (inSession payload p work).Settled p := by
  refine readThen_settled fun _ => ?_
  split
  · exact h
  · exact refuse_settled _

/-- An event of the floor, answered OK. -/
theorem okEvent_settled {fields : List Byte} {work : Part → Part} (h : ∀ q, Work p q → Work p (work q)) :
    (ok fields (p.floorEvent work)).Settled p := ok_settled (Work.floorEvent h (.refl p)).buffer

end

/-! ### The answer of every request -/

section
variable (payload : List Byte) (p : Part)

theorem answerPing_settled : (answerPing payload p).Settled p := by
  unfold answerPing
  split
  · exact ok_settled rfl
  · exact refuse_settled _

theorem answerGetStats_settled : (answerGetStats payload p).Settled p := by
  refine readCheck_settled fun _ clear => ok_settled ?_
  cases clear <;> rfl

theorem answerSetNotices_settled : (answerSetNotices payload p).Settled p := by
  refine readThen_settled fun _ => ?_
  split
  · exact okWake_settled rfl
  · exact refuse_settled _

theorem storeBooking_buffer (b : Booking) : (p.storeBooking b).link.buffer = p.link.buffer := by
  unfold Part.storeBooking
  dsimp only
  split
  · exact (Work.openSession (.refl _)).buffer
  · rfl

theorem answerAddBooking_settled : (answerAddBooking payload p).Settled p := by
  refine readCheck_settled fun _ b => ?_
  (repeat' split)
  · exact refuse_settled _
  · exact okWake_settled (storeBooking_buffer p b)
  · exact refuse_settled _

theorem answerRemoveBooking_settled : (answerRemoveBooking payload p).Settled p := by
  refine readThen_settled fun _ => ?_
  (repeat' split)
  · exact refuse_settled _
  · exact okWake_settled rfl
  · exact okWake_settled (Work.closeSession (.refl p)).buffer

theorem extendBooking_buffer (b : Booking) (granted : Nat) : (p.extendBooking b granted).link.buffer = p.link.buffer := by
  unfold Part.extendBooking
  split
  · rfl
  · exact (Work.endWarningTest (.refl _)).buffer

theorem answerExtendBooking_settled : (answerExtendBooking payload p).Settled p := by
  refine readCheck_settled fun _ _ => ?_
  (repeat' split)
  · exact okWake_settled (extendBooking_buffer p _ _)
  · exact refuse_settled _
  · exact refuse_settled _

theorem answerGetSession_settled : (answerGetSession payload p).Settled p := by
  refine readThen_settled fun _ => ?_
  dsimp only
  split
  · exact ok_settled rfl
  · exact ok_settled rfl

theorem answerCheckIn_settled : (answerCheckIn payload p).Settled p := by
  refine readThen_settled fun _ => ?_
  (repeat' split)
  · exact refuse_settled _
  · exact refuse_settled _
  · exact ok_settled (Work.checkIn (.refl p)).buffer

theorem answerEndSession_settled : (answerEndSession payload p).Settled p := by
  refine readThen_settled fun _ => ?_
  split
  · exact ok_settled (Work.closeSession (.refl p)).buffer
  · exact refuse_settled _

theorem answerSetStandby_settled : (answerSetStandby payload p).Settled p := by
  refine readCheck_settled fun _ delay => checkThen_settled fun _ => ?_
  (repeat' split)
  · exact refuse_settled _
  · exact ok_settled rfl
  · exact ok_settled (Work.enterStandby (.refl (p.setDelay delay))).buffer
  · exact okWake_settled rfl

theorem changeStanding_buffer (x : Seat) (standing : Standing) : (p.changeStanding x standing).link.buffer = p.link.buffer :=
  (Work.derive (Work.reexamine (Work.floorEvent (fun _ k => Work.changedStanding k) (Work.setStanding (.refl p))))).buffer

theorem answerSetStanding_settled : (answerSetStanding payload p).Settled p := by
  refine readCheck_settled fun _ (x, standing) => ?_
  dsimp only
  (repeat' split)
  · exact refuse_settled _
  · exact refuse_settled _
  · exact okWake_settled rfl
  · exact okWake_settled (changeStanding_buffer p x standing)

theorem answerGrant_settled : (answerGrant payload p).Settled p := by
  refine seatInSession_settled fun x => ?_
  dsimp only
  (repeat' split)
  · exact refuse_settled _
  · exact refuse_settled _
  · exact okEvent_settled fun _ k => Work.grantSeat k
  · exact refuse_settled _

theorem answerClose_settled : (answerClose payload p).Settled p := by
  refine seatInSession_settled fun x => ?_
  split
  · exact okEvent_settled fun _ k => Work.closeMic k
  · exact refuse_settled _

theorem answerEnqueue_settled : (answerEnqueue payload p).Settled p := by
  refine seatInSession_settled fun x => ?_
  (repeat' split)
  · exact refuse_settled _
  · exact refuse_settled _
  · exact refuse_settled _
  · exact okEvent_settled fun _ k => Work.appendSeat k

theorem answerDequeue_settled : (answerDequeue payload p).Settled p := by
  refine seatInSession_settled fun x => ?_
  (repeat' split)
  · exact okEvent_settled fun _ k => Work.withdraw k
  · exact okEvent_settled fun _ k => Work.unhold k
  · exact refuse_settled _

theorem answerMoveRequest_settled : (answerMoveRequest payload p).Settled p := by
  refine readCheck_settled fun _ (x, position) => ?_
  dsimp only
  (repeat' split)
  · exact refuse_settled _
  · exact okEvent_settled fun _ k => Work.deriveQueued (Work.modFloor k)
  · exact refuse_settled _

theorem answerSetFloor_settled : (answerSetFloor payload p).Settled p := by
  refine readCheck_settled fun _ preset => ?_
  split
  · exact okWake_settled (Work.floorEvent (fun _ k => Work.closeSeats (Work.modFloor k)) (.refl p)).buffer
  · exact refuse_settled _

theorem answerPriorityTake_settled : (answerPriorityTake payload p).Settled p := by
  refine inSession_settled ?_
  split
  · exact refuse_settled _
  · exact okEvent_settled fun _ k => Work.takeOrRetake k

theorem answerPriorityRelease_settled : (answerPriorityRelease payload p).Settled p := by
  refine inSession_settled ?_
  split
  · exact okEvent_settled fun _ k => Work.release k
  · exact refuse_settled _

theorem answerExtendSpeech_settled : (answerExtendSpeech payload p).Settled p := by
  refine readCheck_settled fun _ (x, seconds) => ?_
  dsimp only
  (repeat' split)
  · exact refuse_settled _
  · exact refuse_settled _
  · exact refuse_settled _
  · exact okEvent_settled fun _ k => Work.extendEntry k

theorem takePresses_buffer (x : Seat) (button : Button) (n : Nat) :
    (p.takePresses x button n).link.buffer = p.link.buffer := by
  induction n generalizing p with
  | zero => rfl
  | succ n ih => exact (ih (p.takePress x button)).trans (Work.takePress (.refl p)).buffer

theorem answerSeatPress_settled : (answerSeatPress payload p).Settled p := by
  refine readCheck_settled fun _ (x, button, count) => ?_
  dsimp only
  split
  · exact ok_settled (takePresses_buffer p x button count)
  · exact refuse_settled _

theorem setMix_buffer (mix : MixPreset) : (p.setMix mix).link.buffer = p.link.buffer := by
  unfold Part.setMix
  exact (Work.recountChain (Work.recountChain (.refl _))).buffer

theorem answerSetMix_settled : (answerSetMix payload p).Settled p := by
  refine readCheck_settled fun _ mix => ?_
  split
  · exact okWake_settled (setMix_buffer p mix)
  · exact refuse_settled _

theorem answerGetMixStatus_settled : (answerGetMixStatus payload p).Settled p := by
  refine readCheck_settled fun _ clear => ok_settled ?_
  cases clear <;> rfl

theorem setPlan_buffer (n : Fin 4) (modes : List ScreenMode) : (p.setPlan n modes).link.buffer = p.link.buffer := by
  unfold Part.setPlan
  dsimp only
  split
  · exact (Work.recomputeScreens (.refl _)).buffer
  · rfl

theorem setSetup_buffer (classes : List ScreenClass) (policy : SharePolicy) (requiresFloor : Bool) (graceTime : Nat) :
    (p.setSetup classes policy requiresFloor graceTime).link.buffer = p.link.buffer := by
  unfold Part.setSetup
  dsimp only
  (repeat' split)
  · exact (Work.reexamineAll (.refl _)).buffer
  · exact (Work.reexamineAll (Work.recomputeScreens (.refl _))).buffer
  · rfl
  · exact (Work.recomputeScreens (.refl _)).buffer

theorem answerSetScreenPlan_settled : (answerSetScreenPlan payload p).Settled p := by
  refine readCheck_settled fun _ part => ?_
  split
  · exact okWake_settled (setPlan_buffer p _ _)
  · exact okWake_settled (setSetup_buffer p _ _ _ _)

theorem setOverride_buffer (i : Fin 8) (mode : Option ScreenMode) : (p.setOverride i mode).link.buffer = p.link.buffer := by
  unfold Part.setOverride
  split
  · rfl
  · exact (Work.recomputeScreens (.refl _)).buffer

theorem answerShareStart_settled : (answerShareStart payload p).Settled p := by
  refine readCheck_settled fun _ x => ?_
  (repeat' split)
  · exact refuse_settled _
  · exact refuse_settled _
  · exact refuse_settled _
  · rename_i granted
    exact ok_settled (Work.grantShare (.refl p) granted).buffer
  · exact refuse_settled _

theorem answerShareStop_settled : (answerShareStop payload p).Settled p := by
  refine readCheck_settled fun _ n => ?_
  (repeat' split)
  · exact refuse_settled _
  · exact ok_settled (Work.endShare (.refl p)).buffer
  · exact refuse_settled _

theorem refreshScreens_buffer : p.refreshScreens.link.buffer = p.link.buffer :=
  (Work.placeRecord (Work.placeRecord (Work.foldl (fun _ _ k => Work.placeRecord k) _ (.refl p)))).buffer

theorem answerGetChain_settled : (answerGetChain payload p).Settled p := by
  refine readCheck_settled fun _ (c, clear) => ok_settled ?_
  cases clear
  · rfl
  · exact congrArg Link.buffer (Part.modChain_link c _ p)

theorem answerChainRestart_settled : (answerChainRestart payload p).Settled p := by
  refine readCheck_settled fun _ c => ?_
  split
  · exact refuse_settled _
  · exact okWake_settled (Work.restartChain (.refl p)).buffer

end

/-- Every request is turned away with the part as it was, or answered OK with the buffer as it was. -/
theorem answerOf_settled (c : Instr) (payload : List Byte) (p : Part) : (answerOf c payload p).Settled p := by
  cases c
  case ping => exact answerPing_settled payload p
  case getStats => exact answerGetStats_settled payload p
  case deviceReset => exact readThen_settled fun _ => .done rfl rfl
  case setNotices => exact answerSetNotices_settled payload p
  case setClock => exact readCheck_settled fun _ t => okWake_settled (Work.bookingWork (.refl (p.setClock t))).buffer
  case addBooking => exact answerAddBooking_settled payload p
  case removeBooking => exact answerRemoveBooking_settled payload p
  case extendBooking => exact answerExtendBooking_settled payload p
  case getSession => exact answerGetSession_settled payload p
  case checkIn => exact answerCheckIn_settled payload p
  case endSession => exact answerEndSession_settled payload p
  case setStandby => exact answerSetStandby_settled payload p
  case setSeat => exact readCheck_settled fun _ _ => okWake_settled (Work.reexamine (.refl _)).buffer
  case setStanding => exact answerSetStanding_settled payload p
  case setName => exact readCheck_settled fun _ _ => okWake_settled (Work.derivePlate (.refl _)).buffer
  case grant => exact answerGrant_settled payload p
  case close => exact answerClose_settled payload p
  case enqueue => exact answerEnqueue_settled payload p
  case dequeue => exact answerDequeue_settled payload p
  case moveRequest => exact answerMoveRequest_settled payload p
  case setFloor => exact answerSetFloor_settled payload p
  case priorityTake => exact answerPriorityTake_settled payload p
  case priorityRelease => exact answerPriorityRelease_settled payload p
  case floorReset => exact inSession_settled (okEvent_settled fun _ k => Work.floorReset k)
  case extendSpeech => exact answerExtendSpeech_settled payload p
  case seatPress => exact answerSeatPress_settled payload p
  case setMix => exact answerSetMix_settled payload p
  case getMixStatus => exact answerGetMixStatus_settled payload p
  case setScreenPlan => exact answerSetScreenPlan_settled payload p
  case setScreen => exact readCheck_settled fun _ (i, mode) => okWake_settled (setOverride_buffer p i mode)
  case shareStart => exact answerShareStart_settled payload p
  case shareStop => exact answerShareStop_settled payload p
  case screenRefresh => exact readThen_settled fun _ => ok_settled (refreshScreens_buffer p)
  case setChain => exact readCheck_settled fun _ (c, settings) => okWake_settled (Work.setChain (.refl p)).buffer
  case getChain => exact answerGetChain_settled payload p
  case chainRestart => exact answerChainRestart_settled payload p
  case getInfo | getClock | getFloor => exact readThen_settled fun _ => ok_settled rfl
  case listBookings | getSeat | getScreens => exact readCheck_settled fun _ _ => ok_settled rfl
  case wake => exact readThen_settled fun _ => okWake_settled rfl
  case setRoomDefaults | setZone | muteRoom | setCamera => exact readCheck_settled fun _ _ => okWake_settled rfl
  all_goals exact refuse_settled _

/-! ### Refusals (R193, R197) -/

/-- The reply that waits after a request at a ready part. -/
theorem Part.Ready.request_reply {p : Part} (h : p.Ready) (f : Frame) (owner : List Byte → Part → Answer) :
    let a := owner f.payload p.taken
    (Part.request f owner p).link.reply = some ⟨replyFrame f a.status a.fields, a.wake, a.resets⟩ := by
  dsimp only
  rw [h.request]
  rfl

theorem Link.free_reply {l : Link} (h : l.free = true) : l.reply = none := by
  unfold Link.free at h
  simp only [Bool.and_eq_true, Option.isNone_iff_eq_none] at h
  exact h.1.2

/-- Settles O5: an answer other than OK leaves the part that took the request, and the waiting reply spells that answer. -/
theorem refusalChangesNothing : Obligations.RefusalChangesNothing := by
  intro c f s t ready frame ran kind tag status fields wake resets waits bad
  rcases exec_of_frame frame s with run | ⟨run, -⟩
  · have ended := run.symm.trans ran
    cases ended
    rw [ready.request_reply] at waits
    simp only [replyFrame, Option.some.injEq, Reply.mk.injEq, Frame.mk.injEq, List.cons.injEq] at waits
    obtain ⟨⟨rfl, rfl, rfl, rfl⟩, -, -⟩ := waits
    rcases answerOf_settled c f.payload s.part.taken with same | ⟨accepted, -⟩
    · exact request_refuses ready same
    · exact absurd (congrArg Status.code accepted) bad
  · rw [onPart_whenRunning ready.toQuiet] at run
    have ended := run.symm.trans ran
    cases ended
    rw [Link.free_reply ready.free] at waits
    cases waits

end Sys2Proof.Machine
end

section
/-!
PROOFS. The receiver (R191) and the request buffer (R192): each character by the receiver's state, a whole frame character by
character, and a request that meets a busy link or stands first in the buffer (log 1).
-/
namespace Sys2Proof.Machine

section
variable {l : Link}

/-! ### One character (R191) -/

theorem Link.receive_sync (hunt : l.rx = .hunt) : l.receive 0xA5 true = { l with rxIdle := 0, rx := .length } := by
  simp [Link.receive, Link.takeCharacter, hunt]

theorem Link.receive_noSync (hunt : l.rx = .hunt) {char : Byte} (ne : char ≠ 0xA5) :
    l.receive char true =
      { l with rxIdle := 0, stats := { l.stats with syncDiscards := countUpTo 65535 l.stats.syncDiscards } } := by
  simpa [Link.receive, Link.takeCharacter, hunt, Link.modStats, countStat] using ne

theorem Link.receive_length (length : l.rx = .length) {char : Byte} (fits : char.toNat ≤ 250) :
    l.receive char true = { l with rxIdle := 0, rx := .body char [] } := by
  simp [Link.receive, Link.takeCharacter, length, fits]

theorem Link.receive_badLength (length : l.rx = .length) {char : Byte} (long : 250 < char.toNat) :
    l.receive char true =
      { l with
        rxIdle := 0
        rx := .hunt
        stats := { l.stats with lengthErrors := countUpTo 65535 l.stats.lengthErrors } } := by
  simp [Link.receive, Link.takeCharacter, length, Nat.not_le_of_lt long, Link.modStats, countStat]

theorem Link.receive_body {n : Byte} {got : List Byte} (body : l.rx = .body n got) {char : Byte}
    (more : got.length + 1 < n.toNat + 4) : l.receive char true = { l with rxIdle := 0, rx := .body n (got ++ [char]) } := by
  simp [Link.receive, Link.takeCharacter, body, more]

/-- The last character of a frame: the receiver is in HUNT again, and the frame is checked. -/
theorem Link.receive_last {n : Byte} {got : List Byte} (body : l.rx = .body n got) {char : Byte}
    (last : ¬got.length + 1 < n.toNat + 4) :
    l.receive char true = Link.complete n (got ++ [char]) { l with rxIdle := 0, rx := .hunt } := by
  simp [Link.receive, Link.takeCharacter, body, last]

theorem Link.receive_badStop_hunt (hunt : l.rx = .hunt) (char : Byte) :
    l.receive char false =
      { l with rxIdle := 0, stats := { l.stats with syncDiscards := countUpTo 65535 l.stats.syncDiscards } } := by
  simp [Link.receive, Link.dropCharacter, hunt, Link.modStats, countStat]

theorem Link.receive_badStop_frame (frame : l.rx ≠ .hunt) (char : Byte) :
    l.receive char false =
      { l with
        rxIdle := 0
        rx := .hunt
        stats := { l.stats with lineErrors := countUpTo 65535 l.stats.lineErrors } } := by
  cases rx : l.rx with
  | hunt => exact absurd rx frame
  | length => simp [Link.receive, Link.dropCharacter, rx, Link.modStats, countStat]
  | body n got => simp [Link.receive, Link.dropCharacter, rx, Link.modStats, countStat]

/-- The check of a complete frame: kind, tag and payload, then the check's high and low byte (R189, R190). -/
theorem Link.complete_frame {n kind tag high low : Byte} {payload : List Byte} (whole : payload.length = n.toNat) :
    Link.complete n (kind :: tag :: payload ++ [high, low]) l =
      if u16 (crc16 (n :: kind :: tag :: payload)).toNat = [high, low] then l.offer ⟨kind, tag, payload⟩
      else { l with stats := { l.stats with checkErrors := countUpTo 65535 l.stats.checkErrors } } := by
  have length : (kind :: tag :: payload).length = n.toNat + 2 := congrArg (· + 2) whole
  unfold Link.complete
  rw [List.take_left' length, List.drop_left' length]
  rfl

/-! ### A whole frame (R189) -/

/-- Characters within a frame are stored one after another. -/
theorem Link.receive_stored {n : Byte} (chars : List Byte) {got : List Byte} (more : got.length + chars.length < n.toNat + 4) :
    chars.foldl (fun k c => k.receive c true) { l with rxIdle := 0, rx := .body n got } =
      { l with rxIdle := 0, rx := .body n (got ++ chars) } := by
  induction chars generalizing got with
  | nil => simp
  | cons char chars ih =>
    rw [List.length_cons] at more
    rw [List.foldl_cons, Link.receive_body rfl (by omega)]
    simpa using ih (got := got ++ [char]) (by simp; omega)

theorem Link.offer_room {f : Frame} (room : l.buffer.length < 4) :
    l.offer f =
      { l with
        buffer := l.buffer ++ [f]
        stats := { l.stats with goodFrames := countUpTo 65535 l.stats.goodFrames } } := if_pos room

end

/-- Settles O7: the sync byte and the length, then what BODY stores, then the low byte of the check. -/
theorem sentFrameIsReceived : Obligations.SentFrameIsReceived := by
  intro f l short hunt room
  obtain ⟨kind, tag, payload⟩ := f
  have length : (BitVec.ofNat 8 payload.length).toNat = payload.length := 
    toNat_ofNat_byte (Nat.lt_of_le_of_lt short (by decide))
  generalize count : BitVec.ofNat 8 payload.length = n at length
  obtain ⟨high, low, check⟩ : ∃ high low, u16 (crc16 (n :: kind :: tag :: payload)).toNat = [high, low] := ⟨_, _, rfl⟩
  have bytes : frameBytes ⟨kind, tag, payload⟩ = 0xA5 :: n :: ((kind :: tag :: payload ++ [high]) ++ [low]) := by
    simp [frameBytes, checkedBytes, count, check]
  have stored := Link.receive_stored (l := l) (n := n) (kind :: tag :: payload ++ [high]) (got := [])
    (by simp; omega)
  rw [bytes, List.foldl_cons, Link.receive_sync hunt, List.foldl_cons, Link.receive_length rfl (by rw [length]; exact short),
    List.foldl_append, stored, List.foldl_cons, List.foldl_nil, Link.receive_last rfl (by simp; omega), List.nil_append,
    List.append_assoc, List.singleton_append, Link.complete_frame length.symm, if_pos check]
  exact (Link.offer_room (l := { l with rxIdle := 0, rx := .hunt }) room).trans (by simp only [hunt])

/-! ### The receiver's commands -/

section
variable {s : State}

/-- A command of the link interface at a quiet part. -/
theorem onLink_quiet (quiet : s.part.Quiet) (f : Link → Link) :
    onPart (Part.whenRunning fun p => p.modLink f) s = s.withLink (f s.part.link) := onPart_whenRunning quiet _

theorem exec_rxCharacter (quiet : s.part.Quiet) (char : Byte) (stopGood : Bool) :
    exec (.rxCharacter char stopGood) s = s.withLink (s.part.link.receive char stopGood) := onLink_quiet quiet _

end

theorem Receiver.inFrame_iff {r : Receiver} : r.inFrame = true ↔ r ≠ .hunt := by
  cases r <;> simp [Receiver.inFrame]

theorem Link.timeout_due {l : Link} (frame : l.rx ≠ .hunt) (idle : 5 ≤ l.rxIdle) :
    l.timeout =
      { l with
        rx := .hunt
        rxIdle := 0
        stats := { l.stats with timeouts := countUpTo 65535 l.stats.timeouts } } := by
  unfold Link.timeout
  rw [if_pos (by simp [Receiver.inFrame_iff.2 frame, idle])]
  rfl

theorem Link.countIdle_eq (l : Link) : l.countIdle = if l.rx = .hunt then l else { l with rxIdle := countUpTo 5 l.rxIdle } := by
  unfold Link.countIdle
  cases rx : l.rx <;> simp [Receiver.inFrame]

theorem Director.receiveTimeout_not_due (chosen : Option Seat) (d : Director) : .receiveTimeout ∉ d.due chosen := by
  unfold Director.due
  (repeat' split) <;> simp

theorem Scheduler.receiveTimeout_not_due (d : Scheduler) : .receiveTimeout ∉ d.due := by
  unfold Scheduler.due
  (repeat' split) <;> simp

/-- The timeout falls due by the receiver alone (R191). -/
theorem Part.receiveTimeout_due (p : Part) (chosen : Option Seat) :
    .receiveTimeout ∈ p.due chosen ↔ p.link.rx ≠ .hunt ∧ 5 ≤ p.link.rxIdle := by
  have director := Director.receiveTimeout_not_due chosen p.director
  have sched := Scheduler.receiveTimeout_not_due p.sched
  have training (due : Bool) (c : Chain) : Owed.receiveTimeout ∉ (if due then [Owed.training c] else []) := by
    cases due <;> simp
  unfold Part.due
  simp [director, sched, training, Receiver.inFrame_iff]

/-- Settles O8: the lines of the receiver's table by its state, and the timeout. -/
theorem receiverTakesCharacters : Obligations.ReceiverTakesCharacters := by
  refine ⟨fun s char quiet => ?_, fun s rest running jobs owed frame idle => ?_, Link.countIdle_eq, Part.receiveTimeout_due,
    fun _ _ => rfl⟩
  · simp only [exec_rxCharacter quiet]
    refine ⟨fun hunt => ?_, fun hunt ne => ?_, fun length fits => ?_, fun length long => ?_, fun n got body more => ?_,
      fun n kind tag payload high body whole => ?_, fun hunt => ?_, fun frame => ?_⟩
    · rw [Link.receive_sync hunt]
    · rw [Link.receive_noSync hunt ne]
    · rw [Link.receive_length length fits]
    · rw [Link.receive_badLength length long]
    · rw [Link.receive_body body more]
    · rw [Link.receive_last body (by simp; omega), List.append_assoc, List.singleton_append, Link.complete_frame whole]
      exact apply_ite (fun k => s.withLink k) _ _ _
    · rw [Link.receive_badStop_hunt hunt]
    · rw [Link.receive_badStop_frame frame]
  · have taken : exec .rxTimeout s = s.to (Part.takeFirst .receiveTimeout s.part) := rfl
    rw [taken, Part.takeFirst_first running jobs owed]
    exact congrArg (fun k => s.to { s.part with owed := rest, link := k }) (Link.timeout_due frame idle)

/-! ### The request buffer (R192, R193) -/

section
variable {s : State} {f : Frame} {owner : List Byte → Part → Answer}

/-- A busy link offers the frame of a request to its buffer. -/
theorem request_busy (quiet : s.part.Quiet) (busy : s.part.link.free = false) :
    onPart (Part.request f owner) s = s.withLink (s.part.link.offer f) := by
  refine (onPart_whenRunning quiet _).trans (congrArg s.to ?_)
  rw [if_neg (ne_true_of_eq_false busy)]
  rfl

/-- A free link processes the request whose frame stands first in its buffer. -/
theorem request_first (quiet : s.part.Quiet) (free : s.part.link.free = true) {rest : List Frame}
    (first : s.part.link.buffer = f :: rest) :
    onPart (Part.request f owner) s = s.to ((s.part.modLink fun l => { l with buffer := rest }).process f owner) := by
  refine (onPart_whenRunning quiet _).trans (congrArg s.to ?_)
  rw [if_pos free, first]
  exact if_pos rfl

/-- A processed request leaves the frames that wait in the buffer; its reply waits. -/
theorem Part.process_link {p : Part} (settled : ∀ payload q, (owner payload q).Settled q) :
    (p.process f owner).link.buffer = p.link.buffer ∧ (p.process f owner).link.reply.isSome = true := by
  refine ⟨?_, rfl⟩
  have kept := (settled f.payload (p.modLink fun l => { l with inRequest := true })).buffer
  unfold Part.process
  dsimp only
  split
  · exact (Work.wakeEvent (.refl _)).buffer.trans kept
  · exact kept

end

theorem Part.cts_iff (p : Part) : p.cts = true ↔ p.power = .running ∧ p.link.buffer.length < 4 := by
  simp only [Part.cts, Bool.and_eq_true, decide_eq_true_eq]
  exact Iff.rfl

/-- Settles O9: the offer and CTS by their tests, and a request by whether the link is free. -/
theorem requestBuffer : Obligations.RequestBuffer := by
  refine ⟨fun f l => rfl, Part.cts_iff, fun c f s wf frame quiet => ?_, fun _ _ => rfl⟩
  rw [exec_request wf frame]
  refine ⟨request_busy quiet, fun rest free first => ?_⟩
  exact ⟨_, request_first quiet free first, Part.process_link (answerOf_settled c)⟩

end Sys2Proof.Machine
end

section
/-!
PROOFS. The transmitter (R194) and the notice queue (R195): which frame goes out, and what a notice does to the queue.
-/
namespace Sys2Proof.Machine

section
variable {l : Link}

/-! ### The frame that goes out (R194, R200) -/

theorem Link.transmitNotice_free {n : Notice} {rest : List QueuedNotice} (first : l.notices = ⟨n, false⟩ :: rest) :
    l.transmitNotice = { l with tx := some (.notice n (frameBytes (n.frame l.lost))), notices := rest, lost := 0 } := by
  simp [Link.transmitNotice, first]

theorem Link.transmitNotice_held {n : Notice} {rest : List QueuedNotice} (first : l.notices = ⟨n, true⟩ :: rest) :
    l.transmitNotice = l := by
  simp [Link.transmitNotice, first]

theorem Link.transmit_busy (busy : l.tx.isSome = true) : l.transmit = l := by
  obtain ⟨sending, tx⟩ := Option.isSome_iff_exists.1 busy
  simp [Link.transmit, tx]

theorem Link.transmit_noReply (idle : l.tx = none) (none : l.reply = none) : l.transmit = l.transmitNotice := by
  simp [Link.transmit, idle, none]

theorem Link.transmit_reply {r : Reply} (idle : l.tx = none) (reply : l.reply = some r) :
    l.transmit =
      if l.startedWaits then l.transmitNotice else { l with tx := some (.reply r (frameBytes r.frame)), reply := none } := by
  simp [Link.transmit, idle, reply]

/-- STARTED waits when it stands first in the queue (R200). -/
theorem Link.startedWaits_iff : l.startedWaits = true ↔ ∃ n rest, l.notices = n :: rest ∧ n.notice.kind = 0x40 := by
  unfold Link.startedWaits
  cases l.notices <;> simp [Notice.isStarted]

/-- STARTED goes out before a reply that waits (R200, log 43), and any other notice when no reply waits. -/
theorem Link.transmit_notice {n : Notice} {rest : List QueuedNotice} (idle : l.tx = none)
    (goes : l.reply = none ∨ n.kind = 0x40) (first : l.notices = ⟨n, false⟩ :: rest) :
    l.transmit = { l with tx := some (.notice n (frameBytes (n.frame l.lost))), notices := rest, lost := 0 } := by
  rw [← Link.transmitNotice_free first]
  cases reply : l.reply with
  | none => exact Link.transmit_noReply idle reply
  | some r =>
    rw [reply] at goes
    have started : n.kind = 0x40 := goes.resolve_left (Option.some_ne_none r)
    rw [Link.transmit_reply idle reply, if_pos (Link.startedWaits_iff.2 ⟨_, _, first, started⟩)]

end

section
variable {s : State}

theorem exec_transmitFrameStart (quiet : s.part.Quiet) : exec .transmitFrameStart s = s.withLink s.part.link.transmit :=
  onLink_quiet quiet _

theorem exec_transmitFrameDone (quiet : s.part.Quiet) : exec .transmitFrameDone s = s.to s.part.frameSent :=
  onPart_whenRunning quiet _

end

theorem Part.frameSent_reply {p : Part} {r : Reply} {bytes : List Byte} (tx : p.link.tx = some (.reply r bytes)) :
    p.frameSent = if r.resets then Part.heldReset .request p.link.baud else p.modLink Link.replySent := by
  simp only [Part.frameSent, tx]
  rfl

theorem Part.frameSent_notice {p : Part} {n : Notice} {bytes : List Byte} (tx : p.link.tx = some (.notice n bytes)) :
    p.frameSent = p.modLink Link.noticeSent := by
  simp only [Part.frameSent, tx]

/-- Settles O10, by what the transmitter finds. -/
theorem transmitterSendsFrames : Obligations.TransmitterSendsFrames := by
  intro s quiet
  rw [exec_transmitFrameStart quiet, exec_transmitFrameDone quiet]
  refine ⟨fun r idle reply other => ?_, fun n rest idle goes first => ?_, fun n rest idle none first => ?_, fun busy => ?_,
    fun r bytes tx stays => ?_, fun n bytes tx => ?_⟩
  · have noStarted : ¬s.part.link.startedWaits = true := fun waits =>
      have ⟨n, rest, first, started⟩ := Link.startedWaits_iff.1 waits
      other n rest first started
    rw [Link.transmit_reply idle reply, if_neg noStarted]
  · rw [Link.transmit_notice idle goes first]
  · rw [Link.transmit_noReply idle none, Link.transmitNotice_held first]
    rfl
  · rw [Link.transmit_busy busy]
    rfl
  · rw [Part.frameSent_reply tx, if_neg (ne_true_of_eq_false stays)]
    rfl
  · rw [Part.frameSent_notice tx]
    rfl

/-! ### The notice queue (R195) -/

section
variable {l : Link} {n : Notice}

theorem Link.notify_queued (enabled : l.enabled n = true) (room : l.notices.length < 32) :
    l.notify n =
      { l with notices := l.notices ++ [⟨n, l.inRequest⟩], highWater := max l.highWater (l.notices.length + 1) } := by
  unfold Link.notify
  rw [if_pos enabled]
  exact if_pos room

theorem Link.notify_dropped (enabled : l.enabled n = true) (full : 32 ≤ l.notices.length) :
    l.notify n =
      { l with
        lost := countUpTo 255 l.lost
        stats := { l.stats with noticesDropped := countUpTo 65535 l.stats.noticesDropped } } := by
  unfold Link.notify
  rw [if_pos enabled]
  exact if_neg (Nat.not_lt_of_le full)

theorem Link.notify_masked (masked : l.enabled n = false) : l.notify n = l := if_neg (ne_true_of_eq_false masked)

end

/-- Settles O11: the queue by its room and the mask, and the transmission of its oldest notice. -/
theorem noticeQueue : Obligations.NoticeQueue := by
  refine ⟨fun n l => ⟨Link.notify_queued, Link.notify_dropped, Link.notify_masked⟩,
    fun s n rest quiet idle none first => ?_, fun _ _ => ⟨rfl, rfl⟩⟩
  have sent := exec_transmitFrameStart quiet
  rw [Link.transmit_notice idle (.inl none) first] at sent
  exact ⟨_, _, sent, rfl, rfl, rfl, rfl, rfl⟩

end Sys2Proof.Machine
end

section
/-!
PROOFS. The requests of the link interface: PING and GET_INFO (R198), GET_STATS (R197), SET_NOTICES (R196) and DEVICE_RESET (R199).
-/
namespace Sys2Proof.Machine

section
variable {s : State} (ready : s.part.Ready) (tag : Byte)
include ready

theorem exec_ping {payload : List Byte} (short : payload.length ≤ 249) :
    exec (.ping tag payload) s = s.accepts 0x81 tag payload s.part.taken :=
  request_accepts (f := ⟨0x01, tag, payload⟩) (owner := answerPing) ready (if_pos short)

theorem exec_getInfo :
    exec (.getInfo tag []) s =
      s.accepts 0x82 tag
        (u16 0x6408 ++ u8 1 ++ u8 s.part.link.baud.toNat ++ u8 s.part.link.resetCause.ctorIdx ++ u8 4 ++ u8 32) s.part.taken :=
  request_accepts (f := ⟨0x02, tag, []⟩) (owner := answerGetInfo) ready (readThen_ok readNothing_nil)

theorem exec_getStats_keep :
    exec (.getStats tag [1]) s = s.accepts 0x83 tag s.part.taken.link.statsReply s.part.taken :=
  request_accepts (f := ⟨0x03, tag, [1]⟩) (owner := answerGetStats) ready rfl

theorem exec_getStats_clear :
    exec (.getStats tag [0]) s =
      s.accepts 0x83 tag s.part.taken.link.statsReply
        (s.part.taken.modLink fun l => { l with stats := .reset, highWater := 0 }) :=
  request_accepts (f := ⟨0x03, tag, [0]⟩) (owner := answerGetStats) ready rfl

theorem exec_getStats_badChoice {n : Nat} (gt : 1 < n) (h : n < 256) :
    exec (.getStats tag (u8 n)) s = s.refuses 0x83 tag 0x03 := by
  refine request_refuses (f := ⟨0x03, tag, u8 n⟩) (owner := answerGetStats) (status := .badArg) ready
    ((readThen_ok (readByte_last h)).trans ?_)
  rw [flag?_of_gt gt]
  rfl

theorem exec_setNotices {mask : Nat} (h : mask < 2 ^ 32) :
    exec (.setNotices tag (u32 mask)) s =
      if mask < 2 ^ 18 then
        s.acceptsWaking 0x85 tag [] (s.part.taken.modLink fun l => { l with mask := BitVec.ofNat 32 mask ||| 1 })
      else s.refuses 0x85 tag 0x03 := by
  have read : readQuad (u32 mask) = .ok (mask, []) := by simpa using readQuad_u32 h []
  show onPart (Part.request ⟨0x05, tag, u32 mask⟩ answerSetNotices) s = _
  split
  · rename_i low
    exact request_acceptsWaking ready ((readThen_ok read).trans (if_pos low))
  · rename_i high
    exact request_refuses (status := .badArg) ready ((readThen_ok read).trans (if_neg high))

theorem exec_deviceReset :
    exec (.deviceReset tag []) s =
      s.to (s.part.taken.modLink fun l =>
        { l with inRequest := false, reply := some ⟨⟨0x84, tag, [0x00]⟩, false, true⟩ }) := by
  show onPart (Part.request ⟨0x04, tag, []⟩ answerDeviceReset) s = _
  unfold onPart
  rw [ready.request]
  rfl

end

theorem u8_baud (b : BitVec 2) : u8 b.toNat = [b.setWidth 8] :=
  congrArg (fun c : Byte => [c]) (BitVec.eq_of_toNat_eq (by simp))

/-- Settles O12. -/
theorem pingAndInfo : Obligations.PingAndInfo := by
  intro s tag ready
  refine ⟨fun payload => exec_ping ready tag, ?_⟩
  rw [exec_getInfo ready tag, u8_baud]
  cases s.part.link.resetCause <;> rfl

/-- The ten statistics in the order of R197. -/
theorem Link.statsReply_eq (l : Link) :
    l.statsReply = l.stats.counters.flatMap u16 ++ u8 l.notices.length ++ u8 l.highWater ++ u8 l.lost := by
  simp [Link.statsReply, Stats.fields, Stats.counters]

/-- Settles O13. -/
theorem statsAndMask : Obligations.StatsAndMask := by
  intro s tag ready
  refine ⟨?_, fun mask => exec_setNotices ready tag⟩
  dsimp only
  rw [← Link.statsReply_eq]
  exact ⟨exec_getStats_keep ready tag, exec_getStats_clear ready tag, fun n => exec_getStats_badChoice ready tag⟩

end Sys2Proof.Machine
end

section
/-!
PROOFS. Device reset (R199): how it begins and ends, and the values that each block holds after it (R200).
-/
namespace Sys2Proof.Machine

/-! ### The events of reset (R199) -/

theorem Part.pinReset_running {p : Part} (running : p.power = .running) (becomesPin : Bool) :
    p.pinReset becomesPin = Part.heldReset .pin p.link.baud := by
  simp only [Part.pinReset, running]
  rfl

/-- A power-on or pin reset keeps its cause. -/
theorem Part.pinReset_keeps {p : Part} (held : p.power = .held .powerOn ∨ p.power = .held .pin) (becomesPin : Bool) :
    p.pinReset becomesPin = p := by
  rcases held with held | held <;> simp only [Part.pinReset, held]

theorem Part.pinReset_request {p : Part} (held : p.power = .held .request) (becomesPin : Bool) :
    p.pinReset becomesPin = if becomesPin then Part.heldReset .pin p.link.baud else p := by
  simp only [Part.pinReset, held]
  rfl

theorem Part.endReset_held {p : Part} {cause : ResetCause} (held : p.power = .held cause) (straps : BitVec 2) :
    Part.endReset straps p = Part.reset cause straps := by
  simp only [Part.endReset, held]

/-- RESET_N going low, when no request reset is in progress. -/
theorem exec_resetNLow {s : State} (other : s.part.power ≠ .held .request) :
    exec .resetNLow s = s.to (s.part.pinReset (Config.pinDuringRequestReset s.draws)) := by
  show execResetNLow s = _
  unfold execResetNLow
  rw [if_neg other]
  rfl

/-- Settles O14: each event by the part's power, and a request reset by both values of the free value (log 11). -/
theorem resetEvents : Obligations.ResetEvents := by
  refine ⟨fun s tag ready => exec_deviceReset ready tag, fun s r bytes quiet tx resets => ?_, fun _ => rfl,
    fun s running => ?_, fun s held => ?_, fun s held => ?_, fun s cause straps held => ?_, fun _ _ => ⟨rfl, rfl, rfl, rfl, rfl⟩⟩
  · rw [exec_transmitFrameDone quiet, Part.frameSent_reply tx, if_pos resets]
  · rw [exec_resetNLow (by simp [running]), Part.pinReset_running running]
  · rw [exec_resetNLow (by rcases held with held | held <;> simp [held]), Part.pinReset_keeps held]
    rfl
  · refine ⟨_, rfl, rfl, ?_⟩
    show s.part.pinReset _ = s.part ∨ s.part.pinReset _ = _
    rw [Part.pinReset_request held]
    cases Config.pinDuringRequestReset s.draws
    · exact .inl rfl
    · exact .inr rfl
  · exact congrArg s.to (Part.endReset_held held straps)

/-! ### The values after device reset (R200) -/

theorem Link.reset_enabled (cause : ResetCause) (straps : BitVec 2) (n : Notice) : (Link.reset cause straps).enabled n = true := by
  have flags : ∀ k : Fin 18, Config.allNotices.getLsbD k = true := by decide
  have kind : n.kind - 0x40 < 18 := by cases n <;> simp [Notice.kind]
  exact flags ⟨_, kind⟩

/-- A chain after device reset: TRAINING at attempt 1, with its settings and nothing listed or assigned (R160, R161, R162, R170,
R176). -/
theorem ChainCtl.reset_values :
    let k := ChainCtl.reset
    k.state = .training ∧ k.cause = .reset ∧ k.attempt = 1 ∧ k.settings = ⟨true, 2, 3, 7, 2, 3⟩ ∧ k.pairs = none ∧
      k.degraded = false ∧ k.overlength = false ∧ k.found = 0 ∧ k.failureRun = 0 ∧ k.rate = .normal ∧ k.items = [] ∧
      k.stale = [] ∧ k.broadcast = none ∧ k.exchange = none ∧ k.retryCounter = 0 ∧ k.rollover = false ∧ k.pointer = 0 ∧
      (∀ s ∈ k.seats, s.fault = false ∧ s.toggle = false) ∧ ∀ l ∈ k.lanes, l.assigned = none ∧ l.transmitting = [] := by
  have seats : ∀ s ∈ ChainCtl.reset.seats, s.fault = false ∧ s.toggle = false := fun s mem =>
    List.eq_of_mem_replicate mem ▸ ⟨rfl, rfl⟩
  have lanes : ∀ l ∈ ChainCtl.reset.lanes, l.assigned = none ∧ l.transmitting = [] := fun l mem =>
    List.eq_of_mem_replicate mem ▸ ⟨rfl, rfl⟩
  exact ⟨rfl, rfl, rfl, rfl, rfl, rfl, rfl, rfl, rfl, rfl, rfl, rfl, rfl, rfl, rfl, rfl, rfl, seats, lanes⟩

section
variable (cause : ResetCause) (straps : BitVec 2)

theorem Part.reset_seat (x : Seat) : (Part.reset cause straps).seat x = SeatRec.reset :=
  List.getD_replicate _ x.isLt

theorem Part.reset_chain (c : Chain) : (Part.reset cause straps).chain c = ChainCtl.reset := by
  cases c <;> rfl

end

/-- Settles O15: each value as its block's reset record gives it, and a list of equal records entry by entry. -/
theorem valuesAfterReset : Obligations.ValuesAfterReset := by
  intro cause straps
  dsimp only
  simp only [Part.reset_seat, Part.reset_chain]
  have counters : ∀ n ∈ Stats.reset.counters, n = 0 := by decide
  have zones : ∀ z ∈ (Part.reset cause straps).zones, z = none := fun _ => List.eq_of_mem_replicate
  have onsets : ∀ n ∈ Floor.reset.onsets, n = 0 := fun _ => List.eq_of_mem_replicate
  have channels : ∀ ch ∈ Mixer.reset.channels, ch = none := fun _ => List.eq_of_mem_replicate
  have ducks : ∀ n ∈ Mixer.reset.ducks, n = 0 := fun _ => List.eq_of_mem_replicate
  have loud : ∀ l ∈ Mixer.reset.loud, l = .normal := fun _ => List.eq_of_mem_replicate
  have presets : ∀ k ∈ Director.reset.current, k = none := fun _ => List.eq_of_mem_replicate
  exact
    ⟨rfl, rfl, rfl, rfl, rfl, rfl, counters, rfl, rfl, Link.reset_enabled cause straps, rfl,
      rfl, rfl, rfl, rfl, rfl, rfl, rfl, rfl, rfl, rfl,
      rfl, rfl, rfl, rfl, rfl, onsets, rfl, rfl, rfl, rfl,
      fun _ => ⟨rfl, rfl, rfl, rfl⟩, zones, channels, rfl, rfl, rfl, rfl, rfl, ducks, loud,
      presets, rfl, rfl, rfl, rfl, rfl, rfl, rfl, rfl, rfl, rfl,
      rfl, rfl, rfl, rfl, rfl, rfl, rfl, rfl, rfl, rfl, rfl, rfl,
      fun _ => ChainCtl.reset_values⟩

/-- Settles O59: each block's reset values lie within its bounds. -/
theorem resetIsSafe : Obligations.ResetIsSafe := by
  have safe (cause : ResetCause) (straps : BitVec 2) (pending : List Instr) (draws : Nat) :
      (⟨Part.reset cause straps, pending, draws⟩ : State).Safe :=
    have reset := Part.reset_safe cause straps
    ⟨reset.link, reset.floor, reset.blocks⟩
  exact ⟨safe .powerOn 0 [] 0, safe⟩

end Sys2Proof.Machine
end

section
/-!
PROOFS. A step by the queue of waiting commands: the command at its front runs, and an empty queue idles (log 3).
-/
namespace Sys2Proof.Machine

theorem step_of_pending_nil {s : State} (empty : s.pending = []) : step s = .next s := by
  rw [step, empty]

theorem step_of_pending_cons {s : State} {c : Instr} {rest : List Instr} (front : s.pending = c :: rest) :
    step s = exec c { s with pending := rest } := by
  rw [step, front]

/-- Settles O1, by the two cases of the queue. -/
theorem stepRunsFrontCommand : Obligations.StepRunsFrontCommand :=
  ⟨fun _ _ _ => step_of_pending_cons rfl, fun _ => step_of_pending_nil⟩

end Sys2Proof.Machine
end
